-- ==== Sys2Proof/Word.lean ====
section
/-! DEFINITION. Word.lean: the widths the spec names (03 R48, R50, R51, R66; 04 R69), as bit vectors. -/

namespace Sys2Proof

/-- One lane's 32-bit container (05 R89); also one instruction word (03 R48). -/
abbrev Word := BitVec 32

/-- A 64-bit uniform value, a program counter or a pointer (03 R48, 08 R157). -/
abbrev Dword := BitVec 64

/-- One bit for each of a crew's 32 lanes, bit `i` for lane `i` (04 R68). -/
abbrev Mask := BitVec 32

/-- A byte of storage. -/
abbrev Byte := BitVec 8

/-- A 7-bit vector register code of a D, A, B or O field (03 R50). -/
abbrev Reg := BitVec 7

/-- A 4-bit k or g register index (03 R51). -/
abbrev KReg := BitVec 4

/-- A 3-bit m or j register index (03 R51). -/
abbrev MReg := BitVec 3

end Sys2Proof
end

