-- ==== Sys2Proof/Config.lean ====
section
/-! DEFINITION. Config.lean: what an implementation or the outside world supplies and the spec leaves open.
Every constant here is opaque: no proof can see its value. -/

namespace Sys2Proof.Config

/-- The die's noise source: draw number `n` of entropy mode (13 R229). Free value; log 20. -/
opaque entropyDraw (n : Nat) : BitVec 16

/-- What byte number `n` of a read holds that the spec leaves unpredictable (22 R329: device memory after step 3;
01 R10: words of a changed image). Free value; log 21. -/
opaque freeByte (n : Nat) : BitVec 8

/-- What the device byte at key `k` holds after start number `gen` of those that have trained HBM (22 R329: unpredictable). Free value;
log 21. -/
opaque freeContents (gen k : Nat) : BitVec 8

/-- The Ed25519 signature that answers a quote (22 R332), as a number; the private key never leaves the part. Log 22. -/
opaque signEd25519 (digest : Nat) : Nat

/-- The ML-DSA-65 signature that answers a quote (22 R332), as a number. Log 22. -/
opaque signMlDsa65 (digest : Nat) : Nat

/-- The SHA-384 digest of an attestation log of bytes (22 R332; the spec names the function and not its text). Log 22. -/
opaque sha384 (bytes : List (BitVec 8)) : BitVec 384

/-- CTXNEED of a function in a partition of these clusters (18 R285: the implementation's own figure). Log 23. -/
opaque ctxNeed (fn : Nat) (clusters : BitVec 64) : Nat

end Sys2Proof.Config
end

