-- ==== Sys2Proof/Syntax.lean ====
section
/-! DEFINITION. Syntax.lean: the instructions of the Barael words, the two lode words and the steps of the device
(spec/opcode_table.json), one constructor a row. Register fields keep their raw codes; a selector that R60 leaves
unassigned values for is an inductive type of its assigned values. -/

namespace Sys2Proof

/-- FN of IADD and ISUB (R91). -/
inductive SatMode where | wrap | sat | usat | p64
  deriving DecidableEq, Repr

/-- FN of IMUL (R91). -/
inductive MulMode where | low | hi | hiu | p64
  deriving DecidableEq, Repr

/-- FN of IDIV (R91). -/
inductive DivMode where | quot | uquot | rem | urem
  deriving DecidableEq, Repr

/-- The condition of ICMP and ICMPI (R94). -/
inductive ICond where | eq | ne | lt | ge | ltu | geu | tst | ntst
  deriving DecidableEq, Repr

/-- A rounding mode (R60 row 0x20, R118). -/
inductive Rnd where | rne | rtz | rup | rdn
  deriving DecidableEq, Repr

/-- The kind of VOTE (R103). -/
inductive VoteKind where | any | all | ballot
  deriving DecidableEq, Repr

/-- The kind of REDUCE and SCAN (R104). -/
inductive RedKind where | add | min | max | and | or | xor | fadd | fmin | fmax
  deriving DecidableEq, Repr

/-- A scope (R238). -/
inductive Scope where | crew | gang | core | cluster | die | pkg | sys
  deriving DecidableEq, Repr

/-- The destination of HOIST: scratchpad, an A buffer or a weight half (SUB 0 to 6 of major 0x64). -/
inductive HoistDst where | scratch | a0 | a1 | a2 | a3 | w0 | w1
  deriving DecidableEq, Repr

/-- The mode of a weight half (SUB of MXWB, WMODE of R140). -/
inductive WMode where | dense | s24 | s48 | bitmap
  deriving DecidableEq, Repr

/-- The second operand of a uniform instruction (R99): a k register or the 5-bit immediate. -/
inductive KSrc where | reg (k : KReg) | imm (i : BitVec 5)
  deriving DecidableEq, Repr

/-- What an incoming Holmir request asks for (22 R325). -/
inductive RemoteOp where
  /-- A read of `width` bits. -/
  | read
  /-- A write of `data`. -/
  | write (data : Nat)
  /-- An atomic: the mnemonic's code 0 to 7 in the order of majors 0x45 to 0x4C, its format code, operand and new value. -/
  | atomic (op fmt opnd new : Nat)
  /-- A reservation of `count` slots by remote producer `prod` of the queue with handle `h` (15 R262), to which the asking
  node gives the number `tag`; with `nb` it is granted at once or not at all. -/
  | reserve (h : Dword) (prod : Nat) (nb : Bool) (count tag : Nat)
  /-- The records, each a list of words, of a reservation that has been granted. -/
  | enq (h : Dword) (prod tag : Nat) (recs : List (List Word))
  /-- A reservation is withdrawn (15 R262, R265). -/
  | withdraw (h : Dword) (tag : Nat)
  /-- A registration as the next producer of the queue with handle `h` (15 R260). -/
  | qopen (h : Dword)
  /-- Whether a handle names a queue that the asking node may reach (15 R259). -/
  | qtest (h : Dword)
  /-- The close of producer `prod` of the queue with handle `h` (15 R261). -/
  | qclose (h : Dword) (prod : Nat)
  deriving DecidableEq, Repr

/-- An incoming Holmir request: source node, device physical bit address, width in bits and operation. -/
structure RemoteReq where
  node : Nat
  addr : Nat
  width : Nat
  /-- The pieces of the element after its first, where it crosses a page: (bit address, bits). -/
  more : List (Nat × Nat)
  op : RemoteOp
  deriving DecidableEq, Repr

/-- An answer to an outstanding request (18 R287): the bits read (a producer index, or the status of an ENQ), a refusal or an
error of the host, or a word that cannot be corrected (08 R162). -/
inductive RemoteAns where
  | data (bits : Nat)
  | refused
  | uncorrectable
  deriving DecidableEq, Repr

/-- What the outside world decides of one start (22 R328 to R330): what step fails (with REASON), whether the retained HBM values
may be used, the security versions of the image and of the configuration record, and what that record sets. -/
structure StartEnv where
  /-- A step that fails for a reason of the outside world, and the REASON code it leaves. -/
  failAt : Option (Nat × Nat)
  /-- Every stack lies within 10 degrees of its training temperature. -/
  hbmRetained : Bool
  /-- NODE, PLIMIT and MINSVN of the configuration record. -/
  node : BitVec 12
  plimit : Nat
  minsvn : Nat
  /-- The images of the slot: security version and SHA-384 hash. -/
  images : List (Nat × BitVec 384)
  /-- Security version and SHA-384 hash of the configuration record. -/
  configVersion : Nat
  configHash : BitVec 384
  deriving DecidableEq, Repr

/-- One row of spec/opcode_table.json a constructor. -/
inductive Instr where
  /-- IADD (R91): Integer add per lane, in wrap, signed-saturate, unsigned-saturate or 64-bit pair form chosen by FN. -/
  | iadd (d a b : Reg) (nw : Bool) (fn : SatMode)
  /-- ISUB (R91): Integer subtract per lane, with the FN forms of IADD. -/
  | isub (d a b : Reg) (nw : Bool) (fn : SatMode)
  /-- IMUL (R91): Integer multiply per lane, giving the low word, the high word signed or unsigned, or a 64-bit pair. -/
  | imul (d a b : Reg) (nw : Bool) (fn : MulMode)
  /-- IMAD (R91): Integer multiply-add per lane, modulo 2^32, with D read as the addend. -/
  | imad (d a b : Reg) (nw : Bool)
  /-- IDIV (R91): Integer quotient or remainder per lane, signed or unsigned; division by zero raises no trap. -/
  | idiv (d a b : Reg) (nw : Bool) (fn : DivMode)
  /-- IMIN (R91): Per-lane integer minimum, with signedness taken from the format tags. -/
  | imin (d a b : Reg) (nw : Bool)
  /-- IMAX (R91): Per-lane integer maximum, with signedness taken from the format tags. -/
  | imax (d a b : Reg) (nw : Bool)
  /-- AND (R92): Bitwise AND per lane. -/
  | and (d a b : Reg) (nw : Bool)
  /-- OR (R92): Bitwise OR per lane. -/
  | or (d a b : Reg) (nw : Bool)
  /-- XOR (R92): Bitwise XOR per lane. -/
  | xor (d a b : Reg) (nw : Bool)
  /-- ANDN (R92): a AND NOT b per lane. -/
  | andn (d a b : Reg) (nw : Bool)
  /-- ORN (R92): a OR NOT b per lane. -/
  | orn (d a b : Reg) (nw : Bool)
  /-- XNOR (R92): NOT (a XOR b) per lane. -/
  | xnor (d a b : Reg) (nw : Bool)
  /-- SHL (R92): Logical left shift per lane; a count of 32 or more gives 0. -/
  | shl (d a b : Reg) (nw : Bool)
  /-- SHR (R92): Logical right shift per lane. -/
  | shr (d a b : Reg) (nw : Bool)
  /-- SAR (R92): Arithmetic right shift per lane, tagged I32. -/
  | sar (d a b : Reg) (nw : Bool)
  /-- ROL (R92): Rotate left per lane by the count mod 32. -/
  | rol (d a b : Reg) (nw : Bool)
  /-- ROR (R92): Rotate right per lane by the count mod 32. -/
  | ror (d a b : Reg) (nw : Bool)
  /-- POPC (R92): Population count of the 32-bit container per lane. -/
  | popc (d a : Reg) (nw : Bool)
  /-- CLZ (R92): Count of leading zeros per lane, 32 for zero. -/
  | clz (d a : Reg) (nw : Bool)
  /-- CTZ (R92): Count of trailing zeros per lane, 32 for zero. -/
  | ctz (d a : Reg) (nw : Bool)
  /-- BREV (R92): Bit reversal of the 32-bit container per lane. -/
  | brev (d a : Reg) (nw : Bool)
  /-- BFX (R93): Bit-field extract per lane, zero- or sign-extending as FN selects. -/
  | bfx (d a b : Reg) (nw : Bool) (signed : Bool)
  /-- BFI (R93): Bit-field insert of a's low bits into D per lane. -/
  | bfi (d a b : Reg) (nw : Bool)
  /-- ICMP (R94): Integer compare per lane, setting or clearing each group lane's bit of a mask. -/
  | icmp (cond : ICond) (m : MReg) (a b : Reg)
  /-- SEL (R94): Per-lane select between a and b by a selecting mask. -/
  | sel (d a b : Reg) (nw : Bool) (m : MReg)
  /-- MOV (R95): Copy a register's value and tags. -/
  | mov (d a : Reg) (nw : Bool)
  /-- RETAG (R95): Re-extend a value to a target format and retag it. -/
  | retag (d a : Reg) (fmt : BitVec 7) (nw : Bool)
  /-- SHAPEQ (R95): Write the shape tag of a source. -/
  | shapeq (d a : Reg) (nw : Bool)
  /-- FMTQ (R95): Write the format tag of a source. -/
  | fmtq (d a : Reg) (nw : Bool)
  /-- IADDI (R96): Integer add of a sign-extended immediate. -/
  | iaddi (d a : Reg) (imm : BitVec 11)
  /-- ANDI (R96): Bitwise AND with a sign-extended immediate. -/
  | andi (d a : Reg) (imm : BitVec 11)
  /-- ORI (R96): Bitwise OR with a sign-extended immediate. -/
  | ori (d a : Reg) (imm : BitVec 11)
  /-- XORI (R96): Bitwise XOR with a sign-extended immediate. -/
  | xori (d a : Reg) (imm : BitVec 11)
  /-- SHLI (R96): Logical left shift by an immediate count. -/
  | shli (d a : Reg) (count : BitVec 6)
  /-- SHRI (R96): Logical right shift by an immediate count. -/
  | shri (d a : Reg) (count : BitVec 6)
  /-- SARI (R96): Arithmetic right shift by an immediate count. -/
  | sari (d a : Reg) (count : BitVec 6)
  /-- ICMPI (R94): Integer compare against an immediate, writing a mask. -/
  | icmpi (cond : ICond) (m : MReg) (a : Reg) (imm : BitVec 11)
  /-- MOVI (R96): Write a sign-extended 18-bit immediate, tagged I32. -/
  | movi (d : Reg) (imm : BitVec 18)
  /-- MOVHI (R96): Write an 18-bit immediate into bits 31:14, keeping D's low 14 bits. -/
  | movhi (d : Reg) (imm : BitVec 18)
  /-- PADD (R97): Add a scaled element offset to a bit pointer, keeping its space. -/
  | padd (d a b : Reg) (w : BitVec 4)
  /-- PDIFF (R97): Element difference of two pointers of one space. -/
  | pdiff (d a b : Reg) (w : BitVec 4)
  /-- PALIGN (R97): Round a pointer down to a multiple of the element width. -/
  | palign (d a : Reg) (w : BitVec 4)
  /-- PSPACE (R98): Write a pointer's space code. -/
  | pspace (d a : Reg)
  /-- PSETSP (R98): Replace a pointer's space code. -/
  | psetsp (d a b : Reg)
  /-- PCHK (R98): Classify a pointer as null, reserved, out of allocation, misaligned or good, without translating it. -/
  | pchk (d a : Reg) (w : BitVec 7)
  /-- KADD (R99): Uniform 64-bit add of a k register or an immediate. -/
  | kadd (d a : KReg) (src : KSrc)
  /-- KSUB (R99): Uniform 64-bit subtract. -/
  | ksub (d a : KReg) (src : KSrc)
  /-- KMUL (R99): Uniform 64-bit multiply. -/
  | kmul (d a : KReg) (src : KSrc)
  /-- KSHL (R99): Uniform 64-bit left shift. -/
  | kshl (d a : KReg) (src : KSrc)
  /-- KSHR (R99): Uniform 64-bit logical right shift. -/
  | kshr (d a : KReg) (src : KSrc)
  /-- KAND (R99): Uniform 64-bit AND. -/
  | kand (d a : KReg) (src : KSrc)
  /-- KOR (R99): Uniform 64-bit OR. -/
  | kor (d a : KReg) (src : KSrc)
  /-- KMOV (R99): Copy one k register to another. -/
  | kmov (d a : KReg)
  /-- KMOVI (R99): Write a sign-extended 18-bit immediate to a k register. -/
  | kmovi (d : KReg) (imm : BitVec 18)
  /-- RFAL (R100): Read a vector register in the group's lowest lane into a k register. -/
  | rfal (d : KReg) (a : Reg)
  /-- KTOV (R100): Write a k register to a vector register in a given format. -/
  | ktov (d : Reg) (k : KReg) (fmt : BitVec 7)
  /-- KPOP (R100): Pop all 64 bits of the chute head into a k register. -/
  | kpop (d : KReg)
  /-- KRDLANE (R100): Read a vector register in a named lane into a k register. -/
  | krdlane (d : KReg) (a : Reg) (lane : BitVec 5)
  /-- WINBASE (R54): Move the crew's register window to an immediate base and clear LHIST. -/
  | winbase (n : BitVec 5)
  /-- WINBASE_K (R54): Move the crew's register window to a base held in a k register and clear LHIST. -/
  | winbaseK (k : KReg)
  /-- FADD (R133): Float add per lane, rounded once in the selected mode. -/
  | fadd (d a b : Reg) (nw : Bool) (rnd : Rnd)
  /-- FSUB (R133): Float subtract per lane, rounded once. -/
  | fsub (d a b : Reg) (nw : Bool) (rnd : Rnd)
  /-- FMUL (R133): Float multiply per lane, rounded once. -/
  | fmul (d a b : Reg) (nw : Bool) (rnd : Rnd)
  /-- FFMA (R133): Fused multiply-add per lane with D as addend, rounded once. -/
  | ffma (d a b : Reg) (nw : Bool) (rnd : Rnd)
  /-- FMIN (R134): Float minimum per lane, NaN ignored and -0 below +0. -/
  | fmin (d a b : Reg) (nw : Bool)
  /-- FMAX (R134): Float maximum per lane. -/
  | fmax (d a b : Reg) (nw : Bool)
  /-- FCMP (R135): Float compare per lane, writing a mask. -/
  | fcmp (cond : BitVec 3) (m : MReg) (a b : Reg)
  /-- FRCP (R136): Reciprocal in F32, correctly rounded. -/
  | frcp (d a : Reg) (nw : Bool)
  /-- FRSQ (R136): Reciprocal square root in F32. -/
  | frsq (d a : Reg) (nw : Bool)
  /-- FEXP2 (R136): Base-2 exponential in F32. -/
  | fexp2 (d a : Reg) (nw : Bool)
  /-- FLOG2 (R136): Base-2 logarithm in F32. -/
  | flog2 (d a : Reg) (nw : Bool)
  /-- FTANH (R136): Hyperbolic tangent in F32. -/
  | ftanh (d a : Reg) (nw : Bool)
  /-- FSIG (R136): Logistic sigmoid in F32. -/
  | fsig (d a : Reg) (nw : Bool)
  /-- FCVT (R137): Convert a value to the format named in B by R124. -/
  | fcvt (d a : Reg) (fmt : BitVec 7) (nw : Bool) (rnd : Rnd)
  /-- FABS (R139): Clear the sign of a float value. -/
  | fabs (d a : Reg) (nw : Bool)
  /-- FNEG (R139): Invert the sign of a float value. -/
  | fneg (d a : Reg) (nw : Bool)
  /-- I2F (R138): Convert an integer to F32. -/
  | i2f (d a : Reg) (nw : Bool) (rnd : Rnd)
  /-- F2I (R138): Convert a float to I32 or N32. -/
  | f2i (d a : Reg) (unsigned : Bool) (nw : Bool) (rnd : Rnd)
  /-- SHFLI (R102): Cross-lane shuffle from an indexed lane. -/
  | shfli (d a b : Reg) (nw : Bool) (m : MReg)
  /-- SHFLU (R102): Cross-lane shuffle from a lower lane. -/
  | shflu (d a b : Reg) (nw : Bool) (m : MReg)
  /-- SHFLD (R102): Cross-lane shuffle from a higher lane. -/
  | shfld (d a b : Reg) (nw : Bool) (m : MReg)
  /-- SHFLX (R102): Cross-lane shuffle by XOR of the lane index. -/
  | shflx (d a b : Reg) (nw : Bool) (m : MReg)
  /-- VOTE (R103): Cross-lane any, all or ballot vote over the member mask. -/
  | vote (d a : Reg) (kind : VoteKind) (nw : Bool) (m : MReg)
  /-- REDUCE (R104): Cross-lane reduction over the member lanes, with the float add in a fixed tree. -/
  | reduce (d a : Reg) (kind : RedKind) (nw : Bool) (m : MReg)
  /-- REDMINIDX (R105): Lane number of the least member value, lower lane on ties. -/
  | redminidx (d a : Reg) (nw : Bool) (m : MReg)
  /-- SCAN (R104): Inclusive cross-lane scan in ascending lane order. -/
  | scan (d a : Reg) (kind : RedKind) (nw : Bool) (m : MReg)
  /-- BRA (R106): Conditional branch of each lane by its mask bit XOR NEG. -/
  | bra (p : MReg) (neg : Bool) (off : BitVec 21)
  /-- CALL (R106): Call: write k15 and send every lane to the target. -/
  | call (off : BitVec 21)
  /-- BRX (R106): Branch the group to the address in a k register. -/
  | brx (k : KReg)
  /-- JSET (R78): Name the group's lanes as the awaited set of a rejoin register with its target. -/
  | jset (j : MReg) (off : BitVec 21)
  /-- JWAIT (R78): Hold the group's lanes at a rejoin register until the awaited set has arrived. -/
  | jwait (j : MReg)
  /-- NOP (R107): Advance the group's PC only. -/
  | nop
  /-- EXIT (R80): End the group's lanes, returning slices and ending the crew when all have exited. -/
  | exit
  /-- YIELD (R107): Advance the group and reset the crew's last-issue time so another crew of its class goes first. -/
  | yield
  /-- RET (R106): Branch the group to k15. -/
  | ret
  /-- REPACK (R86): Gang-collective arrival that regroups the gang's threads by key once all live threads have arrived. -/
  | repack (d a : Reg)
  /-- MAND (R109): AND of two masks over the group's lanes. -/
  | mand (d a b : MReg)
  /-- MOR (R109): OR of two masks over the group's lanes. -/
  | mor (d a b : MReg)
  /-- MXOR (R109): XOR of two masks over the group's lanes. -/
  | mxor (d a b : MReg)
  /-- MNOT (R109): NOT of a mask over the group's lanes. -/
  | mnot (d a : MReg)
  /-- MSET (R109): Set each group lane's mask bit from a vector value being non-zero. -/
  | mset (d : MReg) (a : Reg)
  /-- MTOV (R109): Write a whole mask word to a vector register. -/
  | mtov (d : Reg) (a : MReg)
  /-- LD (R173): Load one zero-extended element per lane. -/
  | ld (d : Reg) (k : KReg) (o : Reg) (w : BitVec 4) (imm : BitVec 3)
  /-- LDS (R173): Load one sign-extended element per lane. -/
  | lds (d : Reg) (k : KReg) (o : Reg) (w : BitVec 4) (imm : BitVec 3)
  /-- ST (R174): Store one element per lane as a bit-exact masked store. -/
  | st (d : Reg) (k : KReg) (o : Reg) (w : BitVec 4) (imm : BitVec 3)
  /-- LDK (R175): Load one element into a k register. -/
  | ldk (d : KReg) (k : KReg) (o : Reg) (w : BitVec 4) (imm : BitVec 3)
  /-- STK (R175): Store one element from a k register. -/
  | stk (d : KReg) (k : KReg) (o : Reg) (w : BitVec 4) (imm : BitVec 3)
  /-- ATADD (R177): Atomic add, integer or float, returning the old value. -/
  | atadd (d : Reg) (k : KReg) (o : Reg) (w : BitVec 4) (imm : BitVec 3)
  /-- ATMIN (R177): Atomic minimum returning the old value. -/
  | atmin (d : Reg) (k : KReg) (o : Reg) (w : BitVec 4) (imm : BitVec 3)
  /-- ATMAX (R177): Atomic maximum returning the old value. -/
  | atmax (d : Reg) (k : KReg) (o : Reg) (w : BitVec 4) (imm : BitVec 3)
  /-- ATAND (R177): Atomic AND returning the old value. -/
  | atand (d : Reg) (k : KReg) (o : Reg) (w : BitVec 4) (imm : BitVec 3)
  /-- ATOR (R177): Atomic OR returning the old value. -/
  | ator (d : Reg) (k : KReg) (o : Reg) (w : BitVec 4) (imm : BitVec 3)
  /-- ATXOR (R177): Atomic XOR returning the old value. -/
  | atxor (d : Reg) (k : KReg) (o : Reg) (w : BitVec 4) (imm : BitVec 3)
  /-- ATXCH (R177): Atomic exchange returning the old value. -/
  | atxch (d : Reg) (k : KReg) (o : Reg) (w : BitVec 4) (imm : BitVec 3)
  /-- ATCAS (R177): Atomic compare-and-swap returning the old value. -/
  | atcas (d : Reg) (k : KReg) (o : Reg) (w : BitVec 4) (imm : BitVec 3)
  /-- PF (R179): Prefetch the sectors of each lane's address into the data cache, dropping failures silently. -/
  | pf (k : KReg) (o : Reg) (w : BitVec 4) (imm : BitVec 3)
  /-- PONDMK (R188): Create an empty pond and return its handle. -/
  | pondmk (h region cap par : KReg)
  /-- PONDRM (R189): Remove a pond after earlier operations, closing cursors and advancing the slot's generation. -/
  | pondrm (h : KReg)
  /-- PUT (R190): Put one record per lane into a pond in faulting or status form. -/
  | put (d : Reg) (k : KReg) (o key : Reg)
  /-- PCOUNT (R191): Read a pond's total or a basin's count at its place in inlet order. -/
  | pcount (d h : KReg) (n : BitVec 11)
  /-- DRAIN (R192): Empty a pond into one contiguous run of records. -/
  | drain (h dst count : KReg)
  /-- BASIN (R193): Open a cursor on a basin with its mark at the current count. -/
  | basin (d h : KReg) (n : BitVec 11)
  /-- BNEXT (R194): Hand out records below a cursor's mark, one per lane. -/
  | bnext (d : Reg) (k : KReg) (o : Reg) (m : MReg)
  /-- BWRITE (R195): Write records back at positions below a cursor's mark. -/
  | bwrite (d : Reg) (k : KReg) (o : Reg)
  /-- POND_OPERATION_PERFORM (R182): The inlet performs the next pond operation in inlet order and the waiting instruction writes its result. -/
  | pondOperationPerform (part slot : Nat)
  /-- DRAIN_COMPLETE (R192): The drain's copy finishes, counts reset, cursors close and its writes are released. -/
  | drainComplete (part slot : Nat)
  /-- ACQ (R253): Acquire on an object at a scope, invalidating bound lines. -/
  | acq (obj : KReg) (scope : Scope)
  /-- REL (R253): Release on an object at a scope, writing back bound dirty bits. -/
  | rel (obj : KReg) (scope : Scope)
  /-- FENCE (R254): Release and acquire of every bit at a scope, placed in the fence order. -/
  | fence (scope : Scope)
  /-- BAR (R255): Full barrier: arrive and then wait on a gang barrier. -/
  | bar (b : BitVec 3)
  /-- BAR_ARRIVE (R255): Arrive at a gang barrier without waiting. -/
  | barArrive (b : BitVec 3)
  /-- BAR_WAIT (R255): Wait for the barrier episode the lanes arrived at to complete. -/
  | barWait (b : BitVec 3)
  /-- SWAIT (R213): Wait until a sync word's generation differs from a given value. -/
  | swait (word gen : KReg)
  /-- SWARM (R213): Arm a sync word with a target and return its generation. -/
  | swarm (word target gen : KReg)
  /-- GSR (R256): Read a gang-shared register into every lane. -/
  | gsr (d : Reg) (g : KReg)
  /-- GSW (R256): Write a gang-shared register from the group's lowest lane. -/
  | gsw (g : KReg) (a : Reg)
  /-- QOPEN_MAKE (R260): Create a queue and register the crew as its first consumer. -/
  | qopenMake (h buf par : KReg)
  /-- QOPEN_CONS (R260): Register the crew as a consumer of a queue. -/
  | qopenCons (h : KReg)
  /-- QOPEN_PROD (R260): Register the crew as the next producer of a queue. -/
  | qopenProd (h : KReg)
  /-- ENQ (R262): Reserve slots and send one record per lane to a queue. -/
  | enq (d : Reg) (k : KReg) (o : Reg) (nb : Bool) (n : BitVec 4)
  /-- DEQ (R264): Take queue records for the group's lanes, freeing their slots. -/
  | deq (d : Reg) (k : KReg) (o : Reg) (nb : Bool) (n : BitVec 4)
  /-- QCLOSE (R261): End the crew's registrations on a queue. -/
  | qclose (h : KReg)
  /-- QUEUE_RECORD_ARRIVAL (R262): Records in transit enter the queue consecutively in their reserved slots. -/
  | queueRecordArrival (part slot : Nat)
  /-- PRODUCER_CLOSE_ARRIVAL (R261): A producer's close takes effect in the queue behind its earlier records. -/
  | producerCloseArrival (part slot : Nat)
  /-- SEND_STALL (R262): An ENQ whose reservation is not granted within 2^20 counted cycles withdraws and traps. -/
  | sendStall (part slot req : Nat)
  /-- HOIST (R206): Arrive at the gang's next hoist copy into scratchpad or a matrix buffer. -/
  | hoist (dstSel : HoistDst) (record dst slice bitmap : KReg)
  /-- HOISTM (R214): Arrive at a multicast hoist copy into several cores of the cluster. -/
  | hoistm (record dst slice sync : KReg) (mask : BitVec 4)
  /-- HOIST_CHUNK_COMPLETE (R209): A destination chunk is written: its bitmap bit or sync word is updated and its range departs. -/
  | hoistChunkComplete (core cmd chunk : Nat)
  /-- SEAL (R215): Compute and store the CRC seal of a layout record. -/
  | seal (record out : KReg)
  /-- CWAIT (R210): Wait until masked chunk bits of a completion bitmap word are set. -/
  | cwait (bitmap mask : KReg) (word : BitVec 5)
  /-- CTEST (R210): Read masked chunk bits of a bitmap word without waiting. -/
  | ctest (bitmap mask result : KReg) (word : BitVec 5)
  /-- SLUICE (R219): Check and post a sluice parameter block to a stack. -/
  | sluice (stack : BitVec 3) (block : KReg)
  /-- SLUICE_GROUP_COMPLETE (R220): A group of 512 elements is summed, copied or added to slots. -/
  | sluiceGroupComplete (stack block group : Nat)
  /-- RLWAIT (R202): Wait until a range is free of conflicting range locks. -/
  | rlwait (start len : KReg) (store : Bool)
  /-- MXLOOP (R144): Check and queue a loop of tile steps on an accumulator. -/
  | mxloop (sparse acc : BitVec 2) (a b count inc : KReg) (cluster : Bool) (pair : BitVec 4)
  /-- MXWB (R148): Queue a load and description of a weight half. -/
  | mxwb (mode : WMode) (src ctl len : KReg)
  /-- MXCLR (R151): Queue a clear of an accumulator, setting its issued KIND. -/
  | mxclr (cluster intKind : Bool) (acc : BitVec 2)
  /-- MXST (R152): Queue delivery of an accumulator to memory. -/
  | mxst (dst ctl stride : KReg)
  /-- MXLD (R153): Queue delivery of an accumulator into an A buffer. -/
  | mxld (ctl off : KReg)
  /-- MXWAIT (R154): Wait for the crew's earlier matrix commands and report the earliest stop. -/
  | mxwait
  /-- MXSTEP (R155): Read the step and state of the last loop on an accumulator. -/
  | mxstep (d : KReg) (acc : BitVec 2)
  /-- MATRIX_STEP (R145): The matrix engine completes one step of a loop, adding both products to every element. -/
  | matrixStep (core : Nat)
  /-- MATRIX_COMMAND_COMPLETE (R141): A queued MXCLR, MXWB, MXST or MXLD finishes running at the queue head. -/
  | matrixCommandComplete (core : Nat)
  /-- SPLOAD (R231): Queue replacement of the spring array's problem with an image. -/
  | spload (image : KReg)
  /-- SPCLAMP (R232): Clamp variables to given values. -/
  | spclamp (range values : KReg)
  /-- SPCLAMP_FREE (R232): Unclamp variables, keeping their states. -/
  | spclampFree (range : KReg)
  /-- SPCLAMP_SET (R232): Set variables' states, keeping their clamp bits. -/
  | spclampSet (range values : KReg)
  /-- SPSWEEP (R233): Queue a number of Gibbs sweeps, optionally setting BETA and clearing counts. -/
  | spsweep (count beta : KReg) (clr : Bool)
  /-- SPREAD (R234): Write variable states to memory. -/
  | spread (dst range : KReg)
  /-- SPREAD_ONES (R234): Write ones-counts to memory, optionally clearing them. -/
  | spreadOnes (dst range : KReg) (clr : Bool)
  /-- SPRING_COLOUR_UPDATE (R230): The array updates every variable of one colour; after the last colour it counts ones and advances SWEEPNO. -/
  | springColourUpdate (die : Nat)
  /-- SPRING_COMMAND_COMPLETE (R225): The array performs a queued load, clamp or read command and the waiting group gets its result. -/
  | springCommandComplete (die : Nat)
  /-- TSPAWN (R318): Create a child task with an entry, timestamp and argument. -/
  | tspawn (entry ts arg num : KReg)
  /-- TEND (R319): End the group's part in its task. -/
  | tend
  /-- TQRY (R320): Read the state of the crew's own task. -/
  | tqry (d : KReg)
  /-- TQRY_TASK (R320): Read the state of a numbered task of the launch. -/
  | tqryTask (num d : KReg)
  /-- TWAITW (R321): Wait until the task is the frontier task. -/
  | twaitw
  /-- TKINS (R267): Insert a candidate into each lane's sorted top-k list. -/
  | tkins (d a b : Reg) (k : BitVec 3)
  /-- TAPEX (R270): Decode a tape entry into ten registers. -/
  | tapex (d a : Reg)
  /-- TAPEX_TAKE (R271): Become the interpreter gang and take the earliest tape node dispatched to the core. -/
  | tapexTake (d : Reg)
  /-- TAPEX_DONE (R271): Wait for the gang's engine commands and end the taken tape node. -/
  | tapexDone (d : Reg)
  /-- TRAP (R110): Raise software cause 176 + code. -/
  | trap (code : BitVec 4)
  /-- ERET (R280): Once every handler lane has reached ERET, return them to EPC and end handler mode. -/
  | eret
  /-- SRR (R111): Read a system register into a k register. -/
  | srr (d : KReg) (r : BitVec 10)
  /-- SRW (R111): Write a k register to a system register under its access code. -/
  | srw (k : KReg) (r : BitVec 10)
  /-- LODEPC (R82): A write to LODEPC starts the gang's lode thread at a code address. -/
  | lodepc (k : KReg)
  /-- LAUNCH (R43): Release and submit a launch record to the dispatcher, returning a handle or reason. -/
  | launch (src dst : KReg)
  /-- CANCEL (R45): Cancel a launch, graph, phase or slice at its place in dispatch order. -/
  | cancel (h r : KReg)
  /-- CNTRD (R112): Read a completion counter as an acquire at system scope. -/
  | cntrd (h lo hi : KReg)
  /-- BKPT (R110): Raise BREAKPOINT with the immediate in EVAL. -/
  | bkpt (n : BitVec 5)
  /-- CYCLE (R112): Read the package cycle counter into a k register. -/
  | cycle (d : KReg)
  /-- ILLEGAL (R63): A word that always traps ILLEGAL with its code in EVAL. -/
  | illegal (code : BitVec 25)
  /-- CHPUSH (R84): Lode-core push of a tagged value into a crew's chute. -/
  | chpush (rd rs1 rs2 : BitVec 5)
  /-- LEXIT (R85): End the lode thread once its pushes have reached their chutes. -/
  | lexit
  /-- LODE_INSTRUCTION (R81): The lode core issues one RV64IMAC instruction for a ready context. -/
  | lodeInstruction (parcel : Word)
  /-- GANG_COMPLETE (R6): A gang's threads have exited and its engine commands completed, and its counter advances up the levels. -/
  | gangComplete (gang : Nat)
  /-- DISPATCH_RECORD (R35): The dispatcher admits or refuses an intake record, removes it and writes its status record. -/
  | dispatchRecord (fn seq : Nat)
  /-- GRAPH_ADMIT (R39): A graph waiting for room is assigned to its task-graph machine. -/
  | graphAdmit (graph : Nat)
  /-- NODE_DISPATCH (R40): The task-graph machine sends a ready node to a unit of its type. -/
  | nodeDispatch (graph node : Nat)
  /-- GANG_PLACE (R42): The next gang of a launch is placed on the best fitting core and its crews start. -/
  | gangPlace (launch : Nat)
  /-- BUDGET_EXHAUST (R37): A slice's budget count reaches BUDGET and the slice is suspended. -/
  | budgetExhaust (slice : Nat)
  /-- QUANTUM_END (R286): A quantum entry's LENGTH expires and the function is pre-empted. -/
  | quantumEnd (part : Nat)
  /-- QUANTUM_ENTRY_START (R286): The next quantum entry begins, restoring, running or skipping its function. -/
  | quantumEntryStart (part : Nat)
  /-- INTAKE_PUT (R31): A host posted write to the put area performs a PUT for each whole 64-byte unit. -/
  | intakePut (fn off : Nat) (data : List Byte)
  /-- INTAKE_HANDLE (R32): A host write of INTAKE_HANDLE stores it or 0xFFFF_FFFF if it names no valid pond. -/
  | intakeHandle (fn : Nat) (h : Word)
  /-- RESUME_SLICE (R37): Window OP 1 resumes a suspended slice with added budget. -/
  | resumeSlice (fn : Nat)
  /-- CANCEL_SLICE (R37): Window OP 2 cancels the slice in CTL_HANDLE. -/
  | cancelSlice (fn : Nat)
  /-- POND_MAKE (R33): Pond control OP 1 makes a pond for a function from the host. -/
  | pondMake (fn : Nat)
  /-- POND_REMOVE (R33): Pond control OP 2 removes the pond that HANDLE names. -/
  | pondRemove (fn : Nat)
  /-- PARTITION_RECORD_WRITE (R28): A host write to a partition record, refused outside its conditions, restarts the quantum rotation. -/
  | partitionRecordWrite (part off size : Nat) (data : Dword)
  /-- FAULTPOND (R165): A host write of FAULTPOND stores the handle or 0xFFFF_FFFF if it names no valid pond. -/
  | faultpond (fn : Nat) (h : Word)
  /-- INVALIDATE_TRANSLATIONS (R167): Translation OP 1 invalidates the function's cached translations. -/
  | invalidateTranslations (fn : Nat)
  /-- REPLAY_PARKED (R168): Translation OP 2 returns parked groups and paused engine and dispatcher writes to work. -/
  | replayParked (fn : Nat)
  /-- DIRTY_RESYNC (R170): Translation OP 3 clears the cores' records of dirty bits already set. -/
  | dirtyResync (fn : Nat)
  /-- FAULT_RECORD_RETRY (R168): A failed fault or trap record put is retried at least every 10 µs. -/
  | faultRecordRetry (fn : Nat)
  /-- SUSPEND (R286): Context OP 1 pre-empts the function if resident and sets it SUSPENDED. -/
  | suspend (fn : Nat)
  /-- RESUME (R286): Context OP 2 returns a suspended function to SAVED or EMPTY, or adopts a saved area. -/
  | resume (fn : Nat)
  /-- VF_RESET (R295): Context OP 3 resets the function, counting abandoned elements and writing the reset record. -/
  | vfReset (fn : Nat)
  /-- FUNCTION_LEVEL_RESET (R295): A PCI Express function level reset of a virtual function resets it as OP 3 does. -/
  | functionLevelReset (fn : Nat)
  /-- HOST_REGISTER_WRITE (R165): A host write to a control record field that has no row of its own. -/
  | hostRegisterWrite (bar fn off size : Nat) (data : Dword)
  /-- HOST_MEMORY_WRITE (R323): A host write through the third BAR is performed at the home die cache. -/
  | hostMemoryWrite (fn off : Nat) (data : List Byte)
  /-- HOST_MEMORY_READ (R323): A host read through the third BAR returns the bits the die caches and memory hold. -/
  | hostMemoryRead (fn off len : Nat)
  /-- REMOTE_REQUEST (R325): An incoming Holmir read, write, atomic or enqueue is accepted or refused. -/
  | remoteRequest (req : RemoteReq)
  /-- REMOTE_RESPONSE (R287): An answer to an RMT or HST request returns and is delivered to its crew. -/
  | remoteResponse (id : Nat) (ans : RemoteAns)
  /-- PORT_FAILURE (R326): A Holmir port fails, its PORTUP bit clears and unacknowledged requests are resent. -/
  | portFailure (port : Nat)
  /-- ROUTE_TIMEOUT (R326): A request that finds no route for 1 ms is refused with RMT_REFUSED. -/
  | routeTimeout (id : Nat)
  /-- COLD_START (R329): Power-on runs the full start sequence from the boot ROM. -/
  | coldStart (env : StartEnv)
  /-- WARM_START (R329): A reset without power loss runs the start sequence with retained images. -/
  | warmStart (env : StartEnv)
  /-- START_TIMEOUT (R330): A start that has not reached READY within 120 s fails. -/
  | startTimeout
  /-- ATTESTATION_QUOTE (R332): A quote request in the mailbox is answered with the signed log digest and nonce. -/
  | attestationQuote (nonce : List Byte)
  /-- POWER_LIMIT (R333): Draw over PLIMIT averaged over 1 ms, or core current over 3,600 A, inserts idle cycles. -/
  | powerLimit (cycles : Nat)
  /-- PORT_TRAINED (R324): A Holmir port completes training and its PORTUP bit becomes 1, so requests may again be routed over it. -/
  | portTrained (port : Nat)
  deriving DecidableEq, Repr

end Sys2Proof
end

