-- ==== Sys2Proof/Machine/State.lean ====
section
/-! DEFINITION. Machine/State.lean: every piece of state the spec gives the machine, as plain data, and the machine right
after reset. INVENTORY.md lists each field with its rule; a value the spec does not give is named by a log entry. -/

namespace Sys2Proof.Machine

/-! ## Registers of a crew -/

/-- The format codes of 04 R66, in code order from 0x00 to 0x16. -/
inductive Fmt where
  | n32 | i32 | f32 | f16 | bf16 | e4m3 | e5m2 | md8 | i8 | n8 | i16 | n16 | i4 | n4 | i3 | n3 | i6 | n6 | n1 | n2
  | i64 | n64 | ptr
  deriving DecidableEq, Repr

/-- A vector value with its shape (04 R66): U one value, A base and stride, G one value a lane (32 entries). -/
inductive VVal where
  | uni (v : Word)
  | aff (base stride : Word)
  | gen (lanes : List Word)
  deriving DecidableEq, Repr

/-- A vector register: value with shape tag, and format tag. -/
structure VReg where
  val : VVal
  fmt : Fmt
  deriving DecidableEq, Repr

/-- WHY of a WAIT entry, codes 1 to 7 in order (04 R69). -/
inductive Why where | chute | members | barrier | repack | engine | frontier | queue
  deriving DecidableEq, Repr

/-- STATE of a program-counter entry (04 R69). -/
inductive LaneState where
  | ready
  | join
  | wait (why : Why)
  | parked
  | exited
  deriving DecidableEq, Repr

/-- A program-counter entry (04 R69); `age` saturates at 511. -/
structure PcEntry where
  pc : Dword
  st : LaneState
  age : Nat
  deriving DecidableEq, Repr

/-- STATE of a rejoin register (04 R77). -/
inductive JState where | idle | set | await
  deriving DecidableEq, Repr

/-- A rejoin register (04 R77). -/
structure JReg where
  mask : Mask
  arrived : Mask
  target : Dword
  st : JState
  deriving DecidableEq, Repr

/-- A chute entry: 64-bit value and format tag (04 R83). -/
structure ChuteEntry where
  val : Dword
  fmt : Fmt
  deriving DecidableEq, Repr

/-- What an NW producer delivered to its latch (03 R55): low and, for 64-bit formats, high containers, and the tag. -/
structure LatchVal where
  lo : VVal
  hi : VVal
  fmt : Fmt
  deriving DecidableEq, Repr

/-- An open latch chain (03 R57, R58): its head's address and group, LHIST before the head, the NW members so far with
their latch values, most recent first. -/
structure Chain where
  headPc : Dword
  lanes : Mask
  lhist : BitVec 64
  vals : List LatchVal
  deriving DecidableEq, Repr

/-- The trap registers of 18 R277; `tstat` is TSTAT[3:0]. -/
structure TrapRegs where
  cause : BitVec 8
  epc : Dword
  eval : Dword
  tvec : Dword
  tstat : BitVec 4
  elanes : Mask
  escratch : Dword
  elhist : BitVec 64
  deriving DecidableEq, Repr

/-- A group waiting at a gang barrier (15 R255); `full` when it waits in the wait half of a full BAR. -/
structure BarWait where
  bar : Nat
  lanes : Mask
  full : Bool
  deriving DecidableEq, Repr

/-- A group that has arrived at a cross-lane instruction (05 R101) or a REPACK (04 R86), with the window and the latch
history that its register codes are resolved by (03 R53, R55: those of its issue). -/
structure Arrival where
  pc : Dword
  instr : Instr
  members : Mask
  lanes : Mask
  wbase : BitVec 5
  lhist : BitVec 64
  deriving DecidableEq, Repr

/-- An engine fault due to a crew (12 R204). -/
structure DueFault where
  cause : Nat
  eval : Dword
  deriving DecidableEq, Repr

/-- A stopped matrix command not yet reported by MXWAIT (07 R154). -/
structure MxStop where
  cmd : Nat
  cause : Nat
  eval : Dword
  acc : Nat
  deriving DecidableEq, Repr

/-- A queue registration of a crew (15 R260): the queue's partition, slot and generation, the role, and for a producer its
index. `part` is 64 for a queue of another package. -/
structure QReg where
  handle : Dword
  producer : Bool
  index : Nat
  deriving DecidableEq, Repr

/-- The commands a waiting MXWAIT or RLWAIT waits for: those with a number below `bound` (07 R154, 12 R202); `bound` 0
marks a TSPAWN that waits for an entry (20 R318). -/
structure WaitBound where
  pc : Dword
  lanes : Mask
  bound : Nat
  deriving DecidableEq, Repr

/-- A SLUICE that waits for its queue: the block and the source pointers that it has copied (12 R219). -/
structure Posting where
  pc : Dword
  lanes : Mask
  bits : Nat
  srcs : List Dword
  deriving DecidableEq, Repr

/-- A thread instruction waiting for answers of RMT or HST requests (18 R287): the requests as (lane, bit within the
element, number), the elements it has read already as (lane, bits), and the lanes' pointers. -/
structure RemoteWait where
  pc : Dword
  lanes : Mask
  instr : Instr
  wbase : BitVec 5
  reqs : List (Nat × Nat × Nat)
  vals : List (Nat × Nat)
  ptrs : List (Nat × Dword)
  /-- What the instruction asks of its own package, performed once every answer is good: (lane, bit within the element,
  device pieces, operation). -/
  near : List (Nat × Nat × List (Nat × Nat) × RemoteOp)
  deriving DecidableEq, Repr

/-- What a unit outside the crew gives a group whose operation it has performed: k registers, 32-bit N32 registers with
their lanes, mask registers; or the trap it raises. `wbase` is the window of the instruction's issue (03 R53). -/
structure GroupRes where
  wbase : BitVec 5
  ks : List (KReg × Dword)
  ws : List (Reg × Mask × VVal)
  ms : List (MReg × Mask × Mask)
  trap : Option (Nat × Dword × Bool)
  deriving DecidableEq, Repr

/-- A result kept for a group that a handler holds (18 R279): its lanes and its instruction's address. -/
structure Pend where
  lanes : Mask
  pc : Dword
  res : GroupRes
  deriving DecidableEq, Repr

/-- A crew (04 R65 to R69, 18 R277). `m` has eight entries, entry 0 unused (m0 reads all-ones); `tied` are the lanes whose
wait ends only by an event of their own operation. -/
structure Crew where
  index : Nat
  slot : Nat
  ended : Bool
  regs16 : Nat
  wbase : BitVec 5
  lhist : BitVec 64
  pcs : List PcEntry
  regs : List VReg
  m : List Mask
  j : List JReg
  k : List Dword
  /-- The chute, oldest first (04 R83): an entry that a waiting instruction has popped carries the lanes that wait, and
  leaves when that instruction completes (03 R50). -/
  fifo : List (ChuteEntry × Mask)
  barPending : List Mask
  barDone : List Mask
  barWaits : List BarWait
  chain : Option Chain
  trap : TrapRegs
  eretLanes : Mask
  arrivals : List Arrival
  repackLanes : Mask
  tied : Mask
  qregs : List QReg
  due : List DueFault
  mxStops : List MxStop
  bounds : List WaitBound
  posting : List Posting
  remotes : List RemoteWait
  /-- Groups whose ENQ waited on a queue that has been removed (15 R262). -/
  gone : List (Dword × Mask)
  /-- Lanes whose wait in WHY 5 is at a CWAIT (12 R206). -/
  cwaits : Mask
  /-- Results of operations of groups that the handler holds (18 R279). -/
  pend : List Pend
  hoists : Nat
  tape : Option (Nat × Nat)
  task : Option (BitVec 32)
  lastIssue : Nat
  yielded : Bool
  deriving DecidableEq, Repr

/-- LODEST.STATE (04 R87). -/
inductive LodeState where | none | running | exited | faulted
  deriving DecidableEq, Repr

/-- A lode context (04 R81, R82): x1 to x31, pc and state. -/
structure Lode where
  st : LodeState
  pc : Dword
  x : List Dword
  /-- The reservation of LR/SC of the A extension, a physical bit address (log 12). -/
  resv : Option Nat
  deriving DecidableEq, Repr

/-- A GSW of the current cycle (15 R257). -/
structure GWrite where
  reg : Nat
  slot : Nat
  val : Word
  deriving DecidableEq, Repr

/-- How a gang is ending before its threads have all exited (01 R8, 02 R46). -/
inductive GangEnd where | cancelled | faulted
  deriving DecidableEq, Repr

/-- A resident gang (01 R5, 02 R41, 08 R158): `id` is the model's own name of it. -/
structure Gang where
  id : Nat
  launch : Nat
  index : Nat
  core : Nat
  sbase : Nat
  scratch : Nat
  vault : Nat
  cluster : Bool
  spring : Bool
  g : List Word
  gWrites : List GWrite
  lode : Lode
  crews : List Crew
  ending : Option GangEnd
  deriving DecidableEq, Repr

/-! ## Engines of a core -/

/-- Where a locked range lies (12 R198). -/
inductive LockDom where
  | dev
  | vlt
  | scr
  | abuf (n : Nat)
  | wbuf (n : Nat)
  | acc (n : Nat)
  deriving DecidableEq, Repr

/-- A range of a range-lock entry: kind W when `write` (12 R198). -/
structure LockRange where
  dom : LockDom
  start : Nat
  len : Nat
  write : Bool
  deriving DecidableEq, Repr

/-- An entry of a range-lock table (12 R198, R199): local, or incoming from a HOISTM of another core. -/
structure LockEntry where
  cmd : Nat
  incoming : Bool
  ranges : List LockRange
  /-- Of a local entry: every range of the command, at whatever core, which later commands of its core wait for until it has
  ended (12 R203); `ranges` are those that have not yet left the table (12 R201). -/
  order : List LockRange
  deriving DecidableEq, Repr

/-- Who issued an engine command: crews of a gang, or a graph node (12 R197, 01 R17). -/
inductive CmdOwner where
  | crews (gang : Nat) (crews : List Nat)
  | node (graph node : Nat)
  deriving DecidableEq, Repr

/-- A tensor layout record as the hoist read it (01 R24). -/
structure Layout where
  rank : Nat
  fmt : Fmt
  base : Dword
  extent : List Nat
  stride : List Int
  deriving DecidableEq, Repr

/-- A hoist copy (12 R205 to R209, R214): `mask` none for HOIST; `sync` is the bitmap or sync-word pointer. -/
structure HoistCopy where
  copyNo : Nat
  dstSel : HoistDst
  mask : Option (BitVec 4)
  record : Dword
  dst : Dword
  sync : Dword
  slices : List (Nat × Nat × Nat)
  arrived : List Nat
  started : Bool
  layout : Option Layout
  todo : List Nat
  /-- Chunks begun and not finished, with the number of their elements copied: a pause resumes there (08 R168). -/
  part : List (Nat × Nat)
  deriving DecidableEq, Repr

/-- A matrix command (07 R144, R148, R151 to R153), with how far it has run. -/
inductive MxOp where
  | loop (acc sparse : Nat) (a b : Dword) (count start inca incb pair : Nat) (cluster : Bool) (began : Bool)
  | wb (mode : WMode) (src : Dword) (half : Nat) (fmt : Fmt) (len : Nat)
  | clr (acc : Nat) (intKind cluster : Bool)
  | st (dst : Dword) (acc : Nat) (fmt : Fmt) (cluster : Bool) (stride : Nat) (kind : Bool) (pos : Nat)
  | ld (acc buf : Nat) (fmt : Fmt) (cluster : Bool) (off : Nat) (kind : Bool) (pos : Nat)
  deriving DecidableEq, Repr

/-- The body of an engine command of a core. -/
inductive CmdBody where
  | hoist (h : HoistCopy)
  | mx (op : MxOp)
  | drain (part slot : Nat)
  | sluice (stack block : Nat)
  /-- A spring node's command on the array of a die (01 R18). -/
  | spring (die : Nat)
  deriving DecidableEq, Repr

/-- An engine command outstanding on a core (12 R197): `id` rises in issue order, `slot` and `pc` are those of the crew
that issued it, `paused` by a replayable fault. -/
structure EngCmd where
  id : Nat
  core : Nat
  slot : Nat
  pc : Dword
  owner : CmdOwner
  body : CmdBody
  paused : Bool
  deriving DecidableEq, Repr

/-- An accumulator (07 R140): the chains as sparse lists of the non-zero elements, KIND 1 integer, STEP. -/
structure Acc where
  even : List (Nat × Word)
  odd : List (Nat × Word)
  intKind : Bool
  step : Nat
  deriving DecidableEq, Repr

/-- The descriptor of a weight half (07 R140). -/
structure Half where
  mode : WMode
  fmt : Fmt
  len : Nat
  deriving DecidableEq, Repr

/-- What MXSTEP reports of the last loop on an accumulator (07 R155); the engine keeps it with the loop's command. -/
inductive LoopState where | idle | busy | stopped
  deriving DecidableEq, Repr

/-- A core's matrix engine (07 R140, R151, R155); the buffers lie in `State.mem`. -/
structure MxEngine where
  holder : Option Nat
  accs : List Acc
  halves : List Half
  issuedKind : List Bool
  lastLoop : List (Nat × LoopState)
  deriving DecidableEq, Repr

/-- A line of a core's data cache (08 R162, R163): 512 bits, per-bit dirty mask, first to be evicted; `bad`, its 64-bit words with
an error that cannot be corrected. -/
structure CacheLine where
  line : Nat
  data : BitVec 512
  dirty : BitVec 512
  stream : Bool
  bad : BitVec 8
  deriving DecidableEq, Repr

/-- A virtual page under whose name a core's data cache may hold lines (the model's own, log 102): what a release or an acquire of
its bits finds in the cache, whether or not the page is still mapped (14 R241 to R243). -/
structure NamedPage where
  fn : Nat
  vpage : Nat
  log2 : Nat
  base : Nat
  deriving DecidableEq, Repr

/-- A cached translation (08 R167), with the dirty bits set since the last resynchronisation (08 R170). -/
structure TlbEntry where
  fn : Nat
  remote : Bool
  vpage : Nat
  log2 : Nat
  base : Nat
  w : Bool
  x : Bool
  dirtySet : List Nat
  deriving DecidableEq, Repr

/-- A sector of a parked load held in the fault buffer (08 R168). -/
structure HeldSector where
  gang : Nat
  crew : Nat
  pc : Dword
  lanes : Mask
  sector : Nat
  data : BitVec 256
  /-- For an element in RMT or HST: the requests that read it, as (bit within the element, number). -/
  asked : List (Nat × Nat)
  deriving DecidableEq, Repr

/-- An issue port (04 R72): CUR, DEF, and the cycle of its last issue plus one. -/
structure Port where
  cur : Nat
  defs : List Nat
  issued : Nat
  deriving DecidableEq, Repr

/-- A core. `taskLaunch`: the ordered launch its task unit slice serves, and `wbufBase` its write buffer (20 R297). -/
structure Core where
  ports : List Port
  dcache : List CacheLine
  pages : List NamedPage
  tlb : List TlbEntry
  faultBuf : List HeldSector
  locks : List LockEntry
  mx : MxEngine
  taskLaunch : Option Nat
  wbufBase : Nat
  interp : Option Nat
  tapes : List (Nat × Nat)
  deriving DecidableEq, Repr

/-! ## Work: launches, graphs, phases, slices -/

/-- STATE of a completion counter (01 R7). -/
inductive CState where | pending | running | done | cancelled | faulted | suspended
  deriving DecidableEq, Repr

/-- A completion counter (01 R7). -/
structure Counter where
  total : Nat
  done : Nat
  cancelled : Nat
  faulted : Nat
  st : CState
  deriving DecidableEq, Repr

/-- An instance of a level, in the order of the handle bits of 02 R38. -/
inductive Level where | launch | graph | phase | slice
  deriving DecidableEq, Repr

/-- What a launch belongs to: a graph node, or the phase that a LAUNCH gives it (02 R43). -/
inductive LaunchOwner where
  | node (graph node : Nat)
  | phase (phase : Nat)
  deriving DecidableEq, Repr

/-- The header of a kernel image, as checked at admission (01 R9). -/
structure Image where
  crews : Nat
  regs16 : Nat
  ordered : Bool
  cluster : Bool
  spring : Bool
  scratch : Nat
  codewords : Nat
  entry : Nat
  trapoff : Nat
  vault : Nat
  deriving DecidableEq, Repr

/-- A region-table entry (01 R13). -/
structure Region where
  base : Dword
  length : Nat
  object : Dword
  deriving DecidableEq, Repr

/-- STATE of a task of an ordered launch (20 R300). -/
inductive TaskState where | queued | running | finished
  deriving DecidableEq, Repr

/-- A buffered line of a task (20 R305); `key` is its bit key in storage. -/
structure TaskLine where
  dom : LockDom
  line : Nat
  key : Nat
  data : BitVec 512
  mask : BitVec 512
  deriving DecidableEq, Repr

/-- A held PUT of a task (20 R310): pond handle, keys and records in lane order, and the core, slot and PC of its PUT. -/
structure HeldPut where
  handle : Dword
  recs : List (Nat × Nat)
  core : Nat
  slot : Nat
  pc : Dword
  deriving DecidableEq, Repr

/-- A deferred fault (20 R313). -/
structure Deferred where
  cause : Nat
  epc : Dword
  eval : Dword
  lanes : Mask
  chain : Bool
  deriving DecidableEq, Repr

/-- A task (20 R298 to R308). `tag` lists (timestamp, index) from the task to its root; `core` none in the area. -/
structure Task where
  num : BitVec 32
  tag : List (Nat × Nat)
  parent : Option (BitVec 32)
  entry : Dword
  arg : Dword
  st : TaskState
  core : Option Nat
  runs : Nat
  children : Nat
  reads : List (LockDom × Nat)
  writes : List TaskLine
  puts : List HeldPut
  deferred : Option Deferred
  front : Bool
  deriving DecidableEq, Repr

/-- The task unit of an ordered launch (20 R297 to R316). -/
structure TaskUnit where
  tasks : List Task
  nextNum : BitVec 32
  commits : Nat
  deriving DecidableEq, Repr

/-- A launch instance. `placed` counts the gangs started or passed over, `gangsEnded` says whether a gang index has
ended; `rec` fields are those of 01 R11. -/
structure Launch where
  id : Nat
  part : Nat
  fn : Nat
  handle : BitVec 32
  owner : LaunchOwner
  slice : Nat
  die : Nat
  kernel : Dword
  image : Image
  gangs : Nat
  crews : Nat
  regs16 : Nat
  tclass : Nat
  args : Dword
  regions : List Region
  operands : List (Dword × Nat)
  tvec : Dword
  doneflag : Dword
  doneval : Word
  placed : Nat
  holdsSpring : Bool
  tasks : Option TaskUnit
  /-- The storage of its image as (bit key, bits), and whether any of it has changed since admission (01 R10). -/
  pieces : List (Nat × Nat)
  changed : Bool
  counter : Counter
  ended : Bool
  deriving DecidableEq, Repr

/-- How far a graph node is. -/
inductive NodeState where
  | blocked
  | ready (seq : Nat)
  | pooled (seq : Nat)
  | dispatched
  /-- Its work is over with this outcome, and the end of the step counts it (01 R8). -/
  | over (how : CState)
  | ended (how : CState)
  deriving DecidableEq, Repr

/-- A graph node (01 R16). -/
structure Node where
  ty : Nat
  preds : List Nat
  body : Dword
  opers : List (Nat × Dword × Nat)
  st : NodeState
  core : Option Nat
  deriving DecidableEq, Repr

/-- A graph instance; `admitted` when its machine has taken it (02 R39). -/
structure Graph where
  id : Nat
  part : Nat
  fn : Nat
  handle : BitVec 32
  phase : Nat
  slice : Nat
  die : Nat
  recPtr : Dword
  nodesPtr : Dword
  admitted : Bool
  nodes : List Node
  holdsSpring : Bool
  counter : Counter
  ended : Bool
  deriving DecidableEq, Repr

/-- A phase instance (01 R21). -/
structure Phase where
  id : Nat
  part : Nat
  fn : Nat
  handle : BitVec 32
  slice : Nat
  index : Nat
  counter : Counter
  ended : Bool
  deriving DecidableEq, Repr

/-- A job slice (01 R22, 02 R34 to R37). -/
structure Slice where
  id : Nat
  part : Nat
  fn : Nat
  handle : BitVec 32
  seq : Nat
  sliceNo : Nat
  last : Bool
  jobid : Dword
  deadline : Nat
  budget : Nat
  used : Nat
  phases : Dword
  nphases : Nat
  status : Dword
  cookie : Dword
  nextPhase : Nat
  running : Bool
  reason : Nat
  counter : Counter
  ended : Bool
  deriving DecidableEq, Repr

/-- A record of an intake pond as the dispatcher read it (02 the dispatcher): sequence number, basin, position, bits. -/
structure IntakeRec where
  seq : Nat
  basin : Nat
  pos : Nat
  bits : Nat
  deriving DecidableEq, Repr

/-- A job of a partition (01 R23). -/
structure Job where
  jobid : Dword
  part : Nat
  admitted : List Nat
  doneSlices : List Nat
  ended : Bool
  deriving DecidableEq, Repr

/-! ## Ponds and queues -/

/-- An open cursor slot of a pond (09 R187). -/
structure Cursor where
  slot : Nat
  basin : Nat
  mark : Nat
  next : Nat
  gang : Nat
  cgen : Nat
  deriving DecidableEq, Repr

/-- Who asked for a pond operation. -/
inductive OpSrc where
  | group (gang crew : Nat) (lanes : Mask) (pc : Dword)
  | host (fn : Nat)
  deriving DecidableEq, Repr

/-- A pond operation waiting at its inlet (09 R182): keys and records are in ascending lane order. -/
inductive PondOpKind where
  | put (d : Reg) (recs : List (Nat × Nat))
  | windowPut (key : Nat) (bits : Nat)
  | pcount (d : KReg) (n : Nat) (desc : Dword)
  | drain (dst : Dword) (k3 : KReg) (cmd : Nat) (basin pos copied : Nat)
  | basin (d : KReg) (n : Nat)
  | bnext (d o : Reg) (m : MReg) (desc : Dword)
  | bwrite (desc : Dword) (recs : List (Nat × Nat))
  | remove
  deriving DecidableEq, Repr

/-- A pond operation with the chute entries that its instruction pops when it completes. -/
structure PondOp where
  src : OpSrc
  kind : PondOpKind
  pops : Nat
  wbase : BitVec 5
  deriving DecidableEq, Repr

/-- A placement write waiting for replay (09 R190). -/
structure PausedWrite where
  addr : Dword
  width : Nat
  bits : Nat
  /-- Core, slot and PC of the PUT that the record came from; none for a record of no crew. -/
  who : Option (Nat × Nat × Dword)
  deriving DecidableEq, Repr

/-- A pond (09 R180). -/
structure Pond where
  part : Nat
  slot : Nat
  fn : Nat
  gen : Nat
  base : Dword
  w : Nat
  basins : Nat
  slack : Nat
  cap : Nat
  vaultDom : Bool
  total : Nat
  counts : List Nat
  cursors : List Cursor
  cursorGens : List Nat
  broken : Bool
  ops : List PondOp
  paused : List PausedWrite
  opPaused : Bool
  deriving DecidableEq, Repr

/-- A waiting reservation or a granted send of an ENQ (15 R262): its records are word lists. -/
structure QReq where
  id : Nat
  gang : Nat
  crew : Nat
  lanes : Mask
  pc : Dword
  producer : Nat
  d : Reg
  wbase : BitVec 5
  recs : List (List Word)
  counted : Nat
  /-- The node of a request that came from another package, with the number that the node gave it; none for a group of this
  one. The records of such a reservation are empty lists until they come. -/
  node : Option (Nat × Nat)
  /-- The threads whose records these are, as crews and lanes, which REPACK renews (15 R263, 04 R86). -/
  threads : List (Nat × Mask)
  deriving DecidableEq, Repr

/-- What is in transit to a queue, oldest first. -/
inductive QTransit where
  | recs (req : QReq) (ack : Bool)
  | close (producer : Nat)
  deriving DecidableEq, Repr

/-- A queue (15 R258): `order` holds the buffer slots of the records, oldest first. -/
structure Queue where
  part : Nat
  slot : Nat
  fn : Nat
  gen : Nat
  buf : Dword
  slots : Nat
  producers : Nat
  rmtok : Bool
  free : Nat
  order : List Nat
  closed : List Bool
  consumers : Nat
  waiting : List QReq
  transit : List QTransit
  /-- Reservations of other packages that have been granted and whose records have not come (15 R262). -/
  granted : List QReq
  /-- Producers whose close waits for the grant of a reservation of theirs (15 R261). -/
  closing : List Nat
  deriving DecidableEq, Repr

/-! ## Spring arrays and sluices -/

/-- A variable of a spring array (13 R224). -/
structure SpVar where
  h : BitVec 16
  colour : Nat
  nbrs : List (Nat × BitVec 8)
  s : Bool
  cl : Bool
  ones : Nat
  deriving DecidableEq, Repr

/-- A spring command (13 R231 to R234). `taken` is what its read has taken before a pause (08 R168): the header's bits and the
records, or the values; `pos` is the number of elements that an SPREAD has written. -/
inductive SpOp where
  | load (image : Dword) (taken : Option (Nat × List SpVar))
  | clamp (first count : Nat) (values : Dword) (taken : List Bool)
  | free (first count : Nat)
  | set (first count : Nat) (values : Dword) (taken : List Bool)
  | sweep (left : Nat) (beta : Option (BitVec 8)) (clr : Bool) (began : Bool) (colour : Nat)
  | read (dst : Dword) (first count : Nat) (ones clr : Bool) (pos : Nat)
  deriving DecidableEq, Repr

/-- A queued spring command, with the group that waits for it. -/
structure SpCmd where
  id : Nat
  owner : CmdOwner
  core : Nat
  lanes : Mask
  op : SpOp
  paused : Bool
  deriving DecidableEq, Repr

/-- The holder of a spring array (13 R225). -/
inductive SpHolder where
  | launch (id : Nat)
  | graph (id : Nat)
  deriving DecidableEq, Repr

/-- A die's spring array (13 R224). -/
structure Spring where
  holder : Option SpHolder
  nvar : Nat
  colours : Nat
  entropy : Bool
  beta : BitVec 8
  seed : Dword
  vars : List SpVar
  sweepno : Nat
  queue : List SpCmd
  deriving DecidableEq, Repr

/-- A posted sluice block (12 R218, R219). -/
structure Block where
  id : Nat
  cmd : Nat
  core : Nat
  owner : CmdOwner
  fn : Nat
  part : Nat
  op : Nat
  fmt : Fmt
  seqOrder : Bool
  zero : Bool
  read : Bool
  slotBase : Nat
  count : Nat
  sources : List Dword
  dest : Dword
  flag : Dword
  flagval : Word
  doneGroups : List Nat
  /-- Groups begun and not finished, with the number of their elements done: a pause resumes there (08 R168). -/
  begun : List (Nat × Nat)
  stop : Option (Nat × Nat)
  paused : Bool
  deriving DecidableEq, Repr

/-- A stack's sluice: its queue and its exact slots, listing the non-zero ones (06 R129). -/
structure Stack where
  blocks : List Block
  slots : List (Nat × BitVec 320)
  deriving DecidableEq, Repr

/-! ## Functions, partitions, links and management -/

/-- STATE of a context control record (18 R285). -/
inductive CtxState where | empty | resident | saved | suspended | resetting
  deriving DecidableEq, Repr

/-- A record waiting to be put into a pond, or retried (08 R168, 18 R281). -/
structure PondRec where
  key : Nat
  bits : BitVec 256
  vector : Nat
  deriving DecidableEq, Repr

/-- A paused write of the dispatcher (02 R344). -/
structure PausedDisp where
  addr : Dword
  width : Nat
  bits : Nat
  deriving DecidableEq, Repr

/-- A lode-program context 128 to 131 of a cluster (01 R19). -/
structure LodeNode where
  cluster : Nat
  ctx : Nat
  graph : Nat
  node : Nat
  core : Nat
  lode : Lode
  deriving DecidableEq, Repr

/-- A saved gang (18 R287, R292): its scratchpad and matrix buffers as cells at the keys they had, and the engines it held. -/
structure SavedGang where
  gang : Gang
  scratch : List (Nat × Byte)
  engines : List (Nat × MxEngine)
  bufs : List (Nat × Byte)
  interp : Bool
  deriving DecidableEq, Repr

/-- What a function's saved context holds (18 R292): gangs, engine commands with their range-lock entries by core, spring
arrays by die, sluice blocks by stack, lode programs, the vaults and node areas of the partition's cores, and the exact slots
of its slot windows as (stack, place in the window, value). `whole`: the function itself has been pre-empted, and not only
some of its slices. -/
structure Saved where
  whole : Bool
  gangs : List SavedGang
  cmds : List EngCmd
  locks : List (Nat × LockEntry)
  springs : List (Nat × Spring)
  blocks : List (Nat × Block)
  lodeNodes : List LodeNode
  mem : List (Nat × Byte)
  slots : List (Nat × Nat × BitVec 320)
  deriving DecidableEq, Repr, Inhabited

/-- What an area holds (18 R286, R292, R294): the saved context, the node and the slot windows' COUNTs of the package that saved
it, and the dispatcher's state, ponds and queues of the function. -/
structure Adopted where
  saved : Saved
  node : Nat
  counts : List Nat
  jobs : List Job
  slices : List Slice
  phases : List Phase
  graphs : List Graph
  launches : List Launch
  ponds : List Pond
  /-- Every queue with what the slots of its buffer hold. -/
  queues : List (Queue × List (Nat × Nat))
  deriving DecidableEq, Repr, Inhabited

/-- A function with its control records (02 R32, R33; 08 R165; 12 R217; 18 R285; 20 R302; 22 R325). -/
structure Fn where
  root : Dword
  rroot : Dword
  membase : Nat
  memsize : Nat
  dirtymap : Dword
  dirtyen : Bool
  faultpond : BitVec 32
  intake : BitVec 32
  drops : Nat
  ctlHandle : BitVec 32
  addBudget : Dword
  pondRegion : Dword
  pondCap : Dword
  pondParams : Dword
  pondHandle : BitVec 32
  pondResult : Nat
  /-- OP values written to the pond control record while an operation was in progress (02 R33). -/
  pondPending : List Nat
  windows : List (Nat × Nat)
  ctxbase : Dword
  ctxsize : Nat
  ctxstate : CtxState
  resetrec : Dword
  ctxSmallFor : Option Nat
  saved : Option Saved
  tqbase : Dword
  tqsize : Nat
  imbase : Nat
  imsize : Nat
  accept : BitVec 4096
  intakeRecs : List IntakeRec
  retry : List PondRec
  pausedDisp : List PausedDisp
  deriving DecidableEq, Repr

/-- A partition record (02 R28) with the rotation (02 R29) and the next sequence number of each level (02 R38). -/
structure Part where
  clusters : BitVec 64
  weight : List Nat
  nquanta : Nat
  nodescr : Nat
  quantum : List (Nat × Nat)
  funcs : BitVec 65
  rot : Nat
  resident : Option Nat
  entryEnd : Nat
  nextSeq : List Nat
  deriving DecidableEq, Repr

/-- An outstanding RMT or HST request of a thread (18 R287, 22 R326): target node, none for the host. -/
structure LinkReq where
  id : Nat
  node : Option Nat
  addr : Nat
  width : Nat
  /-- The pieces of the element after its first, where it crosses a page (22 R325). -/
  more : List (Nat × Nat)
  op : RemoteOp
  gang : Nat
  crew : Nat
  posted : Bool
  answer : Option RemoteAns
  /-- Counted cycles that an ENQ has waited (15 R262). -/
  counted : Nat
  deriving DecidableEq, Repr

/-- The link unit (22 R324, R326) and what the last host read and incoming request were answered. -/
structure Link where
  node : BitVec 12
  land : List Nat
  portup : BitVec 18
  reqs : List LinkReq
  nextReq : Nat
  hostRead : List Byte
  lastAnswer : Option RemoteAns
  /-- Answers given to incoming reservations and records after they had waited, with the node that each goes to and the
  number that it gave its reservation, latest first (15 R262). -/
  lateAnswers : List (Nat × Nat × RemoteAns)
  deriving DecidableEq, Repr

/-- An entry of the attestation log (22 R332). -/
structure AttEntry where
  step : Nat
  hash : BitVec 384
  epoch : Nat
  deriving DecidableEq, Repr

/-- The answer to a quote request (22 R332). -/
structure Quote where
  digest : BitVec 384
  nonce : List Byte
  ed25519 : Nat
  mlDsa65 : Nat
  deriving DecidableEq, Repr

/-- The management cluster's state (22 R327 to R332); the store's MINSVN and FAILS are on the drive. -/
structure Mgmt where
  stage : Nat
  slot : Bool
  warm : Bool
  hbmskip : Bool
  stskip : Bool
  failsRead : Nat
  reason : Nat
  selftest : Bool
  epoch : Nat
  mbox : BitVec 32
  fails : Nat
  minsvn : Nat
  plimit : Nat
  attlog : List AttEntry
  quote : Option Quote
  /-- Records for Sprinlek in the management mailbox pond (18 R284). -/
  mailRecs : List (BitVec 256)
  /-- The image hashes that the last cold start verified (22 R329). -/
  imageHashes : List (BitVec 384)
  /-- The power epoch that the retained training values of HBM carry (22 R329). -/
  trained : Option Nat
  deriving DecidableEq, Repr

/-! ## The whole machine -/

/-- The issuing context of one step (the model's own; log 1). -/
inductive Cur where
  | crew (gang crew : Nat) (lanes : Mask) (pc : Dword)
  | lode (gang : Nat)
  | lodeNode (cluster ctx : Nat)
  deriving DecidableEq, Repr

/-- A move of the agenda (the model's own; log 1): which agent acts next. -/
inductive Move where
  /-- Port `port` of core `core` makes its choice of R72 to R74. -/
  | issue (core port : Nat)
  /-- The lode core of a cluster issues for its next ready context (R81). -/
  | lode (cluster : Nat)
  /-- A step of the device. -/
  | event (i : Instr)
  /-- `n` cycles pass. -/
  | tick (n : Nat)
  /-- The host reads `len` bytes from byte `off` of a function's BAR (22 R322). -/
  | hostRead (bar fn off len : Nat)
  /-- A line of a core's data cache is evicted (R163). -/
  | evict (core line : Nat)
  /-- A 64-bit word of storage meets an error that cannot be corrected (R162). -/
  | softError (word : Nat)
  /-- A 64-bit word in a core's data cache does (R162). -/
  | cacheError (core word : Nat)
  deriving DecidableEq, Repr

/-- Device memory, vaults, scratchpads, matrix buffers and host memory as one list of (byte key, byte). -/
structure Memory where
  cells : List Host.Cell
  /-- The model's own (log 21): how many starts have trained HBM, since each leaves device memory unpredictable (22 R329). -/
  gen : Nat
  deriving DecidableEq, Repr

/-- The machine. -/
structure State where
  mem : Memory
  poison : List Nat
  /-- The model's own (log 12): the bits of storage, as (key, length), that the step under way has written, which end the
  reservations that they meet. -/
  written : List (Nat × Nat)
  cycle : BitVec 64
  agenda : List Move
  freeCtr : Nat
  cur : Option Cur
  nextId : Nat
  fns : List Fn
  parts : List Part
  ponds : List Pond
  pondGens : List (Nat × Nat × Nat)
  queues : List Queue
  queueGens : List (Nat × Nat × Nat)
  cores : List Core
  gangs : List Gang
  cmds : List EngCmd
  /-- Per cluster: the context that issued last, and the cycle of that issue plus one (04 R81). -/
  lodeRot : List (Nat × Nat)
  lodeNodes : List LodeNode
  launches : List Launch
  graphs : List Graph
  phases : List Phase
  slices : List Slice
  jobs : List Job
  springs : List Spring
  sluiceStacks : List Stack
  link : Link
  mgmt : Mgmt
  msix : List (Nat × Nat)
  deriving DecidableEq, Repr

/-- The model's own stops. -/
inductive Fault where
  /-- Raised by `exec` of an instruction word when no step has chosen the group or lode context that issues it: the spec
  issues a word only for a group (R65). Safe: the machine stops, and no spec behaviour is lost, since `step`
  chooses one for every word that a port or a lode core issues. -/
  | noIssuingGroup
  /-- Raised by every access to a device byte at or above 384 GiB, which no stack has (12 R216). Safe: the machine stops. -/
  | noSuchDeviceByte
  deriving DecidableEq, Repr

/-- Why an instruction has no meaning here. -/
inductive Refusal where
  /-- Raised by `exec` for an instruction not modelled yet. Safe: the machine stops. -/
  | notModelled (mnemonic : String)
  deriving DecidableEq, Repr

/-! ## Reset -/

def VReg.zero : VReg := ⟨.uni 0, .n32⟩
def JReg.reset : JReg := ⟨0, 0, 0, .idle⟩
def Acc.reset : Acc := ⟨[], [], false, 0⟩
def Half.reset : Half := ⟨.dense, .i8, 0⟩
def MxEngine.reset : MxEngine :=
  ⟨none, List.replicate 4 Acc.reset, List.replicate 2 Half.reset, List.replicate 4 false,
    List.replicate 4 (0, .idle)⟩
def Port.reset : Port := ⟨7, List.replicate 8 0, 0⟩
def Core.reset : Core := ⟨List.replicate 4 Port.reset, [], [], [], [], [], MxEngine.reset, none, 0, none, []⟩
def Lode.reset : Lode := ⟨.none, 0, List.replicate 31 0, none⟩
def Spring.reset : Spring := ⟨none, 0, 1, false, 0, 0, [], 0, []⟩
def Fn.reset : Fn :=
  ⟨0, 0, 0, 0, 0, false, 0xFFFFFFFF, 0xFFFFFFFF, 0, 0, 0, 0, 0, 0, 0xFFFFFFFF, 0, [], List.replicate 8 (0, 0), 0, 0,
    .empty, 0, none, none, 0, 0, 0, 0, 0, [], [], []⟩
def Part.reset : Part :=
  ⟨0, List.replicate 8 0, 0, 0, List.replicate 16 (0, 0), 0, 0, none, 0, List.replicate 4 0⟩
def Link.reset : Link := ⟨0, List.replicate 4 0, 0, [], 0, [], none, []⟩
def Mgmt.reset : Mgmt := ⟨0, false, false, false, false, 0, 0, false, 0, 0xFFFFFFFF, 0, 0, 1800, [], none, [], [], none⟩

/-- The machine right after reset, before any start has run (22 R331: STAGE 0): every field at the spec's reset value,
or at the value its log entry names. -/
def State.reset : State where
  mem := ⟨[], 0⟩
  poison := []
  written := []
  cycle := 0
  agenda := []
  freeCtr := 0
  cur := none
  nextId := 1
  fns := List.replicate 65 Fn.reset
  parts := List.replicate 64 Part.reset
  ponds := []
  pondGens := []
  queues := []
  queueGens := []
  cores := List.replicate 256 Core.reset
  gangs := []
  cmds := []
  lodeRot := List.replicate 64 (131, 0)
  lodeNodes := []
  launches := []
  graphs := []
  phases := []
  slices := []
  jobs := []
  springs := List.replicate 4 Spring.reset
  sluiceStacks := List.replicate 8 ⟨[], []⟩
  link := Link.reset
  mgmt := Mgmt.reset
  msix := []

end Sys2Proof.Machine
end

