-- ==== Sys2Proof/Machine/Mem.lean ====
section
/-! DEFINITION. Machine/Mem.lean: storage as one canonical list of bytes, read and written by bit ranges
(08 R157, R162: every address counts bits, and a write changes exactly the bits of its element). -/

namespace Sys2Proof.Machine

/-- Device memory: eight stacks of 48 GiB (12 R216). -/
def deviceBytes : Nat := 384 * 2 ^ 30
/-- Byte keys of the storages: device memory from 0, then vaults, scratchpads, matrix buffers and host memory. -/
def vaultKey (core : Nat) : Nat := 2 ^ 42 + core * 2 ^ 22
def scratchKey (core : Nat) : Nat := 2 ^ 43 + core * 2 ^ 19
/-- A buffers a0 to a3 at 32 KiB steps, then the two weight halves of 128 KiB (07 R140). -/
def abufKey (core n : Nat) : Nat := 2 ^ 44 + core * 2 ^ 19 + n * 2 ^ 15
def wbufKey (core h : Nat) : Nat := 2 ^ 44 + core * 2 ^ 19 + 2 ^ 17 + h * 2 ^ 17
def hostKey : Nat := 2 ^ 60

/-- What an unlisted byte reads as: 0 since power-on (the spec gives none; log 2), and in device memory a free value once a start
has trained HBM (22 R329; log 21). -/
def unlisted (gen k : Nat) : Byte := if gen = 0 then 0 else if k < deviceBytes then Config.freeContents gen k else 0

/-- The canonical form: addresses strictly rising, no entry equal to what an unlisted address reads as. -/
def cellsWf (u : Nat → Byte) : List Host.Cell → Bool
  | [] => true
  | [(k, b)] => b != u k
  | (k, b) :: (k', b') :: cs => b != u k && k < k' && cellsWf u ((k', b') :: cs)

def Memory.wf (m : Memory) : Bool := cellsWf (unlisted m.gen) m.cells

/-- One byte. -/
def Memory.byte (m : Memory) (k : Nat) : Byte := ((m.cells.find? fun c => c.1 == k).map (·.2)).getD (unlisted m.gen k)

/-- `n` bytes from key `a` of cells that all lie at or above `a`. -/
def takeBytes (u : Nat → Byte) : Nat → Nat → List Host.Cell → List Byte
  | 0, _, _ => []
  | n + 1, a, [] => u a :: takeBytes u n (a + 1) []
  | n + 1, a, (k, b) :: cs =>
    if k = a then b :: takeBytes u n (a + 1) cs else u a :: takeBytes u n (a + 1) ((k, b) :: cs)

/-- `n` bytes from key `a`. -/
def Memory.bytes (m : Memory) (a n : Nat) : List Byte := takeBytes (unlisted m.gen) n a (m.cells.dropWhile fun c => c.1 < a)

/-- The listed cells of a run of bytes from key `a`. -/
def listCells (u : Nat → Byte) : Nat → List Byte → List Host.Cell
  | _, [] => []
  | a, b :: bs => if b = u a then listCells u (a + 1) bs else (a, b) :: listCells u (a + 1) bs

/-- Replace the bytes from key `a` by `bs`. -/
def Memory.setBytes (m : Memory) (a : Nat) (bs : List Byte) : Memory :=
  { m with cells :=
      m.cells.takeWhile (fun c => c.1 < a) ++ listCells (unlisted m.gen) a bs ++ m.cells.dropWhile (fun c => c.1 < a + bs.length) }

/-- Bytes as a number, the first byte least significant (03 R48: bit `i` of a word at bit address `a + i`). -/
def natOfBytes : List Byte → Nat
  | [] => 0
  | b :: bs => b.toNat + 256 * natOfBytes bs

/-- A number as `n` bytes. -/
def bytesOfNat : Nat → Nat → List Byte
  | 0, _ => []
  | n + 1, v => BitVec.ofNat 8 v :: bytesOfNat n (v / 256)

/-- The number of bytes a bit range touches. -/
def spanBytes (a n : Nat) : Nat := (a % 8 + n + 7) / 8

/-- The `n` bits at bit key `a`. -/
def Memory.bits (m : Memory) (a n : Nat) : Nat :=
  natOfBytes (m.bytes (a / 8) (spanBytes a n)) / 2 ^ (a % 8) % 2 ^ n

/-- Exchange the bits of `old` under `mask` for those of `new`. -/
def mergeNat (old new mask : Nat) : Nat := (old ^^^ (old &&& mask)) ||| (new &&& mask)

/-- A masked store: exactly the bits of `v` whose bit of `mask` is 1, in the `n` bits at bit key `a` (08 R162). -/
def Memory.setMasked (m : Memory) (a n v mask : Nat) : Memory :=
  let k := a / 8
  let c := spanBytes a n
  let old := natOfBytes (m.bytes k c)
  let mk := (mask % 2 ^ n) * 2 ^ (a % 8)
  m.setBytes k (bytesOfNat c (mergeNat old (v * 2 ^ (a % 8)) mk))

/-- A bit-exact store of the low `n` bits of `v` at bit key `a` (08 R162). -/
def Memory.setBits (m : Memory) (a n v : Nat) : Memory := m.setMasked a n v (2 ^ n - 1)

end Sys2Proof.Machine
end

