-- ==== Sys2Proof/Machine/Num.lean ====
section
/-! DEFINITION. Machine/Num.lean: what the number formats mean, rounding, conversion and exact arithmetic (06 R113 to
R131, 07 R136). Values are exact fractions; every rounding is one call of `roundBin` or `roundInt`. -/

namespace Sys2Proof.Machine

/-- The code of a format (04 R66). -/
def fmtCode : Fmt → Nat
  | .n32 => 0 | .i32 => 1 | .f32 => 2 | .f16 => 3 | .bf16 => 4 | .e4m3 => 5 | .e5m2 => 6 | .md8 => 7
  | .i8 => 8 | .n8 => 9 | .i16 => 10 | .n16 => 11 | .i4 => 12 | .n4 => 13 | .i3 => 14 | .n3 => 15
  | .i6 => 16 | .n6 => 17 | .n1 => 18 | .n2 => 19 | .i64 => 20 | .n64 => 21 | .ptr => 22

/-- The format with a code; codes 0x17 and above name none. -/
def fmtOf (c : Nat) : Option Fmt :=
  match c with
  | 0 => some .n32 | 1 => some .i32 | 2 => some .f32 | 3 => some .f16 | 4 => some .bf16 | 5 => some .e4m3
  | 6 => some .e5m2 | 7 => some .md8 | 8 => some .i8 | 9 => some .n8 | 10 => some .i16 | 11 => some .n16
  | 12 => some .i4 | 13 => some .n4 | 14 => some .i3 | 15 => some .n3 | 16 => some .i6 | 17 => some .n6
  | 18 => some .n1 | 19 => some .n2 | 20 => some .i64 | 21 => some .n64 | 22 => some .ptr | _ => none

/-- The width of a format (06 R113). -/
def fmtWidth : Fmt → Nat
  | .n32 => 32 | .i32 => 32 | .f32 => 32 | .f16 => 16 | .bf16 => 16 | .e4m3 => 8 | .e5m2 => 8 | .md8 => 8
  | .i8 => 8 | .n8 => 8 | .i16 => 16 | .n16 => 16 | .i4 => 4 | .n4 => 4 | .i3 => 3 | .n3 => 3
  | .i6 => 6 | .n6 => 6 | .n1 => 1 | .n2 => 2 | .i64 => 64 | .n64 => 64 | .ptr => 64

/-- A format that starts with I (05 R89). -/
def fmtSigned : Fmt → Bool
  | .i32 => true | .i8 => true | .i16 => true | .i4 => true | .i3 => true | .i6 => true | .i64 => true | _ => false

/-- Class X of 05 R89. -/
def classX : Fmt → Bool
  | .f32 => false | .f16 => false | .bf16 => false | .e4m3 => false | .e5m2 => false | .md8 => false
  | .i64 => false | .n64 => false | .ptr => false | _ => true

/-- Class W of 05 R89. -/
def classW : Fmt → Bool | .i64 => true | .n64 => true | _ => false
/-- Class P of 05 R89. -/
def classP : Fmt → Bool | .ptr => true | _ => false
/-- A 64-bit format, held in an even and odd pair. -/
def fmtWide (f : Fmt) : Bool := classW f || classP f
/-- Class Any32 of 05 R89. -/
def classAny32 (f : Fmt) : Bool := !fmtWide f
/-- The float formats with vector arithmetic (07 R133). -/
def classF : Fmt → Bool | .f32 => true | .f16 => true | .bf16 => true | _ => false
/-- The formats of 07 R139. -/
def classFloat : Fmt → Bool
  | .f32 => true | .f16 => true | .bf16 => true | .e4m3 => true | .e5m2 => true | .md8 => true | _ => false

/-- The low `w` bits of a number read as a signed number. -/
def signedOf (w v : Nat) : Int := if v % 2 ^ w < 2 ^ (w - 1) then ↑(v % 2 ^ w) else ↑(v % 2 ^ w) - ↑(2 ^ w)

/-- The container of a value of format `f` (05 R89): the low bits of `v`, extended as the format says. -/
def container (f : Fmt) (v : Nat) : Word :=
  let w := fmtWidth f
  if w < 32 ∧ fmtSigned f then BitVec.ofInt 32 (signedOf w v) else BitVec.ofNat 32 (v % 2 ^ w)

/-! ## Exact values -/

/-- An exact value: NaN, an infinity, or the fraction ±num/den, with a sign for zero. -/
inductive XVal where
  | nan
  | inf (neg : Bool)
  | fin (neg : Bool) (num den : Nat)
  deriving DecidableEq, Repr

/-- The layout of a binary float format (06 R115). -/
structure BinFmt where
  eb : Nat
  fb : Nat
  bias : Nat
  e4m3 : Bool
  deriving DecidableEq, Repr

def binF32 : BinFmt := ⟨8, 23, 127, false⟩
def binF16 : BinFmt := ⟨5, 10, 15, false⟩
def binBF16 : BinFmt := ⟨8, 7, 127, false⟩
def binE5M2 : BinFmt := ⟨5, 2, 15, false⟩
def binE4M3 : BinFmt := ⟨4, 3, 7, true⟩

/-- The binary layout of a float format. -/
def binOf : Fmt → Option BinFmt
  | .f32 => some binF32 | .f16 => some binF16 | .bf16 => some binBF16 | .e5m2 => some binE5M2 | .e4m3 => some binE4M3
  | _ => none

/-- The code of the sign bit. -/
def signCode (b : BinFmt) (neg : Bool) : Nat := if neg then 2 ^ (b.eb + b.fb) else 0
/-- The code of +infinity of the formats that have one. -/
def infCode (b : BinFmt) : Nat := (2 ^ b.eb - 1) * 2 ^ b.fb
/-- The code of the largest finite magnitude (06 R113). -/
def maxCode (b : BinFmt) : Nat := if b.e4m3 then 0x7E else infCode b - 1
/-- The canonical NaN (06 R117). -/
def nanCode (b : BinFmt) : Nat := if b.e4m3 then 0x7F else infCode b + 2 ^ (b.fb - 1)

/-- The fraction m × 2^e. -/
def dyadic (neg : Bool) (m : Nat) (e : Int) : XVal :=
  if 0 ≤ e then .fin neg (m * 2 ^ e.toNat) 1 else .fin neg m (2 ^ (-e).toNat)

/-- The value of a binary float code (06 R115). -/
def binValue (b : BinFmt) (code : Nat) : XVal :=
  let neg := code / 2 ^ (b.eb + b.fb) % 2 == 1
  let e := code / 2 ^ b.fb % 2 ^ b.eb
  let f := code % 2 ^ b.fb
  if b.e4m3 && code % 128 == 127 then .nan
  else if !b.e4m3 && e == 2 ^ b.eb - 1 then if f == 0 then .inf neg else .nan
  else if e == 0 then dyadic neg f (1 - (b.bias : Int) - (b.fb : Int))
  else dyadic neg (2 ^ b.fb + f) ((e : Int) - (b.bias : Int) - (b.fb : Int))

/-- ⌊log2 (num/den)⌋ of a positive fraction. -/
def log2Frac (num den : Nat) : Int :=
  let l : Int := (Nat.log2 num : Int) - (Nat.log2 den : Int)
  let below : Bool := if 0 ≤ l then num < den * 2 ^ l.toNat else num * 2 ^ (-l).toNat < den
  if below then l - 1 else l

/-- The choice of a rounding mode between a floor and its successor (06 R118): `rem`/`den` is what lies above. -/
def roundsUp (r : Rnd) (neg : Bool) (floor rem den : Nat) : Bool :=
  match r with
  | .rne => den < 2 * rem || (2 * rem == den && floor % 2 == 1)
  | .rtz => false
  | .rup => rem != 0 && !neg
  | .rdn => rem != 0 && neg

/-- What replaces a magnitude above the largest finite one (06 R118). -/
def overflowCode (b : BinFmt) (r : Rnd) (neg : Bool) : Nat :=
  if b.e4m3 then 0x7E
  else
    match r, neg with
    | .rne, _ => infCode b
    | .rtz, _ => maxCode b
    | .rup, false => infCode b
    | .rup, true => maxCode b
    | .rdn, false => maxCode b
    | .rdn, true => infCode b

/-- Round ±num/den to a binary float code (06 R118). -/
def roundBin (b : BinFmt) (r : Rnd) (neg : Bool) (num den : Nat) : Nat :=
  if num = 0 then signCode b neg
  else
    let emin : Int := 1 - (b.bias : Int)
    let e := log2Frac num den
    let q := (if e < emin then emin else e) - (b.fb : Int)
    let n' := if 0 ≤ q then num else num * 2 ^ (-q).toNat
    let d' := if 0 ≤ q then den * 2 ^ q.toNat else den
    let fl := n' / d'
    let m := if roundsUp r neg fl (n' % d') d' then fl + 1 else fl
    let code := (q - (emin - (b.fb : Int))).toNat * 2 ^ b.fb + m
    signCode b neg + (if maxCode b < code then overflowCode b r neg else code)

/-- Round ±num/den to an integer (06 R118). -/
def roundInt (r : Rnd) (neg : Bool) (num den : Nat) : Int :=
  let fl := num / den
  let m := if roundsUp r neg fl (num % den) den then fl + 1 else fl
  if neg then -(m : Int) else (m : Int)

/-- Round an exact value to a binary float code (06 R116, R118; R124 for E4M3 infinities). -/
def toBin (b : BinFmt) (r : Rnd) : XVal → Nat
  | .nan => nanCode b
  | .inf neg => signCode b neg + (if b.e4m3 then 0x7E else infCode b)
  | .fin neg n d => roundBin b r neg n d

/-! ## MD8 -/

/-- The magnitude of an MD8 code below 128, in units of 1/(32 × 10^7) (06 R119). -/
def md8Mag (p : Nat) : Nat :=
  if p = 0 then 0
  else if p = 1 then 32
  else
    let z := 6 - Nat.log2 p
    let f := 5 - z
    let frac := p % 2 ^ f
    let x := p / 2 ^ f % 2
    let m := (2 ^ f + 9 * frac) * 2 ^ (5 - f)
    if x = 0 then m * 10 ^ (7 + z) else m * 10 ^ (6 - z)

/-- The unit of `md8Mag`. -/
def md8Unit : Nat := 32 * 10 ^ 7

/-- The F32 equivalent of an MD8 code, as a value (06 R121). -/
def md8Value (code : Nat) : XVal :=
  let p := code % 128
  let neg := code / 128 % 2 == 1
  if p = 0 then if neg then .nan else .fin false 0 1
  else binValue binF32 (roundBin binF32 .rne neg (md8Mag p) md8Unit)

/-- The distance of a magnitude code from num/den, in units of 1/(den × md8Unit). -/
def md8Dist (num den p : Nat) : Nat :=
  let a := num * md8Unit
  let c := md8Mag p * den
  if a < c then c - a else a - c

/-- The nearest MD8 magnitude among codes 1 to 127, ties to the even code (06 R122). -/
def md8Nearest (num den : Nat) : Nat → Nat → Nat
  | 0, best => best
  | p + 1, best =>
    let d := md8Dist num den (p + 1)
    let e := md8Dist num den best
    md8Nearest num den p (if d < e || (d == e && (p + 1) % 2 == 0) then p + 1 else best)

/-- A conversion to MD8 (06 R122). -/
def toMd8 : XVal → Nat
  | .nan => 0x80
  | .inf neg => (if neg then 128 else 0) + 2
  | .fin neg n d =>
    if n * 2 * 10 ^ 7 ≤ d then 0
    else if d * 10 ^ 5 ≤ n then (if neg then 128 else 0) + 2
    else (if neg then 128 else 0) + md8Nearest n d 127 127

/-! ## Conversions (06 R124) -/

/-- An integer as an exact value. -/
def intX (i : Int) : XVal := .fin (i < 0) i.natAbs 1

/-- The exact value of a container (or a 64-bit pair) of format `f`; a pointer counts as an integer. -/
def valueOf (f : Fmt) (v : Nat) : XVal :=
  match binOf f with
  | some b => binValue b v
  | none =>
    match f with
    | .md8 => md8Value (v % 256)
    | _ => if fmtSigned f then intX (signedOf (fmtWidth f) v) else intX ((v % 2 ^ fmtWidth f : Nat) : Int)

/-- The range of an integer format (06 R113). -/
def intMin (f : Fmt) : Int := if fmtSigned f then -((2 ^ (fmtWidth f - 1) : Nat) : Int) else 0
def intMax (f : Fmt) : Int :=
  if fmtSigned f then ((2 ^ (fmtWidth f - 1) : Nat) : Int) - 1 else ((2 ^ fmtWidth f : Nat) : Int) - 1

def clampInt (lo hi i : Int) : Int := if i < lo then lo else if hi < i then hi else i

/-- The bits of an integer in `w` bits, two's complement. -/
def natOfInt (w : Nat) (i : Int) : Nat := (BitVec.ofInt w i).toNat

/-- Convert an exact value to the bits of format `t` (06 R124, the table by target kind). -/
def convertX (r : Rnd) (x : XVal) (t : Fmt) : Nat :=
  match binOf t with
  | some b => toBin b r x
  | none =>
    match t with
    | .md8 => toMd8 x
    | _ =>
      match x with
      | .nan => 0
      | .inf neg => natOfInt (fmtWidth t) (if neg then intMin t else intMax t)
      | .fin neg n d => natOfInt (fmtWidth t) (clampInt (intMin t) (intMax t) (roundInt r neg n d))

/-- Convert bits `v` of format `f` to the bits of format `t` (06 R124): the same format returns the source, but for a NaN. -/
def convert (r : Rnd) (f t : Fmt) (v : Nat) : Nat :=
  if f = t ∧ valueOf f v ≠ .nan then v % 2 ^ fmtWidth f else convertX r (valueOf f v) t

/-! ## Arithmetic on exact values (06 R116, R125) -/

def XVal.negate : XVal → XVal
  | .nan => .nan
  | .inf n => .inf (!n)
  | .fin n a d => .fin (!n) a d

/-- The exact sum; the rounding mode decides the sign of an exact zero. -/
def XVal.add (r : Rnd) : XVal → XVal → XVal
  | .nan, _ => .nan
  | _, .nan => .nan
  | .inf a, .inf b => if a = b then .inf a else .nan
  | .inf a, .fin _ _ _ => .inf a
  | .fin _ _ _, .inf b => .inf b
  | .fin na a da, .fin nb b db =>
    let x := a * db
    let y := b * da
    if na = nb then .fin na (x + y) (da * db)
    else if x = y then .fin (r == .rdn) 0 1
    else if y < x then .fin na (x - y) (da * db)
    else .fin nb (y - x) (da * db)

/-- The exact product (06 R125). -/
def XVal.mul : XVal → XVal → XVal
  | .nan, _ => .nan
  | _, .nan => .nan
  | .inf a, .inf b => .inf (a != b)
  | .inf a, .fin nb b _ => if b = 0 then .nan else .inf (a != nb)
  | .fin na a _, .inf b => if a = 0 then .nan else .inf (na != b)
  | .fin na a da, .fin nb b db => .fin (na != nb) (a * b) (da * db)

/-- a < b; −0 counts as +0. Both are numbers. -/
def XVal.lt : XVal → XVal → Bool
  | .nan, _ => false
  | _, .nan => false
  | .inf a, .inf b => a && !b
  | .inf a, .fin _ _ _ => a
  | .fin _ _ _, .inf b => !b
  | .fin na a da, .fin nb b db =>
    match na, nb with
    | false, false => a * db < b * da
    | true, true => b * da < a * db
    | true, false => a != 0 || b != 0
    | false, true => false

def XVal.isNan : XVal → Bool | .nan => true | _ => false
def XVal.isNeg : XVal → Bool | .nan => false | .inf n => n | .fin n _ _ => n

/-- F32 addition of two codes in RNE (06 R126, R128). -/
def addF32 (a b : Word) : Word :=
  BitVec.ofNat 32 (toBin binF32 .rne ((binValue binF32 a.toNat).add .rne (binValue binF32 b.toNat)))

/-- The lesser of two float values with −0 below +0 (07 R134); one NaN gives the other operand. -/
def minX (a b : XVal) : XVal :=
  match a.isNan, b.isNan with
  | true, true => .nan
  | true, false => b
  | false, true => a
  | false, false => if a.lt b || (!b.lt a && a.isNeg) then a else b

/-- The greater of two float values (07 R134). -/
def maxX (a b : XVal) : XVal :=
  match a.isNan, b.isNan with
  | true, true => .nan
  | true, false => b
  | false, true => a
  | false, false => if b.lt a || (!a.lt b && b.isNeg) then a else b

/-! ## Transcendental functions (07 R136): the exact real value rounded once. Values that are no fraction are computed in
fixed point with 256 fraction bits, far below the last place that could change a rounding to F32. -/

/-- Fraction bits of the fixed point. -/
def fxBits : Nat := 256
def fxOne : Nat := 2 ^ fxBits
/-- ln 2 × 2^320, rounded down. -/
def ln2Fx320 : Nat := 1480553391661173448385607439722553250922680800745876974795605978609098082859138712941075737848984
/-- ln 2 in fixed point. -/
def ln2Fx : Nat := ln2Fx320 / 2 ^ 64

/-- The Horner form of the exponential series: 1 + (r/i)(1 + (r/(i+1))(…)), from term `n` down. -/
def expTerms (r : Nat) : Nat → Nat → Nat
  | 0, acc => acc
  | n + 1, acc => expTerms r n (fxOne + r * acc / ((n + 1) * fxOne))

/-- e^r of a fixed-point r in [0, 1). -/
def expFrac (r : Nat) : Nat := expTerms r 70 fxOne

/-- e^y of a non-negative fixed-point y, in fixed point. -/
def expPos (y : Nat) : Nat :=
  let k := y / ln2Fx
  expFrac (y - k * ln2Fx) * 2 ^ k

/-- The sum of z^(2i+1)/(2i+1) for i below `n` (atanh), `zp` the current power. -/
def atanhTerms (z2 : Nat) : Nat → Nat → Nat → Nat
  | 0, _, _ => 0
  | n + 1, i, zp => zp / (2 * i + 1) + atanhTerms z2 n (i + 1) (zp * z2 / fxOne)

/-- log2 of a fraction num/den in [1, 2), in fixed point. -/
def log2Fx (num den : Nat) : Nat :=
  let z := (num - den) * fxOne / (num + den)
  2 * atanhTerms (z * z / fxOne) 100 0 z * fxOne / ln2Fx

/-- The integer square root, bit by bit from bit `n` down. -/
def isqrtGo (v : Nat) : Nat → Nat → Nat
  | 0, s => s
  | n + 1, s =>
    let t := s + 2 ^ n
    isqrtGo v n (if t * t ≤ v then t else s)

def isqrt (v : Nat) : Nat := isqrtGo v (Nat.log2 v / 2 + 1) 0

/-- FRCP. -/
def frcpX : XVal → XVal
  | .nan => .nan
  | .inf n => .fin n 0 1
  | .fin n a d => if a = 0 then .inf n else .fin n d a

/-- FRSQ: the square root of den/num with 512 fraction bits; when it is not exact, a half unit below the last place
stands for the rest. -/
def frsqX : XVal → XVal
  | .nan => .nan
  | .inf n => if n then .nan else .fin false 0 1
  | .fin n a d =>
    if a = 0 then .inf n
    else if n then .nan
    else
      let v := d * 2 ^ 1024 / a
      let s := isqrt v
      if s * s = v ∧ d * 2 ^ 1024 % a = 0 then .fin false s (2 ^ 512) else .fin false (2 * s + 1) (2 ^ 513)

/-- FEXP2. -/
def fexp2X : XVal → XVal
  | .nan => .nan
  | .inf n => if n then .fin false 0 1 else .inf false
  | .fin neg a d =>
    if neg then
      if 150 * d ≤ a then .fin false 0 1
      else
        let k := (a + d - 1) / d
        let f := (k * d - a) * ln2Fx / d
        if a % d = 0 then .fin false 1 (2 ^ k) else .fin false (expFrac f) (fxOne * 2 ^ k)
    else if 128 * d ≤ a then .inf false
    else
      let k := a / d
      if a % d = 0 then .fin false (2 ^ k) 1 else .fin false (expFrac ((a % d) * ln2Fx / d) * 2 ^ k) fxOne

/-- FLOG2. -/
def flog2X : XVal → XVal
  | .nan => .nan
  | .inf n => if n then .nan else .inf false
  | .fin neg a d =>
    if a = 0 then .inf true
    else if neg then .nan
    else
      let e := log2Frac a d
      let n' := if 0 ≤ e then a else a * 2 ^ (-e).toNat
      let d' := if 0 ≤ e then d * 2 ^ e.toNat else d
      if n' = d' then intX e
      else
        let v : Int := e * (fxOne : Int) + (log2Fx n' d' : Int)
        .fin (v < 0) v.natAbs fxOne

/-- FTANH. -/
def ftanhX : XVal → XVal
  | .nan => .nan
  | .inf n => .fin n 1 1
  | .fin n a d =>
    if a * 2 ^ 12 < d then .fin n a d
    else if 10 * d ≤ a then .fin n 1 1
    else
      let e := expPos (2 * a * fxOne / d)
      .fin n (e - fxOne) (e + fxOne)

/-- The logistic function of ±a/d (07 R136 FSIG, 13 R228). -/
def sigmoid (neg : Bool) (a d : Nat) : Nat × Nat :=
  let e := expPos (a * fxOne / d)
  if neg then (fxOne, fxOne + e) else (e, e + fxOne)

/-- FSIG. -/
def fsigX : XVal → XVal
  | .nan => .nan
  | .inf n => if n then .fin false 0 1 else .fin false 1 1
  | .fin n a d =>
    if n ∧ 104 * d ≤ a then .fin false 0 1
    else if ¬ n ∧ 35 * d ≤ 2 * a then .fin false 1 1
    else .fin false (sigmoid n a d).1 (sigmoid n a d).2

/-- SIG[t] of 13 R228. -/
def sigTable (t : Nat) : Nat :=
  let p := if t < 2048 then sigmoid true (2048 - t) 128 else sigmoid false (t - 2048) 128
  min 65535 ((2 * 65536 * p.1 + p.2) / (2 * p.2))

/-! ## Exact slots (06 R129 to R131) -/

/-- Add a value to a slot. -/
def slotAdd (t : BitVec 320) (x : XVal) : BitVec 320 :=
  match x with
  | .nan => t ||| (BitVec.ofNat 320 (2 ^ 312))
  | .inf n => t ||| (BitVec.ofNat 320 (if n then 2 ^ 314 else 2 ^ 313))
  | .fin n a d =>
    let v : Int := (a * 2 ^ 149 / d : Nat)
    let f := ((t.extractLsb' 0 312).toNat : Int) + (if n then -v else v)
    t.extractLsb' 312 8 ++ BitVec.ofInt 312 f

/-- Read a slot out as a value (06 R131). -/
def slotValue (t : BitVec 320) : XVal :=
  let nan := t.getLsbD 312
  let pinf := t.getLsbD 313
  let ninf := t.getLsbD 314
  if nan || (pinf && ninf) then .nan
  else if pinf then .inf false
  else if ninf then .inf true
  else
    let v := (t.extractLsb' 0 312).toInt
    .fin (v < 0) v.natAbs (2 ^ 149)

/-- The sum of a list of F32 codes in the pairwise tree (06 R128): one level. -/
def pairUp : List Word → List Word
  | a :: b :: rest => addF32 a b :: pairUp rest
  | [a] => [a]
  | [] => []

/-- The pairwise tree, with one level for each unit of fuel. -/
def treeSum : Nat → List Word → Word
  | 0, l => l.headD 0
  | n + 1, l => treeSum n (pairUp l)

/-- The sequential sum (06 R128). -/
def seqSum : List Word → Word
  | [] => 0
  | a :: rest => rest.foldl addF32 a

end Sys2Proof.Machine
end

