-- ==== Sys2Proof/Machine/Lookup.lean ====
section
/-! DEFINITION. Machine/Lookup.lean: finding and replacing the parts of the machine, causes by name (18 R284), and the
small list and bit helpers the rest uses. -/

namespace Sys2Proof.Machine

/-! ## Cause numbers (18 R284) -/
namespace Cause
def zeroWord : Nat := 0
def onesWord : Nat := 1
def undefMajor : Nat := 2
def illegal : Nat := 3
def undefFunction : Nat := 4
def reservedNonzero : Nat := 5
def badRegcode : Nat := 6
def badWidthcode : Nat := 7
def chainIllegal : Nat := 8
def regRange : Nat := 9
def sysregUndef : Nat := 10
def eretOutside : Nat := 11
def breakpoint : Nat := 12
def callDiverged : Nat := 13
def fetchSpace : Nat := 14
def nullPointer : Nat := 16
def spaceReserved : Nat := 17
def spaceMismatch : Nat := 18
def vaRange : Nat := 19
def vaultBounds : Nat := 20
def scratchBounds : Nat := 21
def hstSubbyte : Nat := 22
def hstAtomic : Nat := 23
def tableBad : Nat := 24
def pageNotPresent : Nat := 25
def pageWrite : Nat := 26
def pageFetch : Nat := 27
def rangeLocked : Nat := 28
def memUncorrectable : Nat := 29
def rmtRefused : Nat := 30
def hstError : Nat := 31
def misaligned : Nat := 48
def atomicStraddle : Nat := 49
def tagMismatch : Nat := 64
def sealMismatch : Nat := 80
def layoutInvalid : Nat := 81
def hoistParam : Nat := 82
def hoistMismatch : Nat := 83
def hoistStuck : Nat := 84
def mxBusy : Nat := 85
def mxCluster : Nat := 86
def mxOperand : Nat := 87
def sparseMeta : Nat := 88
def sluiceParam : Nat := 89
def sluiceRemote : Nat := 90
def springBusy : Nat := 91
def springImage : Nat := 92
def springColour : Nat := 93
def springRange : Nat := 94
def pondFull : Nat := 96
def pondHandle : Nat := 97
def pondBroken : Nat := 98
def pondParam : Nat := 99
def pondLimit : Nat := 100
def pondBasin : Nat := 101
def cursorStale : Nat := 102
def cursorLimit : Nat := 103
def cursorRange : Nat := 104
def tsRegress : Nat := 112
def taskOutside : Nat := 113
def taskParam : Nat := 114
def memberSelf : Nat := 128
def memberMismatch : Nat := 129
def memberStuck : Nat := 130
def joinBusy : Nat := 131
def joinIdle : Nat := 132
def joinForeign : Nat := 133
def barTwice : Nat := 134
def barNoarrive : Nat := 135
def barStuck : Nat := 136
def sendStall : Nat := 137
def qHandle : Nat := 138
def qParam : Nat := 139
def qLimit : Nat := 140
def qFullreg : Nat := 141
def qNotreg : Nat := 142
def qGone : Nat := 143
def budgetExhaust : Nat := 144
def cancelled : Nat := 145
def chuteOrphan : Nat := 146
def lodeBusy : Nat := 147
def lodeFault : Nat := 148
def tapeBad : Nat := 149
def tapeBusy : Nat := 150
def joinStuck : Nat := 151
def doubleTrap : Nat := 160
def unhandled : Nat := 161
def ctxSmall : Nat := 162
def restoreBad : Nat := 163
def vfReset : Nat := 164
/-- TRAP n (05 R110). -/
def trapBase : Nat := 176
end Cause

/-- The replayable causes (18 R284: 25 to 27). -/
def replayable (c : Nat) : Bool := 25 ≤ c && c ≤ 27

/-! ## Bits of numbers and pointers -/

/-- `n` bits of `v` from bit `lo`. -/
def bitsAt (v lo n : Nat) : Nat := v / 2 ^ lo % 2 ^ n
def bitAt (v i : Nat) : Bool := v / 2 ^ i % 2 == 1
/-- The space of a pointer (08 R157). -/
def spaceOf (p : Dword) : Nat := (p.extractLsb' 60 4).toNat
/-- Bits [59:0] of a pointer. -/
def low60 (p : Dword) : Nat := (p.extractLsb' 0 60).toNat
/-- A pointer moved by `n` bits within its space, modulo 2^60. -/
def ptrAdd (p : Dword) (n : Nat) : Dword := p.extractLsb' 60 4 ++ (p.extractLsb' 0 60 + BitVec.ofNat 60 n)
/-- The same for a signed displacement. -/
def ptrAddInt (p : Dword) (i : Int) : Dword := p.extractLsb' 60 4 ++ (p.extractLsb' 0 60 + BitVec.ofInt 60 i)
/-- The address within the space (08 R157). -/
def addrIn (p : Dword) : Nat :=
  match spaceOf p with
  | 0 => bitsAt p.toNat 0 51
  | 1 => bitsAt p.toNat 0 51
  | 2 => bitsAt p.toNat 0 28
  | 3 => bitsAt p.toNat 0 22
  | 4 => bitsAt p.toNat 0 22
  | 5 => bitsAt p.toNat 0 48
  | 7 => bitsAt p.toNat 0 28
  | _ => low60 p
/-- DEV or DEVS. -/
def isDev (p : Dword) : Bool := spaceOf p == 0 || spaceOf p == 1
/-- The cause of a null or reserved space (08 R160 checks 1 and 2). -/
def spaceCause (p : Dword) : Option Nat :=
  if spaceOf p = 15 then some Cause.nullPointer else if 8 ≤ spaceOf p then some Cause.spaceReserved else none

/-! ## Lanes -/

def laneBit (m : Mask) (i : Nat) : Bool := m.getLsbD i
/-- The mask of one lane. -/
def laneMask (i : Nat) : Mask := BitVec.ofNat 32 (2 ^ i)
/-- The lanes of a mask, ascending. -/
def lanesOf (m : Mask) : List Nat := (List.range 32).filter fun i => m.getLsbD i
/-- The mask of the lanes that satisfy `p`. -/
def maskOf (p : Nat → Bool) : Mask := BitVec.ofNat 32 ((List.range 32).foldl (fun acc i => if p i then acc + 2 ^ i else acc) 0)
/-- The lowest lane of a mask. -/
def firstLane (m : Mask) : Nat := (lanesOf m).headD 0
def subMask (a b : Mask) : Bool := a &&& ~~~b == 0

/-! ## Lists of numbered parts -/

/-- Replace the first element that satisfies `p`. -/
def replaceFirst {α : Type} (p : α → Bool) (f : α → α) : List α → List α
  | [] => []
  | a :: l => if p a then f a :: l else a :: replaceFirst p f l

/-- The element with the least key, the first among equals. -/
def minBy {α : Type} (key : α → Nat) : List α → Option α
  | [] => none
  | a :: l =>
    match minBy key l with
    | none => some a
    | some b => if key b < key a then some b else some a

/-- The least natural number below `n` that satisfies `p`. -/
def leastBelow (n : Nat) (p : Nat → Bool) : Option Nat := (List.range n).find? p

/-! ## State parts -/

def State.core (s : State) (c : Nat) : Core := s.cores.getD c Core.reset
def State.modCore (s : State) (c : Nat) (f : Core → Core) : State := { s with cores := s.cores.modify c f }
def State.fn (s : State) (f : Nat) : Fn := s.fns.getD f Fn.reset
def State.modFn (s : State) (i : Nat) (f : Fn → Fn) : State := { s with fns := s.fns.modify i f }
def State.part (s : State) (p : Nat) : Part := s.parts.getD p Part.reset
def State.modPart (s : State) (p : Nat) (f : Part → Part) : State := { s with parts := s.parts.modify p f }
def State.spring (s : State) (d : Nat) : Spring := s.springs.getD d Spring.reset
def State.modSpring (s : State) (d : Nat) (f : Spring → Spring) : State := { s with springs := s.springs.modify d f }
def State.stack (s : State) (k : Nat) : Stack := s.sluiceStacks.getD k ⟨[], []⟩
def State.modStack (s : State) (k : Nat) (f : Stack → Stack) : State := { s with sluiceStacks := s.sluiceStacks.modify k f }
def State.gang? (s : State) (i : Nat) : Option Gang := s.gangs.find? fun g => g.id == i
def State.modGang (s : State) (i : Nat) (f : Gang → Gang) : State :=
  { s with gangs := replaceFirst (fun g => g.id == i) f s.gangs }
def State.launch? (s : State) (i : Nat) : Option Launch := s.launches.find? fun l => l.id == i
def State.modLaunch (s : State) (i : Nat) (f : Launch → Launch) : State :=
  { s with launches := replaceFirst (fun l => l.id == i) f s.launches }
def State.graph? (s : State) (i : Nat) : Option Graph := s.graphs.find? fun l => l.id == i
def State.modGraph (s : State) (i : Nat) (f : Graph → Graph) : State :=
  { s with graphs := replaceFirst (fun l => l.id == i) f s.graphs }
def State.phase? (s : State) (i : Nat) : Option Phase := s.phases.find? fun l => l.id == i
def State.modPhase (s : State) (i : Nat) (f : Phase → Phase) : State :=
  { s with phases := replaceFirst (fun l => l.id == i) f s.phases }
def State.slice? (s : State) (i : Nat) : Option Slice := s.slices.find? fun l => l.id == i
def State.modSlice (s : State) (i : Nat) (f : Slice → Slice) : State :=
  { s with slices := replaceFirst (fun l => l.id == i) f s.slices }
def State.pond? (s : State) (p k : Nat) : Option Pond := s.ponds.find? fun x => x.part == p && x.slot == k
def State.modPond (s : State) (p k : Nat) (f : Pond → Pond) : State :=
  { s with ponds := replaceFirst (fun x => x.part == p && x.slot == k) f s.ponds }
def State.queue? (s : State) (p k : Nat) : Option Queue := s.queues.find? fun x => x.part == p && x.slot == k
def State.modQueue (s : State) (p k : Nat) (f : Queue → Queue) : State :=
  { s with queues := replaceFirst (fun x => x.part == p && x.slot == k) f s.queues }
def State.cmd? (s : State) (i : Nat) : Option EngCmd := s.cmds.find? fun x => x.id == i
def State.modCmd (s : State) (i : Nat) (f : EngCmd → EngCmd) : State :=
  { s with cmds := replaceFirst (fun x => x.id == i) f s.cmds }
def Gang.crew? (g : Gang) (i : Nat) : Option Crew := g.crews.find? fun c => c.index == i
def Gang.modCrew (g : Gang) (i : Nat) (f : Crew → Crew) : Gang :=
  { g with crews := replaceFirst (fun c => c.index == i) f g.crews }
def State.crew? (s : State) (gid ci : Nat) : Option Crew := (s.gang? gid).bind fun g => g.crew? ci
def State.modCrew (s : State) (gid ci : Nat) (f : Crew → Crew) : State := s.modGang gid fun g => g.modCrew ci f

/-- A fresh number for an instance or a command. -/
def State.fresh (s : State) : Nat × State := (s.nextId, { s with nextId := s.nextId + 1 })

/-- The partition whose FUNCS names function `f` (02 R28). -/
def partOfFn (s : State) (f : Nat) : Option Nat := leastBelow 64 fun p => (s.part p).funcs.getLsbD f

/-- The partition whose CLUSTERS holds core `c` (02 R28). -/
def coreInPart (s : State) (p c : Nat) : Bool := (s.part p).clusters.getLsbD (c / 4)

/-- The cores of a partition, ascending. -/
def partCores (s : State) (p : Nat) : List Nat := (List.range 256).filter fun c => coreInPart s p c

/-- Bytes of the node area of a core of partition `p` (08 R158). -/
def nodeBytes (s : State) (p : Nat) : Nat := 512 * (s.part p).nodescr

/-- Bit `i` of a crew's live mask: the lane has not exited (04 R87). -/
def Crew.live (c : Crew) : Mask := maskOf fun i => (c.pcs.getD i ⟨0, .exited, 0⟩).st != .exited

/-- The lanes of a crew in a given state. -/
def Crew.lanesIn (c : Crew) (p : LaneState → Bool) : Mask := maskOf fun i => p (c.pcs.getD i ⟨0, .exited, 0⟩).st

/-- Change the entries of some lanes. -/
def Crew.modLanes (c : Crew) (m : Mask) (f : PcEntry → PcEntry) : Crew :=
  { c with pcs := c.pcs.mapIdx fun i e => if m.getLsbD i then f e else e }

/-- The entry of a lane. -/
def Crew.lane (c : Crew) (i : Nat) : PcEntry := c.pcs.getD i ⟨0, .exited, 0⟩

/-- TSTAT.ACTIVE: the crew is in handler mode (18 R277). -/
def Crew.inHandler (c : Crew) : Bool := c.trap.tstat.getLsbD 0

/-- m[i], with m0 all-ones (04 R68). -/
def Crew.mask (c : Crew) (i : Nat) : Mask := if i = 0 then 0xFFFFFFFF else c.m.getD i 0
def Crew.kreg (c : Crew) (k : KReg) : Dword := c.k.getD k.toNat 0
def Crew.setK (c : Crew) (k : KReg) (v : Dword) : Crew := { c with k := c.k.set k.toNat v }

/-! ## The chute (03 R50, 04 R83) -/

/-- The entries that an instruction can still pop or peek, oldest first. -/
def Crew.chute (c : Crew) : List ChuteEntry := c.fifo.filterMap fun e => if e.2 = 0 then some e.1 else none

/-- Mark the first `n` entries that are not taken as taken by lanes `m`. -/
def takeFirst (m : Mask) : Nat → List (ChuteEntry × Mask) → List (ChuteEntry × Mask)
  | 0, l => l
  | _ + 1, [] => []
  | n + 1, e :: l => if e.2 = 0 then (e.1, m) :: takeFirst m n l else e :: takeFirst m (n + 1) l

/-- Remove the first `n` entries that are not taken. -/
def dropFirst : Nat → List (ChuteEntry × Mask) → List (ChuteEntry × Mask)
  | 0, l => l
  | _ + 1, [] => []
  | n + 1, e :: l => if e.2 = 0 then dropFirst n l else e :: dropFirst (n + 1) l

/-- Lanes of `m` have taken entries. -/
def Crew.hasTaken (c : Crew) (m : Mask) : Bool := c.fifo.any fun e => e.2 &&& m != 0

/-- A waiting instruction takes the `n` entries that it has popped; they leave when it completes. -/
def Crew.takePops (c : Crew) (n : Nat) (m : Mask) : Crew := { c with fifo := takeFirst m n c.fifo }

/-- An instruction of lanes `m` with `n` pops completes. -/
def Crew.spend (c : Crew) (n : Nat) (m : Mask) : Crew :=
  { c with fifo := if c.hasTaken m then c.fifo.filter fun e => e.2 &&& m == 0 else dropFirst n c.fifo }

/-- Lanes `k` complete with lanes `m` what `m` waited for. -/
def Crew.joinTaken (c : Crew) (m k : Mask) : Crew :=
  { c with fifo := c.fifo.map fun e => if e.2 &&& m = 0 then e else (e.1, e.2 ||| k) }

/-- The instruction of lanes `m` does not complete: the chute is as it was (03 R50). -/
def Crew.giveBack (c : Crew) (m : Mask) : Crew :=
  { c with fifo := c.fifo.map fun e => if e.2 &&& m = 0 then e else (e.1, 0) }

/-- The chute as lanes `m` see it: what they have taken comes first. -/
def Crew.seenBy (c : Crew) (m : Mask) : Crew :=
  if c.hasTaken m then
    { c with fifo := ((c.fifo.filter fun e => e.2 &&& m != 0).map fun e => (e.1, 0)) ++ c.fifo.filter fun e => e.2 = 0 }
  else c

/-- Act through the window that an instruction was issued with (03 R53). -/
def Crew.inWindow (c : Crew) (w : BitVec 5) (f : Crew → Crew) : Crew := { f { c with wbase := w } with wbase := c.wbase }

/-- Physical registers of the allocation (04 R65: REGS16 × 16). -/
def Crew.nregs (c : Crew) : Nat := c.regs16 * 16

/-- Signal an MSI-X vector of a function (22 R322). -/
def State.signal (s : State) (f v : Nat) : State := { s with msix := (f, v) :: s.msix }

/-- The time of an issue (04 R73), from which times before the package's own CYCLE 0 can be taken away. -/
def issueTime (s : State) : Nat := 2 ^ 64 + s.cycle.toNat

end Sys2Proof.Machine
end

