-- ==== Sys2Proof/Machine/Translate.lean ====
section
/-! DEFINITION. Machine/Translate.lean: spaces and bounds (08 R157 to R159), the checks of 08 R160 and R161, the
four-level walk (R166, R167), cached translations (R167), and dirty tracking (R170). -/

namespace Sys2Proof.Machine

/-- Who makes an access: function, partition, and for a thread, lode thread or engine of a core the core with the
gang's scratchpad base and size (08 R158). -/
structure Agent where
  fn : Nat
  part : Nat
  core : Option Nat
  sbase : Nat
  scratch : Nat
  /-- Uses the core's cached translations. -/
  cached : Bool
  /-- A graph node: SCR and CSCR name node areas (01 R18); its `scratch` is 0. -/
  node : Bool
  deriving DecidableEq, Repr

/-- What an access does to its element. -/
inductive AccKind where | read | write | atomic | fetch
  deriving DecidableEq, Repr

/-- KIND of a fault record (08 R168). -/
def AccKind.code : AccKind → Nat | .read => 0 | .write => 1 | .atomic => 2 | .fetch => 3

/-- Which alignment rule holds (08 R161): a plain element of a width, an atomic of a width, a multiple of a number, or none. -/
inductive Align where
  | plain (w : Nat)
  | atomic (w : Nat)
  | mult (n : Nat)
  | free
  deriving DecidableEq, Repr

/-- A part of an element in one storage: bits at a bit key, bits at a remote node, bits of host memory. -/
inductive Piece where
  | store (key n : Nat)
  | remote (node addr n : Nat)
  | host (addr n : Nat)
  deriving DecidableEq, Repr

def Piece.len : Piece → Nat | .store _ n => n | .remote _ _ n => n | .host _ n => n

/-- A part of an element that one request carries: its first bit in the element, the node (none for the host), the pieces. -/
structure FarPart where
  pos : Nat
  node : Option Nat
  pieces : List (Nat × Nat)
  deriving DecidableEq, Repr

/-- Join a piece to the parts after it when they begin with its node. -/
def joinPart (pos : Nat) (node : Option Nat) (addr n : Nat) : List FarPart → List FarPart
  | q :: qs => if q.node == node && q.pos == pos + n then ⟨pos, node, (addr, n) :: q.pieces⟩ :: qs else ⟨pos, node, [(addr, n)]⟩ :: q :: qs
  | [] => [⟨pos, node, [(addr, n)]⟩]

/-- The parts of an element that lie in RMT or HST, one for each node that holds some of it. -/
def farParts : Nat → List Piece → List FarPart
  | _, [] => []
  | pos, .store _ n :: ps => farParts (pos + n) ps
  | pos, .remote node addr n :: ps => joinPart pos (some node) addr n (farParts (pos + n) ps)
  | pos, .host addr n :: ps => joinPart pos none addr n (farParts (pos + n) ps)

def FarPart.width (p : FarPart) : Nat := p.pieces.foldl (fun n q => n + q.2) 0

/-! ## Bounds -/

/-- The scratchpad allocations held on core `c` by gangs of partition `p`: base and size in bytes. -/
def allocsOn (s : State) (p c : Nat) : List (Nat × Nat) :=
  s.gangs.filterMap fun g =>
    let held := g.core == c || (g.cluster && g.core / 4 == c / 4)
    let same := match s.launch? g.launch with | some l => l.part == p | none => false
    if held && same && g.scratch != 0 then some (g.sbase, g.scratch) else none

/-- Bits `a` to `e − 1` are covered by byte ranges, following one range after another. -/
def covered (allocs : List (Nat × Nat)) (e : Nat) : Nat → Nat → Bool
  | 0, a => e ≤ a
  | n + 1, a =>
    if e ≤ a then true
    else
      match allocs.find? fun r => r.1 * 8 ≤ a && a < (r.1 + r.2) * 8 with
      | some r => covered allocs e n ((r.1 + r.2) * 8)
      | none => false

/-- The bit key of bit `o` of the node area of core `c` (08 R158). -/
def nodeKey (s : State) (p c o : Nat) : Nat := scratchKey c * 8 + (2 ^ 19 - nodeBytes s p) * 8 + o

/-- Checks 1 to 3 of 08 R160 for `n` bits at a pointer, with the untranslated storage where there is one: the storage of
VLT, LOC, SCR and CSCR; none for DEV, DEVS, RMT and HST. -/
def boundCheck (s : State) (ag : Agent) (p : Dword) (n : Nat) : Except Nat (Option Nat) :=
  match spaceCause p with
  | some c => .error c
  | none =>
    let o := addrIn p
    match spaceOf p with
    | 2 =>
      let v := bitsAt p.toNat 28 8
      if bitsAt p.toNat 36 24 = 0 ∧ o + n ≤ 2 ^ 25 ∧ coreInPart s ag.part v then .ok (some (vaultKey v * 8 + o))
      else .error Cause.vaultBounds
    | 7 =>
      match ag.core with
      | some c => if bitsAt p.toNat 28 32 = 0 ∧ o + n ≤ 2 ^ 25 then .ok (some (vaultKey c * 8 + o)) else .error Cause.vaultBounds
      | none => .error Cause.vaultBounds
    | 3 =>
      match ag.core with
      | some c =>
        let top := ag.scratch * 8
        if bitsAt p.toNat 22 38 ≠ 0 ∨ top + nodeBytes s ag.part * 8 < o + n then .error Cause.scratchBounds
        else if o + n ≤ top then .ok (some (scratchKey c * 8 + ag.sbase * 8 + o))
        else if top ≤ o then .ok (some (nodeKey s ag.part c (o - top)))
        else .error Cause.scratchBounds
      | none => .error Cause.scratchBounds
    | 4 =>
      match ag.core with
      | some c =>
        let c' := c / 4 * 4 + bitsAt p.toNat 22 2
        let a := ag.sbase * 8 + o
        let allocs := allocsOn s ag.part c'
        if ag.node then
          if bitsAt p.toNat 24 36 = 0 ∧ o + n ≤ nodeBytes s ag.part * 8 then .ok (some (nodeKey s ag.part c' o))
          else .error Cause.scratchBounds
        else if bitsAt p.toNat 24 36 = 0 ∧ covered allocs (a + n) (allocs.length + 1) a then .ok (some (scratchKey c' * 8 + a))
        else .error Cause.scratchBounds
      | none => .error Cause.scratchBounds
    | 5 => .ok none
    | 6 => .ok none
    | _ => if bitsAt p.toNat 51 9 = 0 ∧ o + n ≤ 2 ^ 51 then .ok none else .error Cause.vaRange

/-- Natural-class widths (08 R161). -/
def naturalWidth (w : Nat) : Bool := w == 1 || w == 2 || w == 4 || w == 8 || w == 16 || w == 32 || w == 64 || w == 128

/-- Check 4 of 08 R160 (R161). -/
def alignCheck (p : Dword) : Align → Option Nat
  | .plain w => if addrIn p % w = 0 then none else some Cause.misaligned
  | .mult n => if addrIn p % n = 0 then none else some Cause.misaligned
  | .free => none
  | .atomic w =>
    let a := addrIn p
    if 64 < w then some Cause.atomicStraddle
    else if a % w ≠ 0 then some Cause.atomicStraddle
    else if naturalWidth w then none
    else if a / 64 = (a + w - 1) / 64 then none
    else some Cause.atomicStraddle

/-! ## The walk -/

/-- A leaf as a walk finds it. -/
structure Leaf where
  base : Nat
  log2 : Nat
  w : Bool
  x : Bool
  deriving DecidableEq, Repr

/-- A byte range lies in the function's window (08 R166). -/
def inWindow (f : Fn) (base size : Nat) : Bool := f.membase * 65536 ≤ base && base + size ≤ (f.membase + f.memsize) * 65536

/-- A 64-bit word of the range is poisoned (08 R162). -/
def poisoned (s : State) (key n : Nat) : Bool := s.poison.any fun w => w * 64 < key + n && key < w * 64 + 64

/-- One level of the walk from the table at byte address `tbl`; `dev` holds tables and pages to the window. An entry that cannot
be corrected ends it (08 R162). -/
def walkLevel (s : State) (f : Fn) (dev : Bool) (va : Nat) : Nat → Nat → Except Nat Leaf
  | 0, _ => .error Cause.tableBad
  | n + 1, tbl =>
    let level := 3 - n
    let shift := match level with | 0 => 39 | 1 => 30 | 2 => 21 | _ => 16
    let count := if level = 3 then 32 else 512
    let size := if level = 3 then 256 else 4096
    if dev ∧ ¬ inWindow f tbl size then .error Cause.tableBad
    else
      let key := (tbl + 8 * (va / 2 ^ shift % count)) * 8
      let e := if deviceBytes < tbl + size then 0 else s.mem.bits key 64
      if poisoned s key 64 then .error Cause.memUncorrectable
      else if ¬ bitAt e 0 then .error Cause.pageNotPresent
      else
        let leaf := bitAt e 1
        let base := bitsAt e 8 40 * 256
        if bitsAt e 4 4 ≠ 0 ∨ bitsAt e 48 16 ≠ 0 ∨ (leaf ∧ level = 0) ∨ (¬ leaf ∧ level = 3) then .error Cause.tableBad
        else if leaf then
          if base % 2 ^ shift ≠ 0 ∨ (dev ∧ ¬ inWindow f base (2 ^ shift)) then .error Cause.tableBad
          else .ok ⟨base, shift, bitAt e 2, bitAt e 3⟩
        else
          let next := if level = 2 then 256 else 4096
          if base % next ≠ 0 then .error Cause.tableBad else walkLevel s f dev va n base

/-- The whole walk of a virtual byte address (08 R166, R167). -/
def walk (s : State) (fn : Nat) (remote : Bool) (va : Nat) : Except Nat Leaf :=
  let f := s.fn fn
  let root := if remote then f.rroot.toNat else f.root.toNat
  if root = 0 then .error Cause.pageNotPresent else walkLevel s f (!remote) va 4 root

/-- What a leaf lacks for an access (08 R167). -/
def leafCause (l : Leaf) (k : AccKind) : Option Nat :=
  match k with
  | .read => none
  | .write => if l.w then none else some Cause.pageWrite
  | .atomic => if l.w then none else some Cause.pageWrite
  | .fetch => if l.x then none else some Cause.pageFetch

def TlbEntry.leaf (t : TlbEntry) : Leaf := ⟨t.base, t.log2, t.w, t.x⟩

/-- A cached translation of core `c` for a virtual byte address. -/
def tlbFind (s : State) (c fn : Nat) (remote : Bool) (va : Nat) : Option TlbEntry :=
  (s.core c).tlb.find? fun t => t.fn == fn && t.remote == remote && va / 2 ^ t.log2 == t.vpage

/-- Translate one virtual byte address: a cached translation that permits the access, else a walk, which a core then
caches (08 R167; log 8 for when a cached translation is used). -/
def translate (s : State) (ag : Agent) (remote : Bool) (va : Nat) (k : AccKind) : Except Nat Leaf × State :=
  let cachedLeaf : Option Leaf :=
    match ag.cached, ag.core with
    | true, some c =>
      match tlbFind s c ag.fn remote va with
      | some t => if (leafCause t.leaf k).isNone then some t.leaf else none
      | none => none
    | _, _ => none
  match cachedLeaf with
  | some l => (.ok l, s)
  | none =>
    match walk s ag.fn remote va with
    | .error e => (.error e, s)
    | .ok l =>
      match leafCause l k with
      | some e => (.error e, s)
      | none =>
        match ag.cached, ag.core with
        | true, some c =>
          let t : TlbEntry := ⟨ag.fn, remote, va / 2 ^ l.log2, l.log2, l.base, l.w, l.x, []⟩
          let p : NamedPage := ⟨ag.fn, t.vpage, l.log2, l.base⟩
          (.ok l, s.modCore c fun r => { r with
            pages := if remote || r.pages.contains p then r.pages else p :: r.pages
            tlb := t :: r.tlb.filter fun u =>
              !(u.fn == ag.fn && u.remote == remote && u.vpage == t.vpage && u.log2 == t.log2) })
        | _, _ => (.ok l, s)

/-- The physical bit address of a virtual bit address under a leaf. -/
def leafBit (l : Leaf) (vbit : Nat) : Nat := (l.base + vbit / 8 % 2 ^ l.log2) * 8 + vbit % 8

/-- The pieces of `n` translated bits from virtual bit address `a`, one for each 64 KiB page part (`fuel` parts). -/
def transPieces (ag : Agent) (remote : Bool) (node : Nat) (k : AccKind) :
    Nat → State → Nat → Nat → Except Nat (List Piece) × State
  | 0, s, _, _ => (.ok [], s)
  | fuel + 1, s, a, n =>
    if n = 0 then (.ok [], s)
    else
      let here := min n (2 ^ 19 - a % 2 ^ 19)
      match translate s ag remote (a / 8) k with
      | (.error e, s) => (.error e, s)
      | (.ok l, s) =>
        let p := if remote then Piece.remote node (leafBit l a) here else Piece.store (leafBit l a) here
        match transPieces ag remote node k fuel s (a + here) (n - here) with
        | (.error e, s) => (.error e, s)
        | (.ok ps, s) => (.ok (p :: ps), s)

/-- A failed check: the order of 08 R160 and the cause. -/
structure Failed where
  order : Nat
  cause : Nat
  deriving DecidableEq, Repr

/-- The order of a bound cause. -/
def boundOrder (c : Nat) : Nat := if c = Cause.nullPointer then 1 else if c = Cause.spaceReserved then 2 else 3

/-- Check 5 of 08 R160: HST takes the atomics of R178 and stores of whole bytes. -/
def hostCheck (p : Dword) (n : Nat) (k : AccKind) (hostAtomic : Bool) : Option Nat :=
  if spaceOf p ≠ 6 then none
  else
    match k with
    | .atomic => if hostAtomic then none else some Cause.hstAtomic
    | .write => if addrIn p % 8 = 0 ∧ n % 8 = 0 then none else some Cause.hstSubbyte
    | _ => none

/-- Checks 1 to 6 of 08 R160 on `n` bits at a pointer, and the pieces of the element. -/
def access (s : State) (ag : Agent) (p : Dword) (n : Nat) (al : Align) (k : AccKind) (hostAtomic : Bool) :
    Except Failed (List Piece) × State :=
  match boundCheck s ag p n with
  | .error c => (.error ⟨boundOrder c, c⟩, s)
  | .ok loc =>
    match alignCheck p al with
    | some c => (.error ⟨4, c⟩, s)
    | none =>
      match hostCheck p n k hostAtomic with
      | some c => (.error ⟨5, c⟩, s)
      | none =>
        match loc with
        | some key => (.ok [.store key n], s)
        | none =>
          if spaceOf p = 6 then (.ok [.host (low60 p) n], s)
          else
            let remote := spaceOf p == 5
            match transPieces ag remote (bitsAt p.toNat 48 12) k (n / 2 ^ 19 + 2) s (addrIn p) n with
            | (.error c, s) => (.error ⟨6, c⟩, s)
            | (.ok ps, s) => (.ok ps, s)

/-! ## Storage behind the pieces -/

/-- A device byte that no stack holds (12 R216). -/
def pieceAbsent : Piece → Bool
  | .store key n => key < vaultKey 0 * 8 && deviceBytes * 8 < key + n
  | _ => false

/-- A store of `n` bits from `key`: a poisoned word that it covers loses its mark (08 R162), and the reservations that it meets
are lost when the step ends, whatever bits it writes (14 R246; log 12). -/
def noteStore (s : State) (key n : Nat) : State :=
  { s with poison := s.poison.filter fun w => !(key ≤ w * 64 && w * 64 + 64 ≤ key + n), written := (key, n) :: s.written }

/-- Set bit `i` of the dirty bitmap of a function (08 R170); never itself recorded, and nowhere outside device memory. -/
def setDirty (s : State) (fn i : Nat) : State :=
  let f := s.fn fn
  if i < f.memsize && f.dirtymap.toNat + i / 8 < deviceBytes then
    { s with mem := s.mem.setBits (f.dirtymap.toNat * 8 + i) 1 1, written := (f.dirtymap.toNat * 8 + i, 1) :: s.written }
  else s

/-- The 64 KiB parts of a function's window that bits from `key` touch. -/
def dirtyParts (f : Fn) (key n : Nat) : List Nat :=
  let lo := key / 8 / 65536
  let hi := (key + n - 1) / 8 / 65536
  (List.range (hi - lo + 1)).filterMap fun d =>
    if f.membase ≤ lo + d ∧ lo + d < f.membase + f.memsize then some (lo + d - f.membase) else none

/-- Record a write to device memory by an agent that keeps no record of the bits it set (08 R170). -/
def markDirty (s : State) (fn key n : Nat) : State :=
  let f := s.fn fn
  if f.dirtyen ∧ n ≠ 0 ∧ key < deviceBytes * 8 then (dirtyParts f key n).foldl (fun s i => setDirty s fn i) s else s

/-- Record a write of a core: a bit its cached translation already set since the last resynchronisation is left. -/
def markDirtyCore (s : State) (c fn key n : Nat) : State :=
  let f := s.fn fn
  if f.dirtyen ∧ n ≠ 0 ∧ key < deviceBytes * 8 then
    (dirtyParts f key n).foldl (fun s i =>
      let holds (t : TlbEntry) : Bool := t.fn == fn && !t.remote && t.base ≤ (f.membase + i) * 65536 &&
        (f.membase + i) * 65536 < t.base + 2 ^ t.log2
      if (s.core c).tlb.any fun t => holds t && t.dirtySet.contains i then s
      else (setDirty s fn i).modCore c fun r =>
        { r with tlb := r.tlb.map fun t => if holds t then { t with dirtySet := i :: t.dirtySet } else t }) s
  else s

/-- Functions whose dirty tracking covers some of the bits from a key (08 R170). -/
def trackers (s : State) (key n : Nat) : List Nat :=
  (s.fns.zipIdx.filter fun p =>
    p.1.dirtyen && p.1.membase * 524288 < key + n && key < (p.1.membase + p.1.memsize) * 524288).map fun p => p.2

/-- Record a write by an agent other than a core in every bitmap that tracks it (08 R170). -/
def markWrite (s : State) (key n : Nat) : State := (trackers s key n).foldl (fun s f => markDirty s f key n) s

/-- Record a write of core `c` in every bitmap that tracks it (08 R170). -/
def coreDirty (s : State) (c key n : Nat) : State := (trackers s key n).foldl (fun s f => markDirtyCore s c f key n) s

/-- Write bits of storage by an agent other than a core: memory, dirty bits and poison. -/
def storeBits (s : State) (key n v : Nat) : State :=
  noteStore (markWrite { s with mem := s.mem.setBits key n v } key n) key n

/-- Read the storage pieces of an element as one number, low piece first; remote and host pieces read 0 here. -/
def readPieces (s : State) : List Piece → Nat
  | [] => 0
  | .store key n :: ps => s.mem.bits key n + 2 ^ n * readPieces s ps
  | .remote _ _ n :: ps => 2 ^ n * readPieces s ps
  | .host _ n :: ps => 2 ^ n * readPieces s ps

/-- Write a number over the storage pieces of an element (engines, inlets and the dispatcher). -/
def writePieces (s : State) (v : Nat) : List Piece → State
  | [] => s
  | .store key n :: ps => writePieces (storeBits s key n v) (v / 2 ^ n) ps
  | p :: ps => writePieces s (v / 2 ^ p.len) ps

/-- Some piece holds a poisoned word. -/
def piecesPoisoned (s : State) (ps : List Piece) : Bool :=
  ps.any fun p => match p with | .store key n => poisoned s key n | _ => false

/-- A checked read of `n` bits by an engine, an inlet or the dispatcher (08 R160, R162). -/
def engineRead (s : State) (ag : Agent) (p : Dword) (n : Nat) (al : Align) : Except Nat Nat :=
  match (access s ag p n al .read false).1 with
  | .error f => .error f.cause
  | .ok ps => if piecesPoisoned s ps then .error Cause.memUncorrectable else .ok (readPieces s ps)

/-- A checked bit-exact write of `n` bits by an engine, an inlet or the dispatcher. -/
def engineWrite (s : State) (ag : Agent) (p : Dword) (n v : Nat) (al : Align) : Except Nat State :=
  match (access s ag p n al .write false).1 with
  | .error f => .error f.cause
  | .ok ps => .ok (writePieces s v ps)

end Sys2Proof.Machine
end

