-- ==== Sys2Proof/Machine/Access.lean ====
section
/-! DEFINITION. Machine/Access.lean: range-lock tables (12 R198 to R201), a core's data cache (08 R162, R163), and what a
thread's access does to storage. -/

namespace Sys2Proof.Machine

/-- The agent of a gang's threads and engine commands: its launch's function and partition, its core and allocation. -/
def gangAgent (s : State) (g : Gang) (cached : Bool) : Agent :=
  match s.launch? g.launch with
  | some l => ⟨l.fn, l.part, some g.core, g.sbase, g.scratch, cached, false⟩
  | none => ⟨0, 0, some g.core, g.sbase, g.scratch, cached, false⟩

/-! ## Range locks -/

/-- The physical scratchpad bit of SCR offset `o` (08 R157, R158). -/
def scrBit (s : State) (ag : Agent) (o : Nat) : Nat :=
  if o < ag.scratch * 8 then ag.sbase * 8 + o else (2 ^ 19 - nodeBytes s ag.part) * 8 + (o - ag.scratch * 8)

/-- The address form in which ranges are compared (12 R198): DEV and DEVS on bits [59:0], LOC as VLT, SCR and CSCR as
physical scratchpad bits of their core; RMT and HST have none. -/
def lockBase (s : State) (ag : Agent) (p : Dword) : Option (LockDom × Nat) :=
  match spaceOf p, ag.core with
  | 0, _ => some (.dev, low60 p)
  | 1, _ => some (.dev, low60 p)
  | 2, _ => some (.vlt, low60 p)
  | 7, some c => some (.vlt, c * 2 ^ 28 + addrIn p)
  | 3, some c => some (.scr, c * 2 ^ 22 + scrBit s ag (addrIn p))
  | 4, some c =>
    let o := if ag.node then scrBit s ag (addrIn p) else ag.sbase * 8 + addrIn p
    some (.scr, (c / 4 * 4 + bitsAt p.toNat 22 2) * 2 ^ 22 + o)
  | _, _ => none

/-- Two bit ranges meet. -/
def meets (a n b m : Nat) : Bool := a < b + m && b < a + n

/-- The ranges of `n` bits at a pointer, of kind R or W: one, or two where an SCR range runs past the gang's allocation into
the node area (08 R158); none in RMT and HST. -/
def lockRange (s : State) (ag : Agent) (p : Dword) (n : Nat) (write : Bool) : List LockRange :=
  match (if n = 0 then none else lockBase s ag p) with
  | none => []
  | some b =>
    let here := ag.scratch * 8 - addrIn p
    if spaceOf p = 3 ∧ 0 < here ∧ here < n then
      match lockBase s ag (ptrAdd p here) with
      | some d => [⟨b.1, b.2, here, write⟩, ⟨d.1, d.2, n - here, write⟩]
      | none => [⟨b.1, b.2, here, write⟩]
    else [⟨b.1, b.2, n, write⟩]

def LockRange.meets (r q : LockRange) : Bool := r.dom == q.dom && Machine.meets r.start r.len q.start q.len

/-- Two ranges conflict: they meet and one of them is a W range (12 R200, R203). -/
def LockRange.conflicts (r q : LockRange) : Bool := r.meets q && (r.write || q.write)

/-- Some entry of core `c` holds a conflicting range (12 R200); `only` limits the entries looked at. -/
def lockHit (s : State) (c : Nat) (r : LockRange) (only : LockEntry → Bool) : Bool :=
  (s.core c).locks.any fun e => only e && e.ranges.any fun q => q.conflicts r

/-- Remove the entry of a command from every table. -/
def freeEntries (s : State) (cmd : Nat) : State :=
  { s with cores := s.cores.map fun r =>
      if r.locks.any fun e => e.cmd == cmd then { r with locks := r.locks.filter fun e => e.cmd != cmd } else r }

/-- Take a range out of another: what of `q` stays when `a` to `a + n − 1` of its domain leave. -/
def LockRange.cut (q : LockRange) (d : LockDom) (a n : Nat) : List LockRange :=
  if q.dom == d && Machine.meets q.start q.len a n then
    let left : List LockRange := if q.start < a then [{ q with len := a - q.start }] else []
    let right : List LockRange := if a + n < q.start + q.len then [{ q with start := a + n, len := q.start + q.len - (a + n) }] else []
    left ++ right
  else [q]

/-- A chunk of a destination range of command `cmd` leaves the table of core `c` (12 R201). The last `keep` ranges of the entry
are those of the bitmap or the sync word, which stay whole. -/
def cutRange (s : State) (c cmd keep : Nat) (d : LockDom) (a n : Nat) : State :=
  let cut (l : List LockRange) : List LockRange := l.flatMap fun q => if q.write then q.cut d a n else [q]
  s.modCore c fun r => { r with locks := r.locks.map fun e =>
    if e.cmd == cmd then { e with ranges := cut (e.ranges.take (e.ranges.length - keep)) ++ e.ranges.drop (e.ranges.length - keep) } else e }

/-! ## The data cache of a core (08 R163) -/

def Core.line? (r : Core) (l : Nat) : Option CacheLine := r.dcache.find? fun x => x.line == l

/-- Drop a line without writing it back. -/
def dropLine (s : State) (c l : Nat) : State := s.modCore c fun r => { r with dcache := r.dcache.filter fun x => x.line != l }

/-- The bits of the words of a line that `ws` names. -/
def wordsMask (ws : BitVec 8) : BitVec 512 :=
  (List.range 8).foldl (fun m i => if ws.getLsbD i then m ||| BitVec.ofNat 512 ((2 ^ 64 - 1) * 2 ^ (64 * i)) else m) 0

/-- The words of a line that satisfy a test of their bits in a mask. -/
def wordsOf (m : BitVec 512) (p : BitVec 64 → Bool) : List Nat := (List.range 8).filter fun i => p (m.extractLsb' (i * 64) 64)

/-- Words of storage become poisoned (08 R162). -/
def poisonWord (s : State) (word : Nat) : State := { s with poison := if s.poison.contains word then s.poison else word :: s.poison }

/-- Write back the dirty bits of a line under a mask (08 R162: only those bits). Dirty bits of a word that cannot be corrected are
lost, and the word is poisoned in storage. -/
def writeBackLine (s : State) (c : Nat) (x : CacheLine) (mask : BitVec 512) : State :=
  let d := x.dirty &&& mask
  if d = 0 then s
  else
    let good := d &&& ~~~wordsMask x.bad
    let s := { s with mem := s.mem.setMasked (x.line * 512) 512 x.data.toNat good.toNat }
    let s := coreDirty s c (x.line * 512) 512
    let s : State := { s with written := (wordsOf good fun w => w != 0).map (fun i => (x.line * 512 + i * 64, 64)) ++ s.written }
    let s := (wordsOf good fun w => w == BitVec.allOnes 64).foldl (fun s i => noteStore s (x.line * 512 + i * 64) 64) s
    let s := (wordsOf (d &&& wordsMask x.bad) fun w => w != 0).foldl (fun s i => poisonWord s (x.line * 8 + i)) s
    s.modCore c fun r => { r with dcache := r.dcache.map fun y => if y.line == x.line then { y with dirty := y.dirty &&& ~~~mask } else y }

/-- A line's words that cannot be corrected stay poisoned in storage when the line leaves (log 103). -/
def keepBad (s : State) (x : CacheLine) : State :=
  if x.bad = 0 then s else ((List.range 8).filter fun i => x.bad.getLsbD i).foldl (fun s i => poisonWord s (x.line * 8 + i)) s

/-- Write back a whole line and drop it (08 R163 eviction, 15 R253, R254). -/
def evictLine (s : State) (c l : Nat) : State :=
  match (s.core c).line? l with
  | some x => keepBad (dropLine (writeBackLine s c x (BitVec.allOnes 512)) c l) x
  | none => s

/-- A line of its own choice leaves a data cache: DEVS lines go before DEV lines (08 R163). -/
def evictOne (s : State) (c l : Nat) : State :=
  let first (x : CacheLine) : Bool := x.stream || !(s.core c).dcache.any fun y => y.stream
  if ((s.core c).line? l).any first then evictLine s c l else s

/-- Write back every dirty bit of a core's data cache. -/
def writeBackAll (s : State) (c : Nat) : State :=
  (s.core c).dcache.foldl (fun s x => writeBackLine s c x (BitVec.allOnes 512)) s

/-- Write back and invalidate a core's data cache (15 R254, 18 R287). -/
def flushCache (s : State) (c : Nat) : State :=
  ((s.core c).dcache.foldl keepBad (writeBackAll s c)).modCore c fun r => { r with dcache := [] }

/-- The bits of line `l` that lie in `n` bits at key `a`. -/
def lineMask (l a n : Nat) : BitVec 512 :=
  let lo := max a (l * 512)
  let hi := min (a + n) (l * 512 + 512)
  if lo < hi then BitVec.ofNat 512 ((2 ^ (hi - lo) - 1) * 2 ^ (lo - l * 512)) else 0

/-- Some word of the line is poisoned. -/
def linePoisoned (s : State) (l : Nat) : Bool := poisoned s (l * 512) 512

/-- The words of a line of which a mask holds every bit. -/
def wholeWords (m : BitVec 512) : BitVec 8 := (wordsOf m fun w => w == BitVec.allOnes 64).foldl (fun b i => b ||| BitVec.ofNat 8 (2 ^ i)) 0

/-- The words of a line of which a mask holds some bit. -/
def touchedWords (m : BitVec 512) : BitVec 8 := (wordsOf m fun w => w != 0).foldl (fun b i => b ||| BitVec.ofNat 8 (2 ^ i)) 0

/-- A read of `n` bits of one line through the data cache, which allocates; none for an uncorrectable word. -/
def cacheRead (s : State) (c key n : Nat) (stream : Bool) : Option Nat × State :=
  let l := key / 512
  match (s.core c).line? l with
  | some x =>
    if x.bad != 0 && x.bad &&& touchedWords (lineMask l key n) != 0 then (none, s)
    else (some (bitsAt x.data.toNat (key % 512) n), s)
  | none =>
    if poisoned s key n then (none, s)
    else
      let v := s.mem.bits key n
      if linePoisoned s l then (some v, s)
      else (some v, s.modCore c fun r => { r with dcache := ⟨l, BitVec.ofNat 512 (s.mem.bits (l * 512) 512), 0, stream, 0⟩ :: r.dcache })

/-- A masked write of `n` bits of one line: DEVS writes through, DEV stays dirty in the data cache (08 R163). -/
def cacheWrite (s : State) (c key n v : Nat) (through : Bool) : State :=
  let l := key / 512
  let m := lineMask l key n
  let bits := BitVec.ofNat 512 (v % 2 ^ n * 2 ^ (key % 512))
  let put (x : CacheLine) (dirty : BitVec 512) : CacheLine :=
    { x with data := (x.data &&& ~~~m) ||| (bits &&& m), dirty := dirty, bad := if x.bad = 0 then 0 else x.bad &&& ~~~wholeWords m }
  let s := coreDirty s c key n
  match (s.core c).line? l, through with
  | some _, false => s.modCore c fun r => { r with dcache := r.dcache.map fun x => if x.line == l then put x (x.dirty ||| m) else x }
  | some _, true =>
    let s : State := { s with mem := s.mem.setBits key n v }
    noteStore (s.modCore c fun r => { r with
      dcache := r.dcache.map fun x => if x.line == l then put x (x.dirty &&& ~~~m) else x }) key n
  | none, thr =>
    if thr || linePoisoned s l then noteStore { s with mem := s.mem.setBits key n v } key n
    else s.modCore c fun r => { r with dcache := put ⟨l, BitVec.ofNat 512 (s.mem.bits (l * 512) 512), 0, false, 0⟩ m :: r.dcache }

/-- A bit key lies in device memory. -/
def isDevKey (key : Nat) : Bool := key < vaultKey 0 * 8

/-- Bits of one line of a storage, as a thread reads them: DEV and DEVS through the data cache when `cached`. -/
def partRead (s : State) (c key n : Nat) (cached stream : Bool) : Option Nat × State :=
  if isDevKey key && cached then cacheRead s c key n stream
  else if poisoned s key n then (none, s) else (some (s.mem.bits key n), s)

/-- Bits of one line of a storage, as a thread writes them. -/
def partWrite (s : State) (c key n v : Nat) (cached through : Bool) : State :=
  if isDevKey key then
    if cached then cacheWrite s c key n v through
    else noteStore { (coreDirty s c key n) with mem := (coreDirty s c key n).mem.setBits key n v } key n
  else noteStore { s with mem := s.mem.setBits key n v } key n

/-- A range of one storage read line by line. -/
def rangeRead (c : Nat) (cached stream : Bool) : Nat → State → Nat → Nat → Option Nat × State
  | 0, s, _, _ => (some 0, s)
  | fuel + 1, s, key, n =>
    if n = 0 then (some 0, s)
    else
      let here := min n (512 - key % 512)
      match partRead s c key here cached stream with
      | (none, s) => (none, s)
      | (some v, s) =>
        match rangeRead c cached stream fuel s (key + here) (n - here) with
        | (none, s) => (none, s)
        | (some r, s) => (some (v + 2 ^ here * r), s)

/-- A range of one storage written line by line. -/
def rangeWrite (c : Nat) (cached through : Bool) : Nat → State → Nat → Nat → Nat → State
  | 0, s, _, _, _ => s
  | fuel + 1, s, key, n, v =>
    if n = 0 then s
    else
      let here := min n (512 - key % 512)
      rangeWrite c cached through fuel (partWrite s c key here v cached through) (key + here) (n - here) (v / 2 ^ here)

/-- A thread's read of the pieces of an element; none for an uncorrectable word. Remote and host pieces read 0. -/
def piecesRead (s : State) (c : Nat) (cached stream : Bool) : List Piece → Option Nat × State
  | [] => (some 0, s)
  | .store key n :: ps =>
    match rangeRead c cached stream (n / 512 + 2) s key n with
    | (none, s) => (none, s)
    | (some v, s) =>
      match piecesRead s c cached stream ps with
      | (none, s) => (none, s)
      | (some r, s) => (some (v + 2 ^ n * r), s)
  | _ :: ps => piecesRead s c cached stream ps

/-- A thread's store over the pieces of an element. -/
def piecesWrite (s : State) (c v : Nat) (cached through : Bool) : List Piece → State
  | [] => s
  | .store key n :: ps => piecesWrite (rangeWrite c cached through (n / 512 + 2) s key n v) c (v / 2 ^ n) cached through ps
  | p :: ps => piecesWrite s c (v / 2 ^ p.len) cached through ps

/-- The device lines that pieces touch leave the data cache, written back: an atomic acts at the home die cache (R163). -/
def evictPieces (s : State) (c : Nat) (ps : List Piece) : State :=
  ps.foldl (fun s p =>
    match p with
    | .store key n => if isDevKey key then evictLine (evictLine s c (key / 512)) c ((key + n - 1) / 512) else s
    | _ => s) s

/-! ## Runs of device bits -/

/-- The device bits (key, length) of `n` virtual bits from bit address `a`, one run for each leaf; unmapped parts give
none. -/
def boundRuns (s : State) (fn : Nat) : Nat → Nat → Nat → List (Nat × Nat)
  | 0, _, _ => []
  | fuel + 1, a, n =>
    if n = 0 then []
    else
      match walk s fn false (a / 8) with
      | .ok l =>
        let here := min n (2 ^ (l.log2 + 3) - a % 2 ^ (l.log2 + 3))
        (leafBit l a, here) :: boundRuns s fn fuel (a + here) (n - here)
      | .error _ =>
        let here := min n (2 ^ 19 - a % 2 ^ 19)
        boundRuns s fn fuel (a + here) (n - here)

/-- The device bits of `n` virtual bits from bit address `a` under every name by which a core's cache may hold them. -/
def namedRuns (s : State) (core fn a n : Nat) : List (Nat × Nat) :=
  (s.core core).pages.filterMap fun p =>
    let size := 2 ^ (p.log2 + 3)
    let lo := max a (p.vpage * size)
    let hi := min (a + n) (p.vpage * size + size)
    if p.fn == fn && lo < hi then some (p.base * 8 + (lo - p.vpage * size), hi - lo) else none

/-- The device bits that a release, an acquire or a range on a core covers: as the tables map them now, and as the core has used them
(14 R241 to R243), so that a page that is absent at the moment leaves no line out. -/
def cachedRuns (s : State) (core fn a n : Nat) : List (Nat × Nat) := boundRuns s fn (n / 2 ^ 19 + 2) a n ++ namedRuns s core fn a n

/-- The part of a cache line that lies in the given runs. -/
def runsMask (rs : List (Nat × Nat)) (line : Nat) : BitVec 512 := rs.foldl (fun m r => m ||| lineMask line r.1 r.2) 0

/-- Write back the dirty bits of a core's data cache in given runs (15 R253 REL, 14 R242). -/
def releaseBits (s : State) (core : Nat) (rs : List (Nat × Nat)) : State :=
  (s.core core).dcache.foldl (fun s x => writeBackLine s core x (runsMask rs x.line)) s

/-- Invalidate the lines of a core's data cache that meet given runs (15 R253 ACQ, 14 R242, R243); what else such a line has dirty is written back. -/
def acquireBits (s : State) (core : Nat) (rs : List (Nat × Nat)) : State :=
  (s.core core).dcache.foldl (fun s x => if runsMask rs x.line = 0 then s else evictLine s core x.line) s

/-- The device bits of a registered range in DEV or DEVS, of a kind. -/
def rangeRuns (s : State) (core fn : Nat) (write : Bool) (r : LockRange) : List (Nat × Nat) :=
  if r.dom == .dev && r.write == write then cachedRuns s core fn (r.start % 2 ^ 51) r.len else []

/-- A command registers ranges: dirty bits of its R ranges are written back, lines of its W ranges leave (14 R242). -/
def enterRanges (s : State) (core fn : Nat) (rs : List LockRange) : State :=
  if (s.core core).dcache.isEmpty then s
  else acquireBits (releaseBits s core (rs.flatMap (rangeRuns s core fn false))) core (rs.flatMap (rangeRuns s core fn true))

/-- W ranges depart: the lines that meet them leave the data cache (14 R243). -/
def leaveRanges (s : State) (core fn : Nat) (rs : List LockRange) : State :=
  if (s.core core).dcache.isEmpty then s else acquireBits s core (rs.flatMap (rangeRuns s core fn true))

end Sys2Proof.Machine
end

