-- ==== Sys2Proof/Machine/Pond.lean ====
section
/-! DEFINITION. Machine/Pond.lean: ponds (09 R180 to R190): geometry, the balance rule, placement and its faults, handles
and cursors, making and removing, and the put of fault and trap records into FAULTPOND (08 R168, 18 R281). -/

namespace Sys2Proof.Machine

/-! ## Geometry and handles -/

/-- The basin extent E (09 R181). -/
def basinExtent (w basins slack cap : Nat) : Nat := (((cap / basins + max slack 1) * w + 511) / 512) * 512

/-- The address of record `p` of basin `b` (09 R181). -/
def Pond.recAddr (d : Pond) (b p : Nat) : Dword := ptrAdd d.base (b * basinExtent d.w d.basins d.slack d.cap + p * d.w)

/-- Who writes for an inlet: the pond's function, on no core. -/
def Pond.agent (d : Pond) : Agent := ⟨d.fn, d.part, none, 0, 0, false, false⟩

/-- A pond handle (09 R186). -/
def Pond.handle (d : Pond) : Nat := d.slot + d.gen * 4096

/-- The pond that a handle names for a function of a partition (09 R186). -/
def pondOf (s : State) (part fn : Nat) (h : Dword) : Option Pond :=
  match s.pond? part (bitsAt h.toNat 0 12) with
  | some d => if d.handle = h.toNat ∧ d.fn = fn then some d else none
  | none => none

/-- The current generation of a pond slot. -/
def pondGen (s : State) (part slot : Nat) : Nat :=
  match s.pondGens.find? fun g => g.1 == part && g.2.1 == slot with
  | some g => g.2.2
  | none => 0

/-- Write a generation. -/
def setGen (l : List (Nat × Nat × Nat)) (part slot gen : Nat) : List (Nat × Nat × Nat) :=
  (part, slot, gen) :: l.filter fun g => !(g.1 == part && g.2.1 == slot)

/-! ## Records into FAULTPOND -/

/-- A fault record (08 R168). -/
def faultRecord (addr : Dword) (cause kind : Nat) (engine nocore : Bool) (core slot : Nat) (lanes : Mask) (pc : Dword) :
    BitVec 256 :=
  BitVec.ofNat 256 (addr.toNat + cause * 2 ^ 64 + kind * 2 ^ 72 + (if engine then 2 ^ 74 else 0) + (if nocore then 2 ^ 75 else 0)
    + core * 2 ^ 80 + slot * 2 ^ 88 + lanes.toNat * 2 ^ 96 + pc.toNat * 2 ^ 128)

/-- A trap record (18 R281). -/
def trapRecord (eval : Dword) (cause orig core slot : Nat) (lanes : Mask) (pc : Dword) (launch : Nat) : BitVec 256 :=
  BitVec.ofNat 256 (eval.toNat + cause * 2 ^ 64 + orig * 2 ^ 72 + core * 2 ^ 80 + slot * 2 ^ 88 + lanes.toNat * 2 ^ 96
    + pc.toNat * 2 ^ 128 + launch * 2 ^ 192)

/-- Leave a record to be put, or put again (08 R168: a put that fails is retried). -/
def queueRecord (s : State) (fn key : Nat) (bits : BitVec 256) (vector : Nat) : State :=
  s.modFn fn fun f => { f with retry := f.retry ++ [⟨key, bits, vector⟩] }

/-! ## Placement -/

/-- The basin of a record by the balance rule (09 R184). -/
def Pond.choose (d : Pond) (key : Nat) : Nat :=
  let h := key % 256 * d.basins / 256
  let least := (minBy id d.counts).getD 0
  if d.counts.getD h 0 < least + d.slack then h else d.counts.findIdx fun c => c == least

/-- Whose record a placement writes, for its fault record: core, slot and PC, none for NOCORE (09 R190). -/
abbrev Origin := Option (Nat × Nat × Dword)

/-- The fault record of a placement that met a replayable cause (09 R190). -/
def placementRecord (who : Origin) (addr : Dword) (cause : Nat) : Nat × BitVec 256 :=
  match who with
  | some (core, slot, pc) => (core % 256, faultRecord addr cause 1 true false core slot 0 pc)
  | none => (0, faultRecord addr cause 1 true true 0 0 0 0)

/-- Write the bits of one placed record: a replayable cause pauses the pond's writes and leaves a fault record, another
sets BROKEN; while writes are paused the next ones wait behind them (09 R190). -/
def writePlaced (s : State) (part slot : Nat) (addr : Dword) (w bits : Nat) (who : Origin) : State :=
  match s.pond? part slot with
  | none => s
  | some d =>
    if d.broken then s
    else if d.paused ≠ [] then s.modPond part slot fun d => { d with paused := d.paused ++ [⟨addr, w, bits, who⟩] }
    else
      match engineWrite s d.agent addr w bits .free with
      | .ok s => s
      | .error c =>
        if replayable c then
          let s := s.modPond part slot fun d => { d with paused := [⟨addr, w, bits, who⟩] }
          let r := placementRecord who addr c
          queueRecord s d.fn r.1 r.2 1
        else s.modPond part slot fun d => { d with broken := true, paused := [] }

/-- The pond is the intake pond of its function (02 R32). -/
def Pond.isIntake (d : Pond) (s : State) : Bool := (s.fn d.fn).intake.toNat == d.handle

/-- The dispatcher reads a record of an intake pond as the inlet places it, and numbers it (02 the dispatcher). -/
def noteIntake (s : State) (d : Pond) (b p bits : Nat) : State :=
  if d.isIntake s then
    let s' : State := { s with nextId := s.nextId + 1 }
    s'.modFn d.fn fun f => { f with intakeRecs := f.intakeRecs ++ [⟨s.nextId, b, p, bits⟩] }
  else s

/-- The records of an intake pond are gone from it. -/
def forgetIntake (s : State) (d : Pond) : State := if d.isIntake s then s.modFn d.fn fun f => { f with intakeRecs := [] } else s

/-- Where the next record of a key goes (09 R184). -/
def Pond.nextAddr (d : Pond) (key : Nat) : Dword := d.recAddr (d.choose key) (d.counts.getD (d.choose key) 0)

/-- Place one record (09 R184): its basin and position are counted, then its bits are written. -/
def placeRecord (s : State) (part slot key bits : Nat) (who : Origin) : State :=
  match s.pond? part slot with
  | none => s
  | some d =>
    let b := d.choose key
    let addr := d.nextAddr key
    let s := noteIntake s d b (d.counts.getD b 0) bits
    let s := s.modPond part slot fun d => { d with counts := d.counts.modify b (· + 1), total := d.total + 1 }
    writePlaced s part slot addr d.w bits who

/-- Place records in order. -/
def placeAll (s : State) (part slot : Nat) (recs : List (Nat × Nat)) (who : Origin) : State :=
  recs.foldl (fun s r => placeRecord s part slot r.1 r.2 who) s

/-- A DRAIN is running at the pond: puts that arrive are held (09 R192). -/
def Pond.draining (d : Pond) : Bool :=
  match d.ops with
  | op :: _ => (match op.kind with | .drain _ _ _ _ _ copied => copied != 0 | _ => false)
  | [] => false

/-- The records of a vault pond are out of reach: its function's vaults are saved, or another function holds the
partition's quantum (log 45). -/
def Pond.away (d : Pond) (s : State) : Bool :=
  d.vaultDom && ((match (s.part d.part).resident with | some f => f != d.fn | none => false) ||
    (match (s.fn d.fn).saved with | some v => v.whole | none => false))

/-- One put into a pond from outside a crew: whether it was placed (02 R31, 08 R168). -/
def outsidePut (s : State) (part fn : Nat) (h : Dword) (key bits : Nat) : Bool × State :=
  match pondOf s part fn h with
  | none => (false, s)
  | some d =>
    if d.broken || d.cap ≤ d.total || d.draining || d.away s then (false, s) else (true, placeRecord s part d.slot key bits none)

/-- Try to put one record of a function into its FAULTPOND, signalling its vector when it succeeds. -/
def tryRecord (s : State) (fn : Nat) (r : PondRec) : Bool × State :=
  match partOfFn s fn with
  | none => (false, s)
  | some part =>
    let h := (s.fn fn).faultpond
    if h = 0xFFFFFFFF then (false, s)
    else
      match outsidePut s part fn (h.zeroExtend 64) r.key r.bits.toNat with
      | (true, s) => (true, s.signal fn r.vector)
      | (false, s) => (false, s)

/-- Try the records in order; those that fail stay. -/
def tryRecords (s : State) (fn : Nat) : List PondRec → List PondRec × State
  | [] => ([], s)
  | r :: rs =>
    match tryRecord s fn r with
    | (true, s) => tryRecords s fn rs
    | (false, s) =>
      match tryRecords s fn rs with
      | (left, s) => (r :: left, s)

/-- Put the waiting records of a function; one attempt each (08 R168). -/
def retryRecords (s : State) (fn : Nat) : State :=
  let rs := (s.fn fn).retry
  match tryRecords (s.modFn fn fun f => { f with retry := [] }) fn rs with
  | (left, s) => s.modFn fn fun f => { f with retry := left ++ f.retry }

/-- Put a record into the function's FAULTPOND now, or leave it to be retried. -/
def putRecord (s : State) (fn key : Nat) (bits : BitVec 256) (vector : Nat) : State :=
  match tryRecord s fn ⟨key, bits, vector⟩ with
  | (true, s) => s
  | (false, s) => queueRecord s fn key bits vector

/-- A record for Sprinlek through the management mailbox pond (18 R284). -/
def mailRecord (s : State) (bits : BitVec 256) : State := { s with mgmt := { s.mgmt with mailRecs := s.mgmt.mailRecs ++ [bits] } }

/-- Replay the paused placement writes of a pond (08 R168, 09 R190). -/
def replayPlacement (s : State) (part slot : Nat) : State :=
  match s.pond? part slot with
  | none => s
  | some d =>
    (d.paused).foldl (fun s p => writePlaced s part slot p.addr p.width p.bits p.who)
      (s.modPond part slot fun d => { d with paused := [], opPaused := false })

/-! ## Making and removing -/

/-- The checks and effect of making a pond (09 R188; 02 R33), with its handle, or the cause. -/
def makePond (s : State) (ag : Agent) (region cap par : Dword) : Except Nat Nat × State :=
  let p := par.toNat
  let w := bitsAt p 0 10 + 1
  let basins := bitsAt p 11 11 + 1
  let slack := bitsAt p 24 4
  let vault := bitAt p 28
  let capN := cap.toNat
  let sp := spaceOf region
  let ext := basinExtent w basins slack capN
  let base : Dword :=
    if sp = 7 then
      match ag.core with
      | some c => BitVec.ofNat 64 (2 * 2 ^ 60 + c * 2 ^ 28 + addrIn region)
      | none => region
    else region
  let bad := bitAt p 10 || bitsAt p 22 2 != 0 || p / 2 ^ 29 != 0 || capN == 0 || 2 ^ 32 < capN ||
    (if vault then !(sp == 2 || sp == 7) else !(sp == 0 || sp == 1)) || addrIn region % 512 != 0
  if bad then (.error Cause.pondParam, s)
  else
    match access s ag region (basins * ext) .free .write false with
    | (.error _, s) => (.error Cause.pondParam, s)
    | (.ok _, s) =>
      match leastBelow 4096 fun k => (s.pond? ag.part k).isNone with
      | none => (.error Cause.pondLimit, s)
      | some k =>
        let d : Pond := ⟨ag.part, k, ag.fn, pondGen s ag.part k, base, w, basins, slack, capN, vault, 0,
          List.replicate basins 0, [], List.replicate 64 0, false, [], [], false⟩
        (.ok d.handle, { s with ponds := s.ponds ++ [d], pondGens := setGen s.pondGens ag.part k d.gen })

/-- Free a pond's slot: its cursors close and GEN advances (09 R186, R189). -/
def removePond (s : State) (part slot : Nat) : State :=
  let g := match s.pond? part slot with | some d => d.gen | none => pondGen s part slot
  { s with ponds := s.ponds.filter fun d => !(d.part == part && d.slot == slot),
           pondGens := setGen s.pondGens part slot ((g + 1) % 2 ^ 20) }

/-! ## Cursors (09 R187) -/

/-- Close the cursors that satisfy `p`; their slots' generations advance. -/
def Pond.closeCursors (d : Pond) (p : Cursor → Bool) : Pond :=
  { d with cursors := d.cursors.filter fun c => !p c,
           cursorGens := d.cursorGens.mapIdx fun i g => if d.cursors.any fun c => p c && c.slot == i then (g + 1) % 2 ^ 14 else g }

/-- A cursor descriptor. -/
def Pond.descriptor (d : Pond) (c : Cursor) : Dword :=
  BitVec.ofNat 64 (d.handle + c.basin * 2 ^ 32 + c.slot * 2 ^ 43 + c.cgen * 2 ^ 49 + 2 ^ 63)

/-- The pond and cursor that a descriptor names (09 R187), or the cause. -/
def cursorOf (s : State) (part fn : Nat) (desc : Dword) : Except Nat (Pond × Cursor) :=
  match pondOf s part fn (BitVec.ofNat 64 (bitsAt desc.toNat 0 32)) with
  | none => .error Cause.pondHandle
  | some d =>
    match d.cursors.find? fun c => d.descriptor c == desc with
    | some c => .ok (d, c)
    | none => .error Cause.cursorStale

/-- Open a cursor on a basin for a gang (09 R193). -/
def Pond.openCursor (d : Pond) (gang b : Nat) : Option (Pond × Cursor) :=
  let d := d.closeCursors fun c => c.gang == gang && c.basin == b
  match leastBelow 64 fun k => !(d.cursors.any fun c => c.slot == k) with
  | none => none
  | some k =>
    let c : Cursor := ⟨k, b, d.counts.getD b 0, 0, gang, d.cursorGens.getD k 0⟩
    some ({ d with cursors := d.cursors ++ [c] }, c)

/-- Close every cursor of a gang (09 R187). -/
def closeGangCursors (s : State) (gang : Nat) : State :=
  { s with ponds := s.ponds.map fun d => d.closeCursors fun c => c.gang == gang }

end Sys2Proof.Machine
end

