-- ==== Sys2Proof/WellFormed.lean ====
section
/-! DEFINITION. WellFormed.lean: what R61 checks 7 to 9 ask of an instruction alone (R50, R51, R52, R56 and the
placement rules of the entries), and the register operands that check 10 tests. -/

namespace Sys2Proof

/-- A use of an operand field. -/
inductive Use where
  /-- A 32-bit vector source. -/
  | src (r : Reg)
  /-- A 64-bit vector source, named by its even register. -/
  | src2 (r : Reg)
  /-- A 32-bit vector destination. -/
  | dst (r : Reg)
  /-- A 64-bit vector destination. -/
  | dst2 (r : Reg)
  /-- Both source and destination of an atomic: `n` registers from `r`, `r` a multiple of `al` (R176). -/
  | upd (r : Reg) (n al : Nat)
  /-- The compare and new value of ATCAS: as `upd`, and z is refused (R176). -/
  | cas (r : Reg) (n al : Nat)
  /-- A 128-bit source or destination of two pairs, a multiple of 4 (R173, R174, R270). -/
  | quad (r : Reg)
  | quadDst (r : Reg)
  /-- A list of `n` registers that must end at v111 or below (R267, R270). -/
  | list (r : Reg) (n : Nat)
  /-- A run of record registers whose end its own entry checks (R262, R264). -/
  | srcRun (r : Reg) (n : Nat)
  | dstRun (r : Reg) (n : Nat)
  /-- A mask destination: m0 is refused (R51). -/
  | mdst (m : MReg)
  /-- A width code of R52, at most 11, or at most `max`. -/
  | width (w : Nat)
  | widthMax (max w : Nat)
  deriving DecidableEq, Repr

/-- A destination of the format with code `f`: the 64-bit formats take a pair (R66 codes 0x14 to 0x16). -/
def dstFmt (f : BitVec 7) (d : Reg) : Use := if 0x14 ≤ f.toNat ∧ f.toNat ≤ 0x16 then .dst2 d else .dst d
/-- D of LD and LDS by its width (R173). -/
def dstWidth (w : BitVec 4) (d : Reg) : Use :=
  match w.toNat with | 10 => .dst2 d | 11 => .quadDst d | _ => .dst d
/-- D of ST by its width (R174). -/
def srcWidth (w : BitVec 4) (d : Reg) : Use :=
  match w.toNat with | 10 => .src2 d | 11 => .quad d | _ => .src d
/-- D of an atomic by its width (R176). -/
def atWidth (w : BitVec 4) (d : Reg) : Use :=
  match w.toNat with | 10 => .upd d 2 2 | _ => .upd d 1 1
/-- D of ATCAS by its width (R176): the rule places D for widths up to 32 and for 64; for other codes D is any register,
and their own traps follow. -/
def casWidth (w : BitVec 4) (d : Reg) : Use :=
  if w.toNat < 10 then .cas d 2 2 else if w.toNat = 10 then .cas d 4 4 else .cas d 1 1

/-- The operand uses of an instruction, sources in the reading order of R50. -/
def uses (i : Instr) : List Use :=
  match i with
  | .iadd d a b _ fn => if fn = .p64 then [.src2 a, .src2 b, .dst2 d] else [.src a, .src b, .dst d]
  | .isub d a b _ fn => if fn = .p64 then [.src2 a, .src2 b, .dst2 d] else [.src a, .src b, .dst d]
  | .imul d a b _ fn => if fn = .p64 then [.src2 a, .src2 b, .dst2 d] else [.src a, .src b, .dst d]
  | .imad d a b _ => [.src a, .src b, .src d, .dst d]
  | .idiv d a b _ _ => [.src a, .src b, .dst d]
  | .imin d a b _ => [.src a, .src b, .dst d]
  | .imax d a b _ => [.src a, .src b, .dst d]
  | .and d a b _ => [.src a, .src b, .dst d]
  | .or d a b _ => [.src a, .src b, .dst d]
  | .xor d a b _ => [.src a, .src b, .dst d]
  | .andn d a b _ => [.src a, .src b, .dst d]
  | .orn d a b _ => [.src a, .src b, .dst d]
  | .xnor d a b _ => [.src a, .src b, .dst d]
  | .shl d a b _ => [.src a, .src b, .dst d]
  | .shr d a b _ => [.src a, .src b, .dst d]
  | .sar d a b _ => [.src a, .src b, .dst d]
  | .rol d a b _ => [.src a, .src b, .dst d]
  | .ror d a b _ => [.src a, .src b, .dst d]
  | .popc d a _ => [.src a, .dst d]
  | .clz d a _ => [.src a, .dst d]
  | .ctz d a _ => [.src a, .dst d]
  | .brev d a _ => [.src a, .dst d]
  | .bfx d a b _ _ => [.src a, .src b, .dst d]
  | .bfi d a b _ => [.src a, .src b, .src d, .dst d]
  | .icmp _ m a b => [.mdst m, .src a, .src b]
  | .sel d a b _ _ => [.src a, .src b, .dst d]
  | .mov d a _ => [.src a, .dst d]
  | .retag d a f _ => [.src a, dstFmt f d]
  | .shapeq d a _ => [.src a, .dst d]
  | .fmtq d a _ => [.src a, .dst d]
  | .iaddi d a _ => [.src a, .dst d]
  | .andi d a _ => [.src a, .dst d]
  | .ori d a _ => [.src a, .dst d]
  | .xori d a _ => [.src a, .dst d]
  | .shli d a _ => [.src a, .dst d]
  | .shri d a _ => [.src a, .dst d]
  | .sari d a _ => [.src a, .dst d]
  | .icmpi _ m a _ => [.mdst m, .src a]
  | .movi d _ => [.dst d]
  | .movhi d _ => [.src d, .dst d]
  | .padd d a b w => [.src2 a, .src b, .dst2 d, .width (w.toNat)]
  | .pdiff d a b w => [.src2 a, .src2 b, .dst2 d, .width (w.toNat)]
  | .palign d a w => [.src2 a, .dst2 d, .width (w.toNat)]
  | .pspace d a => [.src2 a, .dst d]
  | .psetsp d a b => [.src2 a, .src b, .dst2 d]
  | .pchk d a w => [.src2 a, .dst d, .width (w.toNat)]
  | .kadd _ _ _ => []
  | .ksub _ _ _ => []
  | .kmul _ _ _ => []
  | .kshl _ _ _ => []
  | .kshr _ _ _ => []
  | .kand _ _ _ => []
  | .kor _ _ _ => []
  | .kmov _ _ => []
  | .kmovi _ _ => []
  | .rfal _ a => [.src a]
  | .ktov d _ f => [dstFmt f d]
  | .kpop _ => []
  | .krdlane _ a _ => [.src a]
  | .winbase _ => []
  | .winbaseK _ => []
  | .fadd d a b _ _ => [.src a, .src b, .dst d]
  | .fsub d a b _ _ => [.src a, .src b, .dst d]
  | .fmul d a b _ _ => [.src a, .src b, .dst d]
  | .ffma d a b _ _ => [.src a, .src b, .src d, .dst d]
  | .fmin d a b _ => [.src a, .src b, .dst d]
  | .fmax d a b _ => [.src a, .src b, .dst d]
  | .fcmp _ m a b => [.mdst m, .src a, .src b]
  | .frcp d a _ => [.src a, .dst d]
  | .frsq d a _ => [.src a, .dst d]
  | .fexp2 d a _ => [.src a, .dst d]
  | .flog2 d a _ => [.src a, .dst d]
  | .ftanh d a _ => [.src a, .dst d]
  | .fsig d a _ => [.src a, .dst d]
  | .fcvt d a f _ _ => [.src a, dstFmt f d]
  | .fabs d a _ => [.src a, .dst d]
  | .fneg d a _ => [.src a, .dst d]
  | .i2f d a _ _ => [.src a, .dst d]
  | .f2i d a _ _ _ => [.src a, .dst d]
  | .shfli d a b _ _ => [.src a, .src b, .dst d]
  | .shflu d a b _ _ => [.src a, .src b, .dst d]
  | .shfld d a b _ _ => [.src a, .src b, .dst d]
  | .shflx d a b _ _ => [.src a, .src b, .dst d]
  | .vote d a _ _ _ => [.src a, .dst d]
  | .reduce d a _ _ _ => [.src a, .dst d]
  | .redminidx d a _ _ => [.src a, .dst d]
  | .scan d a _ _ _ => [.src a, .dst d]
  | .bra _ _ _ => []
  | .call _ => []
  | .brx _ => []
  | .jset _ _ => []
  | .jwait _ => []
  | .nop => []
  | .exit => []
  | .yield => []
  | .ret => []
  | .repack d a => [.src a, .dst d]
  | .mand d _ _ => [.mdst d]
  | .mor d _ _ => [.mdst d]
  | .mxor d _ _ => [.mdst d]
  | .mnot d _ => [.mdst d]
  | .mset d a => [.src a, .mdst d]
  | .mtov d _ => [.dst d]
  | .ld d _ o w _ => [dstWidth w d, .src o, .width (w.toNat)]
  | .lds d _ o w _ => [dstWidth w d, .src o, .widthMax 10 (w.toNat)]
  | .st d _ o w _ => [srcWidth w d, .src o, .width (w.toNat)]
  | .ldk _ _ o w _ => [.src o, .widthMax 10 (w.toNat)]
  | .stk _ _ o w _ => [.src o, .widthMax 10 (w.toNat)]
  | .atadd d _ o w _ => [atWidth w d, .src o, .width (w.toNat)]
  | .atmin d _ o w _ => [atWidth w d, .src o, .width (w.toNat)]
  | .atmax d _ o w _ => [atWidth w d, .src o, .width (w.toNat)]
  | .atand d _ o w _ => [atWidth w d, .src o, .width (w.toNat)]
  | .ator d _ o w _ => [atWidth w d, .src o, .width (w.toNat)]
  | .atxor d _ o w _ => [atWidth w d, .src o, .width (w.toNat)]
  | .atxch d _ o w _ => [atWidth w d, .src o, .width (w.toNat)]
  | .atcas d _ o w _ => [casWidth w d, .src o, .width (w.toNat)]
  | .pf _ o w _ => [.src o, .width (w.toNat)]
  | .pondmk _ _ _ _ => []
  | .pondrm _ => []
  | .put d _ o y => [.src o, .src y, .dst d]
  | .pcount _ _ _ => []
  | .drain _ _ _ => []
  | .basin _ _ _ => []
  | .bnext d _ o m => [.dst d, .dst o, .mdst m]
  | .bwrite d _ o => [.src d, .src o]
  | .pondOperationPerform _ _ => []
  | .drainComplete _ _ => []
  | .acq _ _ => []
  | .rel _ _ => []
  | .fence _ => []
  | .bar _ => []
  | .barArrive _ => []
  | .barWait _ => []
  | .swait _ _ => []
  | .swarm _ _ _ => []
  | .gsr d _ => [.dst d]
  | .gsw _ a => [.src a]
  | .qopenMake _ _ _ => []
  | .qopenCons _ => []
  | .qopenProd _ => []
  | .enq d _ o _ n => [.srcRun o n.toNat, .dst d]
  | .deq d _ o _ n => [.dstRun d n.toNat, .dst o]
  | .qclose _ => []
  | .queueRecordArrival _ _ => []
  | .producerCloseArrival _ _ => []
  | .sendStall _ _ _ => []
  | .hoist _ _ _ _ _ => []
  | .hoistm _ _ _ _ _ => []
  | .hoistChunkComplete _ _ _ => []
  | .seal _ _ => []
  | .cwait _ _ _ => []
  | .ctest _ _ _ _ => []
  | .sluice _ _ => []
  | .sluiceGroupComplete _ _ _ => []
  | .rlwait _ _ _ => []
  | .mxloop _ _ _ _ _ _ _ _ => []
  | .mxwb _ _ _ _ => []
  | .mxclr _ _ _ => []
  | .mxst _ _ _ => []
  | .mxld _ _ => []
  | .mxwait => []
  | .mxstep _ _ => []
  | .matrixStep _ => []
  | .matrixCommandComplete _ => []
  | .spload _ => []
  | .spclamp _ _ => []
  | .spclampFree _ => []
  | .spclampSet _ _ => []
  | .spsweep _ _ _ => []
  | .spread _ _ => []
  | .spreadOnes _ _ _ => []
  | .springColourUpdate _ => []
  | .springCommandComplete _ => []
  | .tspawn _ _ _ _ => []
  | .tend => []
  | .tqry _ => []
  | .tqryTask _ _ => []
  | .twaitw => []
  | .tkins d a b k => [.src a, .src b, .list d (2 * (k.toNat + 1))]
  | .tapex d a => [.quad a, .list d 10]
  | .tapexTake d => [.dst2 d]
  | .tapexDone d => [.dst d]
  | .trap _ => []
  | .eret => []
  | .srr _ _ => []
  | .srw _ _ => []
  | .lodepc _ => []
  | .launch _ _ => []
  | .cancel _ _ => []
  | .cntrd _ _ _ => []
  | .bkpt _ => []
  | .cycle _ => []
  | .illegal _ => []
  | .chpush _ _ _ => []
  | .lexit => []
  | .lodeInstruction _ => []
  | .gangComplete _ => []
  | .dispatchRecord _ _ => []
  | .graphAdmit _ => []
  | .nodeDispatch _ _ => []
  | .gangPlace _ => []
  | .budgetExhaust _ => []
  | .quantumEnd _ => []
  | .quantumEntryStart _ => []
  | .intakePut _ _ _ => []
  | .intakeHandle _ _ => []
  | .resumeSlice _ => []
  | .cancelSlice _ => []
  | .pondMake _ => []
  | .pondRemove _ => []
  | .partitionRecordWrite _ _ _ _ => []
  | .faultpond _ _ => []
  | .invalidateTranslations _ => []
  | .replayParked _ => []
  | .dirtyResync _ => []
  | .faultRecordRetry _ => []
  | .suspend _ => []
  | .resume _ => []
  | .vfReset _ => []
  | .functionLevelReset _ => []
  | .hostRegisterWrite _ _ _ _ _ => []
  | .hostMemoryWrite _ _ _ => []
  | .hostMemoryRead _ _ _ => []
  | .remoteRequest _ => []
  | .remoteResponse _ _ => []
  | .portFailure _ => []
  | .routeTimeout _ => []
  | .coldStart _ => []
  | .warmStart _ => []
  | .startTimeout => []
  | .attestationQuote _ => []
  | .powerLimit _ => []
  | .portTrained _ => []

/-- The NW bit and D of a chainable instruction; none when it is not chainable (R55, R56). -/
def nwD (i : Instr) : Option (Bool × Reg) :=
  match i with
  | .iadd d _ _ nw _ => some (nw, d)
  | .isub d _ _ nw _ => some (nw, d)
  | .imul d _ _ nw _ => some (nw, d)
  | .imad d _ _ nw => some (nw, d)
  | .idiv d _ _ nw _ => some (nw, d)
  | .imin d _ _ nw => some (nw, d)
  | .imax d _ _ nw => some (nw, d)
  | .and d _ _ nw => some (nw, d)
  | .or d _ _ nw => some (nw, d)
  | .xor d _ _ nw => some (nw, d)
  | .andn d _ _ nw => some (nw, d)
  | .orn d _ _ nw => some (nw, d)
  | .xnor d _ _ nw => some (nw, d)
  | .shl d _ _ nw => some (nw, d)
  | .shr d _ _ nw => some (nw, d)
  | .sar d _ _ nw => some (nw, d)
  | .rol d _ _ nw => some (nw, d)
  | .ror d _ _ nw => some (nw, d)
  | .popc d _ nw => some (nw, d)
  | .clz d _ nw => some (nw, d)
  | .ctz d _ nw => some (nw, d)
  | .brev d _ nw => some (nw, d)
  | .bfx d _ _ nw _ => some (nw, d)
  | .bfi d _ _ nw => some (nw, d)
  | .icmp _ _ _ _ => none
  | .sel d _ _ nw _ => some (nw, d)
  | .mov d _ nw => some (nw, d)
  | .retag d _ _ nw => some (nw, d)
  | .shapeq d _ nw => some (nw, d)
  | .fmtq d _ nw => some (nw, d)
  | .iaddi d _ _ => some (false, d)
  | .andi d _ _ => some (false, d)
  | .ori d _ _ => some (false, d)
  | .xori d _ _ => some (false, d)
  | .shli d _ _ => some (false, d)
  | .shri d _ _ => some (false, d)
  | .sari d _ _ => some (false, d)
  | .icmpi _ _ _ _ => none
  | .movi d _ => some (false, d)
  | .movhi d _ => some (false, d)
  | .padd _ _ _ _ => none
  | .pdiff _ _ _ _ => none
  | .palign _ _ _ => none
  | .pspace _ _ => none
  | .psetsp _ _ _ => none
  | .pchk _ _ _ => none
  | .kadd _ _ _ => none
  | .ksub _ _ _ => none
  | .kmul _ _ _ => none
  | .kshl _ _ _ => none
  | .kshr _ _ _ => none
  | .kand _ _ _ => none
  | .kor _ _ _ => none
  | .kmov _ _ => none
  | .kmovi _ _ => none
  | .rfal _ _ => none
  | .ktov _ _ _ => none
  | .kpop _ => none
  | .krdlane _ _ _ => none
  | .winbase _ => none
  | .winbaseK _ => none
  | .fadd d _ _ nw _ => some (nw, d)
  | .fsub d _ _ nw _ => some (nw, d)
  | .fmul d _ _ nw _ => some (nw, d)
  | .ffma d _ _ nw _ => some (nw, d)
  | .fmin d _ _ nw => some (nw, d)
  | .fmax d _ _ nw => some (nw, d)
  | .fcmp _ _ _ _ => none
  | .frcp d _ nw => some (nw, d)
  | .frsq d _ nw => some (nw, d)
  | .fexp2 d _ nw => some (nw, d)
  | .flog2 d _ nw => some (nw, d)
  | .ftanh d _ nw => some (nw, d)
  | .fsig d _ nw => some (nw, d)
  | .fcvt d _ _ nw _ => some (nw, d)
  | .fabs d _ nw => some (nw, d)
  | .fneg d _ nw => some (nw, d)
  | .i2f d _ nw _ => some (nw, d)
  | .f2i d _ _ nw _ => some (nw, d)
  | .shfli d _ _ nw _ => some (nw, d)
  | .shflu d _ _ nw _ => some (nw, d)
  | .shfld d _ _ nw _ => some (nw, d)
  | .shflx d _ _ nw _ => some (nw, d)
  | .vote d _ _ nw _ => some (nw, d)
  | .reduce d _ _ nw _ => some (nw, d)
  | .redminidx d _ nw _ => some (nw, d)
  | .scan d _ _ nw _ => some (nw, d)
  | .bra _ _ _ => none
  | .call _ => none
  | .brx _ => none
  | .jset _ _ => none
  | .jwait _ => none
  | .nop => none
  | .exit => none
  | .yield => none
  | .ret => none
  | .repack _ _ => none
  | .mand _ _ _ => none
  | .mor _ _ _ => none
  | .mxor _ _ _ => none
  | .mnot _ _ => none
  | .mset _ _ => none
  | .mtov _ _ => none
  | .ld _ _ _ _ _ => none
  | .lds _ _ _ _ _ => none
  | .st _ _ _ _ _ => none
  | .ldk _ _ _ _ _ => none
  | .stk _ _ _ _ _ => none
  | .atadd _ _ _ _ _ => none
  | .atmin _ _ _ _ _ => none
  | .atmax _ _ _ _ _ => none
  | .atand _ _ _ _ _ => none
  | .ator _ _ _ _ _ => none
  | .atxor _ _ _ _ _ => none
  | .atxch _ _ _ _ _ => none
  | .atcas _ _ _ _ _ => none
  | .pf _ _ _ _ => none
  | .pondmk _ _ _ _ => none
  | .pondrm _ => none
  | .put _ _ _ _ => none
  | .pcount _ _ _ => none
  | .drain _ _ _ => none
  | .basin _ _ _ => none
  | .bnext _ _ _ _ => none
  | .bwrite _ _ _ => none
  | .pondOperationPerform _ _ => none
  | .drainComplete _ _ => none
  | .acq _ _ => none
  | .rel _ _ => none
  | .fence _ => none
  | .bar _ => none
  | .barArrive _ => none
  | .barWait _ => none
  | .swait _ _ => none
  | .swarm _ _ _ => none
  | .gsr _ _ => none
  | .gsw _ _ => none
  | .qopenMake _ _ _ => none
  | .qopenCons _ => none
  | .qopenProd _ => none
  | .enq _ _ _ _ _ => none
  | .deq _ _ _ _ _ => none
  | .qclose _ => none
  | .queueRecordArrival _ _ => none
  | .producerCloseArrival _ _ => none
  | .sendStall _ _ _ => none
  | .hoist _ _ _ _ _ => none
  | .hoistm _ _ _ _ _ => none
  | .hoistChunkComplete _ _ _ => none
  | .seal _ _ => none
  | .cwait _ _ _ => none
  | .ctest _ _ _ _ => none
  | .sluice _ _ => none
  | .sluiceGroupComplete _ _ _ => none
  | .rlwait _ _ _ => none
  | .mxloop _ _ _ _ _ _ _ _ => none
  | .mxwb _ _ _ _ => none
  | .mxclr _ _ _ => none
  | .mxst _ _ _ => none
  | .mxld _ _ => none
  | .mxwait => none
  | .mxstep _ _ => none
  | .matrixStep _ => none
  | .matrixCommandComplete _ => none
  | .spload _ => none
  | .spclamp _ _ => none
  | .spclampFree _ => none
  | .spclampSet _ _ => none
  | .spsweep _ _ _ => none
  | .spread _ _ => none
  | .spreadOnes _ _ _ => none
  | .springColourUpdate _ => none
  | .springCommandComplete _ => none
  | .tspawn _ _ _ _ => none
  | .tend => none
  | .tqry _ => none
  | .tqryTask _ _ => none
  | .twaitw => none
  | .tkins _ _ _ _ => none
  | .tapex _ _ => none
  | .tapexTake _ => none
  | .tapexDone _ => none
  | .trap _ => none
  | .eret => none
  | .srr _ _ => none
  | .srw _ _ => none
  | .lodepc _ => none
  | .launch _ _ => none
  | .cancel _ _ => none
  | .cntrd _ _ _ => none
  | .bkpt _ => none
  | .cycle _ => none
  | .illegal _ => none
  | .chpush _ _ _ => none
  | .lexit => none
  | .lodeInstruction _ => none
  | .gangComplete _ => none
  | .dispatchRecord _ _ => none
  | .graphAdmit _ => none
  | .nodeDispatch _ _ => none
  | .gangPlace _ => none
  | .budgetExhaust _ => none
  | .quantumEnd _ => none
  | .quantumEntryStart _ => none
  | .intakePut _ _ _ => none
  | .intakeHandle _ _ => none
  | .resumeSlice _ => none
  | .cancelSlice _ => none
  | .pondMake _ => none
  | .pondRemove _ => none
  | .partitionRecordWrite _ _ _ _ => none
  | .faultpond _ _ => none
  | .invalidateTranslations _ => none
  | .replayParked _ => none
  | .dirtyResync _ => none
  | .faultRecordRetry _ => none
  | .suspend _ => none
  | .resume _ => none
  | .vfReset _ => none
  | .functionLevelReset _ => none
  | .hostRegisterWrite _ _ _ _ _ => none
  | .hostMemoryWrite _ _ _ => none
  | .hostMemoryRead _ _ _ => none
  | .remoteRequest _ => none
  | .remoteResponse _ _ => none
  | .portFailure _ => none
  | .routeTimeout _ => none
  | .coldStart _ => none
  | .warmStart _ => none
  | .startTimeout => none
  | .attestationQuote _ => none
  | .powerLimit _ => none
  | .portTrained _ => none

/-- Chainable instructions (R55). -/
def chainable (i : Instr) : Bool := (nwD i).isSome

/-- NW = 1. -/
def isNW (i : Instr) : Bool :=
  match nwD i with
  | some (nw, _) => nw
  | none => false

/-- A destination code that R50 refuses. -/
def badDst (r : Nat) : Bool := (112 ≤ r && r ≤ 119) || 121 ≤ r

/-- R61 check 7 for one use. DESIGN CHOICE (log 106): a latch is no D of ST.128 and no A of TAPEX, whose entries speak of registers that
are a multiple of 4. -/
def Use.badReg : Use → Bool
  | .src r => 124 ≤ r.toNat
  | .src2 r => 124 ≤ r.toNat || (r.toNat < 112 && r.toNat % 2 == 1)
  | .dst r => badDst r.toNat
  | .dst2 r => badDst r.toNat || (r.toNat < 112 && r.toNat % 2 == 1)
  | .upd r _ al => badDst r.toNat || (r.toNat < 112 && r.toNat % al != 0)
  | .cas r n al => 112 ≤ r.toNat || r.toNat % al != 0 || 111 < r.toNat + n - 1
  | .quad r => (112 ≤ r.toNat && r.toNat ≤ 119) || 124 ≤ r.toNat || r.toNat % 4 != 0
  | .quadDst r => badDst r.toNat || (r.toNat < 112 && r.toNat % 4 != 0)
  | .list r n => 111 < r.toNat + n - 1
  | .srcRun r _ => 124 ≤ r.toNat
  | .dstRun r _ => badDst r.toNat
  | .mdst m => m == 0
  | .width _ => false
  | .widthMax _ _ => false

/-- R61 check 8 for one use. -/
def Use.badWidth : Use → Bool
  | .width w => 11 < w
  | .widthMax m w => m < w
  | _ => false

/-- The vector register codes 0 to 111 that a use names, for R61 check 10. -/
def Use.codes (u : Use) : List Nat :=
  let run (r : Reg) (n : Nat) : List Nat := if r.toNat < 112 then (List.range n).map (r.toNat + ·) else []
  match u with
  | .src r => run r 1
  | .dst r => run r 1
  | .src2 r => run r 2
  | .dst2 r => run r 2
  | .upd r n _ => run r n
  | .cas r n _ => run r n
  | .quad r => run r 4
  | .quadDst r => run r 4
  | .list r n => run r n
  | .srcRun r n => (run r n).filter (· < 112)
  | .dstRun r n => (run r n).filter (· < 112)
  | .mdst _ => []
  | .width _ => []
  | .widthMax _ _ => []

/-- The source codes of a use, for chute pops (R50) and latch reads (R55). -/
def Use.source : Use → Option Reg
  | .src r => some r
  | .src2 r => some r
  | .quad r => some r
  | _ => none

/-- What the checks of R61 that need the instruction alone can answer. -/
inductive StaticErr where | badRegcode | badWidthcode | chainIllegal
  deriving DecidableEq, Repr

/-- R61 checks 7, 8 and the first half of 9 (R56), in order. -/
def staticErr (i : Instr) : Option StaticErr :=
  if (uses i).any Use.badReg then some .badRegcode
  else if (uses i).any Use.badWidth then some .badWidthcode
  else
    match nwD i with
    | some (true, d) => if d = 120 then none else some .chainIllegal
    | _ => none

/-- A well-formed instruction passes the static checks. -/
def WellFormed (i : Instr) : Bool := (staticErr i).isNone

end Sys2Proof
end

