-- ==== Sys2Proof/Machine/Operands.lean ====
section
/-! DEFINITION. Machine/Operands.lean: every operand form of the spec (03 R50 to R59, 04 R66, R67): register codes as
sources and destinations, latches, the chute, shapes, pairs and the written result. -/

namespace Sys2Proof.Machine

/-! ## Values -/

/-- The value of one lane. -/
def VVal.lane (v : VVal) (i : Nat) : Word :=
  match v with
  | .uni w => w
  | .aff b s => b + s * BitVec.ofNat 32 i
  | .gen l => l.getD i 0

/-- The shape code of 05 R95: 0 G, 1 U, 2 A. -/
def VVal.shape : VVal → Nat | .gen _ => 0 | .uni _ => 1 | .aff _ _ => 2

/-- A value given lane by lane. -/
def VVal.ofLanes (f : Nat → Word) : VVal := .gen ((List.range 32).map f)

/-- One source: shape U gives U, anything else G (04 R67). -/
def VVal.map1 (f : Word → Word) (a : VVal) : VVal :=
  match a with
  | .uni x => .uni (f x)
  | _ => .ofLanes fun i => f (a.lane i)

/-- Two sources. -/
def VVal.map2 (f : Word → Word → Word) (a b : VVal) : VVal :=
  match a, b with
  | .uni x, .uni y => .uni (f x y)
  | _, _ => .ofLanes fun i => f (a.lane i) (b.lane i)

/-- Three sources. -/
def VVal.map3 (f : Word → Word → Word → Word) (a b d : VVal) : VVal :=
  match a, b, d with
  | .uni x, .uni y, .uni z => .uni (f x y z)
  | _, _, _ => .ofLanes fun i => f (a.lane i) (b.lane i) (d.lane i)

/-- A sum or difference of A and U shapes keeps shape A (04 R67). -/
def VVal.linear (f : Word → Word → Word) (a b : VVal) : VVal :=
  match a, b with
  | .aff x s, .aff y t => .aff (f x y) (f s t)
  | .aff x s, .uni y => .aff (f x y) s
  | .uni x, .aff y t => .aff (f x y) (f 0 t)
  | _, _ => VVal.map2 f a b

/-- A product with a U operand keeps shape A (04 R67). -/
def VVal.scaled (f : Word → Word → Word) (a b : VVal) : VVal :=
  match a, b with
  | .aff x s, .uni y => .aff (f x y) (f s y)
  | .uni x, .aff y t => .aff (f x y) (f x t)
  | _, _ => VVal.map2 f a b

/-- A left shift by a U count keeps shape A; an A count gives values that are no line, so G (04 R67; log 30). -/
def VVal.shifted (f : Word → Word → Word) (a b : VVal) : VVal :=
  match a, b with
  | .aff x s, .uni y => .aff (f x y) (f s y)
  | _, _ => VVal.map2 f a b

/-- A value as a register of format `f` holds it (05 R89): a chute entry can carry bits above a narrow format's. -/
def VVal.fit (v : VVal) (f : Fmt) : VVal := if fmtWidth f < 32 then v.map1 fun w => container f w.toNat else v

/-! ## Sources -/

/-- An operand as read: low and (for the 64-bit formats) high containers, and its format; none for z (R50). -/
structure Opnd where
  lo : VVal
  hi : VVal
  fmt : Option Fmt
  deriving DecidableEq, Repr

def Opnd.zero : Opnd := ⟨.uni 0, .uni 0, none⟩

/-- The 64-bit value of a lane (05 R89). -/
def Opnd.wide (o : Opnd) (i : Nat) : Dword := o.hi.lane i ++ o.lo.lane i

/-- Both halves have shape U. -/
def Opnd.isUni (o : Opnd) : Bool := o.lo.shape == 1 && o.hi.shape == 1

/-- A source is signed when its format starts with I; z is neither (05 R89). -/
def Opnd.signed (o : Opnd) : Bool := match o.fmt with | some f => fmtSigned f | none => false

/-- A source as the other one lets it count: lane is also accepted where I32 is required (03 R50). -/
def Opnd.beside (p : Opnd) (r : Reg) (q : Opnd) : Opnd := if r.toNat = 121 ∧ q.fmt = some .i32 then { p with fmt := some .i32 } else p

/-- A source belongs to a class; z belongs to every class (05 R89). -/
def Opnd.isIn (o : Opnd) (cls : Fmt → Bool) : Bool := match o.fmt with | some f => cls f | none => true

/-- A 64-bit format tag. -/
def Opnd.isWide (o : Opnd) : Bool := match o.fmt with | some f => fmtWide f | none => false

/-- The register named by code `n` through the window (03 R53). -/
def Crew.vreg (c : Crew) (n : Nat) : VReg := c.regs.getD (c.wbase.toNat * 16 + n) VReg.zero

/-- A code's physical register lies outside the allocation (03 R53). -/
def Crew.outside (c : Crew) (n : Nat) : Bool := c.nregs ≤ c.wbase.toNat * 16 + n

/-- A register code 0 to 111 as a source: itself and its pair's odd register. -/
def Crew.readReg (c : Crew) (n : Nat) : Opnd :=
  let r := c.vreg n
  ⟨r.val, if fmtWide r.fmt then (c.vreg (n + 1)).val else .uni 0, some r.fmt⟩

/-- LHIST entry of l`n` (03 R59). -/
def histEntry (h : BitVec 64) (n : Nat) : BitVec 8 := h.extractLsb' ((n - 1) * 8) 8

/-- A latch read of l`n` (03 R55): a cause, or the operand. DEDUCED (log 6): REG_RANGE of the recorded code has EVAL 0 like the other
causes of a latch read, since it is met as the operand is read and no word names the register. -/
def Crew.readLatch (c : Crew) (n : Nat) : Except Nat Opnd :=
  let e := (histEntry c.lhist n).toNat
  if e < 128 then .error Cause.badRegcode
  else
    let code := e % 128
    if code = 127 then
      match c.chain with
      | some ch =>
        match ch.vals[n - 1]? with
        | some v => .ok ⟨v.lo, v.hi, some v.fmt⟩
        | none => .error Cause.chainIllegal
      | none => .error Cause.chainIllegal
    else if code = 120 then .ok Opnd.zero
    else if c.outside code then .error Cause.regRange
    else .ok (c.readReg code)

/-- A latch that resolves to an odd register code, for the even-register rule of R51. -/
def Crew.latchOdd (c : Crew) (n : Nat) : Bool :=
  let e := (histEntry c.lhist n).toNat
  128 ≤ e && e % 128 < 112 && e % 2 == 1

/-- A chute entry as a source: shape U, the low 32 bits (03 R50; log 31). -/
def chuteOpnd (e : ChuteEntry) : Opnd := ⟨.uni (e.val.extractLsb' 0 32), .uni 0, some e.fmt⟩

/-- Read a source code after `pops` pops of the same instruction: the operand and the pops so far (03 R50). The chute
holds the entries, which `issue` has checked (04 R83). -/
def Crew.readCode (c : Crew) (pops : Nat) (r : Reg) : Except Nat (Opnd × Nat) :=
  let n := r.toNat
  if n < 112 then .ok (c.readReg n, pops)
  else if n < 120 then
    match c.readLatch (n - 111) with
    | .ok o => .ok (o, pops)
    | .error e => .error e
  else if n = 120 then .ok (Opnd.zero, pops)
  else if n = 121 then .ok (⟨.aff 0 1, .uni 0, some .n32⟩, pops)
  else if n = 122 then .ok (chuteOpnd (c.chute.getD pops ⟨0, .n32⟩), pops + 1)
  else if n = 123 then .ok (chuteOpnd (c.chute.getD pops ⟨0, .n32⟩), pops)
  else .error Cause.badRegcode

/-- The source names an odd register of a pair: a 64-bit operand must be named by its even register (03 R51). -/
def Crew.oddWide (c : Crew) (r : Reg) : Bool :=
  let n := r.toNat
  if n < 112 then n % 2 == 1 else if n < 120 then c.latchOdd (n - 111) else false

/-- The chute entries that the sources of an instruction need, in reading order: `pops` entries taken so far (03 R50, 04
R83). A pop needs the next entry, a peek the head after the earlier pops. -/
def chuteNeed : Nat → List Reg → Nat
  | pops, [] => pops
  | pops, r :: rs =>
    if r.toNat = 122 then chuteNeed (pops + 1) rs
    else if r.toNat = 123 then max (pops + 1) (chuteNeed pops rs)
    else chuteNeed pops rs

/-! ## Results -/

/-- The lanes of a group hold every live lane (04 R67). -/
def Crew.isFull (c : Crew) (lanes : Mask) : Bool := subMask c.live lanes

/-- The lanes of `m` take `new`, the others keep `old`: shape G. -/
def mergeLanes (m : Mask) (old new : VVal) : VVal := .ofLanes fun i => if m.getLsbD i then new.lane i else old.lane i

/-- Write one physical register with shape and tag (04 R67). -/
def Crew.putReg (c : Crew) (n : Nat) (lanes : Mask) (v : VVal) (f : Fmt) : Crew :=
  let i := c.wbase.toNat * 16 + n
  let old := c.regs.getD i VReg.zero
  let val := if c.isFull lanes && v.shape != 0 then v else mergeLanes lanes old.val v
  { c with regs := c.regs.set i ⟨val, f⟩ }

/-- Write a 32-bit result to a destination code; z discards it (03 R50). -/
def Crew.write32 (c : Crew) (d : Reg) (lanes : Mask) (v : VVal) (f : Fmt) : Crew :=
  if 112 ≤ d.toNat then c else c.putReg d.toNat lanes v f

/-- Write a 64-bit result to a pair, both registers with the same tags (04 R66). -/
def Crew.write64 (c : Crew) (d : Reg) (lanes : Mask) (lo hi : VVal) (f : Fmt) : Crew :=
  if 112 ≤ d.toNat then c
  else
    let u := lo.shape == 1 && hi.shape == 1
    let l := if u then lo else .ofLanes lo.lane
    let h := if u then hi else .ofLanes hi.lane
    (c.putReg d.toNat lanes l f).putReg (d.toNat + 1) lanes h f

/-- Write a result of either width. -/
def Crew.writeFmt (c : Crew) (d : Reg) (lanes : Mask) (lo hi : VVal) (f : Fmt) : Crew :=
  if fmtWide f then c.write64 d lanes lo hi f else c.write32 d lanes lo f

/-- Write a 64-bit value lane by lane. -/
def Crew.writeLanes64 (c : Crew) (d : Reg) (lanes : Mask) (v : Nat → Dword) (f : Fmt) : Crew :=
  c.write64 d lanes (.ofLanes fun i => (v i).extractLsb' 0 32) (.ofLanes fun i => (v i).extractLsb' 32 32) f

/-- Change the bits of the group's lanes of a mask register (04 R68). -/
def Crew.setMask (c : Crew) (m : MReg) (lanes v : Mask) : Crew :=
  if m = 0 then c else { c with m := c.m.set m.toNat (((c.m.getD m.toNat 0) &&& ~~~lanes) ||| (v &&& lanes)) }

/-! ## The latch history (03 R55, R59) -/

/-- LHIST after a chainable instruction with destination code `d`. -/
def advanceHist (h : BitVec 64) (d : Nat) : BitVec 64 := (h <<< 8) ||| BitVec.ofNat 64 (128 + d)

/-- One lane of a register code read outside any group (KRDLANE, REPACK): an exited lane reads 0. -/
def Crew.laneOf (c : Crew) (o : Opnd) (i : Nat) : Dword :=
  if c.live.getLsbD i then o.wide i else 0

/-- Extend a lane's value to 64 bits (05 R100 RFAL). -/
def Opnd.extend (o : Opnd) (v : Dword) : Dword :=
  if o.isWide then v
  else if o.signed then (v.extractLsb' 0 32).signExtend 64 else (v.extractLsb' 0 32).zeroExtend 64

end Sys2Proof.Machine
end

