-- ==== Sys2Proof/Machine/Flags.lean ====
section
/-! DEFINITION. Machine/Flags.lean: every condition that sets bits of a mask register (05 R94, R109; 07 R135; 15 R264; 09
R194) and how a group's bits are put together (04 R68). -/

namespace Sys2Proof.Machine

/-- The test of an ICMP condition on two containers (05 R94). -/
def ICond.holds (c : ICond) (a b : Word) : Bool :=
  match c with
  | .eq => a == b
  | .ne => a != b
  | .lt => a.slt b
  | .ge => !a.slt b
  | .ltu => a.ult b
  | .geu => !a.ult b
  | .tst => a &&& b != 0
  | .ntst => a &&& b == 0

/-- The test of an FCMP condition on two values (07 R135): eq, ne, lt, le, gt, ge, ord, uno. -/
def fcmpHolds (cond : Nat) (a b : XVal) : Bool :=
  let un := a.isNan || b.isNan
  let lt := XVal.lt a b
  let gt := XVal.lt b a
  let eq := !un && !lt && !gt
  match cond with
  | 0 => eq
  | 1 => !eq
  | 2 => lt
  | 3 => lt || eq
  | 4 => gt
  | 5 => gt || eq
  | 6 => !un
  | _ => un

/-- The mask of the lanes in which a test of two operands holds. -/
def maskWhere (f : Word → Word → Bool) (a b : VVal) : Mask := maskOf fun i => f (a.lane i) (b.lane i)

end Sys2Proof.Machine
end

