-- ==== Sys2Proof/Decode.lean ====
section
/-! DEFINITION. Decode.lean: the decoder of Barael words (03 R49, R60, R61 checks 1 to 6), the split between Barael
and lode words, and the encoder, written from the same tables of the spec. Checks 7 to 10 of R61 depend on more than
the row and are in WellFormed.lean and Machine/Ops.lean. -/

namespace Sys2Proof

/-- The fates of R61 checks 1, 2, 3, 5 and 6 (check 4, ILLEGAL, is the instruction `illegal`). -/
inductive DecodeErr where
  | zeroWord | onesWord | undefMajor | undefFunction | reservedNonzero
  deriving DecidableEq, Repr

/-- What decoding a word gives. -/
abbrev Decoded := Except DecodeErr Instr

/-! The fields of R49. -/
def fMaj (w : Word) : BitVec 7 := w.extractLsb' 25 7
def fD (w : Word) : BitVec 7 := w.extractLsb' 18 7
def fA (w : Word) : BitVec 7 := w.extractLsb' 11 7
def fB (w : Word) : BitVec 7 := w.extractLsb' 4 7
def fNW (w : Word) : Bool := w.getLsbD 3
def fFN (w : Word) : BitVec 3 := w.extractLsb' 0 3
def fImm11 (w : Word) : BitVec 11 := w.extractLsb' 0 11
def fImm18 (w : Word) : BitVec 18 := w.extractLsb' 0 18
def fK (w : Word) : BitVec 4 := w.extractLsb' 14 4
def fO (w : Word) : BitVec 7 := w.extractLsb' 7 7
def fW (w : Word) : BitVec 4 := w.extractLsb' 3 4
def fKey (w : Word) : BitVec 7 := w.extractLsb' 0 7
def fP (w : Word) : BitVec 3 := w.extractLsb' 22 3
def fNeg (w : Word) : Bool := w.getLsbD 21
def fOff (w : Word) : BitVec 21 := w.extractLsb' 0 21
def fSub (w : Word) : BitVec 4 := w.extractLsb' 21 4
def fK1 (w : Word) : BitVec 4 := w.extractLsb' 17 4
def fK2 (w : Word) : BitVec 4 := w.extractLsb' 13 4
def fK3 (w : Word) : BitVec 4 := w.extractLsb' 9 4
def fK4 (w : Word) : BitVec 4 := w.extractLsb' 5 4
def fImm5 (w : Word) : BitVec 5 := w.extractLsb' 0 5
def fImm4 (w : Word) : BitVec 4 := w.extractLsb' 0 4

/-! Selector codes, each with its reading back. -/
def SatMode.code : SatMode → BitVec 3 | .wrap => 0 | .sat => 1 | .usat => 2 | .p64 => 3
def SatMode.ofCode (c : BitVec 3) : Option SatMode :=
  match c.toNat with | 0 => some .wrap | 1 => some .sat | 2 => some .usat | 3 => some .p64 | _ => none
def MulMode.code : MulMode → BitVec 3 | .low => 0 | .hi => 1 | .hiu => 2 | .p64 => 3
def MulMode.ofCode (c : BitVec 3) : Option MulMode :=
  match c.toNat with | 0 => some .low | 1 => some .hi | 2 => some .hiu | 3 => some .p64 | _ => none
def DivMode.code : DivMode → BitVec 3 | .quot => 0 | .uquot => 1 | .rem => 2 | .urem => 3
def DivMode.ofCode (c : BitVec 3) : Option DivMode :=
  match c.toNat with | 0 => some .quot | 1 => some .uquot | 2 => some .rem | 3 => some .urem | _ => none
def ICond.code : ICond → BitVec 3
  | .eq => 0 | .ne => 1 | .lt => 2 | .ge => 3 | .ltu => 4 | .geu => 5 | .tst => 6 | .ntst => 7
def ICond.ofCode (c : BitVec 3) : ICond :=
  match c.toNat with
  | 0 => .eq | 1 => .ne | 2 => .lt | 3 => .ge | 4 => .ltu | 5 => .geu | 6 => .tst | _ => .ntst
def Rnd.code : Rnd → BitVec 2 | .rne => 0 | .rtz => 1 | .rup => 2 | .rdn => 3
/-- FN of a rounding operand: 0 to 3 (R60 row 0x20); 4 to 7 are unassigned. -/
def Rnd.ofFn (c : BitVec 3) : Option Rnd :=
  match c.toNat with | 0 => some .rne | 1 => some .rtz | 2 => some .rup | 3 => some .rdn | _ => none
def VoteKind.code : VoteKind → BitVec 7 | .any => 0 | .all => 1 | .ballot => 2
def VoteKind.ofCode (c : BitVec 7) : Option VoteKind :=
  match c.toNat with | 0 => some .any | 1 => some .all | 2 => some .ballot | _ => none
def RedKind.code : RedKind → BitVec 7
  | .add => 0 | .min => 1 | .max => 2 | .and => 3 | .or => 4 | .xor => 5 | .fadd => 6 | .fmin => 7 | .fmax => 8
def RedKind.ofCode (c : BitVec 7) : Option RedKind :=
  match c.toNat with
  | 0 => some .add | 1 => some .min | 2 => some .max | 3 => some .and | 4 => some .or | 5 => some .xor
  | 6 => some .fadd | 7 => some .fmin | 8 => some .fmax | _ => none
def Scope.code : Scope → BitVec 3
  | .crew => 0 | .gang => 1 | .core => 2 | .cluster => 3 | .die => 4 | .pkg => 5 | .sys => 6
def Scope.ofNat? (n : Nat) : Option Scope :=
  match n with
  | 0 => some .crew | 1 => some .gang | 2 => some .core | 3 => some .cluster | 4 => some .die | 5 => some .pkg
  | 6 => some .sys | _ => none
def HoistDst.code : HoistDst → BitVec 4
  | .scratch => 0 | .a0 => 1 | .a1 => 2 | .a2 => 3 | .a3 => 4 | .w0 => 5 | .w1 => 6
def HoistDst.ofCode (c : BitVec 4) : Option HoistDst :=
  match c.toNat with
  | 0 => some .scratch | 1 => some .a0 | 2 => some .a1 | 3 => some .a2 | 4 => some .a3 | 5 => some .w0
  | 6 => some .w1 | _ => none
def WMode.code : WMode → BitVec 4 | .dense => 0 | .s24 => 1 | .s48 => 2 | .bitmap => 3
def WMode.ofCode (c : BitVec 4) : Option WMode :=
  match c.toNat with | 0 => some .dense | 1 => some .s24 | 2 => some .s48 | 3 => some .bitmap | _ => none
def KSrc.k3 : KSrc → BitVec 4 | .reg k => k | .imm _ => 0
def KSrc.k4 : KSrc → BitVec 4 | .reg _ => 0 | .imm _ => 1
def KSrc.imm5 : KSrc → BitVec 5 | .reg _ => 0 | .imm i => i

/-- Check 5 of R61: an unassigned selector. -/
def pick {α : Type} (o : Option α) (k : α → Decoded) : Decoded :=
  match o with
  | some a => k a
  | none => .error .undefFunction

/-- Check 6 of R61: the must-be-zero fields are zero. -/
def mbz (b : Bool) (i : Instr) : Decoded := if b then .ok i else .error .reservedNonzero

/-- The high bits of a k or g register field of a 7-bit place are zero (R51). -/
def kOk (f : BitVec 7) : Bool := f.extractLsb' 4 3 == 0
/-- The high bits of an m or barrier field of a 7-bit place are zero (R51). -/
def mOk (f : BitVec 7) : Bool := f.extractLsb' 3 4 == 0
def kLow (f : BitVec 7) : BitVec 4 := f.extractLsb' 0 4
def mLow (f : BitVec 7) : BitVec 3 := f.extractLsb' 0 3

/-- SUB gives its single value 0 (R60). -/
def sub0 (w : Word) (d : Decoded) : Decoded := if fSub w = 0 then d else .error .undefFunction
/-- FN gives its single value 0 (R60). -/
def fn0 (w : Word) (d : Decoded) : Decoded := if fFN w = 0 then d else .error .undefFunction

/-- The scope of ACQ and REL (R253: IMM5 of 7 to 31 trap UNDEF_FUNCTION at decoding). -/
def decScope (w : Word) (k : Scope → Instr) : Decoded :=
  sub0 w (pick (Scope.ofNat? (fImm5 w).toNat) fun s => mbz (fK2 w == 0 && fK3 w == 0 && fK4 w == 0) (k s))

/-- A three-source R word with NW and FN = 0. -/
def decR3 (w : Word) (k : Reg → Reg → Reg → Bool → Instr) : Decoded := fn0 w (.ok (k (fD w) (fA w) (fB w) (fNW w)))

/-- A float R word whose FN is a rounding mode. DEDUCED (log 41): FN 4 to 7 traps at decoding, with the word in EVAL. -/
def decFR (w : Word) (k : Reg → Reg → Reg → Bool → Rnd → Instr) : Decoded :=
  pick (Rnd.ofFn (fFN w)) fun r => .ok (k (fD w) (fA w) (fB w) (fNW w) r)

/-- A uniform word: K4 chooses the second operand (R99). -/
def decKSrc (w : Word) (k : KReg → KReg → KSrc → Instr) : Decoded :=
  match (fK4 w).toNat with
  | 0 => mbz (fImm5 w == 0) (k (fK1 w) (fK2 w) (.reg (fK3 w)))
  | 1 => mbz (fK3 w == 0) (k (fK1 w) (fK2 w) (.imm (fImm5 w)))
  | _ => .error .reservedNonzero

/-- An M-format word with a vector D. -/
def decM (w : Word) (k : Reg → KReg → Reg → BitVec 4 → BitVec 3 → Instr) : Decoded :=
  .ok (k (fD w) (fK w) (fO w) (fW w) (fFN w))

/-- An M-format word with a k register in D[3:0]. -/
def decMK (w : Word) (k : KReg → KReg → Reg → BitVec 4 → BitVec 3 → Instr) : Decoded :=
  mbz (kOk (fD w)) (k (kLow (fD w)) (fK w) (fO w) (fW w) (fFN w))

/-- K2 to K4 and IMM5 are zero. -/
def restZero (w : Word) : Bool := fK2 w == 0 && fK3 w == 0 && fK4 w == 0 && fImm5 w == 0

/-- Major 0x08 to 0x0A words with three or two sources, by FN. -/
def decLogic (w : Word) : Decoded :=
  match (fFN w).toNat with
  | 0 => .ok (.and (fD w) (fA w) (fB w) (fNW w))
  | 1 => .ok (.or (fD w) (fA w) (fB w) (fNW w))
  | 2 => .ok (.xor (fD w) (fA w) (fB w) (fNW w))
  | 3 => .ok (.andn (fD w) (fA w) (fB w) (fNW w))
  | 4 => .ok (.orn (fD w) (fA w) (fB w) (fNW w))
  | 5 => .ok (.xnor (fD w) (fA w) (fB w) (fNW w))
  | _ => .error .undefFunction

def decShift (w : Word) : Decoded :=
  match (fFN w).toNat with
  | 0 => .ok (.shl (fD w) (fA w) (fB w) (fNW w))
  | 1 => .ok (.shr (fD w) (fA w) (fB w) (fNW w))
  | 2 => .ok (.sar (fD w) (fA w) (fB w) (fNW w))
  | 3 => .ok (.rol (fD w) (fA w) (fB w) (fNW w))
  | 4 => .ok (.ror (fD w) (fA w) (fB w) (fNW w))
  | _ => .error .undefFunction

def decCount (w : Word) : Decoded :=
  match (fFN w).toNat with
  | 0 => mbz (fB w == 0) (.popc (fD w) (fA w) (fNW w))
  | 1 => mbz (fB w == 0) (.clz (fD w) (fA w) (fNW w))
  | 2 => mbz (fB w == 0) (.ctz (fD w) (fA w) (fNW w))
  | 3 => mbz (fB w == 0) (.brev (fD w) (fA w) (fNW w))
  | _ => .error .undefFunction

def decMove (w : Word) : Decoded :=
  match (fFN w).toNat with
  | 0 => mbz (fB w == 0) (.mov (fD w) (fA w) (fNW w))
  | 1 => .ok (.retag (fD w) (fA w) (fB w) (fNW w))
  | 2 => mbz (fB w == 0) (.shapeq (fD w) (fA w) (fNW w))
  | 3 => mbz (fB w == 0) (.fmtq (fD w) (fA w) (fNW w))
  | _ => .error .undefFunction

def decShiftImm (w : Word) : Decoded :=
  let z := (fImm11 w).extractLsb' 6 3 == 0
  let c := (fImm11 w).extractLsb' 0 6
  match ((fImm11 w).extractLsb' 9 2).toNat with
  | 0 => mbz z (.shli (fD w) (fA w) c)
  | 1 => mbz z (.shri (fD w) (fA w) c)
  | 2 => mbz z (.sari (fD w) (fA w) c)
  | _ => .error .undefFunction

def decPtr (w : Word) : Decoded :=
  match (fFN w).toNat with
  | 0 => mbz (!fNW w && fB w == 0) (.pspace (fD w) (fA w))
  | 1 => mbz (!fNW w) (.psetsp (fD w) (fA w) (fB w))
  | 2 => mbz (!fNW w) (.pchk (fD w) (fA w) (fB w))
  | _ => .error .undefFunction

def decUniform (w : Word) : Decoded :=
  match (fSub w).toNat with
  | 0 => decKSrc w .kadd
  | 1 => decKSrc w .ksub
  | 2 => decKSrc w .kmul
  | 3 => decKSrc w .kshl
  | 4 => decKSrc w .kshr
  | 5 => decKSrc w .kand
  | 6 => decKSrc w .kor
  | 7 => mbz (fK3 w == 0 && fK4 w == 0 && fImm5 w == 0) (.kmov (fK1 w) (fK2 w))
  | _ => .error .undefFunction

def decKMove (w : Word) : Decoded :=
  match (fFN w).toNat with
  | 0 => mbz (!fNW w && kOk (fD w) && fB w == 0) (.rfal (kLow (fD w)) (fA w))
  | 1 => mbz (!fNW w && kOk (fA w)) (.ktov (fD w) (kLow (fA w)) (fB w))
  | 2 => mbz (!fNW w && kOk (fD w) && fA w == 0 && fB w == 0) (.kpop (kLow (fD w)))
  | 3 => mbz (!fNW w && kOk (fD w) && (fB w).extractLsb' 5 2 == 0)
      (.krdlane (kLow (fD w)) (fA w) ((fB w).extractLsb' 0 5))
  | _ => .error .undefFunction

def decWinbase (w : Word) : Decoded :=
  if w.getLsbD 10 then
    mbz (fD w == 0 && fA w == 0 && w.extractLsb' 4 6 == 0) (.winbaseK (fImm4 w))
  else mbz (fD w == 0 && fA w == 0 && w.extractLsb' 5 5 == 0) (.winbase (fImm5 w))

def decTrans (w : Word) : Decoded :=
  match (fFN w).toNat with
  | 0 => mbz (fB w == 0) (.frcp (fD w) (fA w) (fNW w))
  | 1 => mbz (fB w == 0) (.frsq (fD w) (fA w) (fNW w))
  | 2 => mbz (fB w == 0) (.fexp2 (fD w) (fA w) (fNW w))
  | 3 => mbz (fB w == 0) (.flog2 (fD w) (fA w) (fNW w))
  | 4 => mbz (fB w == 0) (.ftanh (fD w) (fA w) (fNW w))
  | 5 => mbz (fB w == 0) (.fsig (fD w) (fA w) (fNW w))
  | _ => .error .undefFunction

/-- The rounding mode in FN[1:0] of major 0x29. -/
def Rnd.ofLow (c : BitVec 2) : Rnd :=
  match c.toNat with | 0 => .rne | 1 => .rtz | 2 => .rup | _ => .rdn

def decI2F (w : Word) : Decoded :=
  let r := Rnd.ofLow (w.extractLsb' 0 2)
  if w.getLsbD 2 then
    if (fB w).toNat < 2 then .ok (.f2i (fD w) (fA w) ((fB w).getLsbD 0) (fNW w) r) else .error .undefFunction
  else mbz (fB w == 0) (.i2f (fD w) (fA w) (fNW w) r)

def decMask (w : Word) : Decoded :=
  match (fFN w).toNat with
  | 0 => mbz (!fNW w && mOk (fD w) && mOk (fA w) && mOk (fB w)) (.mand (mLow (fD w)) (mLow (fA w)) (mLow (fB w)))
  | 1 => mbz (!fNW w && mOk (fD w) && mOk (fA w) && mOk (fB w)) (.mor (mLow (fD w)) (mLow (fA w)) (mLow (fB w)))
  | 2 => mbz (!fNW w && mOk (fD w) && mOk (fA w) && mOk (fB w)) (.mxor (mLow (fD w)) (mLow (fA w)) (mLow (fB w)))
  | 3 => mbz (!fNW w && mOk (fD w) && mOk (fA w) && fB w == 0) (.mnot (mLow (fD w)) (mLow (fA w)))
  | 4 => mbz (!fNW w && mOk (fD w) && fB w == 0) (.mset (mLow (fD w)) (fA w))
  | 5 => mbz (!fNW w && mOk (fA w) && fB w == 0) (.mtov (fD w) (mLow (fA w)))
  | _ => .error .undefFunction

def decControl (w : Word) : Decoded :=
  let z := fK1 w == 0 && restZero w
  match (fSub w).toNat with
  | 0 => mbz z .nop
  | 1 => mbz z .exit
  | 2 => mbz z .yield
  | 3 => mbz z .ret
  | _ => .error .undefFunction

def decBar (w : Word) : Decoded :=
  let z := mOk (fD w) && fA w == 0 && fB w == 0 && !fNW w
  match (fFN w).toNat with
  | 0 => mbz z (.bar (mLow (fD w)))
  | 1 => mbz z (.barArrive (mLow (fD w)))
  | 2 => mbz z (.barWait (mLow (fD w)))
  | _ => .error .undefFunction

def decQopen (w : Word) : Decoded :=
  match (fSub w).toNat with
  | 0 => mbz (fK4 w == 0 && fImm5 w == 0) (.qopenMake (fK1 w) (fK2 w) (fK3 w))
  | 1 => mbz (restZero w) (.qopenCons (fK1 w))
  | 2 => mbz (restZero w) (.qopenProd (fK1 w))
  | _ => .error .undefFunction

def decMx (w : Word) : Decoded :=
  match (fSub w).toNat with
  | 0 => mbz (fK1 w == 0 && fK2 w == 0 && fK3 w == 0 && fK4 w == 0 && !w.getLsbD 4)
      (.mxclr (w.getLsbD 3) (w.getLsbD 2) (w.extractLsb' 0 2))
  | 1 => mbz (fK4 w == 0 && fImm5 w == 0) (.mxst (fK1 w) (fK2 w) (fK3 w))
  | 2 => mbz (fK3 w == 0 && fK4 w == 0 && fImm5 w == 0) (.mxld (fK1 w) (fK2 w))
  | 3 => mbz (fK1 w == 0 && restZero w) .mxwait
  | 4 => mbz (fK2 w == 0 && fK3 w == 0 && fK4 w == 0 && w.extractLsb' 2 3 == 0) (.mxstep (fK1 w) (w.extractLsb' 0 2))
  | _ => .error .undefFunction

def decClamp (w : Word) : Decoded :=
  match (fSub w).toNat with
  | 0 => mbz (fK3 w == 0 && fK4 w == 0 && fImm5 w == 0) (.spclamp (fK1 w) (fK2 w))
  | 1 => mbz (restZero w) (.spclampFree (fK1 w))
  | 2 => mbz (fK3 w == 0 && fK4 w == 0 && fImm5 w == 0) (.spclampSet (fK1 w) (fK2 w))
  | _ => .error .undefFunction

def decSpread (w : Word) : Decoded :=
  match (fSub w).toNat with
  | 0 => mbz (fK3 w == 0 && fK4 w == 0 && fImm5 w == 0) (.spread (fK1 w) (fK2 w))
  | 1 => mbz (fK3 w == 0 && fK4 w == 0 && w.extractLsb' 1 4 == 0) (.spreadOnes (fK1 w) (fK2 w) (w.getLsbD 0))
  | _ => .error .undefFunction

def decTqry (w : Word) : Decoded :=
  match (fSub w).toNat with
  | 0 => mbz (fK1 w == 0 && fK3 w == 0 && fK4 w == 0 && fImm5 w == 0) (.tqry (fK2 w))
  | 1 => mbz (fK3 w == 0 && fK4 w == 0 && fImm5 w == 0) (.tqryTask (fK1 w) (fK2 w))
  | _ => .error .undefFunction

def decTapex (w : Word) : Decoded :=
  match (fFN w).toNat with
  | 0 =>
    match (fB w).toNat with
    | 0 => mbz (!fNW w) (.tapex (fD w) (fA w))
    | 1 => mbz (!fNW w && fA w == 0) (.tapexTake (fD w))
    | 2 => mbz (!fNW w && fA w == 0) (.tapexDone (fD w))
    | _ => .error .undefFunction
  | _ => .error .undefFunction

def decSys (w : Word) : Decoded :=
  if w.getLsbD 10 then
    mbz (fD w == 0 && kOk (fA w))
      (if w.extractLsb' 0 10 = 0x25 then .lodepc (kLow (fA w)) else .srw (kLow (fA w)) (w.extractLsb' 0 10))
  else mbz (kOk (fD w) && fA w == 0) (.srr (kLow (fD w)) (w.extractLsb' 0 10))

def decCounter (w : Word) : Decoded :=
  match (fSub w).toNat with
  | 0 => mbz (fK3 w == 0 && fK4 w == 0 && fImm5 w == 0) (.cancel (fK1 w) (fK2 w))
  | 1 => mbz (fK4 w == 0 && fImm5 w == 0) (.cntrd (fK1 w) (fK2 w) (fK3 w))
  | 2 => mbz (fK1 w == 0 && fK2 w == 0 && fK3 w == 0 && fK4 w == 0) (.bkpt (fImm5 w))
  | 3 => mbz (fK1 w == 0 && fK3 w == 0 && fK4 w == 0 && fImm5 w == 0) (.cycle (fK2 w))
  | _ => .error .undefFunction

/-- Check 3 of R61. -/
def undefMajor (m : Nat) : Bool := m == 0 || (0x2A ≤ m && m ≤ 0x2F) || m == 0x4E || m == 0x4F || m == 0x6B || m == 0x6F

/-- The opcode map of R60, after checks 1 to 3 of R61. -/
def decodeMajor (w : Word) : Decoded :=
  match (fMaj w).toNat with
  | 0x01 => pick (SatMode.ofCode (fFN w)) fun m => .ok (.iadd (fD w) (fA w) (fB w) (fNW w) m)
  | 0x02 => pick (SatMode.ofCode (fFN w)) fun m => .ok (.isub (fD w) (fA w) (fB w) (fNW w) m)
  | 0x03 => pick (MulMode.ofCode (fFN w)) fun m => .ok (.imul (fD w) (fA w) (fB w) (fNW w) m)
  | 0x04 => decR3 w .imad
  | 0x05 => pick (DivMode.ofCode (fFN w)) fun m => .ok (.idiv (fD w) (fA w) (fB w) (fNW w) m)
  | 0x06 => decR3 w .imin
  | 0x07 => decR3 w .imax
  | 0x08 => decLogic w
  | 0x09 => decShift w
  | 0x0A => decCount w
  | 0x0B => if (fFN w).toNat < 2 then .ok (.bfx (fD w) (fA w) (fB w) (fNW w) (w.getLsbD 0)) else .error .undefFunction
  | 0x0C => decR3 w .bfi
  | 0x0D => fn0 w (mbz (!(fD w).getLsbD 6 && !fNW w)
      (.icmp (ICond.ofCode (w.extractLsb' 21 3)) (w.extractLsb' 18 3) (fA w) (fB w)))
  | 0x0E => .ok (.sel (fD w) (fA w) (fB w) (fNW w) (fFN w))
  | 0x0F => decMove w
  | 0x10 => .ok (.iaddi (fD w) (fA w) (fImm11 w))
  | 0x11 => .ok (.andi (fD w) (fA w) (fImm11 w))
  | 0x12 => .ok (.ori (fD w) (fA w) (fImm11 w))
  | 0x13 => .ok (.xori (fD w) (fA w) (fImm11 w))
  | 0x14 => decShiftImm w
  | 0x15 => mbz (!(fD w).getLsbD 6)
      (.icmpi (ICond.ofCode (w.extractLsb' 21 3)) (w.extractLsb' 18 3) (fA w) (fImm11 w))
  | 0x16 => .ok (.movi (fD w) (fImm18 w))
  | 0x17 => .ok (.movhi (fD w) (fImm18 w))
  | 0x18 => .ok (.padd (fD w) (fA w) (fB w) (fImm4 w))
  | 0x19 => .ok (.pdiff (fD w) (fA w) (fB w) (fImm4 w))
  | 0x1A => mbz (fB w == 0) (.palign (fD w) (fA w) (fImm4 w))
  | 0x1B => decPtr w
  | 0x1C => decUniform w
  | 0x1D => mbz (kOk (fD w)) (.kmovi (kLow (fD w)) (fImm18 w))
  | 0x1E => decKMove w
  | 0x1F => decWinbase w
  | 0x20 => decFR w .fadd
  | 0x21 => decFR w .fsub
  | 0x22 => decFR w .fmul
  | 0x23 => decFR w .ffma
  | 0x24 =>
    match (fFN w).toNat with
    | 0 => .ok (.fmin (fD w) (fA w) (fB w) (fNW w))
    | 1 => .ok (.fmax (fD w) (fA w) (fB w) (fNW w))
    | _ => .error .undefFunction
  | 0x25 => fn0 w (mbz (!(fD w).getLsbD 6 && !fNW w) (.fcmp (w.extractLsb' 21 3) (w.extractLsb' 18 3) (fA w) (fB w)))
  | 0x26 => decTrans w
  | 0x27 => pick (Rnd.ofFn (fFN w)) fun r => .ok (.fcvt (fD w) (fA w) (fB w) (fNW w) r)
  | 0x28 =>
    match (fFN w).toNat with
    | 0 => mbz (fB w == 0) (.fabs (fD w) (fA w) (fNW w))
    | 1 => mbz (fB w == 0) (.fneg (fD w) (fA w) (fNW w))
    | _ => .error .undefFunction
  | 0x29 => decI2F w
  | 0x30 => .ok (.shfli (fD w) (fA w) (fB w) (fNW w) (fFN w))
  | 0x31 => .ok (.shflu (fD w) (fA w) (fB w) (fNW w) (fFN w))
  | 0x32 => .ok (.shfld (fD w) (fA w) (fB w) (fNW w) (fFN w))
  | 0x33 => .ok (.shflx (fD w) (fA w) (fB w) (fNW w) (fFN w))
  | 0x34 => pick (VoteKind.ofCode (fB w)) fun k => .ok (.vote (fD w) (fA w) k (fNW w) (fFN w))
  | 0x35 => pick (RedKind.ofCode (fB w)) fun k => .ok (.reduce (fD w) (fA w) k (fNW w) (fFN w))
  | 0x36 => mbz (fB w == 0) (.redminidx (fD w) (fA w) (fNW w) (fFN w))
  | 0x37 => pick (RedKind.ofCode (fB w)) fun k => .ok (.scan (fD w) (fA w) k (fNW w) (fFN w))
  | 0x38 => .ok (.bra (fP w) (fNeg w) (fOff w))
  | 0x39 => mbz (fP w == 0 && !fNeg w) (.call (fOff w))
  | 0x3A => sub0 w (mbz (restZero w) (.brx (fK1 w)))
  | 0x3B => mbz (!fNeg w) (.jset (fP w) (fOff w))
  | 0x3C => mbz (!fNeg w && fOff w == 0) (.jwait (fP w))
  | 0x3D => decControl w
  | 0x3E => fn0 w (mbz (fB w == 0 && !fNW w) (.repack (fD w) (fA w)))
  | 0x3F => decMask w
  | 0x40 => decM w .ld
  | 0x41 => decM w .lds
  | 0x42 => decM w .st
  | 0x43 => decMK w .ldk
  | 0x44 => decMK w .stk
  | 0x45 => decM w .atadd
  | 0x46 => decM w .atmin
  | 0x47 => decM w .atmax
  | 0x48 => decM w .atand
  | 0x49 => decM w .ator
  | 0x4A => decM w .atxor
  | 0x4B => decM w .atxch
  | 0x4C => decM w .atcas
  | 0x4D => mbz (fD w == 120) (.pf (fK w) (fO w) (fW w) (fFN w))
  | 0x50 => sub0 w (mbz (fImm5 w == 0) (.pondmk (fK1 w) (fK2 w) (fK3 w) (fK4 w)))
  | 0x51 => sub0 w (mbz (restZero w) (.pondrm (fK1 w)))
  | 0x52 => .ok (.put (fD w) (fK w) (fO w) (fKey w))
  | 0x53 => mbz (kOk (fD w) && kOk (fA w)) (.pcount (kLow (fD w)) (kLow (fA w)) (fImm11 w))
  | 0x54 => sub0 w (mbz (fK4 w == 0 && fImm5 w == 0) (.drain (fK1 w) (fK2 w) (fK3 w)))
  | 0x55 => mbz (kOk (fD w) && kOk (fA w)) (.basin (kLow (fD w)) (kLow (fA w)) (fImm11 w))
  | 0x56 => mbz (mOk (fKey w)) (.bnext (fD w) (fK w) (fO w) (mLow (fKey w)))
  | 0x57 => mbz (fKey w == 0) (.bwrite (fD w) (fK w) (fO w))
  | 0x58 => decScope w (.acq (fK1 w))
  | 0x59 => decScope w (.rel (fK1 w))
  | 0x5A => pick (Scope.ofNat? (fFN w).toNat) fun s => mbz (fD w == 0 && fA w == 0 && fB w == 0 && !fNW w) (.fence s)
  | 0x5B => decBar w
  | 0x5C => sub0 w (mbz (fK3 w == 0 && fK4 w == 0 && fImm5 w == 0) (.swait (fK1 w) (fK2 w)))
  | 0x5D => sub0 w (mbz (fK4 w == 0 && fImm5 w == 0) (.swarm (fK1 w) (fK2 w) (fK3 w)))
  | 0x5E => mbz (kOk (fA w) && fImm11 w == 0) (.gsr (fD w) (kLow (fA w)))
  | 0x5F => mbz (kOk (fD w) && fImm11 w == 0) (.gsw (kLow (fD w)) (fA w))
  | 0x60 => decQopen w
  | 0x61 => mbz (w.extractLsb' 5 2 == 0) (.enq (fD w) (fK w) (fO w) (w.getLsbD 4) (fImm4 w))
  | 0x62 => mbz (w.extractLsb' 5 2 == 0) (.deq (fD w) (fK w) (fO w) (w.getLsbD 4) (fImm4 w))
  | 0x63 => sub0 w (mbz (restZero w) (.qclose (fK1 w)))
  | 0x64 => pick (HoistDst.ofCode (fSub w)) fun t => mbz (fImm5 w == 0) (.hoist t (fK1 w) (fK2 w) (fK3 w) (fK4 w))
  | 0x65 => sub0 w (mbz (!w.getLsbD 4) (.hoistm (fK1 w) (fK2 w) (fK3 w) (fK4 w) (fImm4 w)))
  | 0x66 => sub0 w (mbz (fK3 w == 0 && fK4 w == 0 && fImm5 w == 0) (.seal (fK1 w) (fK2 w)))
  | 0x67 => sub0 w (mbz (fK3 w == 0 && fK4 w == 0) (.cwait (fK1 w) (fK2 w) (fImm5 w)))
  | 0x68 => sub0 w (mbz (fK4 w == 0) (.ctest (fK1 w) (fK2 w) (fK3 w) (fImm5 w)))
  | 0x69 => if w.getLsbD 24 then .error .undefFunction else mbz (restZero w) (.sluice (w.extractLsb' 21 3) (fK1 w))
  | 0x6A => sub0 w (mbz (fK3 w == 0 && fK4 w == 0 && w.extractLsb' 1 4 == 0) (.rlwait (fK1 w) (fK2 w) (w.getLsbD 0)))
  | 0x6C => .ok (.mxloop (w.extractLsb' 23 2) (w.extractLsb' 21 2) (fK1 w) (fK2 w) (fK3 w) (fK4 w) (w.getLsbD 4) (fImm4 w))
  | 0x6D => pick (WMode.ofCode (fSub w)) fun m => mbz (fK4 w == 0 && fImm5 w == 0) (.mxwb m (fK1 w) (fK2 w) (fK3 w))
  | 0x6E => decMx w
  | 0x70 => sub0 w (mbz (restZero w) (.spload (fK1 w)))
  | 0x71 => decClamp w
  | 0x72 => sub0 w (mbz (fK3 w == 0 && fK4 w == 0 && w.extractLsb' 1 4 == 0) (.spsweep (fK1 w) (fK2 w) (w.getLsbD 0)))
  | 0x73 => decSpread w
  | 0x74 => sub0 w (mbz (fImm5 w == 0) (.tspawn (fK1 w) (fK2 w) (fK3 w) (fK4 w)))
  | 0x75 => sub0 w (mbz (fK1 w == 0 && restZero w) .tend)
  | 0x76 => decTqry w
  | 0x77 => sub0 w (mbz (fK1 w == 0 && restZero w) .twaitw)
  | 0x78 => mbz (!fNW w) (.tkins (fD w) (fA w) (fB w) (fFN w))
  | 0x79 => decTapex w
  | 0x7A => mbz (fD w == 0 && fA w == 0 && w.extractLsb' 4 7 == 0) (.trap (fImm4 w))
  | 0x7B => sub0 w (mbz (fK1 w == 0 && restZero w) .eret)
  | 0x7C => decSys w
  | 0x7D => sub0 w (mbz (fK3 w == 0 && fK4 w == 0 && fImm5 w == 0) (.launch (fK1 w) (fK2 w)))
  | 0x7E => decCounter w
  | 0x7F => .ok (.illegal (w.extractLsb' 0 25))
  | _ => .error .undefMajor

/-- R61 checks 1 to 6, in order. -/
def decode (w : Word) : Decoded :=
  if w = 0 then .error .zeroWord
  else if w = 0xFFFFFFFF then .error .onesWord
  else if undefMajor (fMaj w).toNat then .error .undefMajor
  else decodeMajor w

/-- A lode word of major opcode 0001011 (R84, R85); every other lode word is plain RV64IMAC. -/
def decodeLode (w : Word) : Instr :=
  if w.extractLsb' 0 7 = 0x0B ∧ w.extractLsb' 12 3 = 0 ∧ w.extractLsb' 25 7 = 0 then
    .chpush (w.extractLsb' 7 5) (w.extractLsb' 15 5) (w.extractLsb' 20 5)
  else if w = 0x100B then .lexit
  else .lodeInstruction w

/-- The instruction of a word as spec/opcode_table.json numbers its bits: a Barael word, or where Barael gives the word
no instruction, one of the two lode words of the table. -/
def decodeTableWord (nbits w : Nat) : Option Instr :=
  if nbits ≤ 32 ∧ w < 2 ^ 32 then
    match decode (BitVec.ofNat 32 w) with
    | .ok i => some i
    | .error _ =>
      match decodeLode (BitVec.ofNat 32 w) with
      | .lodeInstruction _ => none
      | i => some i
  else none

/-! The formats of R49, put together. -/
def bit (b : Bool) : BitVec 1 := BitVec.ofBool b
/-- A k or g index in a 7-bit field (R51). -/
def hi3 (k : BitVec 4) : BitVec 7 := 0#3 ++ k
/-- An m, j or barrier index in a 7-bit field (R51). -/
def hi4 (m : BitVec 3) : BitVec 7 := 0#4 ++ m
def encR (maj d a b : BitVec 7) (nw : BitVec 1) (fn : BitVec 3) : Word := maj ++ d ++ a ++ b ++ nw ++ fn
def encI (maj d a : BitVec 7) (imm : BitVec 11) : Word := maj ++ d ++ a ++ imm
def encM (maj d : BitVec 7) (k : BitVec 4) (o : BitVec 7) (w : BitVec 4) (imm : BitVec 3) : Word :=
  maj ++ d ++ k ++ o ++ w ++ imm
def encP (maj d : BitVec 7) (k : BitVec 4) (o key : BitVec 7) : Word := maj ++ d ++ k ++ o ++ key
def encB (maj : BitVec 7) (p : BitVec 3) (neg : BitVec 1) (off : BitVec 21) : Word := maj ++ p ++ neg ++ off
def encE (maj : BitVec 7) (sub k1 k2 k3 k4 : BitVec 4) (imm : BitVec 5) : Word :=
  maj ++ sub ++ k1 ++ k2 ++ k3 ++ k4 ++ imm

/-- The word of an instruction; a step of the device has none. `lodepc` is the SRW that names register 0x025. -/
def encode (i : Instr) : Option Word :=
  match i with
  | .iadd d a b nw fn => some (encR 1 d a b (bit nw) fn.code)
  | .isub d a b nw fn => some (encR 2 d a b (bit nw) fn.code)
  | .imul d a b nw fn => some (encR 3 d a b (bit nw) fn.code)
  | .imad d a b nw => some (encR 4 d a b (bit nw) 0)
  | .idiv d a b nw fn => some (encR 5 d a b (bit nw) fn.code)
  | .imin d a b nw => some (encR 6 d a b (bit nw) 0)
  | .imax d a b nw => some (encR 7 d a b (bit nw) 0)
  | .and d a b nw => some (encR 8 d a b (bit nw) 0)
  | .or d a b nw => some (encR 8 d a b (bit nw) 1)
  | .xor d a b nw => some (encR 8 d a b (bit nw) 2)
  | .andn d a b nw => some (encR 8 d a b (bit nw) 3)
  | .orn d a b nw => some (encR 8 d a b (bit nw) 4)
  | .xnor d a b nw => some (encR 8 d a b (bit nw) 5)
  | .shl d a b nw => some (encR 9 d a b (bit nw) 0)
  | .shr d a b nw => some (encR 9 d a b (bit nw) 1)
  | .sar d a b nw => some (encR 9 d a b (bit nw) 2)
  | .rol d a b nw => some (encR 9 d a b (bit nw) 3)
  | .ror d a b nw => some (encR 9 d a b (bit nw) 4)
  | .popc d a nw => some (encR 10 d a 0 (bit nw) 0)
  | .clz d a nw => some (encR 10 d a 0 (bit nw) 1)
  | .ctz d a nw => some (encR 10 d a 0 (bit nw) 2)
  | .brev d a nw => some (encR 10 d a 0 (bit nw) 3)
  | .bfx d a b nw sg => some (encR 11 d a b (bit nw) (0#2 ++ bit sg))
  | .bfi d a b nw => some (encR 12 d a b (bit nw) 0)
  | .icmp c m a b => some (encR 13 (0#1 ++ c.code ++ m) a b 0 0)
  | .sel d a b nw m => some (encR 14 d a b (bit nw) m)
  | .mov d a nw => some (encR 15 d a 0 (bit nw) 0)
  | .retag d a f nw => some (encR 15 d a f (bit nw) 1)
  | .shapeq d a nw => some (encR 15 d a 0 (bit nw) 2)
  | .fmtq d a nw => some (encR 15 d a 0 (bit nw) 3)
  | .iaddi d a i => some (encI 16 d a i)
  | .andi d a i => some (encI 17 d a i)
  | .ori d a i => some (encI 18 d a i)
  | .xori d a i => some (encI 19 d a i)
  | .shli d a n => some (encI 20 d a (0#2 ++ 0#3 ++ n))
  | .shri d a n => some (encI 20 d a (1#2 ++ 0#3 ++ n))
  | .sari d a n => some (encI 20 d a (2#2 ++ 0#3 ++ n))
  | .icmpi c m a i => some (encI 21 (0#1 ++ c.code ++ m) a i)
  | .movi d i => some (22#7 ++ d ++ i)
  | .movhi d i => some (23#7 ++ d ++ i)
  | .padd d a b w => some (24#7 ++ d ++ a ++ b ++ w)
  | .pdiff d a b w => some (25#7 ++ d ++ a ++ b ++ w)
  | .palign d a w => some (26#7 ++ d ++ a ++ 0#7 ++ w)
  | .pspace d a => some (encR 27 d a 0 0 0)
  | .psetsp d a b => some (encR 27 d a b 0 1)
  | .pchk d a w => some (encR 27 d a w 0 2)
  | .kadd d a s => some (encE 28 0 d a s.k3 s.k4 s.imm5)
  | .ksub d a s => some (encE 28 1 d a s.k3 s.k4 s.imm5)
  | .kmul d a s => some (encE 28 2 d a s.k3 s.k4 s.imm5)
  | .kshl d a s => some (encE 28 3 d a s.k3 s.k4 s.imm5)
  | .kshr d a s => some (encE 28 4 d a s.k3 s.k4 s.imm5)
  | .kand d a s => some (encE 28 5 d a s.k3 s.k4 s.imm5)
  | .kor d a s => some (encE 28 6 d a s.k3 s.k4 s.imm5)
  | .kmov d a => some (encE 28 7 d a 0 0 0)
  | .kmovi d i => some (29#7 ++ 0#3 ++ d ++ i)
  | .rfal d a => some (encR 30 (hi3 d) a 0 0 0)
  | .ktov d k f => some (encR 30 d (hi3 k) f 0 1)
  | .kpop d => some (encR 30 (hi3 d) 0 0 0 2)
  | .krdlane d a n => some (encR 30 (hi3 d) a (0#2 ++ n) 0 3)
  | .winbase n => some (encI 31 0 0 (0#6 ++ n))
  | .winbaseK k => some (encI 31 0 0 (1#1 ++ 0#6 ++ k))
  | .fadd d a b nw r => some (encR 32 d a b (bit nw) (0#1 ++ r.code))
  | .fsub d a b nw r => some (encR 33 d a b (bit nw) (0#1 ++ r.code))
  | .fmul d a b nw r => some (encR 34 d a b (bit nw) (0#1 ++ r.code))
  | .ffma d a b nw r => some (encR 35 d a b (bit nw) (0#1 ++ r.code))
  | .fmin d a b nw => some (encR 36 d a b (bit nw) 0)
  | .fmax d a b nw => some (encR 36 d a b (bit nw) 1)
  | .fcmp c m a b => some (encR 37 (0#1 ++ c ++ m) a b 0 0)
  | .frcp d a nw => some (encR 38 d a 0 (bit nw) 0)
  | .frsq d a nw => some (encR 38 d a 0 (bit nw) 1)
  | .fexp2 d a nw => some (encR 38 d a 0 (bit nw) 2)
  | .flog2 d a nw => some (encR 38 d a 0 (bit nw) 3)
  | .ftanh d a nw => some (encR 38 d a 0 (bit nw) 4)
  | .fsig d a nw => some (encR 38 d a 0 (bit nw) 5)
  | .fcvt d a f nw r => some (encR 39 d a f (bit nw) (0#1 ++ r.code))
  | .fabs d a nw => some (encR 40 d a 0 (bit nw) 0)
  | .fneg d a nw => some (encR 40 d a 0 (bit nw) 1)
  | .i2f d a nw r => some (encR 41 d a 0 (bit nw) (0#1 ++ r.code))
  | .f2i d a u nw r => some (encR 41 d a (0#6 ++ bit u) (bit nw) (1#1 ++ r.code))
  | .shfli d a b nw m => some (encR 48 d a b (bit nw) m)
  | .shflu d a b nw m => some (encR 49 d a b (bit nw) m)
  | .shfld d a b nw m => some (encR 50 d a b (bit nw) m)
  | .shflx d a b nw m => some (encR 51 d a b (bit nw) m)
  | .vote d a k nw m => some (encR 52 d a k.code (bit nw) m)
  | .reduce d a k nw m => some (encR 53 d a k.code (bit nw) m)
  | .redminidx d a nw m => some (encR 54 d a 0 (bit nw) m)
  | .scan d a k nw m => some (encR 55 d a k.code (bit nw) m)
  | .bra p n o => some (encB 56 p (bit n) o)
  | .call o => some (encB 57 0 0 o)
  | .brx k => some (encE 58 0 k 0 0 0 0)
  | .jset j o => some (encB 59 j 0 o)
  | .jwait j => some (encB 60 j 0 0)
  | .nop => some (encE 61 0 0 0 0 0 0)
  | .exit => some (encE 61 1 0 0 0 0 0)
  | .yield => some (encE 61 2 0 0 0 0 0)
  | .ret => some (encE 61 3 0 0 0 0 0)
  | .repack d a => some (encR 62 d a 0 0 0)
  | .mand d a b => some (encR 63 (hi4 d) (hi4 a) (hi4 b) 0 0)
  | .mor d a b => some (encR 63 (hi4 d) (hi4 a) (hi4 b) 0 1)
  | .mxor d a b => some (encR 63 (hi4 d) (hi4 a) (hi4 b) 0 2)
  | .mnot d a => some (encR 63 (hi4 d) (hi4 a) 0 0 3)
  | .mset d a => some (encR 63 (hi4 d) a 0 0 4)
  | .mtov d a => some (encR 63 d (hi4 a) 0 0 5)
  | .ld d k o w i => some (encM 64 d k o w i)
  | .lds d k o w i => some (encM 65 d k o w i)
  | .st d k o w i => some (encM 66 d k o w i)
  | .ldk d k o w i => some (encM 67 (hi3 d) k o w i)
  | .stk d k o w i => some (encM 68 (hi3 d) k o w i)
  | .atadd d k o w i => some (encM 69 d k o w i)
  | .atmin d k o w i => some (encM 70 d k o w i)
  | .atmax d k o w i => some (encM 71 d k o w i)
  | .atand d k o w i => some (encM 72 d k o w i)
  | .ator d k o w i => some (encM 73 d k o w i)
  | .atxor d k o w i => some (encM 74 d k o w i)
  | .atxch d k o w i => some (encM 75 d k o w i)
  | .atcas d k o w i => some (encM 76 d k o w i)
  | .pf k o w i => some (encM 77 120 k o w i)
  | .pondmk h r c p => some (encE 80 0 h r c p 0)
  | .pondrm h => some (encE 81 0 h 0 0 0 0)
  | .put d k o y => some (encP 82 d k o y)
  | .pcount d h n => some (encI 83 (hi3 d) (hi3 h) n)
  | .drain h t c => some (encE 84 0 h t c 0 0)
  | .basin d h n => some (encI 85 (hi3 d) (hi3 h) n)
  | .bnext d k o m => some (encP 86 d k o (hi4 m))
  | .bwrite d k o => some (encP 87 d k o 0)
  | .pondOperationPerform _ _ => none
  | .drainComplete _ _ => none
  | .acq o s => some (encE 88 0 o 0 0 0 (0#2 ++ s.code))
  | .rel o s => some (encE 89 0 o 0 0 0 (0#2 ++ s.code))
  | .fence s => some (encR 90 0 0 0 0 s.code)
  | .bar b => some (encR 91 (hi4 b) 0 0 0 0)
  | .barArrive b => some (encR 91 (hi4 b) 0 0 0 1)
  | .barWait b => some (encR 91 (hi4 b) 0 0 0 2)
  | .swait s g => some (encE 92 0 s g 0 0 0)
  | .swarm s t g => some (encE 93 0 s t g 0 0)
  | .gsr d g => some (encI 94 d (hi3 g) 0)
  | .gsw g a => some (encI 95 (hi3 g) a 0)
  | .qopenMake h b p => some (encE 96 0 h b p 0 0)
  | .qopenCons h => some (encE 96 1 h 0 0 0 0)
  | .qopenProd h => some (encE 96 2 h 0 0 0 0)
  | .enq d k o b n => some (encP 97 d k o (0#2 ++ bit b ++ n))
  | .deq d k o b n => some (encP 98 d k o (0#2 ++ bit b ++ n))
  | .qclose h => some (encE 99 0 h 0 0 0 0)
  | .queueRecordArrival _ _ => none
  | .producerCloseArrival _ _ => none
  | .sendStall _ _ _ => none
  | .hoist t r d l b => some (encE 100 t.code r d l b 0)
  | .hoistm r d l y m => some (encE 101 0 r d l y (0#1 ++ m))
  | .hoistChunkComplete _ _ _ => none
  | .seal r s => some (encE 102 0 r s 0 0 0)
  | .cwait b m w => some (encE 103 0 b m 0 0 w)
  | .ctest b m r w => some (encE 104 0 b m r 0 w)
  | .sluice s b => some (encE 105 (0#1 ++ s) b 0 0 0 0)
  | .sluiceGroupComplete _ _ _ => none
  | .rlwait s l k => some (encE 106 0 s l 0 0 (0#4 ++ bit k))
  | .mxloop s c a b n i cl f => some (encE 108 (s ++ c) a b n i (bit cl ++ f))
  | .mxwb m s c l => some (encE 109 m.code s c l 0 0)
  | .mxclr cl k c => some (encE 110 0 0 0 0 0 (0#1 ++ bit cl ++ bit k ++ c))
  | .mxst d c s => some (encE 110 1 d c s 0 0)
  | .mxld c o => some (encE 110 2 c o 0 0 0)
  | .mxwait => some (encE 110 3 0 0 0 0 0)
  | .mxstep d c => some (encE 110 4 d 0 0 0 (0#3 ++ c))
  | .matrixStep _ => none
  | .matrixCommandComplete _ => none
  | .spload i => some (encE 112 0 i 0 0 0 0)
  | .spclamp r v => some (encE 113 0 r v 0 0 0)
  | .spclampFree r => some (encE 113 1 r 0 0 0 0)
  | .spclampSet r v => some (encE 113 2 r v 0 0 0)
  | .spsweep n b c => some (encE 114 0 n b 0 0 (0#4 ++ bit c))
  | .spread d r => some (encE 115 0 d r 0 0 0)
  | .spreadOnes d r c => some (encE 115 1 d r 0 0 (0#4 ++ bit c))
  | .springColourUpdate _ => none
  | .springCommandComplete _ => none
  | .tspawn e t a n => some (encE 116 0 e t a n 0)
  | .tend => some (encE 117 0 0 0 0 0 0)
  | .tqry r => some (encE 118 0 0 r 0 0 0)
  | .tqryTask t r => some (encE 118 1 t r 0 0 0)
  | .twaitw => some (encE 119 0 0 0 0 0 0)
  | .tkins d a b k => some (encR 120 d a b 0 k)
  | .tapex d a => some (encR 121 d a 0 0 0)
  | .tapexTake d => some (encR 121 d 0 1 0 0)
  | .tapexDone d => some (encR 121 d 0 2 0 0)
  | .trap c => some (encI 122 0 0 (0#7 ++ c))
  | .eret => some (encE 123 0 0 0 0 0 0)
  | .srr d r => some (encI 124 (hi3 d) 0 (0#1 ++ r))
  | .srw k r => some (encI 124 0 (hi3 k) (1#1 ++ r))
  | .lodepc k => some (encI 124 0 (hi3 k) (1#1 ++ 0x25#10))
  | .launch s d => some (encE 125 0 s d 0 0 0)
  | .cancel h r => some (encE 126 0 h r 0 0 0)
  | .cntrd h l u => some (encE 126 1 h l u 0 0)
  | .bkpt n => some (encE 126 2 0 0 0 0 n)
  | .cycle d => some (encE 126 3 0 d 0 0 0)
  | .illegal c => some (127#7 ++ c)
  | .chpush d a b => some (0#7 ++ b ++ a ++ 0#3 ++ d ++ 0x0B#7)
  | .lexit => some (0x100B#32)
  | .lodeInstruction p => some (p)
  | .gangComplete _ => none
  | .dispatchRecord _ _ => none
  | .graphAdmit _ => none
  | .nodeDispatch _ _ => none
  | .gangPlace _ => none
  | .budgetExhaust _ => none
  | .quantumEnd _ => none
  | .quantumEntryStart _ => none
  | .intakePut _ _ _ => none
  | .intakeHandle _ _ => none
  | .resumeSlice _ => none
  | .cancelSlice _ => none
  | .pondMake _ => none
  | .pondRemove _ => none
  | .partitionRecordWrite _ _ _ _ => none
  | .faultpond _ _ => none
  | .invalidateTranslations _ => none
  | .replayParked _ => none
  | .dirtyResync _ => none
  | .faultRecordRetry _ => none
  | .suspend _ => none
  | .resume _ => none
  | .vfReset _ => none
  | .functionLevelReset _ => none
  | .hostRegisterWrite _ _ _ _ _ => none
  | .hostMemoryWrite _ _ _ => none
  | .hostMemoryRead _ _ _ => none
  | .remoteRequest _ => none
  | .remoteResponse _ _ => none
  | .portFailure _ => none
  | .routeTimeout _ => none
  | .coldStart _ => none
  | .warmStart _ => none
  | .startTimeout => none
  | .attestationQuote _ => none
  | .powerLimit _ => none
  | .portTrained _ => none

end Sys2Proof
end

