-- ==== Sys2Proof/Machine/Combine.lean ====
section
/-! DEFINITION. Machine/Combine.lean: what a cross-lane instruction computes (05 R102 to R105) from the member lanes. -/

namespace Sys2Proof.Machine

/-- The result of a cross-lane instruction: its destination, value and format. -/
structure CrossRes where
  d : Reg
  val : VVal
  fmt : Fmt
  deriving DecidableEq, Repr

/-- The values of the member lanes, absent lanes giving the identity (05 R101 step 5). -/
def memberVals (mem : Mask) (v : VVal) (ident : Word) : List Word :=
  (List.range 32).map fun i => if mem.getLsbD i then v.lane i else ident

/-- A min or max of two F32 codes (07 R134). -/
def minF32 (a b : Word) : Word := BitVec.ofNat 32 (toBin binF32 .rne (minX (binValue binF32 a.toNat) (binValue binF32 b.toNat)))
def maxF32 (a b : Word) : Word := BitVec.ofNat 32 (toBin binF32 .rne (maxX (binValue binF32 a.toNat) (binValue binF32 b.toNat)))

/-- The lesser and the greater of two containers. -/
def minW (signed : Bool) (a b : Word) : Word := if (if signed then b.slt a else b.ult a) then b else a
def maxW (signed : Bool) (a b : Word) : Word := if (if signed then a.slt b else a.ult b) then b else a

/-- The operation of a kind, on containers of format `f` (05 R104). -/
def redOp (k : RedKind) (f : Fmt) : Word → Word → Word :=
  match k with
  | .add => (· + ·)
  | .min => minW (fmtSigned f)
  | .max => maxW (fmtSigned f)
  | .and => (· &&& ·)
  | .or => (· ||| ·)
  | .xor => (· ^^^ ·)
  | .fadd => addF32
  | .fmin => minF32
  | .fmax => maxF32

/-- The identity of a kind (05 R104). -/
def redIdent (k : RedKind) (f : Fmt) : Word :=
  match k with
  | .add => 0
  | .min => container f (natOfInt 32 (intMax f))
  | .max => container f (natOfInt 32 (intMin f))
  | .and => 0xFFFFFFFF
  | .or => 0
  | .xor => 0
  | .fadd => 0
  | .fmin => 0x7F800000
  | .fmax => 0xFF800000

/-- The format of the result of a kind (05 R104). -/
def redFmt (k : RedKind) (f : Fmt) : Fmt :=
  match k with
  | .add => if fmtSigned f then .i32 else .n32
  | .min => f
  | .max => f
  | .and => .n32
  | .or => .n32
  | .xor => .n32
  | .fadd => .f32
  | .fmin => .f32
  | .fmax => .f32

/-- The formats a kind takes (05 R104). -/
def redClass (k : RedKind) (f : Fmt) : Bool :=
  match k with
  | .fadd => f == .f32
  | .fmin => f == .f32
  | .fmax => f == .f32
  | _ => classX f

/-- The inclusive running combination of a list. -/
def runOp (op : Word → Word → Word) : List Word → List Word
  | [] => []
  | a :: l => a :: (runGo op a l)
where
  runGo (op : Word → Word → Word) (acc : Word) : List Word → List Word
  | [] => []
  | b :: l => op acc b :: runGo op (op acc b) l

/-- A member's NaN as an instruction produces it: the canonical one (06 R116). -/
def canonRed (k : RedKind) (w : Word) : Word :=
  match k with
  | .fadd | .fmin | .fmax => if (binValue binF32 w.toNat).isNan then BitVec.ofNat 32 (toBin binF32 .rne .nan) else w
  | _ => w

/-- The kinds whose running combination of one value is that value. -/
def redKeeps (k : RedKind) : Bool :=
  match k with
  | .min | .max | .and | .or | .fmin | .fmax => true
  | .add | .xor | .fadd => false

/-- SCAN's results: a source of shape U whose kind keeps it gives shape U (04 R67), but for a NaN after the identity of an
absent lane. DEDUCED (log 30): sums of one value are no one value, so they have shape G. -/
def scanVal (k : RedKind) (f : Fmt) (mem : Mask) (v : VVal) : VVal :=
  match v, redKeeps k && (mem == BitVec.allOnes 32 || redOp k f (redIdent k f) (canonRed k (v.lane 0)) == canonRed k (v.lane 0)) with
  | .uni w, true => .uni (canonRed k w)
  | _, _ => .gen (runOp (redOp k f) ((memberVals mem v (redIdent k f)).map (canonRed k)))

/-- REDUCE over a list of 32 values: the fixed tree for fadd, ascending order for the rest. -/
def reduceList (k : RedKind) (f : Fmt) (l : List Word) : Word :=
  match k with
  | .fadd => treeSum 5 l
  | _ => ((runOp (redOp k f) l).getLast?).getD 0

/-- The lane a shuffle reads from, none when out of range (05 R102). -/
def shuffleSource (i : Instr) (lane : Nat) (b : Word) : Option Nat :=
  let n := b.toNat
  match i with
  | .shfli _ _ _ _ _ => if n < 32 then some n else none
  | .shflu _ _ _ _ _ => if n ≤ lane then some (lane - n) else none
  | .shfld _ _ _ _ _ => if lane + n < 32 then some (lane + n) else none
  | _ => if n < 32 then some (lane ^^^ n) else none

/-- The member mask of a cross-lane instruction. -/
def memberMask (i : Instr) : Option MReg :=
  match i with
  | .shfli _ _ _ _ m => some m
  | .shflu _ _ _ _ m => some m
  | .shfld _ _ _ _ m => some m
  | .shflx _ _ _ _ m => some m
  | .vote _ _ _ _ m => some m
  | .reduce _ _ _ _ m => some m
  | .redminidx _ _ _ m => some m
  | .scan _ _ _ _ m => some m
  | _ => none

/-- A shuffle: `mem` are the live members. DESIGN CHOICE (log 107): the result of A = z is tagged N32. -/
def combineShuffle (i : Instr) (d : Reg) (a b : Opnd) (mem : Mask) : Except Nat CrossRes :=
  if !a.isIn classAny32 || !b.isIn classX then .error Cause.tagMismatch
  else
    let v (j : Nat) : Word :=
      match shuffleSource i j (b.lo.lane j) with
      | some k => if mem.getLsbD k then a.lo.lane k else a.lo.lane j
      | none => a.lo.lane j
    let val := if a.lo.shape == 1 && b.lo.shape == 1 then a.lo else .ofLanes v
    .ok ⟨d, val.fit (a.fmt.getD .n32), a.fmt.getD .n32⟩

/-- The result of a cross-lane instruction over its live members `mem`, from the operands as the crew holds them. DESIGN CHOICE (log
107): REDUCE and SCAN of A = z take the format N32, or F32 for the float kinds. -/
def combine (i : Instr) (a b : Opnd) (mem : Mask) : Except Nat CrossRes :=
  match i with
  | .shfli d _ _ _ _ => combineShuffle i d a b mem
  | .shflu d _ _ _ _ => combineShuffle i d a b mem
  | .shfld d _ _ _ _ => combineShuffle i d a b mem
  | .shflx d _ _ _ _ => combineShuffle i d a b mem
  | .vote d _ kind _ _ =>
    if !a.isIn classX then .error Cause.tagMismatch
    else
      let pred := maskOf fun j => mem.getLsbD j && a.lo.lane j != 0
      let r : Word :=
        match kind with
        | .any => if pred ≠ 0 then 1 else 0
        | .all => if subMask mem pred then 1 else 0
        | .ballot => pred
      .ok ⟨d, .uni r, .n32⟩
  | .reduce d _ kind _ _ =>
    let f := a.fmt.getD (if redClass kind .f32 then .f32 else .n32)
    if !redClass kind f then .error Cause.tagMismatch
    else .ok ⟨d, (VVal.uni (reduceList kind f (memberVals mem a.lo (redIdent kind f)))).fit (redFmt kind f), redFmt kind f⟩
  | .scan d _ kind _ _ =>
    let f := a.fmt.getD (if redClass kind .f32 then .f32 else .n32)
    if !redClass kind f then .error Cause.tagMismatch
    else .ok ⟨d, (scanVal kind f mem a.lo).fit (redFmt kind f), redFmt kind f⟩
  | .redminidx d _ _ _ =>
    if !a.isIn classX then .error Cause.tagMismatch
    else
      let key (j : Nat) : Nat := if a.signed then ((a.lo.lane j).toInt + 2 ^ 31).toNat else (a.lo.lane j).toNat
      .ok ⟨d, .uni (BitVec.ofNat 32 ((minBy key (lanesOf mem)).getD 32)), .n32⟩
  | _ => .error Cause.illegal

/-- The source codes of a cross-lane instruction. -/
def crossSources (i : Instr) : Reg × Reg :=
  match i with
  | .shfli _ a b _ _ => (a, b)
  | .shflu _ a b _ _ => (a, b)
  | .shfld _ a b _ _ => (a, b)
  | .shflx _ a b _ _ => (a, b)
  | .vote _ a _ _ _ => (a, 120)
  | .reduce _ a _ _ _ => (a, 120)
  | .redminidx _ a _ _ => (a, 120)
  | .scan _ a _ _ _ => (a, 120)
  | _ => (120, 120)

end Sys2Proof.Machine
end

