-- ==== Sys2Proof/Machine/Queue.lean ====
section
/-! DEFINITION. Machine/Queue.lean: the queue units (15 R258 to R265): handles, grants, arrivals, closing and removal. -/

namespace Sys2Proof.Machine

/-! ## Waking groups -/

/-- The live lanes of `m` go on at READY with AGE 0 and next address `f pc`. -/
def Crew.release (c : Crew) (m : Mask) (f : Dword → Dword) : Crew :=
  let l := m &&& c.live
  { c.modLanes l (fun e => { e with pc := f e.pc, st := .ready, age := 0 }) with
    tied := c.tied &&& ~~~m, cwaits := c.cwaits &&& ~~~m }

/-- The address after a word. -/
def nextPc (pc : Dword) : Dword := ptrAdd pc 32

/-- Lanes in WAIT for a reason, not tied to an operation of their own. -/
def Crew.untied (c : Crew) (y : Why) : Mask := (c.lanesIn fun s => s == .wait y) &&& ~~~c.tied

/-- The handler lanes (18 R279). -/
def Crew.handlerLanes (c : Crew) : Mask := c.trap.elanes &&& c.live

/-- The lanes that are not held: the handler lanes in handler mode, every live lane otherwise. -/
def Crew.active (c : Crew) : Mask := if c.inHandler then c.handlerLanes else c.live

/-- Groups of a crew that wait for a reason issue their instruction again (log 5), but those that a handler holds. -/
def Crew.wake (c : Crew) (y : Why) : Crew := c.release (c.untied y &&& c.active) id

/-- Handler mode is over: groups that it held look again at what they wait for (18 R279). -/
def Crew.wakeHeld (c : Crew) : Crew := [Why.chute, .engine, .frontier, .queue].foldl Crew.wake c

/-- Wake the groups of the gangs that satisfy `p`. -/
def wakeGangs (s : State) (p : Gang → Bool) (y : Why) : State :=
  let wake (g : Gang) : Gang :=
    if p g && (g.crews.any fun c => c.untied y != 0) then { g with crews := g.crews.map fun c => c.wake y } else g
  { s with gangs := s.gangs.map wake }

/-- Wake the groups of a core. -/
def wakeCore (s : State) (core : Nat) (y : Why) : State := wakeGangs s (fun g => g.core == core) y

/-- What lanes `m` waited for is forgotten: their wait is over, or they trap. -/
def Crew.forget (c : Crew) (m : Mask) : Crew :=
  { c with bounds := c.bounds.filter fun b => b.lanes &&& m == 0, posting := c.posting.filter fun p => p.lanes &&& m == 0 }

/-! ## What a waiting group gets -/

/-- Lanes that the crew's handler holds (18 R279). -/
def Crew.holds (c : Crew) (lanes : Mask) : Bool := c.inHandler && (lanes &&& c.handlerLanes) == 0

/-- What a performed operation writes, through the window of its issue, in the lanes that are still live. -/
def Crew.applyRes (c : Crew) (r : GroupRes) : Crew :=
  c.inWindow r.wbase fun c =>
    let c := r.ks.foldl (fun c p => c.setK p.1 p.2) c
    let c := r.ws.foldl (fun c p => if p.2.1 &&& c.live = 0 then c else c.write32 p.1 (p.2.1 &&& c.live) p.2.2 .n32) c
    r.ms.foldl (fun c p => c.setMask p.1 p.2.1 p.2.2) c

/-- A group that its handler holds is given a result when the handler ends (18 R279). -/
def Crew.keep (c : Crew) (lanes : Mask) (pc : Dword) (r : GroupRes) : Crew := { c with pend := c.pend ++ [⟨lanes, pc, r⟩] }

/-- A waiting group's operation is performed: its results, and the next address. -/
def Crew.giveDone (c : Crew) (lanes : Mask) (pc : Dword) (r : GroupRes) : Crew :=
  if c.holds lanes then c.keep lanes pc r else ((c.applyRes r).spend 0 lanes).release lanes nextPc

/-- Change a crew, of a gang in the machine or put aside. -/
def State.modCrewAny (s : State) (gid ci : Nat) (f : Crew → Crew) : State :=
  if (s.gang? gid).isSome then s.modCrew gid ci f
  else
    let one (v : SavedGang) : SavedGang := if v.gang.id == gid then { v with gang := v.gang.modCrew ci f } else v
    let fix (x : Fn) : Fn := { x with saved := x.saved.map fun v => { v with gangs := v.gangs.map one } }
    { s with fns := s.fns.map fun x => if (x.saved.any fun v => v.gangs.any fun y => y.gang.id == gid) then fix x else x }

/-- The partition of a gang. -/
def gangPart (s : State) (g : Gang) : Nat := match s.launch? g.launch with | some l => l.part | none => 64

/-! ## Handles -/

/-- A queue handle (15 R259). -/
def queueHandle (s : State) (slot gen : Nat) : Dword := BitVec.ofNat 64 (slot + s.link.node.toNat * 2 ^ 12 + gen * 2 ^ 24)

def queueGen (s : State) (part slot : Nat) : Nat :=
  match s.queueGens.find? fun g => g.1 == part && g.2.1 == slot with
  | some g => g.2.2
  | none => 0

/-- The queue of this package that a handle names for a partition. -/
def queueOf (s : State) (part : Nat) (h : Dword) : Option Queue :=
  match s.queue? part (bitsAt h.toNat 0 10) with
  | some q => if queueHandle s q.slot q.gen = h then some q else none
  | none => none

/-- A handle of a queue on another node: no reserved bit set (15 R259). -/
def remoteHandle (s : State) (h : Dword) : Bool :=
  bitsAt h.toNat 10 2 == 0 && bitsAt h.toNat 44 20 == 0 && bitsAt h.toNat 12 12 != s.link.node.toNat

/-! ## Grants -/

/-- What a group of an ENQ does once its records are sent or its status is known: write D, go on (15 R262). -/
def finishEnq (s : State) (r : QReq) (status : Option Word) : State :=
  let ws : List (Reg × Mask × VVal) := match status with | some v => [(r.d, r.lanes, .uni v)] | none => []
  s.modCrewAny r.gang r.crew fun c => c.giveDone r.lanes r.pc ⟨r.wbase, [], ws, [], none⟩

/-- A reservation of another package, or its records, are answered after they have waited (15 R262). -/
def lateAnswer (s : State) (node : Nat × Nat) (a : RemoteAns) : State :=
  { s with link := { s.link with lateAnswers := (node.1, node.2, a) :: s.link.lateAnswers } }

/-- A producer has a reservation that waits, or whose records have not come. -/
def Queue.reserving (q : Queue) (p : Nat) : Bool := (q.waiting ++ q.granted).any fun r => r.producer == p

/-- Closes travel behind their producer's records (15 R261): those leave whose producer has no reservation left. -/
def Queue.sendCloses (q : Queue) : Queue :=
  { q with
    transit := q.transit ++ (q.closing.filter fun p => !q.reserving p).map .close
    closing := q.closing.filter q.reserving }

/-- Grant the waiting reservations from the head while FREE allows (15 R262). -/
def grantQueue : Nat → State → Nat → Nat → State
  | 0, s, _, _ => s
  | fuel + 1, s, part, slot =>
    match s.queue? part slot with
    | none => s
    | some q =>
      match q.waiting with
      | [] => s
      | r :: rest =>
        if q.free < r.recs.length then s
        else
          match r.node with
          | some n =>
            -- another package sends its records now
            let s := s.modQueue part slot fun q => { q with free := q.free - r.recs.length, waiting := rest, granted := q.granted ++ [r] }
            grantQueue fuel (lateAnswer s n (.data 0)) part slot
          | none =>
            let ack := r.d.toNat != 120
            let s := s.modQueue part slot fun q =>
              { q with free := q.free - r.recs.length, waiting := rest, transit := q.transit ++ [.recs r ack] }
            grantQueue fuel (if ack then s else finishEnq s r none) part slot

/-- Grant what can be granted, and let go the closes that waited for it. -/
def grantAll (s : State) (part slot : Nat) : State :=
  match s.queue? part slot with
  | some q => (grantQueue (q.waiting.length + 1) s part slot).modQueue part slot Queue.sendCloses
  | none => s

/-- The 512 bits of a buffer slot (15 R258). -/
def queueBits (words : List Word) (prod : Nat) : Nat :=
  let body := (words.zipIdx.map fun p => p.1.toNat * 2 ^ (32 * p.2)).foldl (· + ·) 0
  body + words.length * 2 ^ 256 + prod * 2 ^ 260

/-- The agent of a queue unit. -/
def Queue.agent (q : Queue) : Agent := ⟨q.fn, q.part, none, 0, 0, false, false⟩

/-- A buffer slot no record holds: the least number not in `order` (records in transit own no particular slot). -/
def Queue.freeSlot (q : Queue) : Nat := ((List.range q.slots).find? fun k => !q.order.contains k).getD 0

/-- A buffer in vaults is out of reach, as a pond's is (log 45). -/
def Queue.away (q : Queue) (s : State) : Bool :=
  !isDev q.buf && ((match (s.part q.part).resident with | some f => f != q.fn | none => false) ||
    (match (s.fn q.fn).saved with | some v => v.whole | none => false))

/-- Write a record to its slot: in the buffer, or in what its function has put aside (15 R265); none when the slot cannot
be written now (log 32). -/
def writeSlot (s : State) (q : Queue) (k v : Nat) : Option State :=
  let p := ptrAdd q.buf (512 * k)
  if q.away s then
    match (s.fn q.fn).saved, boundCheck s q.agent p 512 with
    | some w, .ok (some key) =>
      if w.whole then some (s.modFn q.fn fun f => { f with saved := some { w with mem := (Memory.setBits ⟨w.mem, s.mem.gen⟩ key 512 v).cells } })
      else none
    | _, _ => none
  else (match engineWrite s q.agent p 512 v .free with | .ok s => some s | .error _ => none)

/-- Write records into the buffer one after another. -/
def fillQueue (s : State) (part slot prod : Nat) : List (List Word) → Option State
  | [] => some s
  | r :: rs =>
    match s.queue? part slot with
    | none => some s
    | some q =>
      let k := q.freeSlot
      match writeSlot s q k (queueBits r prod) with
      | none => none
      | some s => fillQueue (s.modQueue part slot fun q => { q with order := q.order ++ [k] }) part slot prod rs

/-- The records at the head of the transit enter the queue (15 R262). -/
def arriveRecords (s : State) (part slot : Nat) : Option State :=
  match s.queue? part slot with
  | none => none
  | some q =>
    match q.transit with
    | .recs r ack :: rest =>
      match fillQueue (s.modQueue part slot fun q => { q with transit := rest }) part slot r.producer r.recs with
      | none => none
      | some s =>
        let s := match r.node with | some n => lateAnswer s n (.data 0) | none => if ack then finishEnq s r (some 0) else s
        some (wakeGangs s (fun g => gangPart s g == part) .queue)
    | _ => none

/-- The close at the head of the transit takes effect (15 R261). -/
def arriveClose (s : State) (part slot : Nat) : Option State :=
  match s.queue? part slot with
  | none => none
  | some q =>
    match q.transit with
    | .close p :: rest =>
      let s := s.modQueue part slot fun q => { q with transit := rest, closed := q.closed.set p true }
      some (wakeGangs s (fun g => gangPart s g == part) .queue)
    | _ => none

/-! ## Closing and removal -/

/-- The queue that an ENQ waits on is removed (15 R262): the status of the acknowledged form, or a trap, for which the group
issues again; another package is answered. -/
def enqGone (s : State) (r : QReq) : State :=
  match r.node with
  | some n => lateAnswer s n (.data 2)
  | none =>
    if r.d.toNat != 120 then finishEnq s r (some 2)
    else s.modCrewAny r.gang r.crew fun c =>
      if c.holds r.lanes then c.keep r.lanes r.pc ⟨0, [], [], [], some (Cause.qGone, 0, false)⟩
      else { ((c.giveBack r.lanes).release r.lanes id) with gone := (r.pc, r.lanes) :: c.gone }

/-- Remove a queue: records and waiting reservations are discarded and GEN advances (15 R261). -/
def removeQueue (s : State) (part slot : Nat) : State :=
  match s.queue? part slot with
  | none => s
  | some q =>
    let s := { s with queues := s.queues.filter fun x => !(x.part == part && x.slot == slot),
                      queueGens := setGen s.queueGens part slot ((q.gen + 1) % 2 ^ 20) }
    let s := q.waiting.foldl enqGone s
    let s := q.transit.foldl (fun s t => match t with | .recs r true => enqGone s r | _ => s) s
    wakeGangs s (fun g => gangPart s g == part) .queue

/-- The close of a producer on another package leaves behind its records (15 R261). -/
def postClose (s : State) (r : QReg) : State :=
  let id := s.link.nextReq
  let q : LinkReq := ⟨id, some (bitsAt r.handle.toNat 12 12), 0, 0, [], .qclose r.handle r.index, 0, 0, true, none, 0⟩
  { s with link := { s.link with nextReq := id + 1, reqs := s.link.reqs ++ [q] } }

/-- A reservation at another package is withdrawn (15 R262, R265): a request of ENQ that has no answer leaves the link unit. -/
def postWithdraw (s : State) (r : LinkReq) : State :=
  match r.op with
  | .reserve h _ _ _ tag =>
    let q : LinkReq := ⟨s.link.nextReq, r.node, 0, 0, [], .withdraw h tag, 0, 0, true, none, 0⟩
    { s with link := { s.link with nextReq := s.link.nextReq + 1, reqs := (s.link.reqs.filter fun x => x.id != r.id) ++ [q] } }
  | _ => s

/-- Reservations at other packages that wait for their answer and satisfy `p`. -/
def reservations (s : State) (p : LinkReq → Bool) : List LinkReq :=
  s.link.reqs.filter fun r => p r && r.answer.isNone && (match r.op with | .reserve _ _ _ _ _ => true | _ => false)

/-- End one registration (15 R261). -/
def closeReg (s : State) (part : Nat) (r : QReg) : State :=
  match queueOf s part r.handle with
  | none => if r.producer && remoteHandle s r.handle then postClose s r else s
  | some q =>
    if r.producer then s.modQueue part q.slot fun q => { q with closing := q.closing ++ [r.index] }.sendCloses
    else if q.consumers ≤ 1 then removeQueue s part q.slot
    else s.modQueue part q.slot fun q => { q with consumers := q.consumers - 1 }

/-- Withdraw waiting reservations (15 R265); what stood behind them is granted when it can be (R262). -/
def withdraw (s : State) (p : QReq → Bool) : State :=
  let hit := s.queues.filter fun q => q.waiting.any p
  let s : State := { s with queues := s.queues.map fun q => if q.waiting.any p then { q with waiting := q.waiting.filter fun r => !p r } else q }
  hit.foldl (fun s q => grantAll s q.part q.slot) s

end Sys2Proof.Machine
end

