-- ==== Sys2Proof/Machine/Engine.lean ====
section
/-! DEFINITION. Machine/Engine.lean: engine commands of a core (12 R197 to R204), the seal and layout records (01 R24 to
R27), and hoist copies: start, chunks, completion and stop (12 R205 to R214). -/

namespace Sys2Proof.Machine

/-! ## Commands -/

/-- The cores that a matrix command acts on (07 R147). -/
def enginesOf (core : Nat) (cluster : Bool) : List Nat := if cluster then (List.range 4).map (core / 4 * 4 + ·) else [core]

/-- A matrix command acts on the four engines of its cluster. -/
def MxOp.cluster : MxOp → Bool
  | .loop _ _ _ _ _ _ _ _ _ c _ => c
  | .wb _ _ _ _ _ => false
  | .clr _ _ c => c
  | .st _ _ _ c _ _ _ => c
  | .ld _ _ _ c _ _ _ => c

/-- The cores whose slots, tables and queues a command is in: a cluster command is in all four (07 R147; log 84). -/
def EngCmd.cores (x : EngCmd) : List Nat :=
  match x.body with
  | .mx op => enginesOf x.core op.cluster
  | _ => [x.core]

/-- Engine-command slots of a core in use (12 R197). -/
def cmdsOn (s : State) (core : Nat) : Nat := (s.cmds.filter fun x => x.cores.contains core).length

/-- A slot is free. -/
def slotFree (s : State) (core : Nat) : Bool := cmdsOn s core < 32

/-- The agent of a command: the gang's, or a graph node's with the node area for SCR (01 R18). -/
def EngCmd.agent (s : State) (x : EngCmd) : Agent :=
  match x.owner with
  | .crews gid _ =>
    match s.gang? gid with
    | some g => gangAgent s { g with core := x.core } false
    | none => Agent.mk 0 0 (some x.core) 0 0 false false
  | .node gr _ =>
    match s.graph? gr with
    | some g => Agent.mk g.fn g.part (some x.core) 0 0 false true
    | none => Agent.mk 0 0 (some x.core) 0 0 false true

/-- Put an entry into a core's table (12 R199). -/
def addEntry (s : State) (core : Nat) (e : LockEntry) : State := s.modCore core fun r => { r with locks := r.locks ++ [e] }

/-- Add a command with its local range-lock entry, and those of the other cores that it is in (12 R198, R199; 07 R147); its
number. -/
def addCmdAt (s : State) (core slot : Nat) (pc : Dword) (owner : CmdOwner) (body : CmdBody) (own : List LockRange)
    (others : List (Nat × List LockRange)) : Nat × State :=
  let id := s.nextId
  let x := EngCmd.mk id core slot pc owner body false
  let s := enterRanges { s with nextId := id + 1, cmds := s.cmds ++ [x] } core (x.agent s).fn own
  (id, others.foldl (fun s o => addEntry s o.1 ⟨id, false, o.2, o.2⟩) (addEntry s core ⟨id, false, own, own⟩))

/-- A command of one core. -/
def addCmd (s : State) (core slot : Nat) (pc : Dword) (owner : CmdOwner) (body : CmdBody) (ranges : List LockRange) : Nat × State :=
  addCmdAt s core slot pc owner body ranges []

/-- The mark of an engine command's requests at the link unit, in the place of a crew's index; their gang is the command. -/
def engineCrew : Nat := 1000

/-- Unanswered and answered reads of a command are abandoned (18 R287). -/
def dropEngineReads (s : State) (p : Nat → Bool) : State :=
  if s.link.reqs.any fun r => r.crew == engineCrew && p r.gang then
    { s with link := { s.link with reqs := s.link.reqs.filter fun r => !(r.crew == engineCrew && p r.gang) } }
  else s

/-- Groups that wait on the engines of some cores look again. -/
def wakeCores (s : State) (cs : List Nat) : State := cs.foldl (fun s c => wakeCore s c .engine) s

/-- A command leaves: its slots and entries are freed and the groups that wait on the engines look again. -/
def endCmd (s : State) (id : Nat) : State :=
  match s.cmd? id with
  | none => s
  | some x =>
    let own := ((s.core x.core).locks.filter fun e => e.cmd == id).flatMap fun e => e.ranges
    let s := dropEngineReads (leaveRanges s x.core (x.agent s).fn own) fun c => c == id
    wakeCores (freeEntries { s with cmds := s.cmds.filter fun y => y.id != id } id) x.cores

/-- An earlier command of the core has not started, or conflicts with these ranges until it has ended (12 R203). -/
def blockedBy (s : State) (core id : Nat) (rs : List LockRange) : Bool :=
  (s.cmds.any fun y => y.id < id && y.cores.contains core && (match y.body with | .hoist h => !h.started | _ => false)) ||
    (s.core core).locks.any fun e => e.cmd < id && !e.incoming && rs.any fun r => e.order.any fun q => q.conflicts r

/-- The ranges of a command in the command order of a core. -/
def cmdRanges (s : State) (core id : Nat) : List LockRange :=
  ((s.core core).locks.filter fun e => e.cmd == id && !e.incoming).flatMap fun e => e.order

/-- A replayable cause pauses a command and leaves a fault record (08 R168). -/
def pauseCmd (s : State) (x : EngCmd) (addr : Dword) (cause : Nat) (kind : Nat) : State :=
  let s := s.modCmd x.id fun y => { y with paused := true }
  putRecord s (x.agent s).fn (x.core % 256) (faultRecord addr cause kind true false x.core x.slot 0 x.pc) 1

/-- A copy or block that stops is due to its crews (12 R204). -/
def dueTo (s : State) (o : CmdOwner) (f : DueFault) : State :=
  match o with
  | .crews gid cs =>
    s.modGang gid fun g => { g with crews := g.crews.map fun c => if cs.contains c.index then { c with due := c.due ++ [f] } else c }
  | .node gr n => s.modGraph gr fun g => { g with nodes := g.nodes.modify n fun x => { x with st := .over .faulted } }

/-! ## Seals and layouts -/

/-- One bit of CRC-64/ECMA-182 (01 R26). -/
def crcBit (c : Dword) (b : Bool) : Dword := if c.getLsbD 63 != b then (c <<< 1) ^^^ 0x42F0E1EBA9EA3693 else c <<< 1

/-- The CRC of bytes, each most significant bit first. -/
def crcBytes (bs : List Byte) : Dword :=
  bs.foldl (fun c b => (List.range 8).foldl (fun c i => crcBit c (b.getLsbD (7 - i))) c) 0

/-- The seal of a layout record (01 R26): over bits [447:0]. -/
def sealOf (rec : Nat) : Dword := crcBytes (bytesOfNat 56 rec)

/-- A layout record by its fields; none when the layout table or R25 is broken (01 R24, R25). -/
def parseLayout (r : Nat) : Option Layout :=
  let rank := bitsAt r 8 3
  let ext := (List.range 5).map fun d => bitsAt r (88 + 32 * d) 32
  let str := (List.range 5).map fun d => signedOf 40 (bitsAt r (248 + 40 * d) 40)
  match fmtOf (bitsAt r 11 5) with
  | none => none
  | some f =>
    let base : Dword := BitVec.ofNat 64 (bitsAt r 24 64)
    let w := fmtWidth f
    -- the first bit of the last element, whose whole width lies in the space as well
    let ends : Int := (List.range rank).foldl (fun a d => a + ((ext.getD d 1 : Int) - 1) * str.getD d 0) (low60 base : Int)
    if bitsAt r 0 8 = 1 ∧ 1 ≤ rank ∧ rank ≤ 5 ∧ bitsAt r 16 8 = 0 ∧
        ((List.range 5).all fun d => (ext.getD d 0 != 0) == (d < rank)) ∧
        ((List.range 5).all fun d => d < rank || str.getD d 0 == 0) ∧
        addrIn base % w = 0 ∧ (str.all fun x => x % (w : Int) == 0) ∧ low60 base + w ≤ 2 ^ 60 ∧ 0 ≤ ends ∧ ends + (w : Int) ≤ (2 : Int) ^ 60
    then some ⟨rank, f, base, ext, str⟩ else none

/-- The number of rows H (12 R205). -/
def Layout.rows (l : Layout) : Nat := ((l.extent.take l.rank).drop 1).foldl (· * ·) 1
def Layout.cols (l : Layout) : Nat := l.extent.getD 0 1
def Layout.w (l : Layout) : Nat := fmtWidth l.fmt

/-- The offset of row `p`: Σ of its indices times their strides (12 R205). -/
def rowOffset (ext : List Nat) (str : List Int) : Nat → Int :=
  fun p =>
    match ext, str with
    | e :: es, t :: ts => ((p % (if e = 0 then 1 else e) : Nat) : Int) * t + rowOffset es ts (p / (if e = 0 then 1 else e))
    | _, _ => 0

/-- The pointer to element (i0, ρ) (01 R25). -/
def Layout.elem (l : Layout) (i0 p : Nat) : Dword :=
  ptrAddInt l.base ((i0 : Int) * l.stride.getD 0 0 + rowOffset (l.extent.drop 1) (l.stride.drop 1) p)

/-! ## Hoist copies -/

/-- The size in bits of a HOIST buffer (07 R140). -/
def bufSize : HoistDst → Nat | .scratch => 0 | .w0 => 2 ^ 20 | .w1 => 2 ^ 20 | _ => 2 ^ 18

/-- The byte key of a HOIST buffer of a core. -/
def bufKey (core : Nat) : HoistDst → Nat
  | .scratch => 0
  | .a0 => abufKey core 0 | .a1 => abufKey core 1 | .a2 => abufKey core 2 | .a3 => abufKey core 3
  | .w0 => wbufKey core 0 | .w1 => wbufKey core 1

/-- The lock domain of a HOIST buffer. -/
def bufDom : HoistDst → LockDom
  | .a0 => .abuf 0 | .a1 => .abuf 1 | .a2 => .abuf 2 | .a3 => .abuf 3 | .w0 => .wbuf 0 | .w1 => .wbuf 1 | .scratch => .scr

/-- The cores a copy writes: its own, or those its mask names (12 R214). -/
def HoistCopy.cores (h : HoistCopy) (core : Nat) : List Nat :=
  match h.mask with
  | none => [core]
  | some m => ((List.range 4).filter fun e => m.getLsbD e).map fun e => core / 4 * 4 + e

/-- The pointer at core `c` of the bit `b` bits after an SCR pointer of a copy: SCR, or CSCR of a HOISTM (12 R214). -/
def HoistCopy.scrPtr (h : HoistCopy) (p : Dword) (c b : Nat) : Dword :=
  match h.mask with
  | none => ptrAdd p b
  | some _ => BitVec.ofNat 64 (4 * 2 ^ 60 + (c % 4) * 2 ^ 22 + (low60 p + b) % 2 ^ 22)

/-- The storage of `n` bits there: an offset past 2^22 − 1 is no offset of any core (12 R214, 08 R159). -/
def HoistCopy.scrKey (h : HoistCopy) (s : State) (ag : Agent) (p : Dword) (c b n : Nat) : Except Nat Nat :=
  if h.mask.isSome && 2 ^ 22 < low60 p + b + n then .error Cause.scratchBounds
  else
    match boundCheck s ag (h.scrPtr p c b) n with
    | .ok (some k) => .ok k
    | .ok none => .error Cause.scratchBounds
    | .error e => .error e

/-- Where destination bits `b` to `b + n − 1` of a copy lie at core `c`, checked (12 R208, R214). -/
def hoistDest (s : State) (ag : Agent) (h : HoistCopy) (c b n : Nat) : Except Nat Nat :=
  match h.dstSel with
  | .scratch => h.scrKey s ag h.dst c b n
  | d => if h.dst.toNat + b + n ≤ bufSize d then .ok (bufKey c d * 8 + h.dst.toNat + b) else .error Cause.mxOperand

/-- A run of bits lies in the space of a copy's destination, whichever of its areas each bit is in (12 R208). -/
def hoistRoom (s : State) (ag : Agent) (h : HoistCopy) (c : Nat) (p : Dword) (b n : Nat) : Bool :=
  match h.mask with
  | none =>
    bitsAt p.toNat 22 38 == 0 && addrIn p + b + n ≤ ag.scratch * 8 + nodeBytes s ag.part * 8
  | some _ => (match h.scrKey s ag p c b n with | .ok _ => true | .error _ => false)

/-- The destination bits of the slices, as (first bit, length). -/
def sliceBits (l : Layout) (sl : List (Nat × Nat × Nat)) : List (Nat × Nat) :=
  (sl.filter fun x => x.2.2 != 0).map fun x => (x.2.1 * (l.cols * l.w), x.2.2 * (l.cols * l.w))

/-- The bits of chunk `k` that some slice writes. -/
def chunkMask (l : Layout) (sl : List (Nat × Nat × Nat)) (k : Nat) : Nat :=
  (sliceBits l sl).foldl (fun m r =>
    let lo := max r.1 (4096 * k)
    let hi := min (r.1 + r.2) (4096 * k + 4096)
    if lo < hi then m ||| ((2 ^ (hi - lo) - 1) * 2 ^ (lo - 4096 * k)) else m) 0

/-- The number of ones of a number below 2^n. -/
def popCount : Nat → Nat → Nat
  | 0, _ => 0
  | n + 1, v => v % 2 + popCount n (v / 2)

/-- The bounding source range of the slices (12 R198, R208). -/
def sourceRange (s : State) (ag : Agent) (l : Layout) (sl : List (Nat × Nat × Nat)) : List LockRange :=
  let rows := (sl.flatMap fun x => (List.range x.2.2).map fun i => x.2.1 + i)
  let offs := rows.map fun p => rowOffset (l.extent.drop 1) (l.stride.drop 1) p
  match offs with
  | [] => []
  | o :: os =>
    let span : Int := ((l.cols : Int) - 1) * l.stride.getD 0 0
    let lo := (os.foldl min o) + min 0 span
    let hi := (os.foldl max o) + max 0 span
    lockRange s ag (ptrAddInt l.base lo) ((hi - lo).toNat + l.w) false

/-- The lowest chunk that a copy writes. -/
def firstChunk (l : Layout) (sl : List (Nat × Nat × Nat)) : Nat :=
  ((minBy id ((sliceBits l sl).map fun r => r.1)).getD 0) / 4096

/-- The chunks that a copy writes, ascending. -/
def copyChunks (l : Layout) (sl : List (Nat × Nat × Nat)) : List Nat :=
  let top := (sliceBits l sl).foldl (fun m r => max m (r.1 + r.2)) 0
  (List.range ((top + 4095) / 4096)).filter fun k => chunkMask l sl k != 0

/-- Stop a hoist copy with a cause, `low` its lowest chunk not written: its crews are due, its entries and slot go (12 R204). -/
def stopHoist (s : State) (x : EngCmd) (h : HoistCopy) (cause low : Nat) : State :=
  let major : Nat := if h.mask.isSome then 0x65 else 0x64
  let s := dueTo s x.owner ⟨cause, BitVec.ofNat 64 (low + major * 2 ^ 32)⟩
  endCmd s x.id

/-- Change a copy. -/
def modHoist (s : State) (id : Nat) (f : HoistCopy → HoistCopy) : State :=
  s.modCmd id fun y => match y.body with | .hoist h => { y with body := .hoist (f h) } | _ => y

/-- The crews that must have arrived have (12 R206); a node is its own arrival (01 R18). -/
def allArrived (s : State) (x : EngCmd) (h : HoistCopy) : Bool :=
  match x.owner with
  | .crews gid _ =>
    match s.gang? gid with
    | some g => g.crews.all fun c => c.ended || h.arrived.contains c.index
    | none => false
  | .node _ _ => true

/-- The checks of a started copy, in order, against the record's bits (12 R208): a cause, or the layout and the chunks. -/
def hoistChecks (s : State) (ag : Agent) (core : Nat) (h : HoistCopy) (rec : Nat) : Except Nat (Layout × List Nat) :=
  if sealOf (bitsAt rec 0 448) ≠ BitVec.ofNat 64 (bitsAt rec 448 64) then .error Cause.sealMismatch
  else
    match parseLayout rec with
    | none => .error Cause.layoutInvalid
    | some l =>
      let d := if h.dstSel = .scratch then addrIn h.dst else h.dst.toNat
      if h.slices.any fun x => l.rows < x.2.1 + x.2.2 then .error Cause.hoistParam
      else if d % l.w ≠ 0 then .error Cause.misaligned
      else
        let bits := sliceBits l h.slices
        let top := bits.foldl (fun m r => max m (r.1 + r.2)) 0
        let okDst : Bool :=
          match h.dstSel with
          | .scratch => (h.cores core).all fun c => bits.all fun r => hoistRoom s ag h c h.dst r.1 r.2
          | b => h.dst.toNat + top ≤ bufSize b
        if !okDst then .error (if h.dstSel = .scratch then Cause.scratchBounds else Cause.mxOperand)
        else
          let chunks := copyChunks l h.slices
          let okSync : Bool :=
            match h.mask, chunks.getLast? with
            | none, some k => hoistRoom s ag h core h.sync k 1
            | none, none => true
            | some _, _ => (h.cores core).all fun c => hoistRoom s ag h c h.sync 0 128
          if !okSync then .error Cause.scratchBounds else .ok (l, chunks)

/-- The range of a copy's bitmap bits for `chunks`, or of its sync word at core `c` (12 R208, R214). -/
def syncRanges (s : State) (ag : Agent) (h : HoistCopy) (chunks : List Nat) (c : Nat) : List LockRange :=
  match h.mask with
  | none =>
    match chunks with
    | [] => []
    | k :: ks => lockRange s ag (ptrAdd h.sync k) ((ks.getLast?.getD k) - k + 1) true
  | some _ => lockRange s ag (h.scrPtr h.sync c 0) 128 true

/-- The ranges a started copy registers: on its own core, and on each other named core (12 R208, R214). -/
def hoistRanges (s : State) (ag : Agent) (core : Nat) (h : HoistCopy) (l : Layout) (chunks : List Nat) (c : Nat) : List LockRange :=
  let bits := sliceBits l h.slices
  let lo := bits.foldl (fun m r => min m r.1) (2 ^ 60)
  let hi := bits.foldl (fun m r => max m (r.1 + r.2)) 0
  let src := if c = core then sourceRange s ag l h.slices else []
  let dst : List LockRange :=
    if hi ≤ lo then []
    else
      match h.dstSel with
      | .scratch => lockRange s ag (h.scrPtr h.dst c lo) (hi - lo) true
      | b => [⟨bufDom b, h.dst.toNat + lo, hi - lo, true⟩]
  src ++ (if (h.cores core).contains c then dst ++ syncRanges s ag h chunks c else [])

/-- Register the ranges of a started copy and mark it started (12 R199, R201, R208): the record's leave the table, and every
range that the copy has had, at whatever core, stays in the order of its core (R203). -/
def registerHoist (s : State) (ag : Agent) (x : EngCmd) (h : HoistCopy) (l : Layout) (chunks : List Nat) : State :=
  let others := ((h.cores x.core).filter fun c => c != x.core).map fun c => (c, hoistRanges s ag x.core h l chunks c)
  let own := hoistRanges s ag x.core h l chunks x.core
  let s := s.modCore x.core fun r => { r with locks := r.locks.map fun e =>
    if e.cmd == x.id then { e with ranges := own, order := e.order ++ own ++ others.flatMap fun o => o.2 } else e }
  let s := others.foldl (fun s o => addEntry s o.1 ⟨x.id, true, o.2, []⟩) s
  modHoist s x.id fun h => { h with started := true, layout := some l, todo := chunks }

/-- Incoming entries of a core in use (12 R199). -/
def incomingOn (s : State) (c : Nat) : Nat := ((s.core c).locks.filter fun e => e.incoming).length

/-- The engine of a core is held by a gang of a SIMT launch node of a graph (01 R18). -/
def graphHoldsEngine (s : State) (graph core : Nat) : Bool :=
  match ((s.core core).mx.holder.bind s.gang?).bind fun w => s.launch? w.launch with
  | some l => (match l.owner with | .node k _ => k == graph | .phase _ => false)
  | none => false

/-- A node's copy into a matrix buffer runs only under the hold of a gang of its graph (01 R18). -/
def holdLost (s : State) (x : EngCmd) (h : HoistCopy) : Bool :=
  match x.owner with
  | .node g _ => h.dstSel != .scratch && !graphHoldsEngine s g x.core
  | .crews _ _ => false

/-- The chunk that a copy refused at its start reports: its lowest, or 0 when the record gives no layout (log 83). -/
def refusedChunk (rec : Nat) (h : HoistCopy) : Nat :=
  if sealOf (bitsAt rec 0 448) ≠ BitVec.ofNat 64 (bitsAt rec 448 64) then 0
  else match parseLayout rec with | some l => firstChunk l h.slices | none => 0

/-- Start a hoist copy whose time has come (12 R206, R208, R199); nothing happens when it has not. -/
def startHoist (s : State) (x : EngCmd) : State :=
  match x.body with
  | .hoist h =>
    let ag := x.agent s
    let others := (h.cores x.core).filter fun c => c != x.core
    if h.started || x.paused || !allArrived s x h || blockedBy s x.core x.id (cmdRanges s x.core x.id) ||
        (others.any fun c => 16 ≤ incomingOn s c) then s
    else if holdLost s x h then stopHoist s x h Cause.mxBusy 0
    else
      match engineRead s ag h.record 512 (.mult 512) with
      | .error c => if replayable c then pauseCmd s x h.record c 0 else stopHoist s x h c 0
      | .ok rec =>
        match hoistChecks s ag x.core h rec with
        | .error c => stopHoist s x h c (refusedChunk rec h)
        | .ok (l, chunks) =>
          let s := registerHoist s ag x h l chunks
          if chunks.isEmpty then endCmd s x.id else s
  | _ => s

/-- Start every copy that can start, in command order. -/
def startHoists (s : State) : State :=
  s.cmds.foldl (fun s x => match s.cmd? x.id with | some y => startHoist s y | none => s) s

/-! ## Chunks -/

/-- The request of a command for a part of an element in another package or the host. -/
def engineReq (s : State) (cmd : Nat) (p : FarPart) : Option LinkReq :=
  s.link.reqs.find? fun r => r.crew == engineCrew && r.gang == cmd && r.node == p.node && (r.addr, r.width) :: r.more == p.pieces

/-- The bits that the answers of an element's remote parts give (18 R284, R287). -/
def answeredParts (s : State) (cmd : Nat) : List FarPart → Except Nat Nat
  | [] => .ok 0
  | p :: ps =>
    match (engineReq s cmd p).bind fun r => r.answer with
    | some (.data v) => (answeredParts s cmd ps).map fun w => v % 2 ^ p.width * 2 ^ p.pos + w
    | some .uncorrectable => .error Cause.memUncorrectable
    | _ => .error (if p.node.isNone then Cause.hstError else Cause.rmtRefused)

/-- A source element of a copy. -/
def sourceRead (s : State) (ag : Agent) (cmd : Nat) (p : Dword) (n : Nat) : Except Nat Nat :=
  match (access s ag p n (.plain n) .read false).1 with
  | .error f => .error f.cause
  | .ok ps => if piecesPoisoned s ps then .error Cause.memUncorrectable else (answeredParts s cmd (farParts 0 ps)).map fun v => readPieces s ps + v

/-- One destination element part: element bits from destination bit `b`, cut to the chunk from `lo` to `hi`. -/
def copyElem (s : State) (ag : Agent) (cmd : Nat) (h : HoistCopy) (cores : List Nat) (l : Layout) (i0 p lo hi : Nat) :
    Except (Dword × Nat × Nat) State :=
  let w := l.w
  let b := (p * l.cols + i0) * w
  let src := l.elem i0 p
  match sourceRead s ag cmd src w with
  | .error c => .error (src, c, 0)
  | .ok v =>
    let a := max b lo
    let n := min (b + w) hi - a
    let part := v / 2 ^ (a - b) % 2 ^ n
    cores.foldlM (fun s c =>
      match hoistDest s ag h c b w with
      | .error e => .error (ptrAdd h.dst b, e, 1)
      | .ok k => .ok (storeBits s (k + (a - b)) n part)) s

/-- The element indices ρ × EXTENT0 + i0 that a chunk holds bits of, of rows that some slice names. -/
def chunkElems (l : Layout) (sl : List (Nat × Nat × Nat)) (k : Nat) : List Nat :=
  let first := 4096 * k / l.w
  let last := (4096 * k + 4095) / l.w
  ((List.range (last - first + 1)).map (first + ·)).filter fun e =>
    sl.any fun x => x.2.1 ≤ e / l.cols && e / l.cols < x.2.1 + x.2.2

/-- A sync word takes `a` bytes (12 R212): TARGET, COUNT and GEN of the new word. -/
def syncAdd (word a : Nat) : Nat :=
  let target := bitsAt word 0 32
  let count := bitsAt word 32 32 + a
  let gen := bitsAt word 64 32
  if target = 0 then word
  else target + (count % target) * 2 ^ 32 + ((gen + count / target) % 2 ^ 32) * 2 ^ 64 + bitsAt word 96 32 * 2 ^ 96

/-- The sync words of a copy take a chunk (12 R212); none when one cannot be read (08 R162). -/
def syncChunk (s : State) (ag : Agent) (h : HoistCopy) (a : Nat) : List Nat → Option State
  | [] => some s
  | c :: cs =>
    match h.scrKey s ag h.sync c 0 128 with
    | .error _ => syncChunk s ag h a cs
    | .ok key => if poisoned s key 128 then none else syncChunk (storeBits s key 128 (syncAdd (s.mem.bits key 128) a)) ag h a cs

/-- The bitmap bit or the sync words of a chunk (12 R209, R212). -/
def signalChunk (s : State) (ag : Agent) (x : EngCmd) (h : HoistCopy) (l : Layout) (k : Nat) : Option State :=
  match h.mask with
  | none => (match h.scrKey s ag h.sync x.core k 1 with | .ok key => some (storeBits s key 1 1) | .error _ => some s)
  | some _ => syncChunk s ag h ((popCount 4096 (chunkMask l h.slices k) + 7) / 8) (h.cores x.core)

/-- The destination ranges of chunk `k` at core `c`. -/
def chunkDest (s : State) (ag : Agent) (h : HoistCopy) (k c : Nat) : List LockRange :=
  match h.dstSel with
  | .scratch => lockRange s ag (h.scrPtr h.dst c (4096 * k)) 4096 true
  | b => [⟨bufDom b, h.dst.toNat + 4096 * k, 4096, true⟩]

/-- A chunk is written: its bit or its sync words, and its ranges depart (12 R201, R209, R212). -/
def finishChunk (s : State) (ag : Agent) (x : EngCmd) (h : HoistCopy) (l : Layout) (k : Nat) : State :=
  match signalChunk s ag x h l k with
  | none => stopHoist s x h Cause.memUncorrectable ((minBy id h.todo).getD 0)
  | some s =>
    let s := (h.cores x.core).foldl (fun s c =>
      let keep := (syncRanges s ag h (copyChunks l h.slices) c).length
      (chunkDest s ag h k c).foldl (fun s r => cutRange s c x.id keep r.dom r.start r.len) s) s
    let left := h.todo.filter fun j => j != k
    let s := modHoist s x.id fun h => { h with todo := left, part := h.part.filter fun p => p.1 != k }
    wakeCores (if left.isEmpty then endCmd s x.id else s) (h.cores x.core)

/-- The ranges that chunk `k` of a copy touches (12 R203). -/
def chunkRanges (s : State) (ag : Agent) (core : Nat) (h : HoistCopy) (l : Layout) (k : Nat) : List LockRange :=
  let src := (chunkElems l h.slices k).flatMap fun e => lockRange s ag (l.elem (e % l.cols) (e / l.cols)) l.w false
  let dst := (h.cores core).flatMap (chunkDest s ag h k)
  let sync : List LockRange :=
    match h.mask with
    | none => lockRange s ag (ptrAdd h.sync k) 1 true
    | some _ => (h.cores core).flatMap fun c => lockRange s ag (h.scrPtr h.sync c 0) 128 true
  src ++ dst ++ sync

/-- Copy elements of chunk `k` in turn, `j` of them done: the machine, with the one that failed (its number, pointer, cause
and kind). -/
def copyElems (ag : Agent) (x : EngCmd) (h : HoistCopy) (l : Layout) (k : Nat) : Nat → List Nat → State → State × Option (Nat × Dword × Nat × Nat)
  | _, [], s => (s, none)
  | j, e :: es, s =>
    match copyElem s ag x.id h (h.cores x.core) l (e % l.cols) (e / l.cols) (4096 * k) (4096 * k + 4096) with
    | .ok s => copyElems ag x h l k (j + 1) es s
    | .error f => (s, some (j, f))

/-- One chunk of a started copy (12 R208, R209): copied and finished, or paused at an element or stopped by a cause. -/
def hoistChunk (s : State) (x : EngCmd) (k : Nat) : State :=
  match x.body with
  | .hoist h =>
    match h.layout with
    | some l =>
      let ag := x.agent s
      if x.paused || !h.todo.contains k || blockedBy s x.core x.id (chunkRanges s ag x.core h l k) then s
      else if holdLost s x h then startHoists (stopHoist s x h Cause.mxBusy ((minBy id h.todo).getD 0))
      else
        let done := match h.part.find? fun p => p.1 == k with | some p => p.2 | none => 0
        match copyElems ag x h l k done ((chunkElems l h.slices k).drop done) s with
        | (s, none) => startHoists (dropEngineReads (finishChunk s ag x h l k) fun c => c == x.id)
        | (s, some (j, p, c, kind)) =>
          if replayable c then
            pauseCmd (modHoist s x.id fun h => { h with part := (k, j) :: h.part.filter fun p => p.1 != k }) x p c kind
          else startHoists (stopHoist s x h c ((minBy id h.todo).getD 0))
    | none => s
  | _ => s

/-! ## Claiming a matrix engine (07 R140) -/

/-- The state of an engine when a gang comes to hold it; its buffers become zero. -/
def freshEngine (s : State) (core gang : Nat) : State :=
  let s := { s with mem := (List.range 6).foldl (fun m i =>
      let k := if i < 4 then abufKey core i else wbufKey core (i - 4)
      let n := if i < 4 then 2 ^ 15 else 2 ^ 17
      { m with cells := m.cells.filter fun c => !(k ≤ c.1 && c.1 < k + n) }) s.mem }
  s.modCore core fun r => { r with mx := { MxEngine.reset with holder := some gang } }

/-- Claim the engine of a core for a gang; none when another gang holds it (MX_BUSY). -/
def claimEngine (s : State) (core gang : Nat) : Option State :=
  match (s.core core).mx.holder with
  | none => some (freshEngine s core gang)
  | some h => if h = gang then some s else none

/-- Every engine a gang holds becomes unheld. -/
def releaseEngines (s : State) (gang : Nat) : State :=
  { s with cores := s.cores.map fun r => if r.mx.holder == some gang then { r with mx := { r.mx with holder := none } } else r }

end Sys2Proof.Machine
end

