-- ==== Sys2Proof/Machine/Ops.lean ====
section
/-! DEFINITION. Machine/Ops.lean: taking a trap and returning from one (18 R277 to R281), what a crew and a gang do when
lanes arrive, wait or exit (04 R77 to R80, R86; 05 R101; 15 R255), and how a gang stops (02 R46, 01 R8). -/

namespace Sys2Proof.Machine

/-! ## Crew and gang ends -/

/-- The launch of a gang is ordered (20 R297). -/
def gangOrdered (s : State) (gid : Nat) : Bool :=
  match s.gang? gid with
  | some g => (match s.launch? g.launch with | some l => l.image.ordered | none => false)
  | none => false

/-- A taken tape node whose crew ends it ends FAULTED (17 R271). -/
def endTape (s : State) (t : Option (Nat × Nat)) : State :=
  match t with
  | some (gr, n) => s.modGraph gr fun g => { g with nodes := g.nodes.modify n fun x => { x with st := .over .faulted } }
  | none => s

/-- A crew ends (04 R80, 15 R261, 17 R271): its chute is discarded, its registrations close, a tape node it holds ends
FAULTED, which is a release of what the crew wrote (01 R8). -/
def endCrew (s : State) (gid ci : Nat) : State :=
  match s.gang? gid, s.crew? gid ci with
  | some g, some c =>
    if c.ended then s
    else
      let part := gangPart s g
      let s := s.modCrew gid ci fun c => { c with
        ended := true, fifo := [], pend := [], qregs := [], chain := none, tied := 0, arrivals := []
        repackLanes := 0, barWaits := [], remotes := [], tape := none }
      let s := if c.tape.isSome then writeBackAll s g.core else s
      startHoists (c.qregs.foldl (fun s r => closeReg s part r) (endTape s c.tape))
  | _, _ => s

/-- Every lane of a crew stops for good. -/
def Crew.exitAll (c : Crew) : Crew := { c.modLanes 0xFFFFFFFF (fun e => { e with st := .exited, age := 0 }) with chain := none, tied := 0 }

/-- A pond operation waiting for a group of a gang. -/
def PondOp.ofGang (o : PondOp) (gid : Nat) : Bool := match o.src with | .group g _ _ _ => g == gid | .host _ => false

/-- A device in RECOVERY presents the physical function alone (22 R330). -/
def present (s : State) (fn : Nat) : Bool := fn < 65 && (s.mgmt.stage != 8 || fn == 0)

/-- What the host does through a control record that a device in RECOVERY does not have (22 R330). -/
def hostAct (s t : State) : Host.Outcome State Fault Refusal := .next (if s.mgmt.stage = 8 then s else t)

/-- The work of a gang outside its threads stops (02 R46): hoists at a chunk, loops at a step, sweeps at a colour;
operations not performed are dropped; posted sluice blocks run on. -/
def dropWork (s : State) (gid : Nat) : State :=
  let mine (x : EngCmd) : Bool :=
    (match x.owner with | .crews g _ => g == gid | .node _ _ => false) && (match x.body with | .sluice _ _ => false | _ => true)
  let s := ((s.cmds.filter mine).map fun x => x.id).foldl endCmd s
  let trim (d : Pond) : Pond := { d with ops := d.ops.filter fun o => !o.ofGang gid }
  let s := { s with
    ponds := s.ponds.map trim
    springs := s.springs.map fun p => { p with queue := p.queue.filter fun q => (match q.owner with | .crews g _ => g != gid | _ => true) } }
  let s := withdraw s fun r => r.node.isNone && r.gang == gid
  let s := (reservations s fun r => r.gang == gid).foldl postWithdraw s
  -- a group that waits for room in a spring queue looks again (13 R225)
  startHoists (wakeGangs s (fun _ => true) .engine)

/-- A gang stops before its threads have all exited (01 R8, 02 R46). -/
def stopGang (s : State) (gid : Nat) (how : GangEnd) : State :=
  match s.gang? gid with
  | none => s
  | some g =>
    let s := s.modGang gid fun g => { g with
      ending := some (g.ending.getD how)
      lode := if g.lode.st = .running then { g.lode with st := .exited } else g.lode
      crews := g.crews.map fun c => if c.ended then c else c.exitAll }
    dropWork ((g.crews.map fun c => c.index).foldl (fun s i => endCrew s gid i) s) gid

/-! ## Taking a trap -/

/-- A child's fault that no handler takes (01 R8). -/
def Counter.fault (c : Counter) : Counter := if c.st == .cancelled then c else { c with st := .faulted }

/-- The fault of a crew that no handler takes (18 R281): a trap record, the launch's STATE becomes FAULTED (01 R8),
and the gang ends FAULTED. -/
def unhandled (s : State) (gid ci cause orig : Nat) (eval : Dword) (lanes : Mask) (pc : Dword) : State :=
  match s.gang? gid, s.crew? gid ci with
  | some g, some c =>
    let (fn, handle) := match s.launch? g.launch with | some l => (l.fn, l.handle.toNat) | none => (0, 0)
    let s := putRecord s fn (g.core % 256) (trapRecord eval cause orig g.core c.slot lanes pc handle) 2
    stopGang (s.modLaunch g.launch fun l => { l with counter := l.counter.fault }) gid .faulted
  | _, _ => s

/-- The task of a crew, when it is speculative (20 R303). -/
def specTask (s : State) (g : Gang) (c : Crew) : Option Task :=
  match c.task, s.launch? g.launch with
  | some n, some l =>
    match l.tasks with
    | some u => u.tasks.find? fun t => t.num == n && !t.front
    | none => none
  | _, _ => none

/-- Change a task of a launch. -/
def modTask (s : State) (launch : Nat) (n : BitVec 32) (f : Task → Task) : State :=
  s.modLaunch launch fun l => match l.tasks with
    | some u => { l with tasks := some { u with tasks := replaceFirst (fun t => t.num == n) f u.tasks } }
    | none => l

/-- The trap registers after a trap (18 R278), the lanes of the group at TVEC. -/
def Crew.enterTrap (c : Crew) (lanes : Mask) (epc : Dword) (cause : Nat) (eval : Dword) (deferred engine chain : Bool)
    (hist : BitVec 64) : Crew :=
  let bits : BitVec 4 := (BitVec.ofBool chain ++ BitVec.ofBool engine ++ BitVec.ofBool deferred ++ BitVec.ofBool true)
  let c := { c with
    trap := { c.trap with cause := BitVec.ofNat 8 cause, epc := epc, eval := eval, elanes := lanes, elhist := hist, tstat := bits }
    lhist := 0, chain := none, eretLanes := 0 }
  c.release lanes fun _ => c.trap.tvec

/-- The open chain is discarded: its group stands at the chain's head again (03 R58). -/
def Crew.rewind (c : Crew) : Crew :=
  match c.chain with
  | some h =>
    { c.modLanes (h.lanes &&& c.live) (fun e => { e with pc := h.headPc, st := if e.st == .parked then .parked else .ready, age := 0 }) with
      chain := none, lhist := h.lhist, tied := c.tied &&& ~~~h.lanes }
  | none => c

/-- A trap of lanes `m` belongs to the open chain: a member's group raised it. -/
def Crew.chainHolds (c : Crew) (m : Mask) : Bool := match c.chain with | some h => h.lanes &&& m != 0 | none => false

/-- A group traps with a cause that goes to the handler (18 R278, R279, R281; 20 R313). `pc` is the instruction's address.
DEDUCED (log 98): a trap of a group that is no member discards an open chain of its crew too, whose lanes stand at the head. -/
def takeTrap (s : State) (gid ci : Nat) (lanes : Mask) (pc : Dword) (cause : Nat) (eval : Dword) (engine : Bool) : State :=
  match s.gang? gid, s.crew? gid ci with
  | some g, some c0 =>
    let inChain := c0.chainHolds lanes
    let c := ((c0.giveBack lanes).forget lanes).rewind
    let epc := match c0.chain with | some h => if inChain then h.headPc else pc | none => pc
    let s := s.modCrew gid ci fun _ => c
    match specTask s g c with
    | some t =>
      let s := modTask s g.launch t.num fun t => { t with deferred := some ⟨cause, epc, eval, lanes, inChain⟩ }
      s.modCrew gid ci fun c => c.modLanes lanes fun e => { e with pc := epc, st := .wait .frontier, age := 0 }
    | none =>
      if c.inHandler then unhandled s gid ci Cause.doubleTrap cause eval lanes epc
      else
        let s := s.modCrew gid ci fun c => c.enterTrap lanes epc cause eval false engine inChain c.lhist
        if c.trap.tvec = 0xFFFFFFFFFFFFFFFF then unhandled s gid ci Cause.unhandled cause eval lanes epc else s
  | _, _ => s

/-- The operation of a waiting group is performed, or has failed: its results and the next address, or its trap. A group
that a handler holds gets them when the handler ends (18 R279). -/
def giveRes (s : State) (gid ci : Nat) (lanes : Mask) (pc : Dword) (r : GroupRes) : State :=
  match r.trap with
  | none => s.modCrewAny gid ci fun c => c.giveDone lanes pc r
  | some (cause, eval, engine) =>
    match s.crew? gid ci with
    | none => s.modCrewAny gid ci fun c => c.keep lanes pc r
    | some c =>
      if c.holds lanes then s.modCrew gid ci fun c => c.keep lanes pc r
      else takeTrap (s.modCrew gid ci fun c => { c with tied := c.tied &&& ~~~lanes }) gid ci lanes pc cause eval engine

/-- A cause that reaches a waiting group from outside. -/
def eventTrap (s : State) (gid ci : Nat) (lanes : Mask) (pc : Dword) (cause : Nat) (eval : Dword) (engine : Bool) : State :=
  giveRes s gid ci lanes pc ⟨0, [], [], [], some (cause, eval, engine)⟩

/-- A waiting group issues its instruction again, with the chute as it was. -/
def Crew.reissue (c : Crew) (m : Mask) : Crew := (c.giveBack m).release m id

/-- A deferred trap is taken when its task becomes the frontier task (20 R313). -/
def takeDeferred (s : State) (gid ci : Nat) (d : Deferred) : State :=
  match s.crew? gid ci with
  | some c =>
    let s := s.modCrew gid ci fun c => c.enterTrap (d.lanes &&& c.live) d.epc d.cause d.eval true false d.chain c.lhist
    if c.trap.tvec = 0xFFFFFFFFFFFFFFFF then unhandled s gid ci Cause.unhandled d.cause d.eval d.lanes d.epc else s
  | none => s

/-- Handler mode ends: ACTIVE is 0, and what it held goes on (18 R279). -/
def Crew.endHandler (c : Crew) : Crew := { c with trap := { c.trap with tstat := c.trap.tstat &&& 0xE }, eretLanes := 0 }.wakeHeld

/-- Return from the handler (18 R280): every handler lane at EPC, handler mode ends. -/
def Crew.leaveHandler (c : Crew) : Crew :=
  let c := c.release c.handlerLanes fun _ => c.trap.epc
  c.endHandler

/-! ## Rejoining -/

/-- The release check of one rejoin register (04 R78). -/
def Crew.releaseJoin (c : Crew) (i : Nat) : Crew :=
  let j := c.j.getD i JReg.reset
  if j.st == .idle || !subMask (j.mask &&& c.live) j.arrived then c
  else
    let c := c.release (j.arrived &&& c.live) fun _ => j.target
    { c with j := c.j.set i { j with mask := 0, arrived := 0, st := .idle } }

def Crew.releaseJoins (c : Crew) : Crew := (List.range 8).foldl Crew.releaseJoin c

/-- Lanes leave the ARRIVED masks they are in (04 R79). -/
def Crew.leaveJoins (c : Crew) (m : Mask) : Crew :=
  { c with j := c.j.map fun j =>
      if j.arrived &&& m == 0 then j
      else
        let a := j.arrived &&& ~~~m
        { j with arrived := a, st := if a = 0 then .set else j.st } }

/-! ## Cross-lane instructions -/

/-- The live members of an arrival: held lanes are absent in handler mode (05 R101, 18 R279). -/
def Crew.needed (c : Crew) (members : Mask) : Mask := members &&& c.active

/-- The groups that have arrived at a cross-lane instruction at `pc` and are not held by a handler. -/
def Crew.arrivedAt (c : Crew) (pc : Dword) : List Arrival :=
  c.arrivals.filter fun a => a.pc == pc && (memberMask a.instr).isSome && a.lanes &&& c.active != 0

/-- The lanes of arrived groups. -/
def arrivedLanes (as : List Arrival) : Mask := as.foldl (fun m a => m ||| a.lanes) 0

/-- The crew as an arrived group's register codes see it (03 R53, R55), with the chute entries that `m` has taken. -/
def Crew.asAt (c : Crew) (a : Arrival) (m : Mask) : Crew := { (c.seenBy m) with wbase := a.wbase, lhist := a.lhist }

/-- One operand of several groups, each read through its own window; the tag is the first group's (log 80). -/
def mergeOpnds : List (Mask × Opnd) → Opnd
  | [] => Opnd.zero
  | [p] => p.2
  | p :: ps =>
    let q := mergeOpnds ps
    if p.2 = q then q else ⟨mergeLanes p.1 q.lo p.2.lo, mergeLanes p.1 q.hi p.2.hi, p.2.fmt⟩

/-- Read a source code of every arrived group after `pops` pops. -/
def Crew.readArrived (c : Crew) (m : Mask) (pops : Nat) (r : Reg) : List Arrival → Except Nat (List (Mask × Opnd))
  | [] => .ok []
  | a :: as =>
    match (c.asAt a m).readCode pops r with
    | .error e => .error e
    | .ok (o, _) => (Crew.readArrived c m pops r as).map fun l => (a.lanes, o) :: l

/-- The result of a cross-lane instruction from the operands of some of the arrived groups, whose lanes `m` have taken what it
pops (05 R101 step 4). -/
def Crew.crossResult (c : Crew) (i : Instr) (members m : Mask) (as : List Arrival) : Except Nat CrossRes :=
  let (ra, rb) := crossSources i
  match c.readArrived m 0 ra as, c.readArrived m (if ra.toNat = 122 then 1 else 0) rb as with
  | .ok a, .ok b => combine i (mergeOpnds a) (mergeOpnds b) (c.needed members)
  | .error e, _ => .error e
  | .ok _, .error e => .error e

/-- The result of every arrived lane, in each group's window (05 R101 step 4). -/
def Crew.writeArrived (c : Crew) (r : CrossRes) (as : List Arrival) : Crew :=
  match as with
  | [] => c
  | a :: rest =>
    if rest.all fun b => b.wbase == a.wbase then c.inWindow a.wbase fun c => c.writeFmt r.d (arrivedLanes as) r.val (.uni 0) r.fmt
    else as.foldl (fun c a => c.inWindow a.wbase fun c => c.writeFmt r.d a.lanes r.val (.uni 0) r.fmt) c

/-- Entries of a crew's arrivals leave. -/
def Crew.dropArrivals (c : Crew) (as : List Arrival) : Crew := { c with arrivals := c.arrivals.filter fun a => !as.contains a }

/-- Complete an arrival at an exit: results written, pops made, lanes on, the latch history advanced once (05 R101 step 4).
When the operands cannot be read any more the lanes issue again and take what that gives (log 80). -/
def Crew.finishArrival (c : Crew) (i : Instr) (members : Mask) (as : List Arrival) : Crew :=
  let m := arrivedLanes as
  let c := c.dropArrivals as
  if (c.seenBy m).chute.length < chuteNeed 0 [(crossSources i).1, (crossSources i).2] then c.reissue m
  else
    match c.crossResult i members m as with
    | .ok r =>
      let c := (c.writeArrived r as).spend 0 m
      { c with lhist := advanceHist c.lhist r.d.toNat }.release m nextPc
    | .error _ => c.reissue m

/-- Complete every arrival whose live members have all arrived. -/
def Crew.finishArrivals (c : Crew) : Crew :=
  c.arrivals.foldl (fun c a =>
    match c.arrivedAt a.pc with
    | [] => c
    | b :: bs =>
      let as := (b :: bs).map fun x => { x with lanes := x.lanes &&& c.live }
      if subMask (c.needed b.members) (arrivedLanes as) then
        (Crew.finishArrival { c with arrivals := c.arrivals.map fun x => if x.pc == a.pc then { x with lanes := x.lanes &&& c.live } else x }
          b.instr b.members as)
      else c) c

/-! ## REPACK (04 R86) -/

/-- A live thread of a gang: old crew and lane, key, and the physical register of D, none for z. -/
structure Mover where
  crew : Nat
  lane : Nat
  key : Nat
  d : Option Nat
  deriving DecidableEq, Repr

/-- Insert into a list sorted by key, after equal keys. -/
def insertMover (m : Mover) : List Mover → List Mover
  | [] => [m]
  | x :: xs => if m.key < x.key then m :: x :: xs else x :: insertMover m xs

/-- The key and destination of a thread, through the window of its REPACK's issue (04 R86, 03 R53). -/
def repackKey (c : Crew) (i : Nat) : Nat × Option Nat :=
  match c.arrivals.find? fun x => x.lanes.getLsbD i with
  | some x =>
    match x.instr with
    | .repack d a =>
      ((match (c.asAt x x.lanes).readCode 0 a with | .ok (o, _) => (o.lo.lane i).toNat % 65536 | .error _ => 0),
        if 112 ≤ d.toNat then none else some (x.wbase.toNat * 16 + d.toNat))
    | _ => (0, none)
  | none => (0, none)

/-- The live threads in ascending old thread number, sorted stably by key. -/
def repackOrder (g : Gang) : List Mover :=
  let all := g.crews.flatMap fun c =>
    if c.ended then [] else (lanesOf c.live).map fun i => ⟨c.index, i, (repackKey c i).1, (repackKey c i).2⟩
  all.foldl (fun l m => insertMover m l) []

/-- Crew `c` after the move: its threads are `ms`, lane `i` holding the `i`-th (04 R86). -/
def repackCrew (old : Gang) (c : Crew) (ms : List Mover) : Crew :=
  let src (i : Nat) : Option (Mover × Crew) :=
    match ms[i]? with
    | some m => (old.crew? m.crew).map fun o => (m, o)
    | none => none
  let lowest := (minBy id (ms.map fun m => m.crew)).getD c.index
  let tags := match old.crew? lowest with | some o => o.regs | none => c.regs
  let value (r i : Nat) : Word := match src i with | some (m, o) => (o.regs.getD r VReg.zero).val.lane m.lane | none => 0
  let reg (r : Nat) : VReg := ⟨.ofLanes (value r), (tags.getD r VReg.zero).fmt⟩
  let bits (f : Crew → Mask) : Mask := maskOf fun i => match src i with | some (m, o) => (f o).getLsbD m.lane | none => false
  let pc (i : Nat) : PcEntry :=
    match src i with
    | some (m, o) => ⟨nextPc (o.lane m.lane).pc, .ready, 0⟩
    | none => ⟨(c.lane i).pc, .exited, 0⟩
  let c := { c with
    regs := if ms.isEmpty then c.regs else (List.range c.regs.length).map reg
    m := (List.range 8).map fun k => if k = 0 then 0 else bits fun o => o.m.getD k 0
    barPending := (List.range 8).map fun b => bits fun o => o.barPending.getD b 0
    barDone := (List.range 8).map fun b => bits fun o => o.barDone.getD b 0
    pcs := (List.range 32).map pc
    lhist := 0, repackLanes := 0, arrivals := [], tied := 0, fifo := c.fifo.filter fun e => e.2 &&& c.repackLanes == 0 }
  ms.zipIdx.foldl (fun c p =>
    match p.1.d with
    | none => c
    | some k =>
      let old := c.regs.getD k VReg.zero
      let v := mergeLanes (laneMask p.2) old.val (.uni (BitVec.ofNat 32 (32 * p.1.crew + p.1.lane)))
      { c with regs := c.regs.set k ⟨v, .n32⟩ }) c

/-- Every live thread of a gang has arrived at REPACK. -/
def repackReady (g : Gang) : Bool :=
  (g.crews.any fun c => c.repackLanes &&& c.live != 0) &&
    g.crews.all fun c => c.ended || subMask c.live c.repackLanes

/-- Threads after the move, as crews and lanes: `places` gives every mover its crew and lane. -/
def movedThreads (places : List (Mover × Nat × Nat)) (ts : List (Nat × Mask)) : List (Nat × Mask) :=
  (places.filter fun p => ts.any fun t => t.1 == p.1.crew && t.2.getLsbD p.1.lane).map fun p => (p.2.1, laneMask p.2.2)

/-- Records on their way stay their threads' writes (15 R263). -/
def moveRecords (s : State) (gid : Nat) (places : List (Mover × Nat × Nat)) : State :=
  let move (t : QTransit) : QTransit :=
    match t with
    | .recs r ack => .recs (if r.node.isNone && r.gang == gid then { r with threads := movedThreads places r.threads } else r) ack
    | .close p => .close p
  { s with queues := s.queues.map fun q => { q with transit := q.transit.map move } }

/-- The move (04 R86). -/
def doRepack (s : State) (gid : Nat) : State :=
  match s.gang? gid with
  | none => s
  | some g =>
    let order := repackOrder g
    let shares := (g.crews.filter fun c => !c.ended).zipIdx.map fun p => (p.1, (order.drop (32 * p.2)).take 32)
    let moved := shares.map fun p => repackCrew g p.1 p.2
    let places := shares.flatMap fun p => p.2.zipIdx.map fun q => (q.1, p.1.index, q.2)
    moveRecords (s.modGang gid fun g => { g with crews := g.crews.map fun c => (moved.find? fun x => x.index == c.index).getD c }) gid places

/-! ## Barriers (15 R255) -/

/-- The completion test of barrier `b`: every live thread is PENDING. -/
def barComplete (g : Gang) (b : Nat) : Bool :=
  (g.crews.any fun c => !c.ended && c.live != 0) && g.crews.all fun c => c.ended || subMask c.live (c.barPending.getD b 0)

/-- An episode completes: every PENDING thread becomes DONE. -/
def Crew.barDoneAll (c : Crew) (b : Nat) : Crew :=
  { c with barDone := c.barDone.set b (c.barDone.getD b 0 ||| c.barPending.getD b 0), barPending := c.barPending.set b 0 }

/-- Groups whose lanes are all DONE pass their wait; their states become NONE. In handler mode every waiting group is held
(18 R279). -/
def Crew.barPass (c : Crew) : Crew :=
  if c.inHandler then c else c.barWaits.foldl (fun c w =>
    let l := w.lanes &&& c.live
    if subMask l (c.barDone.getD w.bar 0) then
      let c := { c with barDone := c.barDone.set w.bar (c.barDone.getD w.bar 0 &&& ~~~l), barWaits := c.barWaits.filter fun x => x != w }
      c.release l nextPc
    else c) c

def barEpisode (g : Gang) (b : Nat) : Gang :=
  if barComplete g b then { g with crews := g.crews.map fun c => c.barDoneAll b } else g

/-- The completion tests of all barriers of a gang, and what they release. -/
def settleBars (g : Gang) : Gang :=
  let g := (List.range 8).foldl barEpisode g
  { g with crews := g.crews.map fun c => if c.ended then c else c.barPass }

/-! ## Stuck groups -/

/-- The lanes of `m` at the lowest PC among them, with that PC. -/
def Crew.lowestGroup (c : Crew) (m : Mask) : Option (Mask × Dword) :=
  match minBy (fun i => (c.lane i).pc.toNat) (lanesOf m) with
  | none => none
  | some i =>
    let pc := (c.lane i).pc
    some (m &&& maskOf (fun k => (c.lane k).pc == pc), pc)

/-- JOIN_STUCK and MEMBER_STUCK (04 R79, 05 R101). -/
def settleStuck (s : State) (gid ci : Nat) : State :=
  match s.crew? gid ci with
  | none => s
  | some c =>
    let act := c.active
    let joins := (c.lanesIn fun x => x == .join) &&& act
    let members := (c.lanesIn fun x => x == .wait .members) &&& act
    if act == 0 || c.ended || !subMask act (joins ||| members) then s
    else if members != 0 then
      match c.lowestGroup members with
      | some (m, pc) =>
        let s := s.modCrew gid ci fun c =>
          { c.dropArrivals (c.arrivedAt pc) with eretLanes := c.eretLanes &&& ~~~m }
        takeTrap s gid ci m pc Cause.memberStuck 0 false
      | none => s
    else
      match c.lowestGroup joins with
      | some (m, pc) =>
        takeTrap (s.modCrew gid ci fun c => (c.leaveJoins m).release m id) gid ci m pc Cause.joinStuck 0 false
      | none => s

/-- BAR_STUCK (15 R255): every live thread of the gang waits at a barrier. -/
def settleBarStuck (s : State) (gid : Nat) : State :=
  match s.gang? gid with
  | none => s
  | some g =>
    let live := g.crews.filter fun c => !c.ended && c.live != 0
    if live.isEmpty || !(live.all fun c => subMask c.live (c.lanesIn fun x => x == .wait .barrier)) then s
    else
      match live.head? with
      | none => s
      | some c =>
        match c.lowestGroup c.live with
        | some (m, pc) =>
          let s := s.modCrew gid c.index fun c =>
            { c with barWaits := (c.barWaits.map fun w => { w with lanes := w.lanes &&& ~~~m }).filter fun w => w.lanes != 0 }
          takeTrap s gid c.index m pc Cause.barStuck 0 false
        | none => s

/-- HOIST_STUCK (12 R206): a copy of the gang awaits arrivals while every crew waits at a CWAIT. -/
def settleHoistStuck (s : State) (gid : Nat) : State :=
  match s.gang? gid with
  | none => s
  | some g =>
    let waits := s.cmds.any fun x => (match x.owner with | .crews k _ => k == gid | .node _ _ => false) &&
      (match x.body with | .hoist h => !h.started && !allArrived s x h | _ => false)
    let live := g.crews.filter fun c => !c.ended && c.live != 0
    if !waits || live.isEmpty || !(live.all fun c => subMask c.live (c.cwaits &&& c.lanesIn fun x => x == .wait .engine)) then s
    else
      match live.head? with
      | none => s
      | some c =>
        match c.lowestGroup c.live with
        | some (m, pc) => takeTrap s gid c.index m pc Cause.hoistStuck 0 false
        | none => s

/-! ## Settling -/

/-- A stopped command of a crew that has ended without taking it (12 R204, 07 R154). -/
def settleDue (s : State) (gid : Nat) : State :=
  match s.gang? gid with
  | none => s
  | some g =>
    if g.ending.isSome then s
    else
      let lost := g.crews.flatMap fun c =>
        if c.ended then (c.due.map fun f => (c.index, f.cause, f.eval)) ++ c.mxStops.map fun f => (c.index, f.cause, f.eval) else []
      lost.foldl (fun s f => unhandled s gid f.1 Cause.unhandled f.2.1 f.2.2 0 0) s

/-- Results kept for groups that the handler held are given once it has ended (18 R279). -/
def givePend : Nat → State → Nat → Nat → State
  | 0, s, _, _ => s
  | fuel + 1, s, gid, ci =>
    match s.crew? gid ci with
    | none => s
    | some c =>
      match c.pend with
      | p :: ps =>
        if c.inHandler || c.ended then s
        else givePend fuel (giveRes (s.modCrew gid ci fun c => { c with pend := ps }) gid ci p.lanes p.pc p.res) gid ci
      | [] => s

/-- What one crew does after its lanes changed: handler mode may end, joins and arrivals may complete, it may end. -/
def settleCrew (s : State) (gid ci : Nat) : State :=
  match s.crew? gid ci with
  | none => s
  | some c =>
    if c.ended then s
    else
      let c := if c.inHandler && c.handlerLanes == 0 then c.endHandler else c
      let c := if c.inHandler && c.eretLanes &&& c.live != 0 && subMask c.handlerLanes c.eretLanes then c.leaveHandler else c
      let c := if c.inHandler then c else c.releaseJoins
      let c := c.finishArrivals
      let s := givePend c.pend.length (s.modCrew gid ci fun _ => c) gid ci
      if c.live == 0 && !gangOrdered s gid then endCrew s gid ci else s

/-- After lanes of a gang arrived, waited or exited. -/
def settle (s : State) (gid : Nat) : State :=
  match s.gang? gid with
  | none => s
  | some g =>
    let ids := g.crews.map fun c => c.index
    let s := ids.foldl (fun s i => settleCrew s gid i) s
    let s := s.modGang gid settleBars
    let s := match s.gang? gid with | some g => if repackReady g then doRepack s gid else s | none => s
    let s := ids.foldl (fun s i => settleCrew s gid i) s
    let s := ids.foldl (fun s i => settleStuck s gid i) s
    settleDue (settleHoistStuck (settleBarStuck s gid) gid) gid

end Sys2Proof.Machine
end

