-- ==== Sys2Proof/Machine/Task.lean ====
section
/-! DEFINITION. Machine/Task.lean: the task unit of an ordered launch (20 R297 to R316): tags, placement of records, taking
and ending tasks, aborts, the frontier, commit and release. -/

namespace Sys2Proof.Machine

/-! ## Tags (20 R299) -/

/-- The order of tags, each a list from the task to its root. -/
def tagLt : List (Nat × Nat) → List (Nat × Nat) → Bool
  | [], [] => false
  | [], _ :: _ => true
  | _ :: _, [] => false
  | (t, i) :: p, (u, j) :: q => t < u || (t == u && (tagLt p q || (p == q && i < j)))

/-- The earliest-tagged task of a list. -/
def earliest : List Task → Option Task
  | [] => none
  | t :: l =>
    match earliest l with
    | none => some t
    | some u => if tagLt u.tag t.tag then some u else some t

/-- The latest-tagged task of a list. -/
def latest : List Task → Option Task
  | [] => none
  | t :: l =>
    match latest l with
    | none => some t
    | some u => if tagLt t.tag u.tag then some u else some t

/-! ## The unit -/

def unitOf (s : State) (launch : Nat) : TaskUnit :=
  match s.launch? launch with
  | some l => l.tasks.getD ⟨[], 0, 0⟩
  | none => ⟨[], 0, 0⟩

def modUnit (s : State) (launch : Nat) (f : TaskUnit → TaskUnit) : State :=
  s.modLaunch launch fun l => match l.tasks with | some u => { l with tasks := some (f u) } | none => l

def taskNumbered (s : State) (launch : Nat) (n : BitVec 32) : Option Task := (unitOf s launch).tasks.find? fun t => t.num == n

/-- A root task whose gang has not been placed yet: it exists from admission, and lies on no core (20 R298). -/
def Task.unplaced (t : Task) (l : Launch) : Bool := t.parent.isNone && l.placed ≤ t.num.toNat

/-- The frontier task (20 R303). -/
def frontierOf (s : State) (launch : Nat) : Option Task := earliest (unitOf s launch).tasks

/-- WEIR and WEIRTASK (20 R316). -/
def weirOf (s : State) (launch : Nat) : Dword × Dword :=
  match frontierOf s launch with
  | some t => (BitVec.ofNat 64 (t.tag.headD (0, 0)).1, t.num.zeroExtend 64)
  | none => (0xFFFFFFFFFFFFFFFF, 0xFFFFFFFF)

/-! ## Records (20 R301, R302) -/

/-- The cores whose slice serves a launch, ascending. -/
def launchCores (s : State) (launch : Nat) : List Nat := (List.range 256).filter fun c => (s.core c).taskLaunch == some launch

/-- Uncommitted tasks that a slice holds. -/
def sliceTasks (s : State) (launch core : Nat) : Nat := ((unitOf s launch).tasks.filter fun t => t.core == some core).length

/-- The tasks of a launch whose records lie in the task queue area. -/
def Launch.inArea (l : Launch) : List Task :=
  match l.tasks with | some u => u.tasks.filter fun t => t.core.isNone && !t.unplaced l | none => []

/-- Records of a function in its task queue area. -/
def areaUsed (s : State) (fn : Nat) : Nat := (s.launches.filter fun l => l.fn == fn && !l.ended).foldl (fun n l => n + l.inArea.length) 0

/-- Where a new record goes: a slice, the area (none inside), or nowhere. -/
def placeFor (s : State) (launch fn core : Nat) : Option (Option Nat) :=
  if (s.core core).taskLaunch == some launch && sliceTasks s launch core < 64 then some (some core)
  else
    match minBy (fun c => sliceTasks s launch c) (launchCores s launch) with
    | some c => if sliceTasks s launch c < 64 then some (some c) else if areaUsed s fn < (s.fn fn).tqsize then some none else none
    | none => if areaUsed s fn < (s.fn fn).tqsize then some none else none

/-- The earliest records of the area move to one slice while it holds fewer than 64 tasks (20 R301). -/
def fillSlice (launch c : Nat) : Nat → State → State
  | 0, s => s
  | fuel + 1, s =>
    if 64 ≤ sliceTasks s launch c then s
    else
      match (s.launch? launch).bind fun l => earliest l.inArea with
      | some t => fillSlice launch c fuel (modTask s launch t.num fun t => { t with core := some c })
      | none => s

/-- The same for every slice of the launch. -/
def fillSlices (s : State) (launch : Nat) : State := (launchCores s launch).foldl (fun s c => fillSlice launch c 64 s) s

/-- The root task of a gang that is placed joins the slice of its core, or goes where a full slice sends it (20 R298, R301;
log 87). -/
def placeRoot (s : State) (launch fn gang core : Nat) : State :=
  let c := (placeFor s launch fn core).getD none
  modTask s launch (BitVec.ofNat 32 gang) fun t => { t with core := c }

/-! ## Crews and tasks -/

/-- The state of a crew that starts (04 R65), or starts a task (20 R298): k registers given, chute and trap registers kept. -/
def Crew.fresh (c : Crew) (entry : Dword) (k : List Dword) : Crew :=
  { c with
    wbase := 0, lhist := 0
    pcs := List.replicate 32 ⟨entry, .ready, 0⟩
    regs := List.replicate c.nregs VReg.zero
    m := List.replicate 8 0
    j := List.replicate 8 JReg.reset
    k := k ++ List.replicate (16 - k.length) 0
    barPending := List.replicate 8 0, barDone := List.replicate 8 0, barWaits := [], chain := none
    eretLanes := 0, arrivals := [], repackLanes := 0, tied := 0, cwaits := 0, bounds := [], remotes := [], gone := []
    trap := { c.trap with tstat := 0 } }

/-- A crew leaves its task: it stops at once and holds none (20 R307). -/
def Crew.dropTask (c : Crew) : Crew :=
  { c.exitAll with task := none, arrivals := [], eretLanes := 0, bounds := [], gone := [], trap := { c.trap with tstat := 0 } }

/-- The crew that runs a task: gang and crew index. -/
def runnerOf (s : State) (launch : Nat) (n : BitVec 32) : Option (Nat × Nat) :=
  (s.gangs.filter fun g => g.launch == launch).findSome? fun g =>
    (g.crews.find? fun c => c.task == some n && !c.ended).map fun c => (g.id, c.index)

/-- A crew starts a task (20 R298). -/
def startTask (s : State) (launch gid ci : Nat) (t : Task) : State :=
  match s.gang? gid, s.launch? launch with
  | some g, some l =>
    let s := s.modCrew gid ci fun c =>
      { c.fresh t.entry [l.args, BitVec.ofNat 64 g.index, BitVec.ofNat 64 ci, t.arg, BitVec.ofNat 64 (t.tag.headD (0, 0)).1] with task := some t.num }
    modTask s launch t.num fun t => { t with st := .running, runs := t.runs + 1, children := 0 }
  | _, _ => s

/-- The crews of a launch on a core that hold no task, in ascending slot order. -/
def freeCrews (s : State) (launch core : Nat) : List (Nat × Nat) :=
  (List.range 32).flatMap fun slot =>
    (s.gangs.filter fun g => g.launch == launch && g.core == core && g.ending.isNone).flatMap fun g =>
      (g.crews.filter fun c => c.slot == slot && !c.ended && c.task.isNone).map fun c => (g.id, c.index)

/-- Crews that hold no task take the earliest QUEUED tasks of their core (20 R298). -/
def takeTasks (s : State) (launch core : Nat) : List (Nat × Nat) → State
  | [] => s
  | (gid, ci) :: rest =>
    match earliest ((unitOf s launch).tasks.filter fun t => t.core == some core && t.st == .queued) with
    | some t => takeTasks (startTask s launch gid ci t) launch core rest
    | none => s

def assignTasks (s : State) (launch : Nat) : State :=
  (launchCores s launch).foldl (fun s c => takeTasks s launch c (freeCrews s launch c)) s

/-! ## Aborts (20 R306, R307) -/

/-- The tasks that tasks of a list spawned. -/
def childrenOf (ts : List Task) (ns : List (BitVec 32)) : List (BitVec 32) :=
  (ts.filter fun t => match t.parent with | some p => ns.contains p | none => false).map fun t => t.num

/-- Add the children of what is listed, and theirs. -/
def descendants (ts : List Task) : Nat → List (BitVec 32) → List (BitVec 32)
  | 0, ns => ns
  | fuel + 1, ns =>
    let more := (childrenOf ts ns).filter fun n => !ns.contains n
    if more.isEmpty then ns else descendants ts fuel (ns ++ more)

/-- The tasks that an abort of `ns` discards: everything spawned by a task of `ns`, one of `ns` itself among them. -/
def spawnedBy (ts : List Task) (ns : List (BitVec 32)) : List (BitVec 32) := descendants ts ts.length (childrenOf ts ns)

/-- Lines that a task of a list has written. -/
def linesBy (ts : List Task) (ns : List (BitVec 32)) : List (LockDom × Nat) :=
  (ts.filter fun t => ns.contains t.num).flatMap fun t => t.writes.map fun w => (w.dom, w.line)

/-- An abort of `a` aborts `t`: `t` is later and has read a line that `a`, or a task discarded with it, wrote. -/
def abortReaches (ts : List Task) (a t : Task) : Bool :=
  tagLt a.tag t.tag && t.reads.any fun r => (linesBy ts (a.num :: spawnedBy ts [a.num])).contains r

/-- Close the set of aborted tasks over its consequences. -/
def abortSet (ts : List Task) : Nat → List (BitVec 32) → List (BitVec 32)
  | 0, ns => ns
  | fuel + 1, ns =>
    let gone := ns ++ spawnedBy ts ns
    let hits := ts.filter fun a => ns.contains a.num
    let more := (ts.filter fun t => !gone.contains t.num && hits.any fun a => abortReaches ts a t).map fun t => t.num
    if more.isEmpty then ns else abortSet ts fuel (ns ++ more)

/-- A task as an abort leaves it. -/
def Task.aborted (t : Task) : Task :=
  { t with st := .queued, children := 0, reads := [], writes := [], puts := [], deferred := none }

/-- The crew of a running task stops and holds no task; its pond operations not performed go. -/
def stopRunner (s : State) (launch : Nat) (n : BitVec 32) : State :=
  match runnerOf s launch n with
  | none => s
  | some (gid, ci) =>
    let mine (o : PondOp) : Bool := match o.src with | .group g c _ _ => g == gid && c == ci | .host _ => false
    let trim (d : Pond) : Pond := { d with ops := d.ops.filter fun o => !mine o }
    let s := { s with ponds := s.ponds.map trim }
    s.modCrew gid ci Crew.dropTask

/-- Abort tasks with everything that follows (20 R307). -/
def abortTasks (s : State) (launch : Nat) (ns : List (BitVec 32)) : State :=
  let ts := (unitOf s launch).tasks
  let all := abortSet ts ts.length ns
  let gone := spawnedBy ts all
  let s := (all ++ gone).foldl (fun s n => stopRunner s launch n) s
  modUnit s launch fun u => { u with
    tasks := (u.tasks.filter fun t => !gone.contains t.num).map fun t => if all.contains t.num then t.aborted else t }

def abortTask (s : State) (launch : Nat) (t : Task) : State := abortTasks s launch [t.num]

/-- A write of a line by task `w` aborts every later task that has read it (20 R306). -/
def abortReaders (s : State) (launch : Nat) (w : Task) (lines : List (LockDom × Nat)) : State :=
  let hit := ((unitOf s launch).tasks.filter fun t => tagLt w.tag t.tag && t.reads.any fun r => lines.contains r).map fun t => t.num
  if hit.isEmpty then s else abortTasks s launch hit

/-- The task of an ordered launch that a crew holds. -/
def taskOf (s : State) (gid ci : Nat) : Option (Nat × Task) :=
  match s.gang? gid, (s.crew? gid ci).bind fun c => c.task with
  | some g, some n => (taskNumbered s g.launch n).map fun t => (g.launch, t)
  | _, _ => none

/-- A write of `n` bits for a task by a unit outside its crew (20 R306, R309): later readers of its lines are aborted. -/
def abortSpan (s : State) (w : Option (Nat × Task)) (ag : Agent) (p : Dword) (n : Nat) : State :=
  match w, lockBase s ag p with
  | some (launch, t), some (dom, a) => abortReaders s launch t ((List.range ((a + n - 1) / 512 - a / 512 + 1)).map fun i => (dom, a / 512 + i))
  | _, _ => s

/-- The same for an engine command. -/
def abortFor (s : State) (o : CmdOwner) (ag : Agent) (p : Dword) (n : Nat) : State :=
  match o with
  | .crews gid (ci :: _) => abortSpan s (taskOf s gid ci) ag p n
  | _ => s

/-- Place records in order, for a task where one put them. -/
def placeTasked (s : State) (w : Option (Nat × Task)) (part slot : Nat) (recs : List (Nat × Nat)) (who : Origin) : State :=
  recs.foldl (fun s r =>
    match s.pond? part slot with
    | some d => abortSpan (placeRecord s part slot r.1 r.2 who) w d.agent (d.nextAddr r.1) d.w
    | none => s) s

/-! ## The frontier (20 R303, R304, R310) -/

/-- The inlets take the held puts of a task: every pond exists, is not BROKEN and has room (20 R310). -/
def putsFit (s : State) (part fn : Nat) (ps : List HeldPut) : Bool :=
  ps.all fun p =>
    match pondOf s part fn p.handle with
    | some d =>
      let n := ((ps.filter fun q => q.handle == p.handle).map fun q => q.recs.length).foldl (· + ·) 0
      !d.broken && d.total + n ≤ d.cap
    | none => false

/-- An inlet that a DRAIN occupies takes no held put yet (09 R192). -/
def putsWait (s : State) (part fn : Nat) (ps : List HeldPut) : Bool :=
  ps.any fun p => match pondOf s part fn p.handle with | some d => d.draining | none => false

/-- Drain a buffered line to memory (20 R303, 08 R170). -/
def drainLine (s : State) (core : Nat) (w : TaskLine) : State :=
  let s := if isDevKey w.key then coreDirty s core w.key 512 else s
  let s := { s with
    mem := s.mem.setMasked w.key 512 w.data.toNat w.mask.toNat
    written := (wordsOf w.mask fun b => b != 0).map (fun i => (w.key + i * 64, 64)) ++ s.written }
  (wordsOf w.mask fun b => b == BitVec.allOnes 64).foldl (fun s i => noteStore s (w.key + i * 64) 64) s

/-- Place the held puts of a task. -/
def placeHeld (s : State) (launch part fn : Nat) (t : Task) : State :=
  t.puts.foldl (fun s p =>
    match pondOf s part fn p.handle with
    | some d => placeTasked s (some (launch, t)) part d.slot p.recs (some (p.core, p.slot, p.pc))
    | none => s) s

/-- A task becomes the frontier task (20 R303). -/
def becomeFrontier (s : State) (launch : Nat) (t : Task) : State :=
  match s.launch? launch with
  | none => s
  | some l =>
    let runner := runnerOf s launch t.num
    if putsFit s l.part l.fn t.puts then
      let s := t.writes.foldl (fun s w => drainLine s (t.core.getD 0) w) s
      let s := placeHeld s launch l.part l.fn t
      let s := modTask s launch t.num fun t => { t with front := true, writes := [], reads := [], puts := [], deferred := none }
      match runner with
      | some (gid, ci) =>
        let s := s.modCrew gid ci fun c => (c.forget (c.untied .frontier)).wake .frontier
        -- a replayable cause is not taken: the instruction, woken above, issues again (20 R313)
        (match t.deferred with | some d => if replayable d.cause then s else takeDeferred s gid ci d | none => s)
      | none => s
    else
      let s := abortTask s launch t
      let s := modTask s launch t.num fun t => { t with front := true }
      match runner, taskNumbered s launch t.num with
      | some (gid, ci), some t => startTask s launch gid ci t
      | _, _ => s

/-- Every crew of a launch that holds no uncommitted task ends (20 R298); stopped commands that none has taken are faults
(12 R204, 07 R154). -/
def endTaskCrews (s : State) (launch : Nat) : State :=
  (s.gangs.filter fun g => g.launch == launch).foldl (fun s g =>
    settleDue ((g.crews.filter fun c => !c.ended).foldl (fun s c => endCrew (s.modCrew g.id c.index Crew.exitAll) g.id c.index) s) g.id) s

/-- Make the frontier task able to run (20 R304). -/
def helpFrontier (s : State) (launch : Nat) : State :=
  match frontierOf s launch with
  | none => s
  | some f =>
    if f.st != .queued then s
    else
      match f.core with
      | some c =>
        if !(freeCrews s launch c).isEmpty then s
        else
          (match latest ((unitOf s launch).tasks.filter fun t => t.core == some c && t.st == .running) with
          | some t => abortTask s launch t
          | none => s)
      | none =>
        let ts := (unitOf s launch).tasks
        if (match s.launch? launch with | some l => f.unplaced l | none => true) then s else
        let s := if ts.any fun t => t.core.isSome && t.st == .queued then s
          else match latest (ts.filter fun t => t.core.isSome) with
            | some t => abortTask s launch t
            | none => s
        match latest ((unitOf s launch).tasks.filter fun t => t.core.isSome && t.st == .queued) with
        | some t =>
          let c := t.core
          modTask (modTask s launch t.num fun t => { t with core := none }) launch f.num fun f => { f with core := c }
        | none => s

/-- Advance the frontier while its task is FINISHED, then let crews take tasks (20 R303); each commit lets the earliest record of
the area into the slice that it leaves (20 R301). -/
def advanceTasks : Nat → State → Nat → State
  | 0, s, _ => s
  | fuel + 1, s, launch =>
    match s.launch? launch with
    | none => s
    | some l =>
      match frontierOf s launch with
      | none => endTaskCrews s launch
      | some t =>
        if !t.front && putsWait s l.part l.fn t.puts then assignTasks (fillSlices s launch) launch
        else
          let s := if t.front then s else becomeFrontier s launch t
          match taskNumbered s launch t.num with
          | some t =>
            if t.st == .finished then
              advanceTasks fuel (fillSlices (modUnit s launch fun u =>
                { u with tasks := u.tasks.filter fun x => x.num != t.num, commits := u.commits + 1 }) launch) launch
            else
              let s := assignTasks (fillSlices s launch) launch
              let s := helpFrontier (helpFrontier s launch) launch
              assignTasks (fillSlices s launch) launch
          | none => assignTasks (fillSlices s launch) launch

/-- The unit after anything that may let it go on. -/
def settleUnit (s : State) (launch : Nat) : State := advanceTasks ((unitOf s launch).tasks.length + 2) s launch

/-- A crew of an ordered launch whose lanes have all ended, with its engine commands complete, finishes its task (R298). -/
def finishTask (s : State) (launch gid ci : Nat) : State :=
  match s.crew? gid ci with
  | none => s
  | some c =>
    match c.task with
    | none => s
    | some n =>
      let mine (o : CmdOwner) : Bool := match o with | .crews g cs => g == gid && cs.contains ci | .node _ _ => false
      let busy := (s.cmds.any fun x => mine x.owner) || s.springs.any fun p => p.queue.any fun q => mine q.owner
      if c.ended || c.live != 0 || busy then s
      else
        let s := s.modCrew gid ci fun c => { c with task := none }
        modTask s launch n fun t => { t with st := .finished }

/-- Groups of a TSPAWN that wait for an entry issue again once one is free (20 R318). -/
def wakeSpawners (s : State) (launch : Nat) : State :=
  let waits (b : WaitBound) : Bool := b.bound == 0
  match s.launch? launch with
  | none => s
  | some l =>
    (s.gangs.filter fun g => g.launch == launch && (g.crews.any fun c => c.bounds.any waits)).foldl (fun s g =>
      if (placeFor s launch l.fn g.core).isNone then s
      else
        let free (c : Crew) : Crew := { c with bounds := c.bounds.filter fun b => !waits b }
        let wake (c : Crew) : Crew := (c.bounds.filter waits).foldl (fun c b => c.release b.lanes id) (free c)
        s.modGang g.id fun g => { g with crews := g.crews.map wake }) s

/-- The same for every ordered launch: the area is the function's, so another launch may have freed the entry (20 R301). -/
def wakeAllSpawners (s : State) : State :=
  (s.launches.filter fun l => l.tasks.isSome && !l.ended).foldl (fun s l => wakeSpawners s l.id) s

/-- After a step of an ordered launch: tasks finish, the frontier advances, crews take tasks. -/
def settleTasks (s : State) (launch : Nat) : State :=
  match s.launch? launch with
  | none => s
  | some l =>
    match l.tasks with
    | none => s
    | some _ =>
      if l.ended || l.counter.st == .cancelled || l.counter.st == .faulted then s
      else
        let s := (s.gangs.filter fun g => g.launch == launch && g.ending.isNone).foldl (fun s g =>
          g.crews.foldl (fun s c => finishTask s launch g.id c.index) s) s
        wakeSpawners (settleUnit s launch) launch

/-- The same for every ordered launch. -/
def settleAllTasks (s : State) : State :=
  (s.launches.filter fun l => l.tasks.isSome && !l.ended).foldl (fun s l => settleTasks s l.id) s

/-- A crew of a running task whose fault is deferred issues nothing (20 R313). -/
def taskHeld (s : State) (g : Gang) (c : Crew) : Bool :=
  match specTask s g c with
  | some t => t.deferred.isSome
  | none => false

end Sys2Proof.Machine
end

