-- ==== Sys2Proof/Machine/Thread.lean ====
section
/-! DEFINITION. Machine/Thread.lean: a thread instruction's accesses (08 R160, R164, R168; 09 R172 to R178): the checks of
every lane, reads and writes in the three modes of 20 R303 and R305, atomics, and requests to RMT and HST (22 R325). -/

namespace Sys2Proof.Machine

/-! ## Checks of all lanes -/

/-- One element of a thread instruction. -/
structure Elem where
  lane : Nat
  ptr : Dword
  n : Nat
  pieces : List Piece
  deriving DecidableEq, Repr

/-- What the checks of all lanes give (08 R160). -/
inductive Checked where
  | ok (es : List Elem)
  | trap (cause : Nat) (ptr : Dword)
  | park (lanes : Mask) (ptr : Dword) (cause : Nat)
  | absent
  deriving DecidableEq, Repr

/-- Check 7 (12 R200): the element meets a conflicting range of its core's table. -/
def elemLocked (s : State) (ag : Agent) (p : Dword) (n : Nat) (write : Bool) : Bool :=
  match ag.core with
  | some c => (lockRange s ag p n write).any fun r => lockHit s c r fun _ => true
  | none => false

/-- Check each lane in turn: the good elements and the failures, both in lane order. -/
def checkEach (ag : Agent) (n : Nat) (al : Align) (k : AccKind) (hostAtomic : Bool) :
    List (Nat × Dword) → State → (List Elem × List (Nat × Dword × Failed)) × State
  | [], s => (([], []), s)
  | (lane, p) :: rest, s =>
    match access s ag p n al k hostAtomic with
    | (.error f, s) =>
      match checkEach ag n al k hostAtomic rest s with
      | ((es, fs), s) => ((es, (lane, p, f) :: fs), s)
    | (.ok ps, s) =>
      if elemLocked s ag p n (k != .read) then
        match checkEach ag n al k hostAtomic rest s with
        | ((es, fs), s) => ((es, (lane, p, ⟨7, Cause.rangeLocked⟩) :: fs), s)
      else
        match checkEach ag n al k hostAtomic rest s with
        | ((es, fs), s) => ((⟨lane, p, n, ps⟩ :: es, fs), s)

/-- The checks of every lane and the choice among failures (08 R160). -/
def checkLanes (s : State) (ag : Agent) (els : List (Nat × Dword)) (n : Nat) (al : Align) (k : AccKind) (hostAtomic : Bool) :
    Checked × State :=
  match checkEach ag n al k hostAtomic els s with
  | ((es, fs), s) =>
    let hard := fs.filter fun f => !replayable f.2.2.cause
    match minBy (fun f => f.2.2.order * 64 + f.1) hard with
    | some f => (.trap f.2.2.cause f.2.1, s)
    | none =>
      match fs with
      | [] => if es.any fun e => e.pieces.any pieceAbsent then (.absent, s) else (.ok es, s)
      | f :: _ => (.park (maskOf fun i => fs.any fun g => g.1 == i) f.2.1 f.2.2.cause, s)

/-! ## Modes (20 R303, R305) -/

/-- How a crew's accesses are performed. -/
inductive Mode where
  | plain
  | spec (launch : Nat) (t : Task)
  | direct (launch : Nat) (t : Task)
  deriving DecidableEq, Repr

def modeOf (s : State) (g : Gang) (c : Crew) : Mode :=
  match c.task with
  | none => .plain
  | some n =>
    match taskNumbered s g.launch n with
    | some t => if t.front then .direct g.launch t else .spec g.launch t
    | none => .plain

/-- A part of an element in one line: the line, its bit key, the first bit in the line, the bit in the element, the length. -/
structure LinePart where
  dom : LockDom
  line : Nat
  key : Nat
  off : Nat
  pos : Nat
  n : Nat
  deriving DecidableEq, Repr

/-- Split a storage piece whose first bit is number `a` of its domain. -/
def splitPiece (dom : LockDom) : Nat → Nat → Nat → Nat → Nat → List LinePart
  | 0, _, _, _, _ => []
  | fuel + 1, a, key, n, pos =>
    if n = 0 then []
    else
      let here := min n (512 - a % 512)
      ⟨dom, a / 512, key - a % 512, a % 512, pos, here⟩ :: splitPiece dom fuel (a + here) (key + here) (n - here) (pos + here)

/-- The parts of an element by lines of R198's address form. -/
def lineParts (dom : LockDom) : Nat → Nat → List Piece → List LinePart
  | _, _, [] => []
  | a, pos, .store key n :: ps => splitPiece dom (n / 512 + 2) a key n pos ++ lineParts dom (a + n) (pos + n) ps
  | a, pos, p :: ps => lineParts dom (a + p.len) (pos + p.len) ps

def Elem.parts (e : Elem) (s : State) (ag : Agent) : List LinePart :=
  match lockBase s ag e.ptr with
  | some b => lineParts b.1 b.2 0 e.pieces
  | none => []

/-- Insert a task into a list in tag order. -/
def insertTask (t : Task) : List Task → List Task
  | [] => [t]
  | u :: us => if tagLt t.tag u.tag then t :: u :: us else u :: insertTask t us

/-- The uncommitted tasks up to `t`, earliest first. -/
def upTo (s : State) (launch : Nat) (t : Task) : List Task :=
  ((unitOf s launch).tasks.filter fun u => u.num == t.num || tagLt u.tag t.tag).foldl (fun l u => insertTask u l) []

/-- The bits of one part as a speculative task reads them (20 R305): memory overlaid by the earlier writes. -/
def forwardPart (s : State) (ts : List Task) (p : LinePart) : Nat :=
  ts.foldl (fun v t =>
    (t.writes.filter fun w => w.dom == p.dom && w.line == p.line).foldl (fun v w =>
      mergeNat v (bitsAt w.data.toNat p.off p.n) (bitsAt w.mask.toNat p.off p.n)) v)
    (s.mem.bits (p.key + p.off) p.n)

/-- Every bit of the part is forwarded from a write. -/
def partCovered (ts : List Task) (p : LinePart) : Bool :=
  let m := ts.foldl (fun m t =>
    (t.writes.filter fun w => w.dom == p.dom && w.line == p.line).foldl (fun m w => m ||| bitsAt w.mask.toNat p.off p.n) m) 0
  m == 2 ^ p.n - 1

/-- Track the lines that a speculative task reads. -/
def trackLines (s : State) (launch : Nat) (t : Task) (ls : List (LockDom × Nat)) : State :=
  modTask s launch t.num fun t => { t with reads := ls.foldl (fun r l => if r.contains l then r else l :: r) t.reads }

/-- Lines of a task that an access adds to those tracked. -/
def newReads (t : Task) (ls : List (LockDom × Nat)) : Nat :=
  (ls.foldl (fun r l => if r.contains l then r else l :: r) t.reads).length - t.reads.length

/-- The write-buffer lines of a core in use by a launch (20 R297, R305). -/
def bufferUsed (s : State) (launch core : Nat) : Nat :=
  ((unitOf s launch).tasks.filter fun t => t.core == some core).foldl (fun n t => n + t.writes.length) 0

/-- Buffer lines that a task's writes add. -/
def newWrites (t : Task) (ls : List (LockDom × Nat)) : Nat :=
  (ls.foldl (fun (acc : List (LockDom × Nat)) l =>
    if acc.contains l || t.writes.any fun w => (w.dom, w.line) == l then acc else l :: acc) []).length

/-- A speculative access would overflow the tracking or the core's buffer (20 R308). -/
def taskOverflow (s : State) (core : Nat) (m : Mode) (ps : List LinePart) (reads writes : Bool) : Bool :=
  match m with
  | .spec launch t0 =>
    let t := (taskNumbered s launch t0.num).getD t0
    let ls := ps.map fun p => (p.dom, p.line)
    (reads && 256 < t.reads.length + newReads t ls) ||
      (writes && newWrites t ls != 0 && 1024 < bufferUsed s launch core + newWrites t ls)
  | _ => false

/-- Buffer one part of a task's write. -/
def Task.buffer (t : Task) (p : LinePart) (v : Nat) : Task :=
  let m := BitVec.ofNat 512 ((2 ^ p.n - 1) * 2 ^ p.off)
  let b := BitVec.ofNat 512 (v % 2 ^ p.n * 2 ^ p.off)
  if t.writes.any fun w => w.dom == p.dom && w.line == p.line then
    { t with writes := t.writes.map fun w =>
        if w.dom == p.dom && w.line == p.line then { w with data := (w.data &&& ~~~m) ||| b, mask := w.mask ||| m } else w }
  else { t with writes := t.writes ++ [⟨p.dom, p.line, p.key, b, m⟩] }

/-! ## One element -/

/-- Read one element; none when a word cannot be corrected (08 R162). -/
def elemRead (s : State) (ag : Agent) (core : Nat) (m : Mode) (e : Elem) : Option Nat × State :=
  match m with
  | .plain => piecesRead s core true (spaceOf e.ptr == 1) e.pieces
  | .direct _ _ => piecesRead s core false false e.pieces
  | .spec launch t =>
    let ps := e.parts s ag
    let ts := upTo s launch t
    if ps.any fun p => poisoned s (p.key + p.off) p.n && !partCovered ts p then (none, s)
    else
      let v := ps.foldl (fun v p => v + forwardPart s ts p * 2 ^ p.pos) 0
      (some v, trackLines s launch t (ps.map fun p => (p.dom, p.line)))

/-- Write one element. -/
def elemWrite (s : State) (ag : Agent) (core : Nat) (m : Mode) (e : Elem) (v : Nat) : State :=
  match m with
  | .plain => piecesWrite s core v true (spaceOf e.ptr == 1) e.pieces
  | .direct launch t =>
    abortReaders (piecesWrite s core v false true e.pieces) launch t ((e.parts s ag).map fun p => (p.dom, p.line))
  | .spec launch t =>
    let ps := e.parts s ag
    let s := modTask s launch t.num fun t => ps.foldl (fun t p => t.buffer p (bitsAt v p.pos p.n)) t
    abortReaders s launch t (ps.map fun p => (p.dom, p.line))

/-- The eight atomics, by the order of their majors (09 R177). -/
inductive AtOp where | add | min | max | and | or | xor | xch | cas
  deriving DecidableEq, Repr

def AtOp.ofCode : Nat → AtOp
  | 0 => .add | 1 => .min | 2 => .max | 3 => .and | 4 => .or | 5 => .xor | 6 => .xch | _ => .cas
def AtOp.code : AtOp → Nat
  | .add => 0 | .min => 1 | .max => 2 | .and => 3 | .or => 4 | .xor => 5 | .xch => 6 | .cas => 7

/-- What an atomic writes, none when a compare fails (09 R177); `f` is the tag of D. -/
def atomicNew (op : AtOp) (f : Option Fmt) (w old opnd new : Nat) : Option Nat :=
  let fl : Option BinFmt := f.bind fun f => if classF f then binOf f else none
  let signed : Bool := match f with | some f => fmtSigned f | none => false
  let less : Bool := if signed then signedOf w old < signedOf w opnd else old < opnd
  match op with
  | .add =>
    match fl with
    | some b => some (toBin b .rne ((binValue b old).add .rne (binValue b opnd)))
    | none => some ((old + opnd) % 2 ^ w)
  | .min =>
    match fl with
    | some b => some (toBin b .rne (minX (binValue b old) (binValue b opnd)))
    | none => some (if less then old else opnd)
  | .max =>
    match fl with
    | some b => some (toBin b .rne (maxX (binValue b old) (binValue b opnd)))
    | none => some (if less then opnd else old)
  | .and => some (old &&& opnd)
  | .or => some (old ||| opnd)
  | .xor => some (old ^^^ opnd)
  | .xch => some opnd
  | .cas => if old = opnd then some new else none

/-- One atomic at the storage that owns its bits (08 R162, R163): the old value. -/
def elemAtomic (s : State) (ag : Agent) (core : Nat) (m : Mode) (e : Elem) (op : AtOp) (f : Option Fmt) (opnd new : Nat) :
    Option Nat × State :=
  let s := match m with | .plain => evictPieces s core e.pieces | _ => s
  let m' := match m with | .plain => Mode.plain | x => x
  let rd := match m' with | .plain => piecesRead s core false false e.pieces | x => elemRead s ag core x e
  match rd with
  | (none, s) => (none, s)
  | (some old, s) =>
    match atomicNew op f e.n old opnd new with
    | none => (some old, s)
    | some v =>
      (some old, match m' with
        | .plain => piecesWrite s core v false true e.pieces
        | x => elemWrite s ag core x e v)

/-! ## RMT and HST (22 R325, R326; 17 R272) -/

/-- Does a function accept an element, given by its pieces as (bit address, bits), for a source node? The whole element lies
in its windows (22 R325). -/
def acceptsElem (s : State) (node : Nat) (ps : List (Nat × Nat)) : Option Nat :=
  (List.range 65).find? fun i =>
    let f := s.fn i
    f.imsize != 0 && f.accept.getLsbD node && ps.all fun p =>
      f.imbase * 524288 ≤ p.1 && p.1 + p.2 ≤ (f.imbase + f.imsize) * 524288 &&
        f.membase * 524288 ≤ p.1 && p.1 + p.2 ≤ (f.membase + f.memsize) * 524288

/-- LANDV bit of a die (22 R324). -/
def landValid (s : State) (d : Nat) : Bool :=
  let b := s.link.land.getD d 0 * 65536
  let lo := 2 * d * 0xC00000000
  lo ≤ b && b + 2 ^ 32 ≤ lo + 2 * 0xC00000000

def inAlias (addr : Nat) : Bool := 0x8000000000 * 8 ≤ addr && addr < 0x9000000000 * 8

/-- A piece of a landing copy at die `d` (17 R272). -/
def landPiece (s : State) (d : Nat) (p : Nat × Nat) : Nat × Nat :=
  ((s.link.land.getD d 0 * 65536 + (p.1 / 8 - 0x8000000000) % 2 ^ 32) * 8 + p.1 % 8, p.2)

/-- The dies at which a piece of an element lies: those that its address in the alias names, or itself (4) (17 R272). -/
def piecesDies (p : Nat × Nat) : List Nat :=
  if inAlias p.1 then (List.range 4).filter fun d => bitAt ((p.1 / 8 - 0x8000000000) / 2 ^ 32) d else [4]

/-- A piece at one of its dies. -/
def pieceAt (s : State) (d : Nat) (p : Nat × Nat) : Nat × Nat := if d = 4 then p else landPiece s d p

/-- A piece that an agent asks for, and the bit of the element at which it stands: (bit, address, bits). -/
abbrev Placed := Nat × Nat × Nat

/-- The pieces of an element from bit `pos` on, with the bits at which they stand. -/
def placed : Nat → List (Nat × Nat) → List Placed
  | _, [] => []
  | pos, p :: ps => (pos, p) :: placed (pos + p.2) ps

/-- The copies of an element: each die with the pieces that lie there (17 R272). -/
def copiesOf (s : State) (ps : List (Nat × Nat)) : List (Nat × List Placed) :=
  ((List.range 5).map fun d => (d, ((placed 0 ps).filter fun p => (piecesDies p.2).contains d).map fun p => (p.1, pieceAt s d p.2))).filter
    fun c => !c.2.isEmpty

/-- The copy that loads and atomics reach: each piece at the lowest of its dies, with that die (17 R272). -/
def lowestCopy (s : State) (ps : List (Nat × Nat)) : List (Nat × Placed) :=
  (placed 0 ps).filterMap fun p => (piecesDies p.2).head?.map fun d => (d, p.1, pieceAt s d p.2)

/-- A die's part of an element is accepted (22 R324, R325). -/
def copyOk (s : State) (node : Nat) (c : Nat × List Placed) : Bool :=
  (acceptsElem s node (c.2.map fun p => p.2)).isSome && (c.1 == 4 || landValid s c.1)

/-- What a load or an atomic reaches is accepted (22 R324, R325). -/
def lowestOk (s : State) (node : Nat) (ps : List (Nat × Placed)) : Bool :=
  ps.isEmpty || ((acceptsElem s node (ps.map fun p => p.2.2)).isSome && ps.all fun p => p.1 == 4 || landValid s p.1)

/-- The bits of placed pieces. -/
def placedRead (s : State) (ps : List Placed) : Nat := ps.foldl (fun v p => v + s.mem.bits p.2.1 p.2.2 * 2 ^ p.1) 0

/-- Write placed pieces of an element (22 R325: it sets dirty bits by R170). -/
def placedWrite (s : State) (v : Nat) (ps : List Placed) : State := ps.foldl (fun s p => storeBits s p.2.1 p.2.2 (v / 2 ^ p.1)) s

/-- What a read or atomic of this element by `node` is refused with: not accepted, or a word that cannot be corrected (08 R162). -/
def readRefusal (s : State) (node : Nat) (ps : List (Nat × Placed)) : Option RemoteAns :=
  if !lowestOk s node ps then some .refused
  else if ps.any fun p => poisoned s p.2.2.1 p.2.2.2 then some .uncorrectable
  else none

/-- Perform a request from `node` for an element: its answer (22 R325; 17 R272). -/
def remotePerform (s : State) (node : Nat) (ps : List (Nat × Nat)) (op : RemoteOp) : RemoteAns × State :=
  let low := lowestCopy s ps
  let here := low.map fun p => p.2
  match op with
  | .read => ((readRefusal s node low).getD (.data (placedRead s here)), s)
  | .write v =>
    let copies := copiesOf s ps
    (if copies.all (copyOk s node) then .data 0 else .refused,
      copies.foldl (fun t c => if copyOk s node c then placedWrite t v c.2 else t) s)
  | .atomic o f opnd new =>
    match readRefusal s node low with
    | some a => (a, s)
    | none =>
      let old := placedRead s here
      match atomicNew (AtOp.ofCode o) (fmtOf f) (ps.foldl (fun n p => n + p.2) 0) old opnd new with
      | some v => (.data old, placedWrite s v here)
      | none => (.data old, s)
  | _ => (.refused, s)

/-- What an access that the package itself asks for would be refused with. -/
def nearRefusal (s : State) (ps : List (Nat × Nat)) (op : RemoteOp) : Option RemoteAns :=
  match op with
  | .write _ => if (copiesOf s ps).all (copyOk s s.link.node.toNat) then none else some .refused
  | _ => readRefusal s s.link.node.toNat (lowestCopy s ps)

/-- The cause that an answer raises for an access through pointer `p` (08 R162, 18 R284). -/
def answerCause (a : RemoteAns) (p : Dword) : Option Nat :=
  match a with
  | .data _ => none
  | .uncorrectable => some Cause.memUncorrectable
  | .refused => some (if spaceOf p = 6 then Cause.hstError else Cause.rmtRefused)

/-- Send one request to another node or the host. -/
def sendPart (s : State) (gid ci : Nat) (p : FarPart) (op : RemoteOp) (posted : Bool) (ans : Option RemoteAns) : Nat × State :=
  let id := s.link.nextReq
  let first := p.pieces.headD (0, 0)
  let q : LinkReq := ⟨id, p.node, first.1, first.2, p.pieces.drop 1, op, gid, ci, posted, ans, 0⟩
  (id, { s with link := { s.link with nextReq := id + 1, reqs := s.link.reqs ++ [q] } })

/-- Send one request of a lode context or an engine: answered at once when it stays in the package (R325). -/
def sendRequest (s : State) (gid ci : Nat) (p : FarPart) (op : RemoteOp) (posted : Bool) : Nat × State :=
  if p.node = some s.link.node.toNat then
    match remotePerform s s.link.node.toNat p.pieces op with
    | (a, s) => sendPart s gid ci p op posted (some a)
  else sendPart s gid ci p op posted none

/-- The requests of the remote and host parts of an element: (bit within the element, number). -/
def sendParts (gid ci : Nat) (opOf : Nat → Nat → RemoteOp) (posted : Bool) : State → List FarPart → List (Nat × Nat) × State
  | s, [] => ([], s)
  | s, p :: ps =>
    match sendRequest s gid ci p (opOf p.pos p.width) posted with
    | (id, s) =>
      match sendParts gid ci opOf posted s ps with
      | (l, s) => ((p.pos, id) :: l, s)

/-! ## Sector-request entries (08 R164) -/

/-- The sectors of pieces at a node (none for the host). -/
def sectorsAt (node : Option Nat) (ps : List (Nat × Nat)) : List (Option Nat × Nat) :=
  ps.flatMap fun p => (List.range ((p.1 + p.2 + 255) / 256 - p.1 / 256)).map fun k => (node, p.1 / 256 + k)

/-- The sectors of a request. -/
def LinkReq.sectors (r : LinkReq) : List (Option Nat × Nat) := sectorsAt r.node ((r.addr, r.width) :: r.more)

/-- Entries that one waiting instruction holds: those of its unanswered requests, and of its accesses to its own package's RMT
that are not performed yet. Lanes that touch a sector share its request. -/
def waitEntries (s : State) (r : RemoteWait) : Nat :=
  let sent := s.link.reqs.filter fun q => q.answer.isNone && r.reqs.any fun p => p.2.2 == q.id
  (sent.flatMap LinkReq.sectors ++ r.near.flatMap fun q => sectorsAt (some s.link.node.toNat) q.2.2.1).eraseDups.length

/-- The answer of a request. -/
def answerOf (s : State) (id : Nat) : Option RemoteAns := (s.link.reqs.find? fun r => r.id == id).bind fun r => r.answer

/-- Sector-request entries of a core in use: those of waiting instructions, and those of the sectors that parked loads read in
RMT or HST. -/
def entriesUsed (s : State) (core : Nat) : Nat :=
  if s.link.reqs.isEmpty then 0
  else
    let crews := (s.gangs.filter fun g => g.core == core).flatMap fun g => g.crews
    let asked := (s.core core).faultBuf.filter fun h => h.asked.any fun a => (answerOf s a.2).isNone
    (crews.flatMap fun c => c.remotes).foldl (fun n r => n + waitEntries s r) 0 + asked.length

/-- An element lies in RMT or HST. -/
def Elem.isRemote (e : Elem) : Bool := spaceOf e.ptr == 5 || spaceOf e.ptr == 6

def Elem.isHost (e : Elem) : Bool := spaceOf e.ptr == 6

/-! ## The fault buffer (08 R168) -/

/-- The sectors that an element touches, numbered by pointer. -/
def sectorsOf (p : Dword) (n : Nat) : List Nat :=
  let a := p.toNat / 256
  let b := (p.toNat + n - 1) / 256
  (List.range (b - a + 1)).map (a + ·)

/-- A held sector belongs to lanes `m` of a crew's load at `pc`. -/
def HeldSector.serves (h : HeldSector) (gid ci : Nat) (pc : Dword) (m : Mask) : Bool :=
  h.gang == gid && h.crew == ci && h.pc == pc && h.lanes &&& m != 0

/-- The lanes of `m` for which sector `k` is not held. -/
def unheldLanes (s : State) (core gid ci : Nat) (pc : Dword) (k : Nat) (m : Mask) : Mask :=
  m &&& ~~~((s.core core).faultBuf.foldl (fun n h => if h.serves gid ci pc m && h.sector == k then n ||| h.lanes else n) 0)

/-- The data cache of a core keeps no line of what the package itself is asked for through RMT (14 R245: the thread's own
accesses come in order). -/
def evictNear (s : State) (core : Nat) (ps : List (Nat × Nat)) : State :=
  evictPieces s core ((copiesOf s ps).flatMap fun c => c.2.map fun p => .store p.2.1 p.2.2)

/-- The same for the parts of an element that lie in this package. -/
def evictFar (s : State) (core : Nat) (ps : List FarPart) : State :=
  ps.foldl (fun s p => if p.node = some s.link.node.toNat then evictNear s core p.pieces else s) s

/-- Hold one sector for the lanes that touch it, while the buffer has room: its bits, or the request that asks for them. -/
def holdSector (s : State) (ag : Agent) (core gid ci : Nat) (pc : Dword) (cached : Bool) (k : Nat) (m : Mask) : State :=
  let m := unheldLanes s core gid ci pc k m
  if 64 ≤ (s.core core).faultBuf.length || m == 0 then s
  else
    let p : Dword := BitVec.ofNat 64 (k * 256)
    let hold (v : BitVec 256) (l : List (Nat × Nat)) (s : State) : State :=
      s.modCore core fun r => { r with faultBuf := ⟨gid, ci, pc, m, k, v, l⟩ :: r.faultBuf }
    match access s ag p 256 .free .read false with
    | (.error _, s) => s
    | (.ok ps, s) =>
      if spaceOf p = 5 ∨ spaceOf p = 6 then
        match sendParts gid ci (fun _ _ => .read) false (evictFar s core (farParts 0 ps)) (farParts 0 ps) with
        | (l, s) => hold 0 l s
      else
        match piecesRead s core cached (spaceOf p == 1) ps with
        | (none, s) => s
        | (some v, s) => hold (BitVec.ofNat 256 v) [] s

/-- Insert by a key, after equal keys. -/
def insertBy {α : Type} (key : α → Nat) (a : α) : List α → List α
  | [] => [a]
  | b :: l => if key a < key b then a :: b :: l else b :: insertBy key a l

/-- The sectors that elements of `n` bits touch, in ascending order (08 R164). -/
def sectorList (els : List (Nat × Dword)) (n : Nat) : List Nat :=
  (els.flatMap fun e => sectorsOf e.2 n).eraseDups.foldl (fun l k => insertBy id k l) []

/-- The lanes whose elements of `n` bits touch sector `k`. -/
def sectorLanes (els : List (Nat × Dword)) (n k : Nat) : Mask :=
  maskOf fun i => els.any fun e => e.1 == i && (sectorsOf e.2 n).contains k

/-- Hold the sectors of a parked load that did translate, in ascending order, each for the lanes that touch it (08 R168). -/
def holdSectors (s : State) (ag : Agent) (core gid ci : Nat) (pc : Dword) (cached : Bool) (els : List (Nat × Dword)) (n : Nat) : State :=
  (sectorList els n).foldl (fun s k => holdSector s ag core gid ci pc cached k (sectorLanes els n k)) s

/-- How many sectors `holdSectors` asks for, while a buffer with `room` entries left takes what they bring. -/
def holdCount (s : State) (ag : Agent) (core gid ci : Nat) (pc : Dword) (cached : Bool) (els : List (Nat × Dword)) (n : Nat) :
    Nat → List Nat → Nat
  | _, [] => 0
  | 0, _ => 0
  | room + 1, k :: ks =>
    let p : Dword := BitVec.ofNat 64 (k * 256)
    if unheldLanes s core gid ci pc k (sectorLanes els n k) == 0 then holdCount s ag core gid ci pc cached els n (room + 1) ks
    else
      match (access s ag p 256 .free .read false).1 with
      | .error _ => holdCount s ag core gid ci pc cached els n (room + 1) ks
      | .ok ps =>
        let bad : Bool := (piecesRead s core cached (spaceOf p == 1) ps).1.isNone
        1 + holdCount s ag core gid ci pc cached els n (if bad then room + 1 else room) ks

/-- Bits `a` to `a + n − 1` of a run of pieces. -/
def cutPieces (a n : Nat) : List Piece → List Piece
  | [] => []
  | p :: ps =>
    let here := min (p.len - a) n
    if here = 0 then cutPieces (a - p.len) n ps
    else
      (match p with
        | .store key _ => .store (key + a) here
        | .remote node addr _ => .remote node (addr + a) here
        | .host addr _ => .host (addr + a) here) :: cutPieces 0 (n - here) ps

/-- The parts of an element in the sectors that it touches, each with the bit of the element at which it begins. -/
def Elem.bySectors (e : Elem) : List (Nat × Elem) :=
  (sectorsOf e.ptr e.n).map fun k =>
    let lo := max e.ptr.toNat (k * 256)
    let n := min (e.ptr.toNat + e.n) (k * 256 + 256) - lo
    (lo - e.ptr.toNat, { e with ptr := BitVec.ofNat 64 lo, n := n, pieces := cutPieces (lo - e.ptr.toNat) n e.pieces })

/-- The sector in which a part of an element lies, held for its lane. -/
def heldFor (s : State) (core gid ci : Nat) (pc : Dword) (lane k : Nat) : Option HeldSector :=
  (s.core core).faultBuf.find? fun h => h.serves gid ci pc (laneMask lane) && h.sector == k

/-- A part of an element from the sector held for its lane. -/
def heldRead (s : State) (core gid ci : Nat) (pc : Dword) (e : Elem) : Option Nat :=
  match heldFor s core gid ci pc e.lane (e.ptr.toNat / 256) with
  | some h => if h.asked.isEmpty then some (bitsAt h.data.toNat (e.ptr.toNat % 256) e.n) else none
  | none => none

/-- The requests that already read a sector for a parked load, none of them refused, as (bit of the sector, number): they are not
sent again (08 R168). -/
def heldAsked (s : State) (core gid ci : Nat) (pc : Dword) (lane k : Nat) : List (Nat × Nat) :=
  match heldFor s core gid ci pc lane k with
  | some h => h.asked.filter fun a => match answerOf s a.2 with | some (.data _) => true | none => true | _ => false
  | none => []

/-- A sector serves a lane without a new request. -/
def sectorHeld (s : State) (core gid ci : Nat) (pc : Dword) (lane k : Nat) : Bool :=
  (match heldFor s core gid ci pc lane k with | some h => h.asked.isEmpty | none => false) || !(heldAsked s core gid ci pc lane k).isEmpty

/-- Held sectors leave a core's buffer, and with them the requests that no waiting instruction of their crew has taken over. -/
def dropHeldIf (s : State) (core : Nat) (p : HeldSector → Bool) : State :=
  let out := (s.core core).faultBuf.filter p
  if out.isEmpty then s
  else
    let s := s.modCore core fun r => { r with faultBuf := r.faultBuf.filter fun h => !p h }
    let taken (h : HeldSector) (id : Nat) : Bool :=
      match s.crew? h.gang h.crew with | some c => c.remotes.any fun w => w.reqs.any fun q => q.2.2 == id | none => false
    let lost := out.flatMap fun h => (h.asked.map fun a => a.2).filter fun id => !taken h id
    if lost.isEmpty then s else { s with link := { s.link with reqs := s.link.reqs.filter fun r => !lost.contains r.id } }

/-- Held sectors of a group's load leave the buffer. -/
def dropHeld (s : State) (core gid ci : Nat) (pc : Dword) (m : Mask) : State := dropHeldIf s core fun h => h.serves gid ci pc m

end Sys2Proof.Machine
end

