-- ==== Sys2Proof/Machine/Issue.lean ====
section
/-! DEFINITION. Machine/Issue.lean: what is common to every instruction word a group issues: the checks of R61 that need
the crew, chutes (04 R83), chains (03 R57, R58), irrevocable operations (20 R311), and how an issue ends. -/

namespace Sys2Proof.Machine

/-- The context of one issue: machine, gang, crew, the lanes of the group and the address of the instruction. -/
structure Ctx where
  st : State
  gid : Nat
  ci : Nat
  lanes : Mask
  pc : Dword
  deriving DecidableEq, Repr

/-- How an issue ends. -/
inductive Res where
  /-- Complete: lanes go on at PC + 32; an NW producer delivers its latch. -/
  | next (s : State) (latch : Option LatchVal)
  /-- Complete, with the lanes' next addresses and states already set. -/
  | moved (s : State)
  /-- A trap: nothing else changes. -/
  | trap (cause : Nat) (eval : Dword) (engine : Bool)
  /-- The lanes wait at the instruction; `tied` when only their own operation ends the wait. -/
  | wait (s : State) (why : Why) (tied : Bool)
  /-- The group parks on a replayable cause (08 R168). -/
  | park (s : State) (lanes : Mask) (ptr : Dword) (cause kind : Nat)
  | fault (f : Fault)
  deriving DecidableEq, Repr

/-- A crew of no registers, where a name finds none. -/
def Crew.blank : Crew :=
  { index := 0, slot := 0, ended := true, regs16 := 0, wbase := 0, lhist := 0, pcs := [], regs := [], m := [], j := [], k := [],
    fifo := [], barPending := [], barDone := [], barWaits := [], chain := none, trap := ⟨0, 0, 0, 0, 0, 0, 0, 0⟩, eretLanes := 0,
    arrivals := [], repackLanes := 0, tied := 0, qregs := [], due := [], mxStops := [], bounds := [], posting := [], remotes := [], gone := [],
    cwaits := 0, pend := [], hoists := 0, tape := none, task := none, lastIssue := 0, yielded := false }

def Gang.blank : Gang := ⟨0, 0, 0, 0, 0, 0, 0, false, false, [], [], Lode.reset, [], none⟩

def Ctx.g (x : Ctx) : Gang := (x.st.gang? x.gid).getD Gang.blank
def Ctx.c (x : Ctx) : Crew := (x.st.crew? x.gid x.ci).getD Crew.blank
def Ctx.core (x : Ctx) : Nat := x.g.core
def Ctx.ag (x : Ctx) : Agent := gangAgent x.st x.g true
def Ctx.fn (x : Ctx) : Nat := x.ag.fn
def Ctx.part (x : Ctx) : Nat := x.ag.part
def Ctx.k (x : Ctx) (i : KReg) : Dword := x.c.kreg i
/-- The groups that have arrived at the issuing group's address and are not held by a handler (05 R101, 18 R279). -/
def Ctx.others (x : Ctx) : List Arrival := x.c.arrivedAt x.pc
/-- The lanes that have arrived, with the issuing group. -/
def Ctx.arrived (x : Ctx) : Mask := arrivedLanes x.others ||| x.lanes
def Ctx.mode (x : Ctx) : Mode := modeOf x.st x.g x.c
/-- Change the crew. -/
def Ctx.upd (x : Ctx) (f : Crew → Crew) : State := x.st.modCrew x.gid x.ci f
def Ctx.withSt (x : Ctx) (s : State) : Ctx := { x with st := s }
/-- The lowest lane of the group. -/
def Ctx.low (x : Ctx) : Nat := firstLane x.lanes
/-- Read a source after the sources `before` of the same instruction (03 R50). -/
def Ctx.read (x : Ctx) (before : List Reg) (r : Reg) : Except Nat Opnd :=
  match x.c.readCode ((before.filter fun q => q.toNat == 122).length) r with
  | .ok (o, _) => .ok o
  | .error e => .error e
/-- Complete with a k register written. -/
def Ctx.setK (x : Ctx) (d : KReg) (v : Dword) : Res := .next (x.upd fun c => c.setK d v) none
/-- Complete with a result in D, or in the latch alone when NW = 1 (03 R55, R56). -/
def Ctx.put (x : Ctx) (d : Reg) (nw : Bool) (lo hi : VVal) (f : Fmt) : Res :=
  .next (if nw then x.st else x.upd fun c => c.writeFmt d x.lanes lo hi f) (some ⟨lo, hi, f⟩)
/-- Complete with a result in D of an instruction that is not chainable. -/
def Ctx.out (x : Ctx) (d : Reg) (lo hi : VVal) (f : Fmt) : Res := .next (x.upd fun c => c.writeFmt d x.lanes lo hi f) none
/-- Complete with bits of a mask register (04 R68). -/
def Ctx.setM (x : Ctx) (m : MReg) (v : Mask) : Res := .next (x.upd fun c => c.setMask m x.lanes v) none
/-- A trap whose EVAL is 0. -/
def Ctx.fail (_ : Ctx) (cause : Nat) : Res := .trap cause 0 false

/-! ## What an instruction needs before it acts -/

/-- The source codes of an instruction in reading order (03 R50). -/
def sourceCodes (i : Instr) : List Reg := (uses i).filterMap Use.source

/-- Chute entries popped by a completed instruction. -/
def popsOf (i : Instr) : Nat :=
  match i with
  | .kpop _ => 1
  | _ => ((sourceCodes i).filter fun r => r.toNat == 122).length

/-- Chute entries an instruction needs (04 R83). -/
def needsOf (i : Instr) : Nat :=
  match i with
  | .kpop _ => 1
  | _ => chuteNeed 0 (sourceCodes i)

/-- The instruction reads the chute. -/
def readsChute (i : Instr) : Bool := needsOf i != 0

/-- R61 check 9, the place in a chain (03 R57). -/
def chainBroken (i : Instr) (c : Crew) (lanes : Mask) : Bool :=
  let member := c.chain.isSome || isNW i
  let outside := match memberMask i with | some m => !subMask (c.needed (c.mask m.toNat)) lanes | none => false
  (match i with | .illegal _ => false | _ => member) && (!chainable i || ((sourceCodes i).any fun r => r.toNat == 122) || outside ||
    (isNW i && (match c.chain with | some h => 7 ≤ h.vals.length | none => false)))

/-- R61 check 10 (03 R53). -/
def rangeBroken (i : Instr) (c : Crew) : Bool := (uses i).any fun u => u.codes.any fun n => c.outside n

/-- EVAL of a trap raised by decoding (03 R62): the word and its position in its chain. -/
def decodeEval (w : Word) (c : Crew) : Dword :=
  BitVec.ofNat 64 (w.toNat + (match c.chain with | some h => h.vals.length | none => 0) * 2 ^ 32)

/-- Instructions that trap DOUBLE_TRAP in handler mode (18 R279). -/
def handlerForbids (i : Instr) : Bool :=
  match i with
  | .bar _ => true
  | .barArrive _ => true
  | .barWait _ => true
  | .repack _ _ => true
  | .hoist _ _ _ _ _ => true
  | .hoistm _ _ _ _ _ => true
  | .jset _ _ => true
  | .jwait _ => true
  | .tapexTake _ => true
  | _ => false

/-- Instructions that trap TASK_OUTSIDE in an ordered launch (20 R312). -/
def orderedForbids (i : Instr) : Bool :=
  match i with
  | .bar _ => true
  | .barArrive _ => true
  | .barWait _ => true
  | .repack _ _ => true
  | .hoist _ _ _ _ _ => true
  | .hoistm _ _ _ _ _ => true
  | _ => false

/-- Instructions that trap TASK_OUTSIDE in a launch that is not ordered (20 R312). -/
def needsTask (i : Instr) : Bool :=
  match i with
  | .tspawn _ _ _ _ => true
  | .tend => true
  | .tqry _ => true
  | .tqryTask _ _ => true
  | .twaitw => true
  | .srr _ r => 0x050 ≤ r.toNat && r.toNat ≤ 0x056
  | _ => false

/-- A pointer into SCR, CSCR, RMT or HST: an access there is irrevocable (20 R311). -/
def irrevocableSpace (p : Dword) : Bool := spaceOf p == 3 || spaceOf p == 4 || spaceOf p == 5 || spaceOf p == 6

/-- Irrevocable operations (20 R311), and TWAITW, which waits in the same way (R321). -/
def irrevocable (i : Instr) (c : Crew) : Bool :=
  readsChute i ||
  match i with
  | .ld _ k _ _ _ => irrevocableSpace (c.kreg k)
  | .lds _ k _ _ _ => irrevocableSpace (c.kreg k)
  | .st _ k _ _ _ => irrevocableSpace (c.kreg k)
  | .ldk _ k _ _ _ => irrevocableSpace (c.kreg k)
  | .stk _ k _ _ _ => irrevocableSpace (c.kreg k)
  | .atadd _ k _ _ _ => irrevocableSpace (c.kreg k)
  | .atmin _ k _ _ _ => irrevocableSpace (c.kreg k)
  | .atmax _ k _ _ _ => irrevocableSpace (c.kreg k)
  | .atand _ k _ _ _ => irrevocableSpace (c.kreg k)
  | .ator _ k _ _ _ => irrevocableSpace (c.kreg k)
  | .atxor _ k _ _ _ => irrevocableSpace (c.kreg k)
  | .atxch _ k _ _ _ => irrevocableSpace (c.kreg k)
  | .atcas _ k _ _ _ => irrevocableSpace (c.kreg k)
  | .launch _ _ => true
  | .cancel _ _ => true
  | .sluice _ _ => true
  | .seal _ _ => true
  | .mxloop _ _ _ _ _ _ _ _ => true
  | .mxwb _ _ _ _ => true
  | .mxclr _ _ _ => true
  | .mxst _ _ _ => true
  | .mxld _ _ => true
  | .mxwait => true
  | .mxstep _ _ => true
  | .cwait _ _ _ => true
  | .ctest _ _ _ _ => true
  | .swarm _ _ _ => true
  | .swait _ _ => true
  | .rlwait _ _ _ => true
  | .spload _ => true
  | .spclamp _ _ => true
  | .spclampFree _ => true
  | .spclampSet _ _ => true
  | .spsweep _ _ _ => true
  | .spread _ _ => true
  | .spreadOnes _ _ _ => true
  | .pondmk _ _ _ _ => true
  | .pondrm _ => true
  | .drain _ _ _ => true
  | .basin _ _ _ => true
  | .bnext _ _ _ _ => true
  | .bwrite _ _ _ => true
  | .put d _ _ _ => d.toNat != 120
  | .qopenMake _ _ _ => true
  | .qopenCons _ => true
  | .qopenProd _ => true
  | .enq _ _ _ _ _ => true
  | .deq _ _ _ _ _ => true
  | .qclose _ => true
  | .acq _ _ => true
  | .rel _ _ => true
  | .fence _ => true
  | .gsr _ _ => true
  | .gsw _ _ => true
  | .srw _ _ => true
  | .lodepc _ => true
  | .twaitw => true
  | _ => false

/-- A static check's cause. -/
def StaticErr.cause : StaticErr → Nat
  | .badRegcode => Cause.badRegcode
  | .badWidthcode => Cause.badWidthcode
  | .chainIllegal => Cause.chainIllegal

/-- What stops an instruction before it acts, in order: the checks 7 to 10 of R61, handler mode, the kind of launch,
the frontier, the chute. -/
def before (i : Instr) (x : Ctx) : Option Res :=
  let c := x.c
  let bad (cause : Nat) : Option Res := some (.trap cause (decodeEval ((encode i).getD 0) c) false)
  match staticErr i with
  | some e => bad (StaticErr.cause e)
  | none =>
    if chainBroken i c x.lanes then bad Cause.chainIllegal
    else if rangeBroken i c then bad Cause.regRange
    else if c.inHandler && handlerForbids i then some (.trap Cause.doubleTrap 0 false)
    else if (if gangOrdered x.st x.gid then orderedForbids i else needsTask i) then some (.trap Cause.taskOutside 0 false)
    else if (match x.mode with | .spec _ _ => irrevocable i c | _ => false) then some (.wait x.st .frontier false)
    else if (c.seenBy x.arrived).chute.length < needsOf i then
      if x.g.lode.st = .running then some (.wait x.st .chute false) else some (.trap Cause.chuteOrphan 0 false)
    else none

/-! ## How an issue ends -/

/-- What a completed instruction has popped leaves the chute (03 R50). -/
def Crew.pop (c : Crew) (i : Instr) (lanes : Mask) : Crew := if popsOf i = 0 then c else c.spend (popsOf i) lanes

/-- The crew after a completed instruction: pops, latch history and chain (03 R50, R55, R57). -/
def Crew.complete (c : Crew) (i : Instr) (lanes : Mask) (pc : Dword) (latch : Option LatchVal) : Crew :=
  let c := c.pop i lanes
  match nwD i with
  | none => c
  | some (true, _) =>
    let v := latch.getD ⟨.uni 0, .uni 0, .n32⟩
    let ch : Chain :=
      match c.chain with
      | some h => { h with vals := v :: h.vals }
      | none => ⟨pc, lanes, c.lhist, [v]⟩
    { c with lhist := advanceHist c.lhist 127, chain := some ch }
  | some (false, d) => { c with lhist := advanceHist c.lhist d.toNat, chain := none }

/-- A group waits or parks at its instruction. DEDUCED (log 98): an open chain whose member waits for chute entries stays open,
with what its members have done: the port issues nothing else until its tail completes or a member traps (03 R57). -/
def Crew.stall (c : Crew) (lanes : Mask) (st : LaneState) : Crew := c.modLanes lanes fun e => { e with st := st, age := 0 }

/-- The group waits for its own operation alone, and has taken what it popped. -/
def Crew.tie (c : Crew) (i : Instr) (lanes : Mask) : Crew := { (c.takePops (popsOf i) lanes) with tied := c.tied ||| lanes }

/-- The launch of the issuing gang goes on (20 R298 to R307) when it is ordered. -/
def afterIssue (s : State) (gid : Nat) : State :=
  match s.gang? gid with
  | some g => if gangOrdered s gid then settleTasks s g.launch else s
  | none => s

/-- The machine without what is held for a load of the group that parked: the load has been issued again (08 R168). -/
def Ctx.unheld (x : Ctx) : State := dropHeld x.st x.core x.gid x.ci x.pc x.lanes

/-- The end of an issue. -/
def finish (i : Instr) (x : Ctx) (r : Res) : Host.Outcome State Fault Refusal :=
  match r with
  | .next s latch =>
    let s := s.modCrew x.gid x.ci fun c => (c.complete i x.lanes x.pc latch).release x.lanes nextPc
    .next (afterIssue s x.gid)
  | .moved s => .next (afterIssue (if popsOf i = 0 then s else s.modCrew x.gid x.ci fun c => c.pop i x.lanes) x.gid)
  | .trap cause eval engine => .next (afterIssue (settle (takeTrap x.unheld x.gid x.ci x.lanes x.pc cause eval engine) x.gid) x.gid)
  | .wait s why tied =>
    let s := s.modCrew x.gid x.ci fun c => (if tied then c.tie i x.lanes else c).stall x.lanes (.wait why)
    .next (afterIssue (settle s x.gid) x.gid)
  | .park s lanes ptr cause kind =>
    -- log 98: a chain member's group stands at the head of its chain, so that others may issue on
    let head (c : Crew) : Crew := if c.chainHolds x.lanes then c.rewind else c
    match x.mode with
    | .spec launch t =>
      -- the unit records the cause, and the crew issues nothing until its task is the frontier (20 R313)
      let s := s.modCrew x.gid x.ci fun c => (head c).stall x.lanes (.wait .frontier)
      let epc := match x.c.chain with | some h => if x.c.chainHolds x.lanes then h.headPc else x.pc | none => x.pc
      .next (afterIssue (modTask s launch t.num fun t => { t with deferred := some ⟨cause, epc, ptr, x.lanes, x.c.chainHolds x.lanes⟩ }) x.gid)
    | _ =>
      let s := s.modCrew x.gid x.ci fun c => (head c).stall x.lanes .parked
      .next (putRecord s x.fn (x.core % 256) (faultRecord ptr cause kind false false x.core x.c.slot lanes x.pc) 1)
  | .fault f => .fault f

/-- One issue of an instruction word by the group that `step` chose (04 R65, R70). -/
def issue (i : Instr) (s : State) (body : Ctx → Res) : Host.Outcome State Fault Refusal :=
  match s.cur with
  | some (.crew gid ci lanes pc) =>
    let x : Ctx := ⟨s, gid, ci, lanes, pc⟩
    match before i x with
    | some r => finish i x r
    | none => finish i x (body x)
  | _ => .fault .noIssuingGroup

/-- A trap of a word that is no instruction, or of a fetch (03 R61, 08 R343). -/
def issueTrap (x : Ctx) (cause : Nat) (eval : Dword) : State :=
  afterIssue (settle (takeTrap x.unheld x.gid x.ci x.lanes x.pc cause eval false) x.gid) x.gid

/-! ## Reading several sources -/

/-- Read one source and go on, or trap. -/
def Ctx.with1 (x : Ctx) (a : Reg) (f : Opnd → Res) : Res :=
  match x.read [] a with
  | .error e => x.fail e
  | .ok o => f o

/-- Read two sources A, B. -/
def Ctx.with2 (x : Ctx) (a b : Reg) (f : Opnd → Opnd → Res) : Res :=
  match x.read [] a with
  | .error e => x.fail e
  | .ok o =>
    match x.read [a] b with
    | .error e => x.fail e
    | .ok p => f o p

/-- Read three sources A, B, D. -/
def Ctx.with3 (x : Ctx) (a b d : Reg) (f : Opnd → Opnd → Opnd → Res) : Res :=
  match x.read [] a with
  | .error e => x.fail e
  | .ok o =>
    match x.read [a] b with
    | .error e => x.fail e
    | .ok p =>
      match x.read [a, b] d with
      | .error e => x.fail e
      | .ok q => f o p q

end Sys2Proof.Machine
end

