-- ==== Sys2Proof/Machine/Integer.lean ====
section
/-! DEFINITION. Machine/Integer.lean: integer arithmetic, logic, shifts, bit fields, compare, select, moves and the
immediate forms (05 R91 to R96). -/

namespace Sys2Proof.Machine

/-! ## Operand shapes of the family -/

/-- The container of a signed reading clamped between two bounds. -/
def clampWord (lo hi i : Int) : Word := BitVec.ofInt 32 (clampInt lo hi i)

/-- I32 when either source is signed, N32 otherwise (05 R91). -/
def mixFmt (a b : Opnd) : Fmt := if a.signed || b.signed then .i32 else .n32
def mixFmt64 (a b : Opnd) : Fmt := if a.signed || b.signed then .i64 else .n64

/-- A source of a class of 32-bit formats. -/
def Opnd.isX (o : Opnd) : Bool := o.isIn classX

/-- A source of a 64-bit class: a register pair, a latch of one, or z (05 R89). -/
def Opnd.isPair (o : Opnd) (r : Reg) (cls : Fmt → Bool) : Bool := o.isIn cls && !(121 ≤ r.toNat && r.toNat ≤ 123)

/-- The 64-bit operation of two pairs as low and high containers. -/
def wide2 (f : Dword → Dword → Dword) (a b : Opnd) : VVal × VVal :=
  if a.isUni && b.isUni then
    let v := f (a.wide 0) (b.wide 0)
    (.uni (v.extractLsb' 0 32), .uni (v.extractLsb' 32 32))
  else (.ofLanes fun i => (f (a.wide i) (b.wide i)).extractLsb' 0 32, .ofLanes fun i => (f (a.wide i) (b.wide i)).extractLsb' 32 32)

/-- Two sources of class X, and a 32-bit result. -/
def Ctx.int2 (x : Ctx) (d a b : Reg) (nw : Bool) (f : VVal → VVal → VVal) (fmt : Opnd → Opnd → Fmt) : Res :=
  x.with2 a b fun p q => if p.isX && q.isX then x.put d nw (f p.lo q.lo) (.uni 0) (fmt p q) else x.fail Cause.tagMismatch

/-- One source of class X, and a 32-bit result. -/
def Ctx.int1 (x : Ctx) (d a : Reg) (nw : Bool) (f : Word → Word) (fmt : Fmt) : Res :=
  x.with1 a fun p => if p.isX then x.put d nw (p.lo.map1 f) (.uni 0) fmt else x.fail Cause.tagMismatch

/-- One source of class X and an immediate, which acts as an unsigned operand of shape U (05 R96). -/
def Ctx.intImm (x : Ctx) (d a : Reg) (imm : Word) (f : VVal → VVal → VVal) (fmt : Opnd → Fmt) : Res :=
  x.with1 a fun p => if p.isX then x.put d false (f p.lo (.uni imm)) (.uni 0) (fmt p) else x.fail Cause.tagMismatch

/-- Two sources of class W, and a 64-bit result (FN 3). -/
def Ctx.int64 (x : Ctx) (d a b : Reg) (nw : Bool) (f : Dword → Dword → Dword) : Res :=
  x.with2 a b fun p q =>
    if x.c.oddWide a || x.c.oddWide b then x.fail Cause.badRegcode
    else if p.isPair a classW && q.isPair b classW then
      let r := wide2 f p q
      x.put d nw r.1 r.2 (mixFmt64 p q)
    else x.fail Cause.tagMismatch

/-! ## Arithmetic (05 R91) -/

def satAdd (a b : Word) : Word := clampWord (-2 ^ 31) (2 ^ 31 - 1) (a.toInt + b.toInt)
def usatAdd (a b : Word) : Word := clampWord 0 (2 ^ 32 - 1) ((a.toNat : Int) + b.toNat)
def satSub (a b : Word) : Word := clampWord (-2 ^ 31) (2 ^ 31 - 1) (a.toInt - b.toInt)
def usatSub (a b : Word) : Word := clampWord 0 (2 ^ 32 - 1) ((a.toNat : Int) - b.toNat)

def execIadd (d a b : Reg) (nw : Bool) (fn : SatMode) (s : State) : Host.Outcome State Fault Refusal :=
  issue (.iadd d a b nw fn) s fun x =>
    match fn with
    | .wrap => x.int2 d a b nw (VVal.linear (· + ·)) mixFmt
    | .sat => x.int2 d a b nw (VVal.map2 satAdd) fun _ _ => .i32
    | .usat => x.int2 d a b nw (VVal.map2 usatAdd) fun _ _ => .n32
    | .p64 => x.int64 d a b nw (· + ·)

def execIsub (d a b : Reg) (nw : Bool) (fn : SatMode) (s : State) : Host.Outcome State Fault Refusal :=
  issue (.isub d a b nw fn) s fun x =>
    match fn with
    | .wrap => x.int2 d a b nw (VVal.linear (· - ·)) mixFmt
    | .sat => x.int2 d a b nw (VVal.map2 satSub) fun _ _ => .i32
    | .usat => x.int2 d a b nw (VVal.map2 usatSub) fun _ _ => .n32
    | .p64 => x.int64 d a b nw (· - ·)

/-- The high words of the exact products. -/
def mulHigh (a b : Word) : Word := BitVec.ofInt 32 (a.toInt * b.toInt / 2 ^ 32)
def mulHighU (a b : Word) : Word := BitVec.ofNat 32 (a.toNat * b.toNat / 2 ^ 32)

def execImul (d a b : Reg) (nw : Bool) (fn : MulMode) (s : State) : Host.Outcome State Fault Refusal :=
  issue (.imul d a b nw fn) s fun x =>
    match fn with
    | .low => x.int2 d a b nw (VVal.scaled (· * ·)) mixFmt
    | .hi => x.int2 d a b nw (VVal.map2 mulHigh) fun _ _ => .i32
    | .hiu => x.int2 d a b nw (VVal.map2 mulHighU) fun _ _ => .n32
    | .p64 => x.int64 d a b nw (· * ·)

/-- DEDUCED (log 30): `either source` of the result's tag means A and B, not the addend D. -/
def execImad (d a b : Reg) (nw : Bool) (s : State) : Host.Outcome State Fault Refusal :=
  issue (.imad d a b nw) s fun x =>
    x.with3 a b d fun p q r =>
      if p.isX && q.isX && r.isX then x.put d nw (VVal.map3 (fun u v w => u * v + w) p.lo q.lo r.lo) (.uni 0) (mixFmt p q)
      else x.fail Cause.tagMismatch

/-- Quotient and remainder of every FN (05 R91): truncated, and without a trap for 0. -/
def divWord (fn : DivMode) (a b : Word) : Word :=
  if b = 0 then
    match fn with
    | .quot => 0xFFFFFFFF
    | .uquot => 0xFFFFFFFF
    | .rem => a
    | .urem => a
  else
    match fn with
    | .quot => BitVec.ofInt 32 (a.toInt.tdiv b.toInt)
    | .uquot => BitVec.ofNat 32 (a.toNat / b.toNat)
    | .rem => BitVec.ofInt 32 (a.toInt.tmod b.toInt)
    | .urem => BitVec.ofNat 32 (a.toNat % b.toNat)

def execIdiv (d a b : Reg) (nw : Bool) (fn : DivMode) (s : State) : Host.Outcome State Fault Refusal :=
  issue (.idiv d a b nw fn) s fun x => x.int2 d a b nw (VVal.map2 (divWord fn)) mixFmt

/-- IMIN and IMAX agree on a signedness when both sources, or the one that is not z, have it (05 R91). -/
def sameSign (a b : Opnd) : Bool := a.fmt.isNone || b.fmt.isNone || a.signed == b.signed

/-- Their result keeps a common format. -/
def minFmt (a b : Opnd) : Fmt := match a.fmt, b.fmt with | some f, some g => if f = g then f else mixFmt a b | _, _ => mixFmt a b

def Ctx.minMax (x : Ctx) (d a b : Reg) (nw : Bool) (f : Bool → Word → Word → Word) : Res :=
  x.with2 a b fun p0 q0 =>
    let p := p0.beside a q0
    let q := q0.beside b p0
    if p.isX && q.isX && sameSign p q then
      x.put d nw ((VVal.map2 (f (p.signed || q.signed)) p.lo q.lo).fit (minFmt p q)) (.uni 0) (minFmt p q)
    else x.fail Cause.tagMismatch

def execImin (d a b : Reg) (nw : Bool) (s : State) : Host.Outcome State Fault Refusal :=
  issue (.imin d a b nw) s fun x => x.minMax d a b nw minW

def execImax (d a b : Reg) (nw : Bool) (s : State) : Host.Outcome State Fault Refusal :=
  issue (.imax d a b nw) s fun x => x.minMax d a b nw maxW

/-! ## Logic, shifts and bit fields (05 R92, R93) -/

/-- Two sources, a result tagged N32. -/
def Ctx.logic (x : Ctx) (d a b : Reg) (nw : Bool) (f : Word → Word → Word) : Res := x.int2 d a b nw (VVal.map2 f) fun _ _ => .n32

def execAnd (d a b : Reg) (nw : Bool) (s : State) : Host.Outcome State Fault Refusal :=
  issue (.and d a b nw) s fun x => x.logic d a b nw (· &&& ·)
def execOr (d a b : Reg) (nw : Bool) (s : State) : Host.Outcome State Fault Refusal :=
  issue (.or d a b nw) s fun x => x.logic d a b nw (· ||| ·)
def execXor (d a b : Reg) (nw : Bool) (s : State) : Host.Outcome State Fault Refusal :=
  issue (.xor d a b nw) s fun x => x.logic d a b nw (· ^^^ ·)
def execAndn (d a b : Reg) (nw : Bool) (s : State) : Host.Outcome State Fault Refusal :=
  issue (.andn d a b nw) s fun x => x.logic d a b nw fun u v => u &&& ~~~v
def execOrn (d a b : Reg) (nw : Bool) (s : State) : Host.Outcome State Fault Refusal :=
  issue (.orn d a b nw) s fun x => x.logic d a b nw fun u v => u ||| ~~~v
def execXnor (d a b : Reg) (nw : Bool) (s : State) : Host.Outcome State Fault Refusal :=
  issue (.xnor d a b nw) s fun x => x.logic d a b nw fun u v => ~~~(u ^^^ v)

/-- Shifts take the whole container as the count (05 R92). -/
def shlWord (a b : Word) : Word := if 32 ≤ b.toNat then 0 else a <<< b.toNat
def shrWord (a b : Word) : Word := if 32 ≤ b.toNat then 0 else a >>> b.toNat
def sarWord (a b : Word) : Word := a.sshiftRight (min b.toNat 31)

def execShl (d a b : Reg) (nw : Bool) (s : State) : Host.Outcome State Fault Refusal :=
  issue (.shl d a b nw) s fun x => x.int2 d a b nw (VVal.shifted shlWord) fun _ _ => .n32
def execShr (d a b : Reg) (nw : Bool) (s : State) : Host.Outcome State Fault Refusal :=
  issue (.shr d a b nw) s fun x => x.logic d a b nw shrWord
def execSar (d a b : Reg) (nw : Bool) (s : State) : Host.Outcome State Fault Refusal :=
  issue (.sar d a b nw) s fun x => x.int2 d a b nw (VVal.map2 sarWord) fun _ _ => .i32
def execRol (d a b : Reg) (nw : Bool) (s : State) : Host.Outcome State Fault Refusal :=
  issue (.rol d a b nw) s fun x => x.logic d a b nw fun u v => u.rotateLeft (v.toNat % 32)
def execRor (d a b : Reg) (nw : Bool) (s : State) : Host.Outcome State Fault Refusal :=
  issue (.ror d a b nw) s fun x => x.logic d a b nw fun u v => u.rotateRight (v.toNat % 32)

/-- Leading and trailing zeros, 32 for zero; bit reversal. -/
def clzWord (a : Word) : Word := BitVec.ofNat 32 (((List.range 32).find? fun i => a.getLsbD (31 - i)).getD 32)
def ctzWord (a : Word) : Word := BitVec.ofNat 32 (((List.range 32).find? fun i => a.getLsbD i).getD 32)
def brevWord (a : Word) : Word := maskOf fun i => a.getLsbD (31 - i)

def execPopc (d a : Reg) (nw : Bool) (s : State) : Host.Outcome State Fault Refusal :=
  issue (.popc d a nw) s fun x => x.int1 d a nw (fun u => BitVec.ofNat 32 (popCount 32 u.toNat)) .n32
def execClz (d a : Reg) (nw : Bool) (s : State) : Host.Outcome State Fault Refusal :=
  issue (.clz d a nw) s fun x => x.int1 d a nw clzWord .n32
def execCtz (d a : Reg) (nw : Bool) (s : State) : Host.Outcome State Fault Refusal :=
  issue (.ctz d a nw) s fun x => x.int1 d a nw ctzWord .n32
def execBrev (d a : Reg) (nw : Bool) (s : State) : Host.Outcome State Fault Refusal :=
  issue (.brev d a nw) s fun x => x.int1 d a nw brevWord .n32

/-- The position and length of a bit field (05 R93). -/
def fieldPos (b : Word) : Nat := b.toNat % 256
def fieldLen (b : Word) : Nat := min (b.toNat / 256 % 256) 32

/-- BFX: bits pos to pos + len − 1, positions above 31 reading 0 or the sign. -/
def bfxWord (signed : Bool) (a b : Word) : Word :=
  let pos := fieldPos b
  let len := fieldLen b
  let bit (i : Nat) : Bool := if i ≤ 31 then a.getLsbD i else signed && a.getLsbD 31
  maskOf fun i => if i < len then bit (pos + i) else signed && len != 0 && bit (pos + len - 1)

/-- BFI: bits pos to pos + len − 1 of d replaced. -/
def bfiWord (d a b : Word) : Word :=
  let pos := fieldPos b
  let len := fieldLen b
  maskOf fun i => if pos ≤ i && i < pos + len then a.getLsbD (i - pos) else d.getLsbD i

def execBfx (d a b : Reg) (nw : Bool) (signed : Bool) (s : State) : Host.Outcome State Fault Refusal :=
  issue (.bfx d a b nw signed) s fun x => x.int2 d a b nw (VVal.map2 (bfxWord signed)) fun _ _ => if signed then .i32 else .n32

def execBfi (d a b : Reg) (nw : Bool) (s : State) : Host.Outcome State Fault Refusal :=
  issue (.bfi d a b nw) s fun x =>
    x.with3 a b d fun p q r =>
      if p.isX && q.isX && r.isX then x.put d nw (VVal.map3 (fun u v w => bfiWord w u v) p.lo q.lo r.lo) (.uni 0) .n32
      else x.fail Cause.tagMismatch

/-! ## Compare and select (05 R94) -/

def execIcmp (cond : ICond) (m : MReg) (a b : Reg) (s : State) : Host.Outcome State Fault Refusal :=
  issue (.icmp cond m a b) s fun x =>
    x.with2 a b fun p q =>
      if p.isX && q.isX then x.setM m (maskWhere (ICond.holds cond) p.lo q.lo) else x.fail Cause.tagMismatch

/-- The value of SEL: U or A sources keep their shape when one of them is taken in every lane of the group. -/
def selVal (lanes m : Mask) (a b : VVal) : VVal :=
  match a, b with
  | .uni u, .uni v =>
    if subMask lanes m then .uni u else if lanes &&& m == 0 || u == v then .uni v else .ofLanes fun i => if m.getLsbD i then u else v
  | _, _ => .ofLanes fun i => if m.getLsbD i then a.lane i else b.lane i

/-- The common format of two sources, z matching either (05 R94): none when they differ. -/
def commonFmt (a b : Opnd) (dflt : Fmt) : Option Fmt :=
  match a.fmt, b.fmt with
  | some f, some g => if f = g then some f else none
  | some f, none => some f
  | none, some g => some g
  | none, none => some dflt

/-- SEL (05 R94). DESIGN CHOICE (log 107): with both sources z, which have no format, the result is tagged N32. -/
def execSel (d a b : Reg) (nw : Bool) (m : MReg) (s : State) : Host.Outcome State Fault Refusal :=
  issue (.sel d a b nw m) s fun x =>
    x.with2 a b fun p0 q0 =>
      let p := p0.beside a q0
      let q := q0.beside b p0
      match commonFmt p q .n32 with
      | some f => if p.isIn classAny32 && q.isIn classAny32 then x.put d nw ((selVal x.lanes (x.c.mask m.toNat) p.lo q.lo).fit f) (.uni 0) f
        else x.fail Cause.tagMismatch
      | none => x.fail Cause.tagMismatch

/-! ## Moves and tags (05 R95) -/

/-- A 64-bit source must be named by an even register, and so must D (05 R95, 03 R51). -/
def Ctx.oddPair (x : Ctx) (o : Opnd) (a d : Reg) : Bool := o.isWide && (x.c.oddWide a || (d.toNat < 112 && d.toNat % 2 == 1))

def execMov (d a : Reg) (nw : Bool) (s : State) : Host.Outcome State Fault Refusal :=
  issue (.mov d a nw) s fun x =>
    x.with1 a fun p =>
      if x.oddPair p a d then x.fail Cause.badRegcode
      else x.put d nw (p.lo.fit (p.fmt.getD .n32)) p.hi (p.fmt.getD .n32)

/-- The container that re-extends the low bits of `v` in a target format (05 R89, R95). -/
def retagWord (f : Fmt) (v : Word) : Word := container f (v.toNat % 2 ^ fmtWidth f)

def execRetag (d a : Reg) (fmt : BitVec 7) (nw : Bool) (s : State) : Host.Outcome State Fault Refusal :=
  issue (.retag d a fmt nw) s fun x =>
    x.with1 a fun p =>
      match fmtOf fmt.toNat with
      | none => x.fail Cause.tagMismatch
      | some f =>
        if x.oddPair p a d && fmtWide f then x.fail Cause.badRegcode
        else if fmtWide f then
          if p.isPair a fmtWide then x.put d nw p.lo p.hi f else x.fail Cause.tagMismatch
        else if p.isIn classAny32 then x.put d nw (p.lo.map1 (retagWord f)) (.uni 0) f
        else x.fail Cause.tagMismatch

/-- DESIGN CHOICE (log 89): SHAPEQ and FMTQ ask about one register, so A may be the odd register of a 64-bit pair. -/
def execShapeq (d a : Reg) (nw : Bool) (s : State) : Host.Outcome State Fault Refusal :=
  issue (.shapeq d a nw) s fun x => x.with1 a fun p => x.put d nw (.uni (BitVec.ofNat 32 p.lo.shape)) (.uni 0) .n32

/-- The format code of a source, 0x1F for z. -/
def Opnd.code (o : Opnd) : Nat := match o.fmt with | some f => fmtCode f | none => 0x1F

/-- DESIGN CHOICE (log 89): as SHAPEQ, for the format of the one register that A names. -/
def execFmtq (d a : Reg) (nw : Bool) (s : State) : Host.Outcome State Fault Refusal :=
  issue (.fmtq d a nw) s fun x => x.with1 a fun p => x.put d nw (.uni (BitVec.ofNat 32 p.code)) (.uni 0) .n32

/-! ## Immediate forms (05 R96) -/

/-- The result of an immediate form is signed when A is. -/
def immFmt (a : Opnd) : Fmt := if a.signed then .i32 else .n32

def execIaddi (d a : Reg) (imm : BitVec 11) (s : State) : Host.Outcome State Fault Refusal :=
  issue (.iaddi d a imm) s fun x => x.intImm d a (imm.signExtend 32) (VVal.linear (· + ·)) immFmt
def execAndi (d a : Reg) (imm : BitVec 11) (s : State) : Host.Outcome State Fault Refusal :=
  issue (.andi d a imm) s fun x => x.intImm d a (imm.signExtend 32) (VVal.map2 (· &&& ·)) fun _ => .n32
def execOri (d a : Reg) (imm : BitVec 11) (s : State) : Host.Outcome State Fault Refusal :=
  issue (.ori d a imm) s fun x => x.intImm d a (imm.signExtend 32) (VVal.map2 (· ||| ·)) fun _ => .n32
def execXori (d a : Reg) (imm : BitVec 11) (s : State) : Host.Outcome State Fault Refusal :=
  issue (.xori d a imm) s fun x => x.intImm d a (imm.signExtend 32) (VVal.map2 (· ^^^ ·)) fun _ => .n32
def execShli (d a : Reg) (count : BitVec 6) (s : State) : Host.Outcome State Fault Refusal :=
  issue (.shli d a count) s fun x => x.intImm d a (count.zeroExtend 32) (VVal.shifted shlWord) fun _ => .n32
def execShri (d a : Reg) (count : BitVec 6) (s : State) : Host.Outcome State Fault Refusal :=
  issue (.shri d a count) s fun x => x.intImm d a (count.zeroExtend 32) (VVal.map2 shrWord) fun _ => .n32
def execSari (d a : Reg) (count : BitVec 6) (s : State) : Host.Outcome State Fault Refusal :=
  issue (.sari d a count) s fun x => x.intImm d a (count.zeroExtend 32) (VVal.map2 sarWord) fun _ => .i32

def execIcmpi (cond : ICond) (m : MReg) (a : Reg) (imm : BitVec 11) (s : State) : Host.Outcome State Fault Refusal :=
  issue (.icmpi cond m a imm) s fun x =>
    x.with1 a fun p =>
      if p.isX then x.setM m (maskWhere (ICond.holds cond) p.lo (.uni (imm.signExtend 32))) else x.fail Cause.tagMismatch

def execMovi (d : Reg) (imm : BitVec 18) (s : State) : Host.Outcome State Fault Refusal :=
  issue (.movi d imm) s fun x => x.put d false (.uni (imm.signExtend 32)) (.uni 0) .i32

/-- MOVHI keeps the low 14 bits of D. -/
def movhiWord (imm : BitVec 18) (d : Word) : Word := imm ++ d.extractLsb' 0 14

def execMovhi (d : Reg) (imm : BitVec 18) (s : State) : Host.Outcome State Fault Refusal :=
  issue (.movhi d imm) s fun x =>
    x.with1 d fun p => if p.isX then x.put d false (p.lo.map1 (movhiWord imm)) (.uni 0) (immFmt p) else x.fail Cause.tagMismatch

end Sys2Proof.Machine
end

