-- ==== Sys2Proof/Machine/Pointer.lean ====
section
/-! DEFINITION. Machine/Pointer.lean: bit pointers (05 R97, R98) and the uniform instructions (05 R99, R100; 03 R54). -/

namespace Sys2Proof.Machine

/-- The width of a width code (03 R52). -/
def widthOf (w : Nat) : Nat :=
  match w with
  | 0 => 1 | 1 => 2 | 2 => 3 | 3 => 4 | 4 => 6 | 5 => 8 | 6 => 12 | 7 => 16 | 8 => 24 | 9 => 32 | 10 => 64 | _ => 128

/-! ## Bit pointers -/

/-- A pair result lane by lane; both halves U when every source is U (04 R67). -/
def pairOf (uni : Bool) (f : Nat → Dword) : VVal × VVal :=
  if uni then (.uni ((f 0).extractLsb' 0 32), .uni ((f 0).extractLsb' 32 32))
  else (.ofLanes fun i => (f i).extractLsb' 0 32, .ofLanes fun i => (f i).extractLsb' 32 32)

/-- A value lane by lane, U when every source is U. -/
def wordOf (uni : Bool) (f : Nat → Word) : VVal := if uni then .uni (f 0) else .ofLanes f

/-- One pointer source. -/
def Ctx.ptr1 (x : Ctx) (a : Reg) (f : Opnd → Res) : Res :=
  x.with1 a fun p =>
    if x.c.oddWide a then x.fail Cause.badRegcode else if p.isPair a classP then f p else x.fail Cause.tagMismatch

/-- The signed reading of an element offset (05 R97). -/
def offsetOf (b : Opnd) (i : Nat) : Int := if b.signed then (b.lo.lane i).toInt else (b.lo.lane i).toNat

/-- PADD: the space kept, the address moved by v × w modulo 2^60. -/
def paddLane (a : Dword) (v : Int) (w : Nat) : Dword := ptrAddInt a (v * w)

def execPadd (d a b : Reg) (w : BitVec 4) (s : State) : Host.Outcome State Fault Refusal :=
  issue (.padd d a b w) s fun x =>
    x.with2 a b fun p q =>
      if x.c.oddWide a then x.fail Cause.badRegcode
      else if p.isPair a classP && q.isX then
        let r := pairOf (p.isUni && q.lo.shape == 1) fun i => paddLane (p.wide i) (offsetOf q i) (widthOf w.toNat)
        x.out d r.1 r.2 .ptr
      else x.fail Cause.tagMismatch

/-- PDIFF: the signed difference in elements, truncated towards zero. -/
def pdiffLane (a b : Dword) (w : Nat) : Dword := BitVec.ofInt 64 (((low60 a : Int) - low60 b).tdiv w)

/-- DEDUCED (log 6): SPACE_MISMATCH names two pointers of a lane, so EVAL is 0. -/
def execPdiff (d a b : Reg) (w : BitVec 4) (s : State) : Host.Outcome State Fault Refusal :=
  issue (.pdiff d a b w) s fun x =>
    x.with2 a b fun p q =>
      if x.c.oddWide a || x.c.oddWide b then x.fail Cause.badRegcode
      else if p.isPair a classP && q.isPair b classP then
        if (lanesOf x.lanes).any fun i => spaceOf (p.wide i) != spaceOf (q.wide i) then x.fail Cause.spaceMismatch
        else
          let r := pairOf (p.isUni && q.isUni) fun i => pdiffLane (p.wide i) (q.wide i) (widthOf w.toNat)
          x.out d r.1 r.2 .i64
      else x.fail Cause.tagMismatch

/-- PALIGN: the address rounded down to a multiple of the width. -/
def palignLane (a : Dword) (w : Nat) : Dword := a.extractLsb' 60 4 ++ BitVec.ofNat 60 (w * (low60 a / w))

def execPalign (d a : Reg) (w : BitVec 4) (s : State) : Host.Outcome State Fault Refusal :=
  issue (.palign d a w) s fun x =>
    x.ptr1 a fun p =>
      let r := pairOf p.isUni fun i => palignLane (p.wide i) (widthOf w.toNat)
      x.out d r.1 r.2 .ptr

def execPspace (d a : Reg) (s : State) : Host.Outcome State Fault Refusal :=
  issue (.pspace d a) s fun x =>
    x.ptr1 a fun p => x.out d (wordOf p.isUni fun i => BitVec.ofNat 32 (spaceOf (p.wide i))) (.uni 0) .n32

/-- The cause of a new space code, for the lowest lane that has one (05 R98, 08 R160). -/
def spaceCodeCause (v : Word) : Option Nat :=
  if 16 ≤ v.toNat then some Cause.spaceMismatch else if 8 ≤ v.toNat ∧ v.toNat ≤ 14 then some Cause.spaceReserved else none

/-- PSETSP: the space replaced. -/
def psetspLane (a : Dword) (v : Word) : Dword := v.extractLsb' 0 4 ++ a.extractLsb' 0 60

def execPsetsp (d a b : Reg) (s : State) : Host.Outcome State Fault Refusal :=
  issue (.psetsp d a b) s fun x =>
    x.with2 a b fun p q =>
      if x.c.oddWide a then x.fail Cause.badRegcode
      else if p.isPair a classP && q.isX then
        match (lanesOf x.lanes).findSome? fun i => (spaceCodeCause (q.lo.lane i)).map fun c => (i, c) with
        | some (i, c) => .trap c (p.wide i) false
        | none =>
          let r := pairOf (p.isUni && q.lo.shape == 1) fun i => psetspLane (p.wide i) (q.lo.lane i)
          x.out d r.1 r.2 .ptr
      else x.fail Cause.tagMismatch

/-- The classification of a pointer (05 R98). DEDUCED (log 108): code 3 looks at the whole element of the width, and for SCR at the
gang's allocation with the node area, as check 3 of 08 R160 does. -/
def pchkCode (s : State) (ag : Agent) (w : Nat) (p : Dword) : Nat :=
  if spaceOf p = 15 then 1
  else if 8 ≤ spaceOf p then 2
  else
    match boundCheck s ag p w with
    | .error c => if c = Cause.vaultBounds ∨ c = Cause.scratchBounds then 3 else if addrIn p % w ≠ 0 then 4 else 0
    | .ok _ => if addrIn p % w ≠ 0 then 4 else 0

def execPchk (d a : Reg) (w : BitVec 7) (s : State) : Host.Outcome State Fault Refusal :=
  issue (.pchk d a w) s fun x =>
    x.ptr1 a fun p =>
      x.out d (wordOf p.isUni fun i => BitVec.ofNat 32 (pchkCode x.st x.ag (widthOf w.toNat) (p.wide i))) (.uni 0) .n32

/-! ## Uniform arithmetic (05 R99) -/

/-- The second operand. -/
def Ctx.ksrc (x : Ctx) (k : KSrc) : Dword := match k with | .reg r => x.k r | .imm i => i.zeroExtend 64

/-- One uniform operation. -/
def Ctx.uniform (x : Ctx) (d a : KReg) (src : KSrc) (f : Dword → Dword → Dword) : Res := x.setK d (f (x.k a) (x.ksrc src))

def execKadd (d a : KReg) (src : KSrc) (s : State) : Host.Outcome State Fault Refusal :=
  issue (.kadd d a src) s fun x => x.uniform d a src (· + ·)
def execKsub (d a : KReg) (src : KSrc) (s : State) : Host.Outcome State Fault Refusal :=
  issue (.ksub d a src) s fun x => x.uniform d a src (· - ·)
def execKmul (d a : KReg) (src : KSrc) (s : State) : Host.Outcome State Fault Refusal :=
  issue (.kmul d a src) s fun x => x.uniform d a src (· * ·)
def execKshl (d a : KReg) (src : KSrc) (s : State) : Host.Outcome State Fault Refusal :=
  issue (.kshl d a src) s fun x => x.uniform d a src fun u v => if 64 ≤ v.toNat then 0 else u <<< v.toNat
def execKshr (d a : KReg) (src : KSrc) (s : State) : Host.Outcome State Fault Refusal :=
  issue (.kshr d a src) s fun x => x.uniform d a src fun u v => if 64 ≤ v.toNat then 0 else u >>> v.toNat
def execKand (d a : KReg) (src : KSrc) (s : State) : Host.Outcome State Fault Refusal :=
  issue (.kand d a src) s fun x => x.uniform d a src (· &&& ·)
def execKor (d a : KReg) (src : KSrc) (s : State) : Host.Outcome State Fault Refusal :=
  issue (.kor d a src) s fun x => x.uniform d a src (· ||| ·)
def execKmov (d a : KReg) (s : State) : Host.Outcome State Fault Refusal :=
  issue (.kmov d a) s fun x => x.setK d (x.k a)
def execKmovi (d : KReg) (imm : BitVec 18) (s : State) : Host.Outcome State Fault Refusal :=
  issue (.kmovi d imm) s fun x => x.setK d (imm.signExtend 64)

/-! ## Between uniform and vector registers (05 R100) -/

def execRfal (d : KReg) (a : Reg) (s : State) : Host.Outcome State Fault Refusal :=
  issue (.rfal d a) s fun x =>
    x.with1 a fun p =>
      if p.isWide && x.c.oddWide a then x.fail Cause.badRegcode else x.setK d (p.extend (p.wide x.low))

def execKrdlane (d : KReg) (a : Reg) (lane : BitVec 5) (s : State) : Host.Outcome State Fault Refusal :=
  issue (.krdlane d a lane) s fun x =>
    x.with1 a fun p =>
      if p.isWide && x.c.oddWide a then x.fail Cause.badRegcode else x.setK d (p.extend (x.c.laneOf p lane.toNat))

def execKpop (d : KReg) (s : State) : Host.Outcome State Fault Refusal :=
  issue (.kpop d) s fun x => x.setK d (x.c.chute.headD ⟨0, .n32⟩).val

def execKtov (d : Reg) (k : KReg) (fmt : BitVec 7) (s : State) : Host.Outcome State Fault Refusal :=
  issue (.ktov d k fmt) s fun x =>
    match fmtOf fmt.toNat with
    | none => x.fail Cause.tagMismatch
    | some f =>
      let v := x.k k
      if fmtWide f then x.out d (.uni (v.extractLsb' 0 32)) (.uni (v.extractLsb' 32 32)) f
      else x.out d (.uni (retagWord f (v.extractLsb' 0 32))) (.uni 0) f

/-! ## The register window (03 R54) -/

/-- Move the window and make every latch invalid. -/
def Ctx.moveWindow (x : Ctx) (b : Dword) : Res :=
  if x.c.regs16 ≤ b.toNat then x.fail Cause.regRange
  else .next (x.upd fun c => { c with wbase := b.extractLsb' 0 5, lhist := 0 }) none

def execWinbase (n : BitVec 5) (s : State) : Host.Outcome State Fault Refusal :=
  issue (.winbase n) s fun x => x.moveWindow (n.zeroExtend 64)

def execWinbaseK (k : KReg) (s : State) : Host.Outcome State Fault Refusal :=
  issue (.winbaseK k) s fun x => x.moveWindow (x.k k)

end Sys2Proof.Machine
end

