-- ==== Sys2Proof/Machine/Memory.lean ====
section
/-! DEFINITION. Machine/Memory.lean: loads, stores, atomics and prefetch (09 R172 to R179), with requests that leave the
package (18 R287, 22 R325). -/

namespace Sys2Proof.Machine

/-! ## Addresses (09 R172) -/

/-- The address of a lane: its offset counts elements. -/
def elemAddr (k : Dword) (o : Reg) (v : Opnd) (imm : BitVec 3) (w i : Nat) : Dword :=
  let off : Int := if o = 120 then 0 else (v.lo.lane i).toInt
  ptrAddInt k ((off + imm.toInt) * w)

/-- The elements of the lanes of a mask. -/
def Ctx.elems (x : Ctx) (lanes : Mask) (k : KReg) (o : Reg) (v : Opnd) (imm : BitVec 3) (w : Nat) : List (Nat × Dword) :=
  (lanesOf lanes).map fun i => (i, elemAddr (x.k k) o v imm w i)

/-- What a memory instruction does with its elements. -/
inductive MemOp where
  | load
  | store
  | atomic (op : AtOp)
  deriving DecidableEq, Repr

/-- The operands of a load, store or atomic: D, k, O, width, immediate, what it does, and whether one lane acts for all. -/
def memShape : Instr → Option (Reg × KReg × Reg × BitVec 4 × BitVec 3 × MemOp × Bool)
  | .ld d k o w imm => some (d, k, o, w, imm, .load, false)
  | .lds d k o w imm => some (d, k, o, w, imm, .load, false)
  | .st d k o w imm => some (d, k, o, w, imm, .store, false)
  | .ldk _ k o w imm => some (120, k, o, w, imm, .load, true)
  | .stk _ k o w imm => some (120, k, o, w, imm, .store, true)
  | .atadd d k o w imm => some (d, k, o, w, imm, .atomic .add, false)
  | .atmin d k o w imm => some (d, k, o, w, imm, .atomic .min, false)
  | .atmax d k o w imm => some (d, k, o, w, imm, .atomic .max, false)
  | .atand d k o w imm => some (d, k, o, w, imm, .atomic .and, false)
  | .ator d k o w imm => some (d, k, o, w, imm, .atomic .or, false)
  | .atxor d k o w imm => some (d, k, o, w, imm, .atomic .xor, false)
  | .atxch d k o w imm => some (d, k, o, w, imm, .atomic .xch, false)
  | .atcas d k o w imm => some (d, k, o, w, imm, .atomic .cas, false)
  | _ => none

/-! ## Results -/

/-- The bits that a lane received. -/
def laneVal (vals : List (Nat × Nat)) (i : Nat) : Nat := match vals.find? fun p => p.1 == i with | some p => p.2 | none => 0

/-- The tag that LD and LDS give (09 R173). -/
def loadFmt (signed : Bool) (w : Nat) : Fmt :=
  if signed then
    match w with | 1 => .i4 | 2 => .i4 | 3 => .i3 | 4 => .i4 | 6 => .i6 | 8 => .i8 | 16 => .i16 | 64 => .i64 | _ => .i32
  else
    match w with | 1 => .n1 | 2 => .n2 | 3 => .n3 | 4 => .n4 | 6 => .n6 | 8 => .n8 | 16 => .n16 | 64 => .n64 | _ => .n32

/-- A value of `w` bits extended to a word. -/
def extendWord (signed : Bool) (w v : Nat) : Word := if signed then BitVec.ofInt 32 (signedOf w v) else BitVec.ofNat 32 (v % 2 ^ w)

/-- D of a load (09 R173). -/
def Crew.writeLoad (c : Crew) (d : Reg) (lanes : Mask) (signed : Bool) (w : Nat) (v : Nat → Nat) : Crew :=
  if w ≤ 32 then c.write32 d lanes (.ofLanes fun i => extendWord signed w (v i)) (loadFmt signed w)
  else if w = 64 then c.writeLanes64 d lanes (fun i => BitVec.ofNat 64 (v i)) (loadFmt signed 64)
  else if d = 120 then c
  else (c.writeLanes64 d lanes (fun i => BitVec.ofNat 64 (v i)) .n64).writeLanes64 (d + 2) lanes (fun i => BitVec.ofNat 64 (v i / 2 ^ 64)) .n64

/-- D of an atomic: the old value in D's container, D's tags kept (09 R177). -/
def Crew.writeAtomic (c : Crew) (d : Reg) (lanes : Mask) (w : Nat) (v : Nat → Nat) : Crew :=
  if 112 ≤ d.toNat then c
  else
    let f := (c.vreg d.toNat).fmt
    if fmtWide f then c.writeLanes64 d lanes (fun i => if fmtSigned f then BitVec.ofInt 64 (signedOf w (v i)) else BitVec.ofNat 64 (v i)) f
    else c.write32 d lanes (.ofLanes fun i => container f (extendWord (fmtSigned f) w (v i)).toNat) f

/-- What a memory instruction writes when its elements are done. -/
def memResult (i : Instr) (c : Crew) (lanes : Mask) (vals : List (Nat × Nat)) : Crew :=
  let at' (d : Reg) (w : BitVec 4) : Crew := c.writeAtomic d lanes (widthOf w.toNat) (laneVal vals)
  match i with
  | .ld d _ _ w _ => c.writeLoad d lanes false (widthOf w.toNat) (laneVal vals)
  | .lds d _ _ w _ => c.writeLoad d lanes true (widthOf w.toNat) (laneVal vals)
  | .ldk d _ _ _ _ => c.setK d (BitVec.ofNat 64 (match vals with | v :: _ => v.2 | [] => 0))
  | .atadd d _ _ w _ => at' d w
  | .atmin d _ _ w _ => at' d w
  | .atmax d _ _ w _ => at' d w
  | .atand d _ _ w _ => at' d w
  | .ator d _ _ w _ => at' d w
  | .atxor d _ _ w _ => at' d w
  | .atxch d _ _ w _ => at' d w
  | .atcas d _ _ w _ => at' d w
  | .enq d _ _ _ _ => c.write32 d lanes (.uni (BitVec.ofNat 32 (match vals with | v :: _ => v.2 | [] => 0))) .n32
  | _ => c

/-! ## Requests that leave the core's storage -/

/-- Elements by ascending sector, lanes ascending within one (08 R164): all elements of an instruction lie in one space. -/
def bySector (es : List Elem) : List Elem := es.foldl (fun l e => insertBy (fun e => e.ptr.toNat / 256) e l) []

/-- What an instruction asks of other nodes and of its own package. -/
structure Asked where
  reqs : List (Nat × Nat × Nat)
  near : List (Nat × Nat × List (Nat × Nat) × RemoteOp)
  deriving DecidableEq, Repr

/-- The parts of one element: those of this package wait, the others are sent. -/
def askParts (gid ci lane : Nat) (opOf : Nat → Nat → RemoteOp) : List FarPart → State → Asked → Asked × State
  | [], s, a => (a, s)
  | p :: ps, s, a =>
    let op := opOf p.pos p.width
    if p.node = some s.link.node.toNat then askParts gid ci lane opOf ps s { a with near := a.near ++ [(lane, p.pos, p.pieces, op)] }
    else
      match sendPart s gid ci p op false none with
      | (id, s) => askParts gid ci lane opOf ps s { a with reqs := a.reqs ++ [(lane, p.pos, id)] }

/-- Send the requests of remote elements in ascending sector order, but for the sectors that a parked load has asked for. -/
def Ctx.askAll (x : Ctx) (opOf : Nat → Nat → Nat → RemoteOp) (es : List Elem) (s : State) : Asked × State :=
  let held (s : State) (e : Elem) : Nat × Elem → List (Nat × Nat) := fun p => heldAsked s x.core x.gid x.ci x.pc e.lane (p.2.ptr.toNat / 256)
  (bySector es).foldl (fun r e =>
    if e.bySectors.all fun p => (held r.2 e p).isEmpty then askParts x.gid x.ci e.lane (opOf e.lane) (farParts 0 e.pieces) r.2 r.1
    else
      e.bySectors.foldl (fun r p =>
        -- a sector that was asked for stands at its bit of the run of sectors in which the element begins
        let at' := 256 * (p.2.ptr.toNat / 256 - e.ptr.toNat / 256)
        match held r.2 e p with
        | [] => askParts x.gid x.ci e.lane (opOf e.lane) (farParts p.1 p.2.pieces) r.2 r.1
        | l => ({ r.1 with reqs := r.1.reqs ++ l.map fun q => (e.lane, at' + q.1, q.2) }, r.2)) r) (⟨[], []⟩, s)

/-- Every request of a waiting instruction is answered. -/
def RemoteWait.done (r : RemoteWait) (s : State) : Bool := r.reqs.all fun q => (answerOf s q.2.2).isSome

/-- What an answer means to a queue instruction (15 R259, R260, R262): a cause, with EVAL 0. `barred` is the cause of a
QOPEN that only asks whether its handle is valid, since the crew itself can register no more. -/
def queueRefusal (i : Instr) (barred : Nat) (a : Option RemoteAns) : Option Nat :=
  match i, a with
  | .qopenProd _, some .refused => some Cause.rmtRefused
  | .qopenProd _, some (.data n) =>
    if n = 257 then some Cause.qHandle else if n = 258 then some barred else if n = 256 then some Cause.qFullreg else none
  | .enq _ _ _ _ _, some .refused => some Cause.rmtRefused
  | .enq d _ _ _ _, some (.data n) =>
    if n = 257 then some Cause.qHandle else if n = 258 then some Cause.qNotreg
    else if n = 2 ∧ d = 120 then some Cause.qGone else none
  | .qclose _, some .refused => some Cause.rmtRefused
  | .qclose _, some (.data n) => some (if n = 257 then Cause.qHandle else Cause.qNotreg)
  | .deq _ _ _ _ _, some .refused => some Cause.rmtRefused
  | .deq _ _ _ _ _, some (.data n) => some (if n = 257 then Cause.qHandle else Cause.qNotreg)
  | _, _ => none

/-- The lowest lane whose request was refused, with the cause (18 R284). -/
def RemoteWait.refused (r : RemoteWait) (s : State) : Option (Dword × Nat) :=
  match r.reqs.findSome? fun q => queueRefusal r.instr (laneVal r.vals q.1) (answerOf s q.2.2) with
  | some c => some (0, c)
  | none =>
    let ptr (lane : Nat) : Dword := match r.ptrs.find? fun p => p.1 == lane with | some p => p.2 | none => 0
    let bad (lane : Nat) (a : Option RemoteAns) : Option (Nat × Dword × Nat) :=
      (a.bind fun a => answerCause a (ptr lane)).map fun c => (lane, ptr lane, c)
    let far := r.reqs.filterMap fun q => bad q.1 (answerOf s q.2.2)
    let near := r.near.filterMap fun q => bad q.1 (nearRefusal s q.2.2.1 q.2.2.2)
    (minBy (fun e => e.1) (far ++ near)).map fun e => e.2

/-- The accesses of this package, in order, once every other answer is good: their bits as (lane, bit, value). -/
def doNear : List (Nat × Nat × List (Nat × Nat) × RemoteOp) → State → List (Nat × Nat × Nat) × State
  | [], s => ([], s)
  | q :: qs, s =>
    match remotePerform s s.link.node.toNat q.2.2.1 q.2.2.2 with
    | (a, s) =>
      match doNear qs s with
      | (l, s) => ((q.1, q.2.1, match a with | .data v => v | _ => 0) :: l, s)

/-- The bits that the answer of a request gives the element of a pointer, at bit `pos` of it. A whole sector, which a parked
load asked for (08 R168), stands at a bit of the run of sectors in which the element begins. -/
def answerBits (s : State) (p : Dword) (pos id : Nat) : Nat :=
  match s.link.reqs.find? fun r => r.id == id with
  | some r =>
    match r.answer with
    | some (.data b) => if r.width = 256 then b * 2 ^ pos / 2 ^ (p.toNat % 256) else b * 2 ^ pos
    | _ => 0
  | none => 0

/-- The bits of a result that a load, store or atomic has. -/
def resultBits (i : Instr) (v : Nat) : Nat :=
  match memShape i with | some q => v % 2 ^ widthOf q.2.2.2.1.toNat | none => v

/-- The bits of every lane: read at once, from the answers, and from this package. -/
def RemoteWait.values (r : RemoteWait) (s : State) (near : List (Nat × Nat × Nat)) : List (Nat × Nat) :=
  r.ptrs.map fun p =>
    let got := (r.reqs.filter fun q => q.1 == p.1).foldl (fun v q => v + answerBits s p.2 q.2.1 q.2.2) 0
    let own := (near.filter fun q => q.1 == p.1).foldl (fun v q => v + q.2.2 * 2 ^ q.2.1) 0
    (p.1, resultBits r.instr (laneVal r.vals p.1 + got + own))

/-- The requests of an instruction leave the link unit. -/
def dropReqs (s : State) (r : RemoteWait) : State :=
  { s with link := { s.link with reqs := s.link.reqs.filter fun q => !(r.reqs.any fun p => p.2.2 == q.id) } }

/-- What an answered instruction writes: a producer on another package holds its index (15 R260). -/
def RemoteWait.result (r : RemoteWait) (c : Crew) (vals : List (Nat × Nat)) : Crew :=
  match r.instr, r.ptrs, vals with
  | .qopenProd _, p :: _, v :: _ => { c with qregs := c.qregs ++ [⟨p.2, true, v.2⟩] }
  | i, _, _ => memResult i c r.lanes vals

/-- The answers are all good: this package's accesses are performed, and the result is written. -/
def RemoteWait.finish (r : RemoteWait) (s : State) (gid ci : Nat) : State :=
  match doNear r.near s with
  | (near, t) => (dropReqs t r).modCrew gid ci fun c => c.inWindow r.wbase fun c => r.result c (r.values s near)

/-- This package's storage shows what the core's threads have written to the bits that an instruction asks of it, and its data
cache keeps no line of them (14 R245, R251). -/
def RemoteWait.seeNear (r : RemoteWait) (s : State) (gid : Nat) : State :=
  match s.gang? gid with
  | some g => r.near.foldl (fun s q => evictNear s g.core q.2.2.1) s
  | none => s

/-- An answered instruction completes or traps, after its answers have come back (18 R287). -/
def finishRemote (s : State) (gid ci : Nat) (r : RemoteWait) : State :=
  let s := r.seeNear s gid
  let s1 := s.modCrew gid ci fun c => { c with remotes := c.remotes.filter fun q => q != r }
  match r.refused s with
  | some (p, cause) => afterIssue (settle (eventTrap (dropReqs s1 r) gid ci r.lanes r.pc cause p false) gid) gid
  | none =>
    let wake (c : Crew) : Crew := match r.instr with | .qopenProd _ => c.wake .queue | _ => c
    afterIssue ((r.finish s1 gid ci).modCrew gid ci fun c => wake ((c.complete r.instr r.lanes r.pc none).release r.lanes nextPc)) gid

/-- The request of a reservation that another package has granted. -/
def RemoteWait.grant (r : RemoteWait) (s : State) : Option LinkReq :=
  match r.reqs with
  | [q] => s.link.reqs.find? fun x => x.id == q.2.2 && x.answer == some (.data 0) && (match x.op with | .reserve _ _ _ _ _ => true | _ => false)
  | _ => none

/-- The records of an ENQ, from the registers of its window (15 R262). -/
def Crew.records (c : Crew) (i : Instr) (lanes : Mask) : List (List Word) :=
  match i with
  | .enq _ _ o _ n => (lanesOf lanes).map fun k => (List.range n.toNat).map fun j => (c.vreg (o.toNat + j)).val.lane k
  | _ => []

/-- The group's reservation is granted and its records are sent: the acknowledged form waits for its acknowledgement, for the
other there is nothing left to wait for (15 R262). -/
def sendGranted (s : State) (gid ci : Nat) (c : Crew) (r : RemoteWait) (q : LinkReq) : RemoteWait × State :=
  match q.op with
  | .reserve h prod _ _ tag =>
    let id := s.link.nextReq
    let posted : Bool := match r.instr with | .enq d _ _ _ _ => d == 120 | _ => true
    let op : RemoteOp := .enq h prod tag (Crew.records { c with wbase := r.wbase } r.instr r.lanes)
    let r' : RemoteWait := { r with reqs := if posted then [] else r.reqs.map fun p => (p.1, p.2.1, id) }
    let s := s.modCrew gid ci fun c => { c with remotes := c.remotes.map fun w => if w = r then r' else w }
    (r', { s with link := { s.link with
      nextReq := id + 1, reqs := (s.link.reqs.filter fun x => x.id != q.id) ++ [⟨id, q.node, 0, 0, [], op, gid, ci, posted, none, 0⟩] } })
  | _ => (r, s)

/-- What the answers of one waiting instruction bring: granted records are sent, and when every answer is there the
instruction completes, unless a handler holds its group. -/
def deliverOne (gid : Nat) (c : Crew) (s : State) (r : RemoteWait) : State :=
  let (r, s) := match r.grant s with | some q => sendGranted s gid c.index c r q | none => (r, s)
  if r.done s && !c.holds r.lanes then finishRemote s gid c.index r else s

/-- Complete every waiting instruction whose answers are all there, but for groups that a handler holds. -/
def deliverAnswers (s : State) : State :=
  s.gangs.foldl (fun s g => g.crews.foldl (fun s c => c.remotes.foldl (deliverOne g.id c) s) s) s

/-! ## Running a memory instruction -/

/-- The kind, alignment and element of one memory instruction. -/
structure MemJob where
  w : Nat
  al : Align
  kind : AccKind
  hostAtomic : Bool
  deriving DecidableEq, Repr

/-- The local elements in lane order: their values, or the pointer of one that cannot be corrected. -/
def runLocal (act : State → Elem → Option Nat × State) : List Elem → State → Except Dword (List (Nat × Nat) × State)
  | [], s => .ok ([], s)
  | e :: es, s =>
    match act s e with
    | (none, _) => .error e.ptr
    | (some v, s) =>
      match runLocal act es s with
      | .error p => .error p
      | .ok (l, s) => .ok ((e.lane, v) :: l, s)

/-- After the local elements: the instruction completes, or asks other nodes and waits for their answers. Of an element in
this package's own RMT nothing is performed before every other answer is good (14 R237). -/
def Ctx.finishMem (x : Ctx) (i : Instr) (es : List Elem) (vals : List (Nat × Nat)) (opOf : Nat → Nat → Nat → RemoteOp) (s : State) : Res :=
  let remotes := es.filter Elem.isRemote
  if remotes.isEmpty then
    .next ((dropHeld s x.core x.gid x.ci x.pc x.lanes).modCrew x.gid x.ci fun c => memResult i c x.lanes vals) none
  else
    match x.askAll opOf remotes s with
    | (a, s) =>
      let r : RemoteWait := ⟨x.pc, x.lanes, i, x.c.wbase, a.reqs, vals, es.map fun e => (e.lane, e.ptr), a.near⟩
      if r.done s then
        let s := r.seeNear s x.gid
        match r.refused s with
        | some (p, cause) => .trap cause p false
        | none => .next (dropHeld (r.finish s x.gid x.ci) x.core x.gid x.ci x.pc x.lanes) none
      else
        -- the requests that a parked load has sent before are this instruction's now
        .wait (dropHeld (s.modCrew x.gid x.ci fun c => { c with remotes := c.remotes ++ [r] }) x.core x.gid x.ci x.pc x.lanes) .engine true

/-- A memory instruction: the checks of every lane, then all of its elements (08 R160, R168; 20 R308). -/
def Ctx.runMem (x : Ctx) (i : Instr) (els : List (Nat × Dword)) (j : MemJob) (act : State → Elem → Option Nat × State)
    (opOf : Nat → Nat → Nat → RemoteOp) : Res :=
  match checkLanes x.st x.ag els j.w j.al j.kind j.hostAtomic with
  | (.trap c p, _) => .trap c p false
  | (.absent, _) => .fault .noSuchDeviceByte
  | (.park lanes p c, s) =>
    let hold : Bool := j.kind = .read && (match x.mode with | .spec _ _ => false | _ => true)
    .park (if hold then holdSectors s x.ag x.core x.gid x.ci x.pc (x.mode == .plain) els j.w else s) lanes p c j.kind.code
  | (.ok es, s) =>
    let near := es.filter fun e => !e.isRemote
    let locals := if j.kind = .atomic then bySector near else near
    if taskOverflow s x.core x.mode (locals.flatMap fun e => e.parts s x.ag) (j.kind != .write) (j.kind != .read) then .wait x.st .frontier false
    else
      match runLocal act locals s with
      | .error p => .trap Cause.memUncorrectable p false
      | .ok (vals, s) => x.finishMem i es vals opOf s

/-- Read the parts of an element one after another, each from the sector held for its lane or from storage. -/
def Ctx.readSectors (x : Ctx) : List (Nat × Elem) → State → Option Nat × State
  | [], s => (some 0, s)
  | p :: ps, s =>
    match (match heldRead s x.core x.gid x.ci x.pc p.2 with | some v => (some v, s) | none => elemRead s x.ag x.core x.mode p.2) with
    | (none, s) => (none, s)
    | (some v, s) =>
      match x.readSectors ps s with
      | (none, s) => (none, s)
      | (some r, s) => (some (v * 2 ^ p.1 + r), s)

/-- Read one element, from the sectors held for its lane when the load was parked (08 R168); a speculative task has none (20 R305,
R313). -/
def Ctx.readElem (x : Ctx) (s : State) (e : Elem) : Option Nat × State :=
  match x.mode with
  | .spec launch t => elemRead s x.ag x.core (.spec launch t) e
  | m =>
    if !(s.core x.core).faultBuf.isEmpty && e.bySectors.any fun p => (heldRead s x.core x.gid x.ci x.pc p.2).isSome then
      x.readSectors e.bySectors s
    else elemRead s x.ag x.core m e

/-- A load of the given elements. -/
def Ctx.load (x : Ctx) (i : Instr) (els : List (Nat × Dword)) (w : Nat) : Res :=
  x.runMem i els ⟨w, .plain w, .read, false⟩ x.readElem fun _ _ _ => .read

/-- A store of the given elements. -/
def Ctx.store (x : Ctx) (i : Instr) (els : List (Nat × Dword)) (w : Nat) (v : Nat → Nat) : Res :=
  x.runMem i els ⟨w, .plain w, .write, false⟩ (fun s e => (some 0, elemWrite s x.ag x.core x.mode e (v e.lane % 2 ^ w)))
    fun lane pos n => .write (bitsAt (v lane) pos n)

/-- The O operand of a memory instruction. -/
def Ctx.withO (x : Ctx) (before : List Reg) (o : Reg) (f : Opnd → Res) : Res :=
  match x.read before o with
  | .error e => x.fail e
  | .ok v => if v.isX then f v else x.fail Cause.tagMismatch

def execLd (d : Reg) (k : KReg) (o : Reg) (w : BitVec 4) (imm : BitVec 3) (s : State) : Host.Outcome State Fault Refusal :=
  issue (.ld d k o w imm) s fun x =>
    x.withO [] o fun v => x.load (.ld d k o w imm) (x.elems x.lanes k o v imm (widthOf w.toNat)) (widthOf w.toNat)

def execLds (d : Reg) (k : KReg) (o : Reg) (w : BitVec 4) (imm : BitVec 3) (s : State) : Host.Outcome State Fault Refusal :=
  issue (.lds d k o w imm) s fun x =>
    x.withO [] o fun v => x.load (.lds d k o w imm) (x.elems x.lanes k o v imm (widthOf w.toNat)) (widthOf w.toNat)

/-- The value that ST takes from D (09 R174): a cause, or a number for each lane. -/
def Ctx.storeValue (x : Ctx) (d : Reg) (w : Nat) : Except Nat (Nat → Nat) :=
  match x.read [] d with
  | .error e => .error e
  | .ok p =>
    if w ≤ 32 then if p.isIn classAny32 then .ok fun i => (p.lo.lane i).toNat else .error Cause.tagMismatch
    else if d = 120 then .ok fun _ => 0
    else if x.c.oddWide d then .error Cause.badRegcode
    else if !p.isPair d fmtWide then .error Cause.tagMismatch
    else if w = 64 then .ok fun i => (p.wide i).toNat
    else
      let q := x.c.readReg (d.toNat + 2)
      if q.isWide then .ok fun i => (p.wide i).toNat + 2 ^ 64 * (q.wide i).toNat else .error Cause.tagMismatch

def execSt (d : Reg) (k : KReg) (o : Reg) (w : BitVec 4) (imm : BitVec 3) (s : State) : Host.Outcome State Fault Refusal :=
  issue (.st d k o w imm) s fun x =>
    match x.storeValue d (widthOf w.toNat) with
    | .error e => x.fail e
    | .ok v => x.withO [d] o fun p => x.store (.st d k o w imm) (x.elems x.lanes k o p imm (widthOf w.toNat)) (widthOf w.toNat) v

def execLdk (d k : KReg) (o : Reg) (w : BitVec 4) (imm : BitVec 3) (s : State) : Host.Outcome State Fault Refusal :=
  issue (.ldk d k o w imm) s fun x =>
    x.withO [] o fun v => x.load (.ldk d k o w imm) (x.elems (laneMask x.low) k o v imm (widthOf w.toNat)) (widthOf w.toNat)

def execStk (d k : KReg) (o : Reg) (w : BitVec 4) (imm : BitVec 3) (s : State) : Host.Outcome State Fault Refusal :=
  issue (.stk d k o w imm) s fun x =>
    x.withO [] o fun v =>
      x.store (.stk d k o w imm) (x.elems (laneMask x.low) k o v imm (widthOf w.toNat)) (widthOf w.toNat) fun _ => (x.k d).toNat

/-! ## Atomics (09 R176 to R178) -/

/-- The tag of D suits the operation (09 R176). -/
def atomicTag (op : AtOp) (f : Option Fmt) (w : Nat) : Bool :=
  match f with
  | none => true
  | some f =>
    match op with
    | .add => if classF f then fmtWidth f = w else if w = 64 then classW f else classX f
    | .min => if classF f then fmtWidth f = w else if w = 64 then classW f else classX f
    | .max => if classF f then fmtWidth f = w else if w = 64 then classW f else classX f
    | _ => true

/-- The atomics that HST carries (09 R178). -/
def hostAtomicOk (op : AtOp) (f : Option Fmt) (w : Nat) : Bool :=
  (w == 32 || w == 64) &&
    match op with
    | .add => (match f with | some f => !classF f | none => true)
    | .xch => true
    | .cas => true
    | _ => false

/-- The bits of register `n` and, for 64 bits, its neighbour, in a lane. -/
def Crew.rawLane (c : Crew) (n w i : Nat) : Nat :=
  if 112 ≤ n then 0
  else ((c.vreg n).val.lane i).toNat + (if w = 64 then 2 ^ 32 * ((c.vreg (n + 1)).val.lane i).toNat else 0)

/-- The tag of an atomic's D, when D suits the operation; else the trap's cause (09 R176). -/
def Ctx.atomicFmt (x : Ctx) (op : AtOp) (d : Reg) (n : Nat) : Except Nat (Option Fmt) :=
  match x.read [] d with
  | .error e => .error e
  | .ok p =>
    if p.isWide && x.c.oddWide d then .error Cause.badRegcode
    else if n ≤ 64 && !atomicTag op p.fmt n then .error Cause.tagMismatch
    else .ok p.fmt

/-- One atomic of every lane. -/
def Ctx.atomic (x : Ctx) (i : Instr) (op : AtOp) (d : Reg) (k : KReg) (o : Reg) (w : BitVec 4) (imm : BitVec 3) : Res :=
  let n := widthOf w.toNat
  match x.atomicFmt op d n with
  | .error e => x.fail e
  | .ok f =>
    x.withO [d] o fun v =>
      let opnd (lane : Nat) : Nat := x.c.rawLane d.toNat n lane % 2 ^ n
      let new (lane : Nat) : Nat := match op with | .cas => x.c.rawLane (d.toNat + (if n = 64 then 2 else 1)) n lane % 2 ^ n | _ => 0
      x.runMem i (x.elems x.lanes k o v imm n) ⟨n, .atomic n, .atomic, hostAtomicOk op f n⟩
        (fun s e => elemAtomic s x.ag x.core x.mode e op f (opnd e.lane) (new e.lane))
        fun lane _ _ => .atomic op.code (match f with | some f => fmtCode f | none => 0) (opnd lane) (new lane)

def execAtadd (d : Reg) (k : KReg) (o : Reg) (w : BitVec 4) (imm : BitVec 3) (s : State) : Host.Outcome State Fault Refusal :=
  issue (.atadd d k o w imm) s fun x => x.atomic (.atadd d k o w imm) .add d k o w imm
def execAtmin (d : Reg) (k : KReg) (o : Reg) (w : BitVec 4) (imm : BitVec 3) (s : State) : Host.Outcome State Fault Refusal :=
  issue (.atmin d k o w imm) s fun x => x.atomic (.atmin d k o w imm) .min d k o w imm
def execAtmax (d : Reg) (k : KReg) (o : Reg) (w : BitVec 4) (imm : BitVec 3) (s : State) : Host.Outcome State Fault Refusal :=
  issue (.atmax d k o w imm) s fun x => x.atomic (.atmax d k o w imm) .max d k o w imm
def execAtand (d : Reg) (k : KReg) (o : Reg) (w : BitVec 4) (imm : BitVec 3) (s : State) : Host.Outcome State Fault Refusal :=
  issue (.atand d k o w imm) s fun x => x.atomic (.atand d k o w imm) .and d k o w imm
def execAtor (d : Reg) (k : KReg) (o : Reg) (w : BitVec 4) (imm : BitVec 3) (s : State) : Host.Outcome State Fault Refusal :=
  issue (.ator d k o w imm) s fun x => x.atomic (.ator d k o w imm) .or d k o w imm
def execAtxor (d : Reg) (k : KReg) (o : Reg) (w : BitVec 4) (imm : BitVec 3) (s : State) : Host.Outcome State Fault Refusal :=
  issue (.atxor d k o w imm) s fun x => x.atomic (.atxor d k o w imm) .xor d k o w imm
def execAtxch (d : Reg) (k : KReg) (o : Reg) (w : BitVec 4) (imm : BitVec 3) (s : State) : Host.Outcome State Fault Refusal :=
  issue (.atxch d k o w imm) s fun x => x.atomic (.atxch d k o w imm) .xch d k o w imm
def execAtcas (d : Reg) (k : KReg) (o : Reg) (w : BitVec 4) (imm : BitVec 3) (s : State) : Host.Outcome State Fault Refusal :=
  issue (.atcas d k o w imm) s fun x => x.atomic (.atcas d k o w imm) .cas d k o w imm

/-! ## Sector-request entries that an instruction needs (08 R164) -/

/-- The elements of a load, store or atomic and their checks; none where an operand raises a trap before any element is looked at. -/
def Ctx.memPlan (x : Ctx) (i : Instr) : Option (List (Nat × Dword) × MemJob) :=
  match memShape i with
  | none => none
  | some (d, k, o, w, imm, op, one) =>
    let n := widthOf w.toNat
    let job : Option MemJob :=
      match op with
      | .load => some ⟨n, .plain n, .read, false⟩
      | .store => (match if one then .ok (fun _ => 0) else x.storeValue d n with | .ok _ => some ⟨n, .plain n, .write, false⟩ | .error _ => none)
      | .atomic a => (x.atomicFmt a d n).toOption.map fun f => ⟨n, .atomic n, .atomic, hostAtomicOk a f n⟩
    match job, x.read (if op = .load ∨ one then [] else [d]) o with
    | some j, .ok v => if v.isX then some (x.elems (if one then laneMask x.low else x.lanes) k o v imm n, j) else none
    | _, _ => none

/-- The sector requests that an instruction makes: those of every element, or of a load that is to park those that translate and find
room in the fault buffer. Held sectors are not asked for again (08 R168). -/
def Ctx.entriesNeeded (x : Ctx) (i : Instr) : Nat :=
  match x.memPlan i with
  | none => 0
  | some (els, j) =>
    let asks (e : Elem) (k : Nat) : Bool := !(j.kind == .read && sectorHeld x.st x.core x.gid x.ci x.pc e.lane k)
    match (checkLanes x.st x.ag els j.w j.al j.kind j.hostAtomic).1 with
    | .ok es => (es.flatMap fun e => (sectorsOf e.ptr e.n).filter (asks e)).eraseDups.length
    | .park _ _ _ =>
      if j.kind = .read && (match x.mode with | .spec _ _ => false | _ => true) then
        holdCount x.st x.ag x.core x.gid x.ci x.pc (x.mode == .plain) els j.w (64 - (x.st.core x.core).faultBuf.length) (sectorList els j.w)
      else 0
    | _ => 0

/-! ## Prefetch (09 R179) -/

/-- The bits of an element in one of its sectors come into the data cache. -/
def prefetchSector (x : Ctx) (p : Dword) (w : Nat) (s : State) (k : Nat) : State :=
  let a := max p.toNat (k * 256)
  match access s x.ag (BitVec.ofNat 64 a) (min (p.toNat + w) (k * 256 + 256) - a) .free .read false with
  | (.error _, s) => s
  | (.ok ps, s) => (piecesRead s x.core true (spaceOf p == 1) ps).2

/-- The sectors of one lane's element come into the data cache, as many as find a free sector-request entry; a lane that fails a
check is dropped. -/
def prefetch (x : Ctx) (w : Nat) (s : State) (e : Nat × Dword) : State :=
  if !isDev e.2 then s
  else
    match access s x.ag e.2 w (.plain w) .read false with
    | (.error _, s) => s
    | (.ok ps, s) =>
      if elemLocked s x.ag e.2 w false || ps.any pieceAbsent then s
      else ((sectorsOf e.2 w).take (512 - entriesUsed s x.core)).foldl (prefetchSector x e.2 w) s

def execPf (k : KReg) (o : Reg) (w : BitVec 4) (imm : BitVec 3) (s : State) : Host.Outcome State Fault Refusal :=
  issue (.pf k o w imm) s fun x =>
    x.withO [] o fun v => .next ((x.elems x.lanes k o v imm (widthOf w.toNat)).foldl (prefetch x (widthOf w.toNat)) x.st) none

end Sys2Proof.Machine
end

