-- ==== Sys2Proof/Machine/Sched.lean ====
section
/-! DEFINITION. Machine/Sched.lean: how a port chooses what it issues (04 R70 to R74), the fetch of the chosen group's word
(08 R343), how a lode core chooses its context (04 R81), and the model's own default order of agents (log 1). -/

namespace Sys2Proof.Machine

/-! ## Groups of a crew -/

/-- The lanes that may issue: READY, and not held (04 R70, 18 R279, 20 R313). -/
def eligible (s : State) (g : Gang) (c : Crew) : Mask :=
  if c.ended || g.ending.isSome || taskHeld s g c then 0 else (c.lanesIn fun x => x == .ready) &&& c.active

/-- The lanes of `m` at a PC. -/
def Crew.atPc (c : Crew) (m : Mask) (pc : Dword) : Mask := m &&& maskOf fun k => (c.lane k).pc == pc

/-- The PC of the first group of `m` in the order of 04 R74: the lowest PC of the highest AGE when that is aged, else the
lowest PC. -/
def Crew.firstPc (c : Crew) (m : Mask) : Option Dword :=
  let es := (lanesOf m).map c.lane
  let top : Nat := es.foldl (fun a e => max a e.age) 0
  (minBy (fun e => e.pc.toNat) (if 256 ≤ top then es.filter fun e => e.age == top else es)).map fun e => e.pc

/-! ## Fetch (08 R343) -/

/-- What a fetch gives. -/
inductive Fetched where
  | word (w : Word) (s : State)
  | stop (r : Res) (s : State)
  deriving DecidableEq, Repr

/-- The word's bits lie in the image of an unended launch that was changed (01 R10). -/
def fetchChanged (s : State) (ps : List Piece) : Bool :=
  s.launches.any fun l => l.changed && !l.ended && l.pieces.any fun r =>
    ps.any fun p => match p with | .store key n => meets r.1 r.2 key n | _ => false

/-- Four free bytes (log 21). -/
def freeWord (k : Nat) : Word := Config.freeByte (k + 3) ++ Config.freeByte (k + 2) ++ Config.freeByte (k + 1) ++ Config.freeByte k

/-- The fetch of the word at PC for the group that is to issue it. -/
def fetch (x : Ctx) : Fetched :=
  let s := x.st
  if !isDev x.pc then .stop (.trap Cause.fetchSpace x.pc false) s
  else
    match access s x.ag x.pc 32 (.plain 32) .fetch false with
    | (.error f, s) =>
      if replayable f.cause then .stop (.park s x.lanes x.pc f.cause 3) s else .stop (.trap f.cause x.pc false) s
    | (.ok ps, s) =>
      if elemLocked s x.ag x.pc 32 false then .stop (.trap Cause.rangeLocked x.pc false) s
      else if ps.any pieceAbsent then .stop (.fault .noSuchDeviceByte) s
      else if piecesPoisoned s ps then .stop (.trap Cause.memUncorrectable x.pc false) s
      else if fetchChanged s ps then .word (freeWord s.freeCtr) { s with freeCtr := s.freeCtr + 4 }
      else .word (BitVec.ofNat 32 (readPieces s ps)) s

/-! ## Groups that cannot issue (04 R74, R83; 08 R164) -/

/-- Whether a group can issue: it lacks chute entries that its running lode thread can still push (R83), or sector-request
entries (R164). -/
inductive Ability where | can | short | blocked
  deriving DecidableEq, Repr

/-- Whether the group of `lanes` at `pc` can issue. The word is looked at, and not fetched; a word that would trap or park
can issue. -/
def ability (s : State) (g : Gang) (c : Crew) (lanes : Mask) (pc : Dword) : Ability :=
  if g.lode.st != .running && entriesUsed s g.core ≤ 448 then .can
  else
    let x : Ctx := ⟨s, g.id, c.index, lanes, pc⟩
    match fetch x with
    | .stop _ _ => .can
    | .word w _ =>
      match decode w with
      | .error _ => .can
      | .ok i =>
        match before i x with
        | some (.wait _ .chute _) => .short
        | some _ => .can
        | none => if 512 < entriesUsed s g.core + x.entriesNeeded i then .blocked else .can

/-- The first group of the lanes `m`, in the order of 04 R74, that can issue, among as many groups as there are instruction-buffer
slots (04 R71); with it the lanes of the groups before it that lack chute entries, which leave their slots as they enter WAIT. -/
def firstAble (s : State) (g : Gang) (c : Crew) : Nat → Mask → Option (Mask × Dword) × Mask
  | 0, _ => (none, 0)
  | fuel + 1, m =>
    match c.firstPc m with
    | none => (none, 0)
    | some pc =>
      let l := c.atPc m pc
      match ability s g c l pc with
      | .can => (some (l, pc), 0)
      | .short => let r := firstAble s g c fuel (m &&& ~~~l); (r.1, r.2 ||| l)
      | .blocked => firstAble s g c fuel (m &&& ~~~l)

/-- The group that a crew issues (04 R74), and the lanes that enter WAIT for the chute before it: the group of an open
chain, else the first in the order that can issue. DEDUCED (log 98): lanes that come READY to the address of a chain member
before it issues stay a group of their own until the chain ends. -/
def groupChoice (s : State) (g : Gang) (c : Crew) : Option (Mask × Dword) × Mask :=
  let m := eligible s g c
  match c.chain with
  | some h =>
    let l := h.lanes &&& m
    let pc := (c.lane (firstLane l)).pc
    if l == 0 then (none, 0) else if ability s g c l pc = .short then (none, l) else (some (l, pc), 0)
  | none => firstAble s g c 8 m

def chooseGroup (s : State) (g : Gang) (c : Crew) : Option (Mask × Dword) := (groupChoice s g c).1

/-- Groups of a port's crews that lack chute entries enter WAIT with WHY 1; they use no issue opportunity (04 R83). -/
def waitShort (s : State) (core port : Nat) : State :=
  (s.gangs.filter fun g => g.core == core && g.lode.st == .running).foldl (fun s g =>
    (g.crews.filter fun c => c.slot % 4 == port).foldl (fun s c =>
      let m := (groupChoice s g c).2
      if m = 0 then s else s.modCrew g.id c.index fun c => c.stall m (.wait .chute)) s) s

/-! ## A port's choice -/

/-- A ready crew of a port: gang, crew, tenant class. -/
structure Ready where
  gang : Nat
  crew : Nat
  slot : Nat
  cls : Nat
  lastIssue : Nat
  yielded : Bool
  inChain : Bool
  deriving DecidableEq, Repr

/-- The weight of a tenant class in a gang's partition (02 R28). -/
def classWeight (s : State) (g : Gang) : Nat × Nat :=
  match s.launch? g.launch with
  | some l => (l.tclass, (s.part l.part).weight.getD l.tclass 0)
  | none => (0, 0)

/-- A crew of the port has an open chain, so that the port issues no other crew (03 R57). -/
def chainOpen (s : State) (core port : Nat) : Bool :=
  s.gangs.any fun g => g.core == core && g.crews.any fun c => c.slot % 4 == port && c.chain.isSome

/-- The ready crews of a port whose class has a weight (04 R72), or the crew of its open chain alone. -/
def readyCrews (s : State) (core port : Nat) : List Ready :=
  let held := chainOpen s core port
  (s.gangs.filter fun g => g.core == core).flatMap fun g =>
    let w := classWeight s g
    g.crews.filterMap fun c =>
      if c.slot % 4 == port && (!held || c.chain.isSome) && (chooseGroup s g c).isSome && (w.2 != 0 || c.chain.isSome) then
        some ⟨g.id, c.index, c.slot, w.1, c.lastIssue, c.yielded, c.chain.isSome⟩
      else none

/-- The next eligible class after CUR, in ascending order around (04 R72). -/
def nextClass (cur : Nat) (ok : Nat → Bool) : Nat :=
  (((List.range 8).map fun d => (cur + 1 + d) % 8).find? ok).getD cur

/-- The class a port issues, and the port's state after (04 R72). -/
def Port.choose (p : Port) (weight : Nat → Nat) (ok : Nat → Bool) : Nat × Port :=
  let defs := (List.range 8).map fun c => if ok c then p.defs.getD c 0 else 0
  let p := { p with defs := defs }
  let p := if ok p.cur && p.defs.getD p.cur 0 != 0 then p
    else
      let cur := nextClass p.cur ok
      { p with cur := cur, defs := p.defs.modify cur fun d => d + weight cur }
  (p.cur, { p with defs := p.defs.modify p.cur fun d => d - 1 })

/-- The crew that a port issues within a class (04 R73, 05 R107). -/
def chooseCrew (rs : List Ready) : Option Ready :=
  let others := rs.filter fun r => !r.yielded
  minBy (fun r => r.lastIssue * 32 + r.slot) (if others.isEmpty then rs else others)

/-- Change a port. -/
def modPort (s : State) (core port : Nat) (f : Port → Port) : State :=
  s.modCore core fun r => { r with ports := r.ports.modify port f }

/-- The weight of class `k` for the crews of a port. -/
def portWeight (s : State) (rs : List Ready) (k : Nat) : Nat :=
  match rs.find? fun r => r.cls == k with
  | some r => (match s.gang? r.gang with | some g => (classWeight s g).2 | none => 0)
  | none => 0

/-- The three steps of a port's choice: the crew, and the machine with the port's counters advanced. DEDUCED (log 81):
with no ready crew the choice ends at the first line of R72, and DEF stays as it is. -/
def choosePort (s : State) (core port : Nat) : Option Ready × State :=
  let rs := readyCrews s core port
  match rs.find? fun r => r.inChain with
  | some r => (some r, s)
  | none =>
    if rs.isEmpty then (none, s)
    else
      let ok (k : Nat) : Bool := rs.any fun r => r.cls == k
      let r := ((s.core core).ports.getD port Port.reset).choose (portWeight s rs) ok
      (chooseCrew (rs.filter fun x => x.cls == r.1), modPort s core port fun _ => r.2)

/-- One issue opportunity (04 R74): ages, but those of lanes that a handler holds (18 R279), and last issue. -/
def Crew.opportunity (c : Crew) (lanes : Mask) (now : Nat) : Crew :=
  { c with
    pcs := c.pcs.mapIdx fun i e =>
      if lanes.getLsbD i then { e with age := 0 } else if !c.active.getLsbD i then e else if e.st == .ready then { e with age := min 511 (e.age + 1) } else { e with age := 0 }
    lastIssue := now }

/-- What the port's choice changes before the word is fetched. -/
def beginIssue (s : State) (core port : Nat) (r : Ready) (lanes : Mask) : State :=
  let now := s.cycle.toNat
  let clear (g : Gang) : Gang :=
    if g.core == core && (g.crews.any fun c => c.yielded && c.slot % 4 == port) then
      { g with crews := g.crews.map fun c => if c.slot % 4 == port then { c with yielded := false } else c }
    else g
  let s : State := { s with gangs := s.gangs.map clear }
  let s := modPort s core port fun p => { p with issued := now + 1 }
  s.modCrew r.gang r.crew fun c => c.opportunity lanes (issueTime s)

/-- A port issues at most once in a cycle (04 R72): this one has. -/
def portSpent (s : State) (core port : Nat) : Bool := ((s.core core).ports.getD port Port.reset).issued == s.cycle.toNat + 1

/-- The whole choice: which group issues, or nothing. -/
def chooseIssue (s : State) (core port : Nat) : Option Cur × State :=
  match choosePort (waitShort s core port) core port with
  | (none, s) => (none, s)
  | (some r, s) =>
    match s.gang? r.gang, s.crew? r.gang r.crew with
    | some g, some c =>
      match chooseGroup s g c with
      | some (lanes, pc) => (some (.crew r.gang r.crew lanes pc), beginIssue s core port r lanes)
      | none => (none, s)
    | _, _ => (none, s)

/-- The cause of a decoding fate (03 R61). -/
def DecodeErr.cause : DecodeErr → Nat
  | .zeroWord => Cause.zeroWord
  | .onesWord => Cause.onesWord
  | .undefMajor => Cause.undefMajor
  | .undefFunction => Cause.undefFunction
  | .reservedNonzero => Cause.reservedNonzero

/-- Mark the launches whose image a step changed while they are admitted (01 R10). -/
def markChanged (s t : State) : State :=
  if t.mem = s.mem then t
  else
    let hit (l : Launch) : Bool := !l.changed && l.pieces.any fun r => s.mem.bits r.1 r.2 != t.mem.bits r.1 r.2
    if t.launches.any hit then { t with launches := t.launches.map fun l => if hit l then { l with changed := true } else l } else t

/-! ## Lode cores (04 R81) -/

/-- The lode thread of a gang as a requester of the link unit: it stands in the place of a crew's index. -/
def lodeCrew : Nat := 32

/-- The lode program of a graph's node as one; the graph stands in the place of the gang, so that a request stays that program's
wherever and whenever it runs (18 R287). -/
def nodeCrew (node : Nat) : Nat := 2000 + node

/-- Gang and place of a lode context as a requester. -/
def lodeRequester (s : State) : Cur → Nat × Nat
  | .lode g => (g, lodeCrew)
  | .lodeNode cluster ctx =>
    (match s.lodeNodes.find? fun n => n.cluster == cluster && n.ctx == ctx with
    | some n => (n.graph, nodeCrew n.node)
    | none => (0, nodeCrew 0))
  | .crew g c _ _ => (g, c)

/-- A running context is ready unless it waits for an answer. -/
def lodeReady (s : State) (c : Cur) (st : LodeState) : Bool :=
  st == .running && !(s.link.reqs.any fun r => !r.posted && r.answer.isNone && (r.gang, r.crew) == lodeRequester s c)

/-- The contexts of a cluster with their numbers: gangs' lode threads by rank, then lode programs. -/
def lodeContexts (s : State) (cluster : Nat) : List (Nat × Cur × LodeState) :=
  ((s.gangs.filter fun g => g.core / 4 == cluster).zipIdx.map fun p => (p.2, Cur.lode p.1.id, p.1.lode.st)) ++
    (s.lodeNodes.filter fun n => n.cluster == cluster).map fun n => (n.ctx, Cur.lodeNode cluster n.ctx, n.lode.st)

/-- A lode core issues at most once in a cycle (04 R81): this one has. -/
def lodeSpent (s : State) (cluster : Nat) : Bool := (s.lodeRot.getD cluster (131, 0)).2 == s.cycle.toNat + 1

/-- The context whose turn it is, and the rotation advanced. -/
def chooseLode (s : State) (cluster : Nat) : Option Cur × State :=
  let rs := (lodeContexts s cluster).filter fun r => lodeReady s r.2.1 r.2.2
  let last := (s.lodeRot.getD cluster (131, 0)).1
  match minBy (fun r => (r.1 + 131 - last) % 132) rs with
  | some r => (some r.2.1, { s with lodeRot := s.lodeRot.set cluster (r.1, s.cycle.toNat + 1) })
  | none => (none, s)

/-! ## The default order (log 1) -/

/-- A crew gives its port something to do: a group to issue, or one that enters WAIT for the chute. -/
def crewDue (s : State) (g : Gang) (c : Crew) : Bool :=
  let r := groupChoice s g c
  r.2 != 0 || (r.1.isSome && ((classWeight s g).2 != 0 || c.chain.isSome) && (c.chain.isSome || !chainOpen s g.core (c.slot % 4)))

/-- The lowest port with a ready crew that has not issued in this cycle. -/
def readyPort (s : State) : Option (Nat × Nat) :=
  let cand := s.gangs.flatMap fun g => (g.crews.filter fun c => crewDue s g c && !portSpent s g.core (c.slot % 4)).map fun c => g.core * 4 + c.slot % 4
  (minBy id cand).map fun n => (n / 4, n % 4)

/-- The lowest cluster with a running lode context that has not issued in this cycle. -/
def readyLode (s : State) : Option Nat :=
  let cl := (s.gangs.filter fun g => lodeReady s (.lode g.id) g.lode.st).map (fun g => g.core / 4) ++
    (s.lodeNodes.filter fun n => lodeReady s (.lodeNode n.cluster n.ctx) n.lode.st).map fun n => n.cluster
  minBy id (cl.filter fun k => !lodeSpent s k)

/-- Some port or lode core has an issue to make in this cycle. -/
def issueDue (s : State) : Bool := (readyPort s).isSome || (readyLode s).isSome

end Sys2Proof.Machine
end

