-- ==== Sys2Proof/Machine/Cross.lean ====
section
/-! DEFINITION. Machine/Cross.lean: cross-lane instructions (05 R101 to R105) and the mask instructions (05 R109). -/

namespace Sys2Proof.Machine

/-! ## Arrival and completion (05 R101) -/

/-- The issuing group as an arrival. -/
def Ctx.arrival (x : Ctx) (i : Instr) (members : Mask) : Arrival := ⟨x.pc, i, members, x.lanes, x.c.wbase, x.c.lhist⟩

/-- Completion at an issue: results for every arrived lane; the lanes of groups that arrived before go on here. -/
def Ctx.completeCross (x : Ctx) (i : Instr) (members : Mask) (nw : Bool) (r : CrossRes) : Res :=
  if x.others.isEmpty then x.put r.d nw r.val (.uni 0) r.fmt
  else
    let before := arrivedLanes x.others
    .next (x.upd fun c =>
      (((c.writeArrived r (x.others ++ [x.arrival i members])).dropArrivals x.others).joinTaken before x.lanes).release before nextPc) none

/-- The group arrives and waits for the members that are missing; what it pops it has taken. -/
def Ctx.arrive (x : Ctx) (i : Instr) (members : Mask) : Res :=
  .wait (x.upd fun c =>
    { (if x.others.isEmpty then c.takePops (popsOf i) x.lanes else c) with arrivals := c.arrivals ++ [x.arrival i members] }) .members false

/-- A cross-lane instruction (05 R101): the group's own sources are checked at its issue, and at the completion every
member's operands are read. -/
def Ctx.cross (x : Ctx) (i : Instr) (nw : Bool) (m : MReg) : Res :=
  let members := x.c.mask m.toNat
  match x.c.crossResult i members x.arrived [x.arrival i members] with
  | .error e => x.fail e
  | .ok _ =>
    if !subMask x.lanes members then x.fail Cause.memberSelf
    else if x.others.any fun a => a.members != members then x.fail Cause.memberMismatch
    else if subMask (x.c.needed members) x.arrived then
      match x.c.crossResult i members x.arrived (x.others ++ [x.arrival i members]) with
      | .error e => x.fail e
      | .ok r => x.completeCross i members nw r
    else x.arrive i members

def execShfli (d a b : Reg) (nw : Bool) (m : MReg) (s : State) : Host.Outcome State Fault Refusal :=
  issue (.shfli d a b nw m) s fun x => x.cross (.shfli d a b nw m) nw m
def execShflu (d a b : Reg) (nw : Bool) (m : MReg) (s : State) : Host.Outcome State Fault Refusal :=
  issue (.shflu d a b nw m) s fun x => x.cross (.shflu d a b nw m) nw m
def execShfld (d a b : Reg) (nw : Bool) (m : MReg) (s : State) : Host.Outcome State Fault Refusal :=
  issue (.shfld d a b nw m) s fun x => x.cross (.shfld d a b nw m) nw m
def execShflx (d a b : Reg) (nw : Bool) (m : MReg) (s : State) : Host.Outcome State Fault Refusal :=
  issue (.shflx d a b nw m) s fun x => x.cross (.shflx d a b nw m) nw m
def execVote (d a : Reg) (kind : VoteKind) (nw : Bool) (m : MReg) (s : State) : Host.Outcome State Fault Refusal :=
  issue (.vote d a kind nw m) s fun x => x.cross (.vote d a kind nw m) nw m
def execReduce (d a : Reg) (kind : RedKind) (nw : Bool) (m : MReg) (s : State) : Host.Outcome State Fault Refusal :=
  issue (.reduce d a kind nw m) s fun x => x.cross (.reduce d a kind nw m) nw m
def execRedminidx (d a : Reg) (nw : Bool) (m : MReg) (s : State) : Host.Outcome State Fault Refusal :=
  issue (.redminidx d a nw m) s fun x => x.cross (.redminidx d a nw m) nw m
def execScan (d a : Reg) (kind : RedKind) (nw : Bool) (m : MReg) (s : State) : Host.Outcome State Fault Refusal :=
  issue (.scan d a kind nw m) s fun x => x.cross (.scan d a kind nw m) nw m

/-! ## Masks (05 R109) -/

/-- Bits of the group's lanes from a function of the mask registers. -/
def Ctx.maskOp (x : Ctx) (d : MReg) (v : Mask) : Res := x.setM d v

def execMand (d a b : MReg) (s : State) : Host.Outcome State Fault Refusal :=
  issue (.mand d a b) s fun x => x.maskOp d (x.c.mask a.toNat &&& x.c.mask b.toNat)
def execMor (d a b : MReg) (s : State) : Host.Outcome State Fault Refusal :=
  issue (.mor d a b) s fun x => x.maskOp d (x.c.mask a.toNat ||| x.c.mask b.toNat)
def execMxor (d a b : MReg) (s : State) : Host.Outcome State Fault Refusal :=
  issue (.mxor d a b) s fun x => x.maskOp d (x.c.mask a.toNat ^^^ x.c.mask b.toNat)
def execMnot (d a : MReg) (s : State) : Host.Outcome State Fault Refusal :=
  issue (.mnot d a) s fun x => x.maskOp d (~~~(x.c.mask a.toNat))

def execMset (d : MReg) (a : Reg) (s : State) : Host.Outcome State Fault Refusal :=
  issue (.mset d a) s fun x =>
    x.with1 a fun p => if p.isX then x.setM d (maskOf fun i => p.lo.lane i != 0) else x.fail Cause.tagMismatch

def execMtov (d : Reg) (a : MReg) (s : State) : Host.Outcome State Fault Refusal :=
  issue (.mtov d a) s fun x => x.out d (.uni (x.c.mask a.toNat)) (.uni 0) .n32

end Sys2Proof.Machine
end

