-- ==== Sys2Proof/Machine/Control.lean ====
section
/-! DEFINITION. Machine/Control.lean: branches, joins, exit and regrouping (05 R106 to R108; 04 R76 to R80, R86), traps by
instruction and the return from a handler (05 R110, 03 R63, 18 R280), and the system registers (05 R111, 04 R87). -/

namespace Sys2Proof.Machine

/-! ## Branches (05 R106) -/

/-- The target of BRA, CALL and JSET. -/
def branchTarget (pc : Dword) (off : BitVec 21) : Dword := ptrAddInt pc (32 * off.toInt)

/-- The whole group goes to an address. -/
def Ctx.goTo (x : Ctx) (s : State) (tgt : Dword) : Res := .moved (s.modCrew x.gid x.ci fun c => c.release x.lanes fun _ => tgt)

def execBra (p : MReg) (neg : Bool) (off : BitVec 21) (s : State) : Host.Outcome State Fault Refusal :=
  issue (.bra p neg off) s fun x =>
    let taken := x.lanes &&& (if neg then ~~~(x.c.mask p.toNat) else x.c.mask p.toNat)
    .moved (x.upd fun c => (c.release taken fun _ => branchTarget x.pc off).release (x.lanes &&& ~~~taken) nextPc)

def execCall (off : BitVec 21) (s : State) : Host.Outcome State Fault Refusal :=
  issue (.call off) s fun x =>
    if !subMask x.c.active x.lanes then x.fail Cause.callDiverged
    else x.goTo (x.upd fun c => c.setK 15 (nextPc x.pc)) (branchTarget x.pc off)

/-- BRX and RET check their target at the branch. DEDUCED (log 6): EVAL is 0, since a target is no pointer of a lane. -/
def Ctx.jump (x : Ctx) (tgt : Dword) : Res :=
  if !isDev tgt then x.fail Cause.fetchSpace
  else if tgt.toNat % 32 ≠ 0 then x.fail Cause.misaligned
  else x.goTo x.st tgt

def execBrx (k : KReg) (s : State) : Host.Outcome State Fault Refusal := issue (.brx k) s fun x => x.jump (x.k k)
def execRet (s : State) : Host.Outcome State Fault Refusal := issue .ret s fun x => x.jump (x.k 15)
def execNop (s : State) : Host.Outcome State Fault Refusal := issue .nop s fun x => .next x.st none

def execYield (s : State) : Host.Outcome State Fault Refusal :=
  issue .yield s fun x => .next (x.upd fun c => { c with lastIssue := issueTime x.st, yielded := true }) none

/-! ## Joins and exit -/

def execJset (j : MReg) (off : BitVec 21) (s : State) : Host.Outcome State Fault Refusal :=
  issue (.jset j off) s fun x =>
    if (x.c.j.getD j.toNat JReg.reset).st == .await then x.fail Cause.joinBusy
    else .next (x.upd fun c => { c with j := c.j.set j.toNat ⟨x.lanes, 0, branchTarget x.pc off, .set⟩ }) none

/-- The group arrives at its rejoin register and is held (04 R78). -/
def Crew.holdAt (c : Crew) (j : Nat) (lanes : Mask) : Crew :=
  let r := c.j.getD j JReg.reset
  { c.modLanes lanes (fun e => { e with st := .join, age := 0 }) with
    j := c.j.set j { r with arrived := r.arrived ||| lanes, st := .await } }

def execJwait (j : MReg) (s : State) : Host.Outcome State Fault Refusal :=
  issue (.jwait j) s fun x =>
    let r := x.c.j.getD j.toNat JReg.reset
    if r.st == .idle then x.fail Cause.joinIdle
    else if !subMask x.lanes r.mask then x.fail Cause.joinForeign
    else .moved (settle (x.upd fun c => c.holdAt j.toNat x.lanes) x.gid)

/-- Lanes exit: their entries become EXITED and their mask bits are cleared (04 R68, R80). -/
def Crew.exitLanes (c : Crew) (lanes : Mask) : Crew :=
  { c.modLanes lanes (fun e => { e with st := .exited, age := 0 }) with m := c.m.map fun v => v &&& ~~~lanes }

/-- EXIT, and TEND in a task (20 R319). -/
def Ctx.exit (x : Ctx) : Res := .moved (settle (x.upd fun c => c.exitLanes x.lanes) x.gid)

def execExit (s : State) : Host.Outcome State Fault Refusal := issue .exit s fun x => x.exit

def execRepack (d a : Reg) (s : State) : Host.Outcome State Fault Refusal :=
  issue (.repack d a) s fun x =>
    x.with1 a fun p =>
      if !p.isX then x.fail Cause.tagMismatch
      else if x.c.j.any fun r => r.st != .idle then x.fail Cause.joinBusy
      else
        .wait (x.upd fun c => { c with
          arrivals := c.arrivals ++ [⟨x.pc, .repack d a, 0, x.lanes, c.wbase, c.lhist⟩]
          fifo := takeFirst x.lanes (popsOf (.repack d a)) c.fifo, repackLanes := c.repackLanes ||| x.lanes }) .repack false

/-! ## Traps by instruction and the return from a handler -/

def execTrap (code : BitVec 4) (s : State) : Host.Outcome State Fault Refusal :=
  issue (.trap code) s fun _ => .trap (Cause.trapBase + code.toNat) 0 false

def execBkpt (n : BitVec 5) (s : State) : Host.Outcome State Fault Refusal :=
  issue (.bkpt n) s fun _ => .trap Cause.breakpoint (n.zeroExtend 64) false

def execIllegal (code : BitVec 25) (s : State) : Host.Outcome State Fault Refusal :=
  issue (.illegal code) s fun x => .trap Cause.illegal (decodeEval (0x7F#7 ++ code) x.c) false

def execEret (s : State) : Host.Outcome State Fault Refusal :=
  issue .eret s fun x =>
    if !x.c.inHandler then x.fail Cause.eretOutside
    else if !isDev x.c.trap.epc then x.fail Cause.fetchSpace
    else if x.c.trap.epc.toNat % 32 ≠ 0 then x.fail Cause.misaligned
    else .wait (x.upd fun c => { c with eretLanes := c.eretLanes ||| x.lanes }) .members false

/-! ## System registers -/

/-- A system register: its value, and how it is accessed. -/
inductive SysAccess where | ro | rw | wo
  deriving DecidableEq, Repr

/-- The task of a crew. -/
def Ctx.task (x : Ctx) : Option Task := x.c.task.bind fun n => taskNumbered x.st x.g.launch n

/-- The launch of a crew. -/
def Ctx.launch (x : Ctx) : Option Launch := x.st.launch? x.g.launch

/-- LODEST.STATE as a number (04 R87). -/
def LodeState.code : LodeState → Nat | .none => 0 | .running => 1 | .exited => 2 | .faulted => 3

/-- Every system register by number (05 R111; 18 R277; 04 R87; 20 R316); none where SRR and SRW trap SYSREG_UNDEF. -/
def sysReg (x : Ctx) (r : Nat) : Option (SysAccess × Dword) :=
  let c := x.c
  match r with
  | 0x000 => some (.ro, c.trap.cause.zeroExtend 64)
  | 0x001 => some (.rw, c.trap.epc)
  | 0x002 => some (.ro, c.trap.eval)
  | 0x003 => some (.ro, c.trap.tvec)
  | 0x004 => some (.ro, c.trap.tstat.zeroExtend 64)
  | 0x005 => some (.ro, c.trap.elanes.zeroExtend 64)
  | 0x006 => some (.rw, c.trap.escratch)
  | 0x007 => some (.ro, c.trap.elhist)
  | 0x020 => some (.ro, c.wbase.zeroExtend 64)
  | 0x021 => some (.rw, c.lhist)
  | 0x022 => some (.ro, c.live.zeroExtend 64)
  | 0x023 => some (.ro, x.lanes.zeroExtend 64)
  | 0x024 => some (.ro, BitVec.ofNat 64 c.slot)
  | 0x025 => some (.wo, 0)
  | 0x026 => some (.ro, BitVec.ofNat 64 (LodeState.code x.g.lode.st))
  | 0x027 => some (.ro, BitVec.ofNat 64 c.fifo.length)
  | 0x040 => some (.ro, match x.launch with | some l => l.handle.zeroExtend 64 | none => 0)
  | 0x041 => some (.ro, match x.launch.bind fun l => x.st.slice? l.slice with | some l => l.handle.zeroExtend 64 | none => 0)
  | 0x042 => some (.ro, BitVec.ofNat 64 x.fn)
  | 0x043 => some (.ro, BitVec.ofNat 64 x.core)
  | 0x044 => some (.ro, BitVec.ofNat 64 x.part)
  | 0x045 => some (.ro, x.st.cycle)
  | 0x050 => some (.ro, (weirOf x.st x.g.launch).1)
  | 0x051 => some (.ro, (weirOf x.st x.g.launch).2)
  | 0x052 => some (.ro, match x.task with | some t => t.num.zeroExtend 64 | none => 0)
  | 0x053 => some (.ro, match x.task with | some t => BitVec.ofNat 64 (t.tag.headD (0, 0)).1 | none => 0)
  | 0x054 => some (.ro, match x.task with | some t => t.arg | none => 0)
  | 0x055 => some (.ro, match x.task with | some t => BitVec.ofNat 64 t.runs | none => 0)
  | 0x056 => some (.ro, BitVec.ofNat 64 (unitOf x.st x.g.launch).commits)
  | _ => none

/-- The latch history entries hold codes that a register can hold (03 R59). -/
def histOk (v : Dword) : Bool :=
  (List.range 8).all fun i =>
    let code := bitsAt v.toNat (8 * i) 7
    code < 112 || code == 120 || code == 127

/-- Start of the gang's lode thread (04 R82). -/
def Ctx.startLode (x : Ctx) (pc : Dword) : Res :=
  if !isDev pc || pc.toNat % 16 ≠ 0 then x.fail Cause.misaligned
  else if x.g.lode.st == .running then x.fail Cause.lodeBusy
  else
    let args := match x.launch with | some l => l.args | none => 0
    let start (n : Nat) : Dword :=
      match n with
      | 10 => args
      | 11 => BitVec.ofNat 64 x.g.index
      | 12 => BitVec.ofNat 64 x.g.crews.length
      | 13 => BitVec.ofNat 64 x.c.index
      | _ => 0
    .next (x.st.modGang x.gid fun g => { g with lode := ⟨.running, pc, (List.range 31).map fun n => start (n + 1), none⟩ }) none

/-- A write under the access code (00 R3). -/
def Ctx.sysWrite (x : Ctx) (r : Nat) (v : Dword) : Res :=
  match sysReg x r with
  | none => x.fail Cause.sysregUndef
  | some (.ro, old) => if old = v then .next x.st none else x.fail Cause.reservedNonzero
  | some (_, _) =>
    match r with
    | 0x001 => .next (x.upd fun c => { c with trap := { c.trap with epc := v } }) none
    | 0x006 => .next (x.upd fun c => { c with trap := { c.trap with escratch := v } }) none
    | 0x025 => x.startLode v
    | 0x021 => if histOk v then .next (x.upd fun c => { c with lhist := v }) none else x.fail Cause.reservedNonzero
    | _ => .next x.st none

def execSrr (d : KReg) (r : BitVec 10) (s : State) : Host.Outcome State Fault Refusal :=
  issue (.srr d r) s fun x =>
    match sysReg x r.toNat with
    | some (_, v) => x.setK d v
    | none => x.fail Cause.sysregUndef

def execSrw (k : KReg) (r : BitVec 10) (s : State) : Host.Outcome State Fault Refusal :=
  issue (.srw k r) s fun x => x.sysWrite r.toNat (x.k k)

/-- The write of LODEPC (04 R82). -/
def execLodepc (k : KReg) (s : State) : Host.Outcome State Fault Refusal := issue (.lodepc k) s fun x => x.startLode (x.k k)

def execCycle (d : KReg) (s : State) : Host.Outcome State Fault Refusal :=
  issue (.cycle d) s fun x => x.setK d x.st.cycle

end Sys2Proof.Machine
end

