-- ==== Sys2Proof/Machine/PondOps.lean ====
section
/-! DEFINITION. Machine/PondOps.lean: the pond instructions and what their inlet does with them (09 R182 to R196). -/

namespace Sys2Proof.Machine

/-! ## Records in registers -/

/-- Registers that a record of width `w` occupies. -/
def recRegs (w : Nat) : Nat := (w + 31) / 32

/-- The first register of a record field, latches resolved; none for a code that is no register. -/
def Crew.recBase (c : Crew) (r : Reg) : Option Nat :=
  let n := r.toNat
  if n < 112 then some n
  else if n < 120 then
    let e := (histEntry c.lhist (n - 111)).toNat % 128
    if e < 112 then some e else none
  else none

/-- The cause of a record field that does not hold a record of width `w`. -/
def Crew.recCause (c : Crew) (r : Reg) (w : Nat) : Option Nat :=
  if r = 120 then none
  else
    match c.recBase r with
    | some n => if 111 < n + recRegs w - 1 then some Cause.badRegcode else if c.outside (n + recRegs w - 1) then some Cause.regRange else none
    | none => if 1 < recRegs w then some Cause.badRegcode else none

/-- The record of a lane: containers taken as they stand (09 R190); `o` is the field's own operand. -/
def Crew.recLane (c : Crew) (r : Reg) (o : Opnd) (w i : Nat) : Nat :=
  if r = 120 then 0
  else
    match c.recBase r with
    | some n => ((List.range (recRegs w)).foldl (fun v k => v + ((c.vreg (n + k)).val.lane i).toNat * 2 ^ (32 * k)) 0) % 2 ^ w
    | none => (o.lo.lane i).toNat % 2 ^ w

/-! ## Sending an operation to an inlet -/

/-- The group's operation joins the inlet's queue and the group waits for it (09 R182). -/
def Ctx.toInlet (x : Ctx) (d : Pond) (kind : PondOpKind) (pops : Nat) : Res :=
  let op : PondOp := ⟨.group x.gid x.ci x.lanes x.pc, kind, pops, x.c.wbase⟩
  .wait (x.st.modPond x.part d.slot fun d => { d with ops := d.ops ++ [op] }) .engine true

/-- The pond of a handle, or POND_HANDLE. -/
def Ctx.withPond (x : Ctx) (h : Dword) (f : Pond → Res) : Res :=
  match pondOf x.st x.part x.fn h with
  | some d => f d
  | none => x.fail Cause.pondHandle

/-- The pond and cursor of a descriptor. -/
def Ctx.withCursor (x : Ctx) (desc : Dword) (f : Pond → Cursor → Res) : Res :=
  match cursorOf x.st x.part x.fn desc with
  | .ok (d, c) => f d c
  | .error e => x.fail e

def execPondmk (h region cap par : KReg) (s : State) : Host.Outcome State Fault Refusal :=
  issue (.pondmk h region cap par) s fun x =>
    match makePond x.st x.ag (x.k region) (x.k cap) (x.k par) with
    | (.error e, _) => x.fail e
    | (.ok v, s) => .next (s.modCrew x.gid x.ci fun c => c.setK h (BitVec.ofNat 64 v)) none

def execPondrm (h : KReg) (s : State) : Host.Outcome State Fault Refusal :=
  issue (.pondrm h) s fun x => x.withPond (x.k h) fun d => x.toInlet d .remove 0

/-- A PUT of a speculative task is held until its task is the frontier task (20 R310). -/
def Ctx.holdPut (x : Ctx) (launch : Nat) (t : Task) (h : Dword) (recs : List (Nat × Nat)) : Res :=
  .next (modTask x.st launch t.num fun t => { t with puts := t.puts ++ [⟨h, recs, x.core, x.c.slot, x.pc⟩] }) none

def execPut (d : Reg) (k : KReg) (o key : Reg) (s : State) : Host.Outcome State Fault Refusal :=
  issue (.put d k o key) s fun x =>
    x.withPond (x.k k) fun p =>
      x.with2 o key fun r y =>
        if !y.isX then x.fail Cause.tagMismatch
        else
          match x.c.recCause o p.w with
          | some e => x.fail e
          | none =>
            let recs := (lanesOf x.lanes).map fun i => ((y.lo.lane i).toNat % 256, x.c.recLane o r p.w i)
            if p.broken then x.fail Cause.pondBroken
            else
              match x.mode with
              | .spec launch t => x.holdPut launch t (x.k k) recs
              | _ => x.toInlet p (.put d recs) (popsOf (.put d k o key))

def execPcount (d h : KReg) (n : BitVec 11) (s : State) : Host.Outcome State Fault Refusal :=
  issue (.pcount d h n) s fun x =>
    let v := x.k h
    if v.getLsbD 63 then x.withCursor v fun p _ => x.toInlet p (.pcount d n.toNat v) 0
    else x.withPond v fun p => x.toInlet p (.pcount d n.toNat v) 0

/-- The range of a DRAIN: at issue the most that it may write, CAP records, and then the TOTAL that it finds (12 R198; log 82). -/
def drainRange (s : State) (ag : Agent) (dst : Dword) (n : Nat) : List LockRange := lockRange s ag dst (max n 1) true

def execDrain (h dst count : KReg) (s : State) : Host.Outcome State Fault Refusal :=
  issue (.drain h dst count) s fun x =>
    x.withPond (x.k h) fun p =>
      let tgt := x.k dst
      match spaceCause tgt with
      | some c => .trap c tgt false
      | none =>
        if spaceOf tgt == 4 || spaceOf tgt == 5 || spaceOf tgt == 6 then x.fail Cause.pondParam
        else if !slotFree x.st x.core then .wait x.st .engine false
        else
          let r := addCmd x.st x.core x.c.slot x.pc (.crews x.gid [x.ci]) (.drain x.part p.slot) (drainRange x.st x.ag tgt (p.cap * p.w))
          (x.withSt r.2).toInlet p (.drain tgt count r.1 0 0 0) 0

def execBasin (d h : KReg) (n : BitVec 11) (s : State) : Host.Outcome State Fault Refusal :=
  issue (.basin d h n) s fun x => x.withPond (x.k h) fun p => x.toInlet p (.basin d n.toNat) 0

def execBnext (d : Reg) (k : KReg) (o : Reg) (m : MReg) (s : State) : Host.Outcome State Fault Refusal :=
  issue (.bnext d k o m) s fun x =>
    x.withCursor (x.k k) fun p _ =>
      match x.c.recCause d p.w with
      | some e => x.fail e
      | none => x.toInlet p (.bnext d o m (x.k k)) 0

def execBwrite (d : Reg) (k : KReg) (o : Reg) (s : State) : Host.Outcome State Fault Refusal :=
  issue (.bwrite d k o) s fun x =>
    x.withCursor (x.k k) fun p _ =>
      x.with2 d o fun r y =>
        if !y.isX then x.fail Cause.tagMismatch
        else
          match x.c.recCause d p.w with
          | some e => x.fail e
          | none =>
            x.toInlet p (.bwrite (x.k k) ((lanesOf x.lanes).map fun i => ((y.lo.lane i).toNat, x.c.recLane d r p.w i)))
              (popsOf (.bwrite d k o))

/-! ## What a waiting group gets -/

/-- The ordered launch of a gang goes on after an operation of one of its crews. -/
def afterOp (s : State) (gid : Nat) : State := afterIssue (settle s gid) gid

/-- The group's instruction completes: its results (given the group's live lanes), its pops, on to the next word. -/
def opDone (s : State) (op : PondOp) (f : Mask → GroupRes → GroupRes) : State :=
  match op.src with
  | .group gid ci lanes pc =>
    let live := match s.crew? gid ci with | some c => c.live | none => 0
    afterOp (giveRes s gid ci lanes pc (f (lanes &&& live) ⟨op.wbase, [], [], [], none⟩)) gid
  | .host _ => s

/-- A result in a k register. -/
def GroupRes.setK (r : GroupRes) (k : KReg) (v : Dword) : GroupRes := { r with ks := r.ks ++ [(k, v)] }
/-- A 32-bit result in the lanes `m` of a register. -/
def GroupRes.write (r : GroupRes) (d : Reg) (m : Mask) (v : VVal) : GroupRes := { r with ws := r.ws ++ [(d, m, v)] }

/-! ## Ponds from the host (02 R33) -/

/-- OP = 1: make a pond for the function. DESIGN CHOICE (log 88): a REGION in LOC space, which names no core's vault
here, is refused as PONDMK refuses a region out of place. -/
def hostMake (s : State) (fn : Nat) : State :=
  let f := s.fn fn
  match partOfFn s fn with
  | none => s.modFn fn fun f => { f with pondResult := Cause.pondParam }
  | some p =>
    match makePond s ⟨fn, p, none, 0, 0, false, false⟩ f.pondRegion f.pondCap f.pondParams with
    | (.ok h, s) => s.modFn fn fun f => { f with pondHandle := BitVec.ofNat 32 h, pondResult := 0 }
    | (.error c, s) => s.modFn fn fun f => { f with pondResult := c }

/-- OP = 2: the removal of the pond that HANDLE names takes its place in inlet order. -/
def hostRemove (s : State) (fn : Nat) : State :=
  match (partOfFn s fn).bind fun p => pondOf s p fn ((s.fn fn).pondHandle.zeroExtend 64) with
  | none => s.modFn fn fun f => { f with pondResult := Cause.pondHandle }
  | some d => s.modPond d.part d.slot fun d => { d with ops := d.ops ++ [⟨.host fn, .remove, 0, 0⟩] }

/-- BUSY: a removal of the function waits at an inlet. -/
def pondBusy (s : State) (fn : Nat) : Bool :=
  s.ponds.any fun d => d.ops.any fun o => o.kind == .remove && (match o.src with | .host f => f == fn | .group _ _ _ _ => false)

/-- Waiting operations run one after another, until one is in progress. -/
def runPending : Nat → State → Nat → State
  | 0, s, _ => s
  | fuel + 1, s, fn =>
    if pondBusy s fn then s
    else
      match (s.fn fn).pondPending with
      | [] => s
      | op :: rest =>
        let s := s.modFn fn fun f => { f with pondPending := rest }
        runPending fuel (if op = 1 then hostMake s fn else if op = 2 then hostRemove s fn else s) fn

/-- An OP is written: it runs at once, or after the current one. -/
def pondOp (s : State) (fn op : Nat) : State :=
  let s := s.modFn fn fun f => { f with pondPending := f.pondPending ++ [op] }
  runPending ((s.fn fn).pondPending.length) s fn

def execPondMake (fn : Nat) (s : State) : Host.Outcome State Fault Refusal := hostAct s (pondOp s fn 1)
def execPondRemove (fn : Nat) (s : State) : Host.Outcome State Fault Refusal := hostAct s (pondOp s fn 2)

/-- A removal from the host is over: its RESULT, and what waited for it. -/
def hostOpDone (s : State) (fn result : Nat) : State :=
  let s := s.modFn fn fun f => { f with pondResult := result }
  runPending ((s.fn fn).pondPending.length) s fn

/-- The group's instruction traps (09 R190 to R195). -/
def opTrap (s : State) (op : PondOp) (cause : Nat) (eval : Dword) (engine : Bool) : State :=
  match op.src with
  | .group gid ci lanes pc => afterOp (eventTrap s gid ci lanes pc cause eval engine) gid
  | .host fn => hostOpDone s fn Cause.pondHandle

/-- An observer's acquire at system scope (09 R183): its core keeps no stale line. -/
def opAcquire (s : State) (op : PondOp) : State :=
  match op.src with
  | .group gid _ _ _ => (match s.gang? gid with | some g => flushCache s g.core | none => s)
  | .host _ => s

/-- The task for which an operation writes (20 R309). -/
def opTask (s : State) (op : PondOp) : Option (Nat × Task) := match op.src with | .group gid ci _ _ => taskOf s gid ci | .host _ => none

/-- Core, slot and PC of the group, for a fault record. -/
def opOrigin (s : State) (op : PondOp) : Origin :=
  match op.src with
  | .group gid ci _ pc =>
    match s.gang? gid, s.crew? gid ci with
    | some g, some c => some (g.core, c.slot, pc)
    | _, _ => none
  | .host _ => none

/-- A record of a cursor's basin is unreachable: the operation pauses until replay, or traps. -/
def opFault (s : State) (d : Pond) (op : PondOp) (addr : Dword) (cause kind : Nat) : State :=
  if replayable cause then
    let s := s.modPond d.part d.slot fun d => { d with opPaused := true }
    let r : Nat × BitVec 256 := match opOrigin s op with
      | some (core, slot, pc) => (core % 256, faultRecord addr cause kind true false core slot 0 pc)
      | none => (0, faultRecord addr cause kind true true 0 0 0 0)
    putRecord s d.fn r.1 r.2 1
  else opTrap (s.modPond d.part d.slot fun d => { d with ops := d.ops.drop 1 }) op cause addr false

/-! ## The inlet's operations -/

/-- A PUT at its place in inlet order (09 R190). -/
def performPut (s : State) (d : Pond) (op : PondOp) (dst : Reg) (recs : List (Nat × Nat)) : State :=
  if d.broken then opTrap s op Cause.pondBroken 0 false
  else if dst = 120 then
    if d.cap < d.total + recs.length then opTrap s op Cause.pondFull 0 false
    else opDone (placeTasked s (opTask s op) d.part d.slot recs (opOrigin s op)) op fun _ r => r
  else
    let room := d.cap - d.total
    let s' := placeTasked s (opTask s op) d.part d.slot (recs.take room) (opOrigin s op)
    opDone s' op fun lanes r =>
      let order := match op.src with | .group _ _ l _ => lanesOf l | .host _ => []
      r.write dst lanes (.ofLanes fun i => if order.findIdx (fun k => k == i) < room then 0 else 1)

/-- A put from an intake window (02 R31): placed, or dropped and counted. -/
def performWindowPut (s : State) (d : Pond) (op : PondOp) (key bits : Nat) : State :=
  if d.broken || d.cap ≤ d.total then
    match op.src with
    | .host fn => s.modFn fn fun f => { f with drops := min (f.drops + 1) 0xFFFFFFFF }
    | .group _ _ _ _ => s
  else placeRecord s d.part d.slot key bits none

/-- PCOUNT (09 R191). -/
def performPcount (s : State) (d : Pond) (op : PondOp) (k : KReg) (n : Nat) (desc : Dword) : State :=
  let answer (v : Nat) : State := opDone (opAcquire s op) op fun _ r => r.setK k (BitVec.ofNat 64 v)
  if d.broken then opTrap s op Cause.pondBroken 0 false
  else if desc.getLsbD 63 then
    match cursorOf s d.part d.fn desc with
    | .ok (_, c) => if n = 0x7FF then answer (d.counts.getD c.basin 0) else opTrap s op Cause.pondBasin 0 false
    | .error e => opTrap s op e 0 false
  else if n = 0x7FF then answer d.total
  else if n < d.basins then answer (d.counts.getD n 0)
  else opTrap s op Cause.pondBasin 0 false

/-- BASIN (09 R193). -/
def performBasin (s : State) (d : Pond) (op : PondOp) (k : KReg) (n : Nat) : State :=
  let gang := match op.src with | .group g _ _ _ => g | .host _ => 0
  if d.broken then opTrap s op Cause.pondBroken 0 false
  else if d.basins ≤ n then opTrap s op Cause.pondBasin 0 false
  else
    match d.openCursor gang n with
    | none => opTrap s op Cause.cursorLimit 0 false
    | some (d', c) => opDone (opAcquire (s.modPond d.part d.slot fun x => { d' with ops := x.ops }) op) op fun _ r => r.setK k (d'.descriptor c)

/-- The records that a BNEXT hands to the lanes, in order: their bits, or the address and cause of one out of reach. -/
def readRecords (s : State) (d : Pond) (basin : Nat) : List Nat → Except (Dword × Nat) (List Nat)
  | [] => .ok []
  | p :: ps =>
    match engineRead s d.agent (d.recAddr basin p) d.w .free with
    | .error e => .error (d.recAddr basin p, e)
    | .ok v =>
      match readRecords s d basin ps with
      | .error e => .error e
      | .ok vs => .ok (v :: vs)

/-- A record of each lane in consecutive registers. -/
def GroupRes.records (g : GroupRes) (r : Reg) (lanes : Mask) (w : Nat) (v : Nat → Nat) : GroupRes :=
  if r = 120 then g
  else
    (List.range (recRegs w)).foldl (fun g k =>
      g.write (r + BitVec.ofNat 7 k) lanes (.ofLanes fun i => BitVec.ofNat 32 (v i / 2 ^ (32 * k)))) g

/-- BNEXT (09 R194). -/
def performBnext (s : State) (d : Pond) (op : PondOp) (r o : Reg) (m : MReg) (desc : Dword) : State :=
  let drop (s : State) : State := s.modPond d.part d.slot fun d => { d with ops := d.ops.drop 1 }
  match op.src with
  | .host _ => drop s
  | .group gid ci lanes _ =>
    if d.broken then opTrap (drop s) op Cause.pondBroken 0 false
    else
      match cursorOf s d.part d.fn desc with
      | .error e => opTrap (drop s) op e 0 false
      | .ok (_, cur) =>
        let live := lanes &&& (match s.crew? gid ci with | some c => c.live | none => 0)
        let order := lanesOf live
        let n := min order.length (cur.mark - cur.next)
        match readRecords s d cur.basin ((List.range n).map fun k => cur.next + k) with
        | .error (a, e) => opFault s d op a e 0
        | .ok vs =>
          let got := maskOf fun i => order.findIdx (fun k => k == i) < n
          let idx (i : Nat) : Nat := order.findIdx fun k => k == i
          let s := s.modPond d.part d.slot fun d => { d with
            cursors := d.cursors.map fun c => if c.slot == cur.slot then { c with next := c.next + n } else c }
          opDone (opAcquire (drop s) op) op fun l g =>
            let g := if got = 0 then g else g.records r (got &&& l) d.w fun i => vs.getD (idx i) 0
            let g := if got = 0 then g else g.write o (got &&& l) (.ofLanes fun i => BitVec.ofNat 32 (cur.next + idx i))
            { g with ms := g.ms ++ [(m, lanes, got)] }

/-- BWRITE (09 R195): none when every record is written, else the record that could not be, and the machine so far. -/
def writeRecs (d : Pond) (w : Option (Nat × Task)) (basin : Nat) : List (Nat × Nat) → State → State × Option (Dword × Nat)
  | [], s => (s, none)
  | (p, v) :: rs, s =>
    match engineWrite s d.agent (d.recAddr basin p) d.w v .free with
    | .error e => (s, some (d.recAddr basin p, e))
    | .ok s => writeRecs d w basin rs (abortSpan s w d.agent (d.recAddr basin p) d.w)

def performBwrite (s : State) (d : Pond) (op : PondOp) (desc : Dword) (recs : List (Nat × Nat)) : State :=
  let drop (s : State) : State := s.modPond d.part d.slot fun d => { d with ops := d.ops.drop 1 }
  if d.broken then opTrap (drop s) op Cause.pondBroken 0 false
  else
    match cursorOf s d.part d.fn desc with
    | .error e => opTrap (drop s) op e 0 false
    | .ok (_, cur) =>
      if recs.any fun r => cur.mark ≤ r.1 then opTrap (drop s) op Cause.cursorRange 0 false
      else
        match writeRecs d (opTask s op) cur.basin recs s with
        | (s, none) => opDone (drop s) op fun _ r => r
        | (_, some (a, e)) => opFault s d op a e 1

/-- PONDRM, or a removal from the host (09 R189, 02 R33): what waits behind it finds no pond. -/
def performRemove (s : State) (d : Pond) (op : PondOp) : State :=
  let rest := (match s.pond? d.part d.slot with | some d => d.ops | none => [])
  let s := removePond (forgetIntake s d) d.part d.slot
  let s := match op.src with | .host fn => hostOpDone s fn 0 | .group _ _ _ _ => opDone s op fun _ r => r
  rest.foldl (fun s o =>
    match o.kind with
    | .windowPut _ _ => (match o.src with | .host fn => s.modFn fn fun f => { f with drops := min (f.drops + 1) 0xFFFFFFFF } | .group _ _ _ _ => s)
    | .drain _ _ cmd _ _ _ => opTrap (endCmd s cmd) o Cause.pondHandle 0 false
    | _ => opTrap s o Cause.pondHandle 0 false) s

/-! ## DRAIN (09 R192) -/

/-- The next record of a drain's order. -/
def nextRecord (counts : List Nat) : Nat → Nat → Nat → Option (Nat × Nat)
  | 0, _, _ => none
  | fuel + 1, b, p => if p < counts.getD b 0 then some (b, p) else if b + 1 < counts.length then nextRecord counts fuel (b + 1) 0 else none

/-- A DRAIN stops on a cause that cannot be replayed: the pond is as it was (09 R192). -/
def stopDrain (s : State) (d : Pond) (op : PondOp) (cmd : Nat) (addr : Dword) (cause : Nat) : State :=
  settleAllTasks <| opTrap (endCmd (s.modPond d.part d.slot fun d => { d with ops := d.ops.drop 1 }) cmd) op cause addr true

/-- Copy one record of a DRAIN. -/
def drainOne (s : State) (d : Pond) (op : PondOp) (dst : Dword) (k3 : KReg) (cmd copied b p : Nat) : State :=
  match s.cmd? cmd with
  | none => s
  | some x =>
    let ag := x.agent s
    let tgt := ptrAdd dst (copied * d.w)
    match engineRead s d.agent (d.recAddr b p) d.w .free with
    | .error e => if replayable e then pauseCmd s x (d.recAddr b p) e 0 else stopDrain s d op cmd (d.recAddr b p) e
    | .ok v =>
      match engineWrite s ag tgt d.w v .free with
      | .error e => if replayable e then pauseCmd s x tgt e 1 else stopDrain s d op cmd tgt e
      | .ok s => (abortFor s x.owner ag tgt d.w).modPond d.part d.slot fun d => { d with ops := ⟨op.src, .drain dst k3 cmd b (p + 1) (copied + 1), op.pops, op.wbase⟩ :: d.ops.drop 1 }

/-- A DRAIN at the head of its inlet: its range is registered, and its next record is copied. -/
def performDrain (s : State) (d : Pond) (op : PondOp) (dst : Dword) (k3 : KReg) (cmd b p copied : Nat) : Option State :=
  match s.cmd? cmd with
  | none => some (s.modPond d.part d.slot fun d => { d with ops := d.ops.drop 1 })
  | some x =>
    if x.paused then none
    else if d.broken then some (opTrap (endCmd (s.modPond d.part d.slot fun d => { d with ops := d.ops.drop 1 }) cmd) op Cause.pondBroken 0 true)
    else
      match nextRecord d.counts (d.basins + 1) b p with
      | none => none
      | some (b, p) =>
        let rs := drainRange s (x.agent s) dst (d.total * d.w)
        if blockedBy s x.core cmd rs then none
        else
          let s := s.modCore x.core fun r => { r with
            locks := r.locks.map fun e => if e.cmd == cmd then { e with ranges := rs, order := rs } else e }
          some (drainOne s d op dst k3 cmd copied b p)

/-- Operations that observe a count wait for the placements below it to be written (09 R183, R190), and a removal for every
earlier operation (09 R189). -/
def observes : PondOpKind → Bool
  | .put _ _ => false
  | .windowPut _ _ => false
  | _ => true

/-- The inlet performs the operation at the head of its order; none when it cannot now. -/
def performOp (s : State) (part slot : Nat) : Option State :=
  match s.pond? part slot with
  | none => none
  | some d =>
    match d.ops with
    | [] => none
    | op :: rest =>
      let popped := s.modPond part slot fun d => { d with ops := rest }
      if d.opPaused || d.away s || (observes op.kind && d.paused ≠ []) then none
      else
        match op.kind with
        | .put dst recs => some (performPut popped d op dst recs)
        | .windowPut key bits => some (performWindowPut popped d op key bits)
        | .pcount k n desc => some (performPcount popped d op k n desc)
        | .drain dst k3 cmd b p copied => performDrain s d op dst k3 cmd b p copied
        | .basin k n => some (performBasin popped d op k n)
        | .bnext r o m desc => some (performBnext s d op r o m desc)
        | .bwrite desc recs => some (performBwrite s d op desc recs)
        | .remove => some (performRemove popped d op)

/-- A DRAIN whose copy is done completes (09 R192); a task whose held puts waited for it may go on (20 R310). -/
def completeDrain (s : State) (part slot : Nat) : Option State :=
  match s.pond? part slot with
  | none => none
  | some d =>
    match d.ops with
    | [] => none
    | op :: rest =>
      match op.kind with
      | .drain _ k3 cmd b p _ =>
        if d.broken || d.paused ≠ [] || (nextRecord d.counts (d.basins + 1) b p).isSome then none
        else if (match s.cmd? cmd with | some x => x.paused || blockedBy s x.core cmd [] | none => true) then none
        else
          let n := d.total
          let s := (forgetIntake s d).modPond part slot fun d =>
            { d.closeCursors (fun _ => true) with ops := rest, counts := d.counts.map fun _ => 0, total := 0 }
          some (settleAllTasks <| opDone (opAcquire (startHoists (endCmd s cmd)) op) op fun _ r => r.setK k3 (BitVec.ofNat 64 n))
      | _ => none

/-- The step POND_OPERATION_PERFORM; nothing when the inlet cannot perform one now. -/
def execPondOperationPerform (part slot : Nat) (s : State) : Host.Outcome State Fault Refusal :=
  .next ((performOp s part slot).getD s)

/-- The step DRAIN_COMPLETE. -/
def execDrainComplete (part slot : Nat) (s : State) : Host.Outcome State Fault Refusal :=
  .next ((completeDrain s part slot).getD s)

end Sys2Proof.Machine
end

