-- ==== Sys2Proof/Machine/Sync.lean ====
section
/-! DEFINITION. Machine/Sync.lean: acquire, release and fence (15 R252 to R254), gang barriers (R255), gang-shared registers
(R256, R257) and the queue instructions (R258 to R265). -/

namespace Sys2Proof.Machine

/-! ## Scopes (14 R238) -/

def Scope.code : Scope → Nat
  | .crew => 0 | .gang => 1 | .core => 2 | .cluster => 3 | .die => 4 | .pkg => 5 | .sys => 6

/-- At gang scope and above the core's data cache is written back or invalidated (15 R253). -/
def beyondCrew (c : Scope) : Bool := Scope.code c != 0

/-! ## The bits that a launch binds to an object (01 R14) -/

/-- The device bits bound to an object in DEV and DEVS, as a core may hold them. -/
def boundBits (s : State) (core : Nat) (l : Launch) (obj : Dword) : List (Nat × Nat) :=
  (l.regions.filter fun r => r.object == obj && isDev r.base).flatMap fun r => cachedRuns s core l.fn (addrIn r.base) r.length

/-- A launch binds bits of a node's RMT to an object. -/
def boundRemote (l : Launch) (obj : Dword) (node : Nat) : Bool :=
  l.regions.any fun r => r.object == obj && spaceOf r.base == 5 && bitsAt r.base.toNat 48 12 == node

/-- Records that threads have sent to some queues and that have not been written to their slots (15 R263). -/
def recordsOut (s : State) (gid : Nat) (mine : Nat × Mask → Bool) (p : Queue → Bool) : Bool :=
  s.queues.any fun q => p q && q.transit.any fun t => match t with
    | .recs r _ => r.node.isNone && r.gang == gid && r.threads.any mine
    | .close _ => false

/-- Records of a gang on their way to queues of other packages whose node satisfies `p`, and not acknowledged (15 R253; log 39). -/
def farRecordsOut (s : State) (gid : Nat) (p : Nat → Bool) : Bool :=
  s.link.reqs.any fun r => r.posted && r.gang == gid && r.node.any p && (match r.op with | .enq _ _ _ _ => true | _ => false)

/-- Records that the group's threads have sent to some queues of this package, and are still on their way. -/
def Ctx.recordsOut (x : Ctx) (p : Queue → Bool) : Bool :=
  Machine.recordsOut x.st x.gid (fun t => t.1 == x.ci && t.2 &&& x.lanes != 0) p

/-- A release of every bit waits: records of the group's threads are still on their way. -/
def Ctx.sending (x : Ctx) : Bool := x.recordsOut (fun _ => true) || farRecordsOut x.st x.gid fun _ => true

/-- The buffer of a queue meets the bits bound to an object; RMT bits of this package may be any of it (log 39). -/
def bufferBound (s : State) (l : Launch) (ag : Agent) (obj : Dword) (q : Queue) : Bool :=
  let n := 512 * q.slots
  if boundRemote l obj s.link.node.toNat then true
  else if isDev q.buf then
    let runs := boundRuns s q.fn (n / 2 ^ 19 + 2) (addrIn q.buf) n
    (boundBits s (ag.core.getD 0) l obj).any fun r => runs.any fun b => meets r.1 r.2 b.1 b.2
  else
    (l.regions.filter fun r => r.object == obj).any fun r =>
      match lockBase s ag r.base with
      | some b => b.1 == .vlt && meets b.2 r.length (low60 q.buf) n
      | none => false

/-- The bits that an ACQ makes current: those that its own launch binds to the object (15 R253), and those that any other
launch of the function binds to it, whose REL may be the one that it is paired with (14 R241; log 100). -/
def acquiredBits (s : State) (core : Nat) (l : Launch) (obj : Dword) : List (Nat × Nat) :=
  boundBits s core l obj ++ (s.launches.filter fun o => o.fn == l.fn && o.id != l.id).flatMap fun o => boundBits s core o obj

/-- Records that the group's threads have sent, or its gang to another package, may still write bits bound to an object. -/
def Ctx.sendingTo (x : Ctx) (l : Launch) (obj : Dword) : Bool :=
  x.recordsOut (bufferBound x.st l x.ag obj) || farRecordsOut x.st x.gid (boundRemote l obj)

/-- The checks and the bits of ACQ and REL; a release waits for the threads' records on their way to bits of the object. -/
def Ctx.object (x : Ctx) (obj : KReg) (scope : Scope) (release : Bool) (bits : Launch → List (Nat × Nat))
    (f : List (Nat × Nat) → State) : Res :=
  let o := x.k obj
  match spaceCause o with
  | some c => .trap c o false
  | none =>
    if o.toNat % 64 ≠ 0 then .trap Cause.misaligned o false
    else if release && (match x.launch with | some l => x.sendingTo l o | none => false) then
      .wait x.st .queue false
    else if !beyondCrew scope then .next x.st none
    else
      match x.launch with
      | some l => .next (f (bits l)) none
      | none => .next x.st none

def execAcq (obj : KReg) (scope : Scope) (s : State) : Host.Outcome State Fault Refusal :=
  issue (.acq obj scope) s fun x => x.object obj scope false (fun l => acquiredBits x.st x.core l (x.k obj)) (acquireBits x.st x.core)

def execRel (obj : KReg) (scope : Scope) (s : State) : Host.Outcome State Fault Refusal :=
  issue (.rel obj scope) s fun x => x.object obj scope true (fun l => boundBits x.st x.core l (x.k obj)) (releaseBits x.st x.core)

def execFence (scope : Scope) (s : State) : Host.Outcome State Fault Refusal :=
  issue (.fence scope) s fun x =>
    if x.sending then .wait x.st .queue false
    else .next (if beyondCrew scope then flushCache x.st x.core else x.st) none

/-! ## Gang barriers (15 R255) -/

/-- The arrival of the group: none when a lane is PENDING already. -/
def Crew.barArrive (c : Crew) (b : Nat) (lanes : Mask) : Option Crew :=
  let p := c.barPending.getD b 0
  if p &&& lanes != 0 then none
  else some { c with barPending := c.barPending.set b (p ||| lanes), barDone := c.barDone.set b (c.barDone.getD b 0 &&& ~~~lanes) }

/-- The group waits at barrier `b`. -/
def Ctx.barWaitOn (x : Ctx) (c : Crew) (b : Nat) (full : Bool) : Res :=
  .wait (x.upd fun _ => { c with barWaits := c.barWaits ++ [⟨b, x.lanes, full⟩] }) .barrier false

def execBar (b : BitVec 3) (s : State) : Host.Outcome State Fault Refusal :=
  issue (.bar b) s fun x =>
    match x.c.barArrive b.toNat x.lanes with
    | none => x.fail Cause.barTwice
    | some c => x.barWaitOn c b.toNat true

def execBarArrive (b : BitVec 3) (s : State) : Host.Outcome State Fault Refusal :=
  issue (.barArrive b) s fun x =>
    match x.c.barArrive b.toNat x.lanes with
    | none => x.fail Cause.barTwice
    | some c => .next (settle (x.upd fun _ => c) x.gid) none

def execBarWait (b : BitVec 3) (s : State) : Host.Outcome State Fault Refusal :=
  issue (.barWait b) s fun x =>
    if !subMask x.lanes (x.c.barPending.getD b.toNat 0 ||| x.c.barDone.getD b.toNat 0) then x.fail Cause.barNoarrive
    else x.barWaitOn x.c b.toNat false

/-! ## Gang-shared registers (15 R256, R257) -/

def execGsr (d : Reg) (g : KReg) (s : State) : Host.Outcome State Fault Refusal :=
  issue (.gsr d g) s fun x => x.out d (.uni (x.g.g.getD g.toNat 0)) (.uni 0) .n32

/-- The GSWs of a cycle take effect when it is over: the highest crew slot last. -/
def applyGWrites (g : Gang) : Gang :=
  let last (k : Nat) : Option GWrite := (g.gWrites.filter fun w => w.reg == k).foldl (fun m w =>
    match m with
    | some o => if w.slot < o.slot then some o else some w
    | none => some w) none
  { g with gWrites := [], g := g.g.mapIdx fun k v => match last k with | some w => w.val | none => v }

def execGsw (g : KReg) (a : Reg) (s : State) : Host.Outcome State Fault Refusal :=
  issue (.gsw g a) s fun x =>
    x.with1 a fun p =>
      if !p.isIn classAny32 then x.fail Cause.tagMismatch
      else .next (x.st.modGang x.gid fun w => { w with gWrites := w.gWrites ++ [⟨g.toNat, x.c.slot, p.lo.lane x.low⟩] }) none

/-! ## Queues: QOPEN and QCLOSE (15 R260, R261) -/

/-- The crew's registration of a role on a queue. -/
def Crew.qreg? (c : Crew) (h : Dword) (producer : Bool) : Option QReg := c.qregs.find? fun r => r.handle == h && r.producer == producer

/-- Add a registration. -/
def Crew.addReg (c : Crew) (r : QReg) : Crew := { c with qregs := c.qregs ++ [r] }

/-- QOPENs of the crew that ask another package, which may give it a registration (log 39). -/
def Crew.opens (c : Crew) : Nat := (c.remotes.filter fun r => match r.instr with | .qopenProd _ => true | _ => false).length

/-- The crew can register no more before the answers that it waits for. -/
def Crew.regsBusy (c : Crew) : Bool := 8 ≤ c.qregs.length + c.opens

/-- Queues of a partition. -/
def queuesOf (s : State) (part : Nat) : Nat := (s.queues.filter fun q => q.part == part).length

/-- The limits on a new queue (15 R260). -/
def queueParamsBad (s : State) (ag : Agent) (buf par : Dword) : Bool :=
  let slots := bitsAt par.toNat 0 17
  slots < 32 || 65536 < slots || bitsAt par.toNat 26 38 != 0 || low60 buf % 512 != 0 ||
    !(spaceOf buf == 0 || spaceOf buf == 1 || spaceOf buf == 2) ||
    (match (access s ag buf (512 * slots) .free .write false).1 with | .ok _ => false | .error _ => true)

def execQopenMake (h buf par : KReg) (s : State) : Host.Outcome State Fault Refusal :=
  issue (.qopenMake h buf par) s fun x =>
    let p := (x.k par).toNat
    if queueParamsBad x.st x.ag (x.k buf) (x.k par) then x.fail Cause.qParam
    else if 8 ≤ x.c.qregs.length || 1024 ≤ queuesOf x.st x.part then x.fail Cause.qLimit
    else if x.c.regsBusy then .wait x.st .queue false
    else
      match leastBelow 1024 fun k => (x.st.queue? x.part k).isNone with
      | none => x.fail Cause.qLimit
      | some k =>
        let gen := queueGen x.st x.part k
        let slots := bitsAt p 0 17
        let q : Queue := ⟨x.part, k, x.fn, gen, x.k buf, slots, bitsAt p 17 8 + 1, bitAt p 25, slots, [], [], 1, [], [], [], []⟩
        let handle := queueHandle x.st k gen
        let s : State := { x.st with queues := x.st.queues ++ [q], queueGens := setGen x.st.queueGens x.part k gen }
        .next (s.modCrew x.gid x.ci fun c => (c.addReg ⟨handle, false, 0⟩).setK h handle) none

def execQopenCons (h : KReg) (s : State) : Host.Outcome State Fault Refusal :=
  issue (.qopenCons h) s fun x =>
    match queueOf x.st x.part (x.k h) with
    | none => x.fail Cause.qHandle
    | some q =>
      if (x.c.qreg? (x.k h) false).isSome then x.fail Cause.qParam
      else if 8 ≤ x.c.qregs.length then x.fail Cause.qLimit
      else if x.c.regsBusy then .wait x.st .queue false
      else if 32 ≤ q.consumers then x.fail Cause.qFullreg
      else .next ((x.st.modQueue x.part q.slot fun q => { q with consumers := q.consumers + 1 }).modCrew x.gid x.ci fun c =>
        c.addReg ⟨x.k h, false, 0⟩) none

/-- A request to a queue of another package (22 R326), for which the group waits; `barred` as in `queueRefusal`. -/
def Ctx.askNode (x : Ctx) (i : Instr) (h : Dword) (op : RemoteOp) (barred : Nat) : Res :=
  match sendPart x.st x.gid x.ci ⟨0, some (bitsAt h.toNat 12 12), []⟩ op false none with
  | (id, s) =>
    let r : RemoteWait := ⟨x.pc, x.lanes, i, x.c.wbase, [(x.low, 0, id)], if barred = 0 then [] else [(x.low, barred)], [(x.low, h)], []⟩
    .wait (s.modCrew x.gid x.ci fun c => { c with remotes := c.remotes ++ [r] }) .queue true

def execQopenProd (h : KReg) (s : State) : Host.Outcome State Fault Refusal :=
  issue (.qopenProd h) s fun x =>
    match queueOf x.st x.part (x.k h) with
    | none =>
      if !remoteHandle x.st (x.k h) then x.fail Cause.qHandle
      -- one at a time, so that every answer finds the registrations as they were when it was asked for
      else if x.c.opens ≠ 0 then .wait x.st .queue false
      else if (x.c.qreg? (x.k h) true).isSome then x.askNode (.qopenProd h) (x.k h) (.qtest (x.k h)) Cause.qParam
      else if 8 ≤ x.c.qregs.length then x.askNode (.qopenProd h) (x.k h) (.qtest (x.k h)) Cause.qLimit
      else x.askNode (.qopenProd h) (x.k h) (.qopen (x.k h)) 0
    | some q =>
      if (x.c.qreg? (x.k h) true).isSome then x.fail Cause.qParam
      else if 8 ≤ x.c.qregs.length then x.fail Cause.qLimit
      else if x.c.regsBusy then .wait x.st .queue false
      else if q.producers ≤ q.closed.length then x.fail Cause.qFullreg
      else .next ((x.st.modQueue x.part q.slot fun q => { q with closed := q.closed ++ [false] }).modCrew x.gid x.ci fun c =>
        c.addReg ⟨x.k h, true, q.closed.length⟩) none

def execQclose (h : KReg) (s : State) : Host.Outcome State Fault Refusal :=
  issue (.qclose h) s fun x =>
    let mine := x.c.qregs.filter fun r => r.handle == x.k h
    if mine.isEmpty then
      if (queueOf x.st x.part (x.k h)).isSome then x.fail Cause.qNotreg
      else if remoteHandle x.st (x.k h) then x.askNode (.qclose h) (x.k h) (.qtest (x.k h)) 0
      else x.fail Cause.qHandle
    else
      let s := x.upd fun c => { c with qregs := c.qregs.filter fun r => !(r.handle == x.k h) }
      .next (mine.foldl (fun s r => closeReg s x.part r) s) none

/-! ## ENQ (15 R262) -/

/-- Checks 2 to 4 of ENQ: a cause, or the records in ascending lane order. -/
def Ctx.enqRecords (x : Ctx) (d o : Reg) (nb : Bool) (n : Nat) : Except Nat (List (List Word)) :=
  if n = 0 ∨ 9 ≤ n ∨ (nb ∧ d = 120) then .error Cause.qParam
  else if 111 < o.toNat + n - 1 then .error Cause.badRegcode
  else if (List.range n).any fun j => !classAny32 (x.c.vreg (o.toNat + j)).fmt then .error Cause.tagMismatch
  else .ok ((lanesOf x.lanes).map fun i => (List.range n).map fun j => (x.c.vreg (o.toNat + j)).val.lane i)

/-- The status of an acknowledged ENQ in every lane. -/
def Ctx.enqStatus (x : Ctx) (s : State) (d : Reg) (v : Word) : Res :=
  .next (s.modCrew x.gid x.ci fun c => c.write32 d x.lanes (.uni v) .n32) none

/-- The group's ENQ was waiting on a queue that has been removed. -/
def Crew.goneAt (c : Crew) (pc : Dword) (lanes : Mask) : Bool := c.gone.any fun g => g.1 == pc && g.2 &&& lanes != 0

/-- A reservation at a queue of this package: granted at once, refused by `.nb`, or waited for. -/
def Ctx.reserve (x : Ctx) (q : Queue) (r : QReg) (d : Reg) (nb : Bool) (recs : List (List Word)) : Res :=
  let req : QReq := ⟨x.st.nextId, x.gid, x.ci, x.lanes, x.pc, r.index, d, x.c.wbase, recs, 0, none, [(x.ci, x.lanes)]⟩
  let s : State := { x.st with nextId := x.st.nextId + 1 }
  if q.waiting.isEmpty && recs.length ≤ q.free then
    let ack := d != 120
    let s := s.modQueue x.part q.slot fun q => { q with free := q.free - recs.length, transit := q.transit ++ [.recs req ack] }
    if ack then .wait s .queue true else .next s none
  else if nb then x.enqStatus x.st d 1
  else .wait (s.modQueue x.part q.slot fun q => { q with waiting := q.waiting ++ [req] }) .queue true

def execEnq (d : Reg) (k : KReg) (o : Reg) (nb : Bool) (n : BitVec 4) (s : State) : Host.Outcome State Fault Refusal :=
  issue (.enq d k o nb n) s fun x =>
    match x.enqRecords d o nb n.toNat with
    | .error e => x.fail e
    | .ok recs =>
      if x.c.goneAt x.pc x.lanes then
        let s := x.upd fun c => { c with gone := c.gone.filter fun g => !(g.1 == x.pc && g.2 &&& x.lanes != 0) }
        if d = 120 then .moved (settle (takeTrap s x.gid x.ci x.lanes x.pc Cause.qGone 0 false) x.gid) else x.enqStatus s d 2
      else
        match queueOf x.st x.part (x.k k), x.c.qreg? (x.k k) true with
        | none, r =>
          if !remoteHandle x.st (x.k k) then x.fail Cause.qHandle
          else
            match r with
            | none => x.askNode (.enq d k o nb n) (x.k k) (.qtest (x.k k)) 0
            | some r => x.askNode (.enq d k o nb n) (x.k k) (.reserve (x.k k) r.index nb recs.length x.st.link.nextReq) 0
        | some _, none => x.fail Cause.qNotreg
        | some q, some r => x.reserve q r d nb recs

/-! ## DEQ (15 R264) -/

/-- Every producer has registered and closed, and the queue is empty. -/
def Queue.atEnd (q : Queue) : Bool := q.closed.length == q.producers && (q.closed.all fun b => b) && q.order.isEmpty

/-- Checks 2 and 3 of DEQ. -/
def deqCause (d o : Reg) (n : Nat) : Option Nat :=
  if n = 0 ∨ 9 ≤ n ∨ o = 120 then some Cause.qParam else if 111 < d.toNat + n - 1 then some Cause.badRegcode else none

/-- Read the records of the buffer slots that the lanes take, or what stops it. -/
def readSlots (s : State) (q : Queue) : List Nat → Except (Dword × Nat) (List Nat)
  | [] => .ok []
  | k :: ks =>
    match engineRead s q.agent (ptrAdd q.buf (512 * k)) 512 .free with
    | .error e => .error (ptrAdd q.buf (512 * k), e)
    | .ok v =>
      match readSlots s q ks with
      | .error e => .error e
      | .ok vs => .ok (v :: vs)

/-- What the lanes receive: word `j` of record `v`, 0 past its word count. -/
def recordWord (v j : Nat) : Word := if j < bitsAt v 256 4 then BitVec.ofNat 32 (v / 2 ^ (32 * j)) else 0

/-- The status of a lane that took a record: producer index and word count. -/
def recordStatus (v : Nat) : Word := BitVec.ofNat 32 (bitsAt v 260 8 * 2 ^ 8 + bitsAt v 256 4 * 2 ^ 16)

/-- The registers after a DEQ: lanes that took a record, in ascending order, and the rest with `rest`. -/
def Crew.deliver (c : Crew) (d o : Reg) (n : Nat) (lanes : Mask) (vs : List Nat) (rest : Word) : Crew :=
  let order := lanesOf lanes
  let idx (i : Nat) : Nat := order.findIdx fun k => k == i
  let got := maskOf fun i => lanes.getLsbD i && idx i < vs.length
  let c := if got = 0 then c
    else (List.range n).foldl (fun c j =>
      c.write32 (d + BitVec.ofNat 7 j) got (.ofLanes fun i => recordWord (vs.getD (idx i) 0) j) .n32) c
  c.write32 o lanes (.ofLanes fun i => if idx i < vs.length then recordStatus (vs.getD (idx i) 0) else rest) .n32

/-- The lanes take records from the queue. -/
def Ctx.takeRecords (x : Ctx) (q : Queue) (d o : Reg) (n : Nat) : Res :=
  let ks := q.order.take (lanesOf x.lanes).length
  let rest : Word := if q.atEnd then 2 else 1
  match readSlots x.st q ks with
  | .error (p, e) => if replayable e then .park x.st x.lanes p e 0 else .trap e p false
  | .ok vs =>
    let s := x.st.modQueue x.part q.slot fun q => { q with order := q.order.drop ks.length, free := q.free + ks.length }
    .next (grantAll (s.modCrew x.gid x.ci fun c => c.deliver d o n x.lanes vs rest) x.part q.slot) none

def execDeq (d : Reg) (k : KReg) (o : Reg) (nb : Bool) (n : BitVec 4) (s : State) : Host.Outcome State Fault Refusal :=
  issue (.deq d k o nb n) s fun x =>
    match deqCause d o n.toNat with
    | some e => x.fail e
    | none =>
      match queueOf x.st x.part (x.k k) with
      | none => if remoteHandle x.st (x.k k) then x.askNode (.deq d k o nb n) (x.k k) (.qtest (x.k k)) 0 else x.fail Cause.qHandle
      | some q =>
        if (x.c.qreg? (x.k k) false).isNone then x.fail Cause.qNotreg
        else if !nb && q.order.isEmpty && !q.atEnd then .wait x.st .queue false
        else x.takeRecords q d o n.toNat

/-! ## Steps of the queue units -/

/-- QUEUE_RECORD_ARRIVAL; nothing when no record is next on its way, or its slot cannot be written now. -/
def execQueueRecordArrival (part slot : Nat) (s : State) : Host.Outcome State Fault Refusal :=
  .next ((arriveRecords s part slot).getD s)

/-- PRODUCER_CLOSE_ARRIVAL. -/
def execProducerCloseArrival (part slot : Nat) (s : State) : Host.Outcome State Fault Refusal :=
  .next ((arriveClose s part slot).getD s)

/-- The reservation that a SEND_STALL ends: at a queue of this package, or (part 64) at another. -/
def stalled (s : State) (part slot req : Nat) : Option QReq :=
  match s.queue? part slot with
  | some q => q.waiting.find? fun r => r.id == req && r.node.isNone && 2 ^ 20 ≤ r.counted
  | none => none

/-- A reservation that waits for its grant at another package, whose count is full. -/
def stalledRemote (s : State) (req : Nat) : Option (LinkReq × RemoteWait) :=
  match (reservations s fun r => r.id == req && 2 ^ 20 ≤ r.counted).head? with
  | none => none
  | some q =>
    match s.crew? q.gang q.crew with
    | some c => (c.remotes.find? fun r => r.reqs.any fun p => p.2.2 == req).map fun r => (q, r)
    | none => none

/-- SEND_STALL: the reservation is withdrawn and the group traps. -/
def execSendStall (part slot req : Nat) (s : State) : Host.Outcome State Fault Refusal :=
  match stalled s part slot req with
  | some r =>
    let s := withdraw s fun q => q.id == req
    .next (afterIssue (settle (eventTrap s r.gang r.crew r.lanes r.pc Cause.sendStall 0 false) r.gang) r.gang)
  | none =>
    match stalledRemote s req with
    | some (q, r) =>
      let s := (postWithdraw s q).modCrew q.gang q.crew fun c => { c with remotes := c.remotes.filter fun w => w != r }
      .next (afterIssue (settle (eventTrap s q.gang q.crew r.lanes r.pc Cause.sendStall 0 false) q.gang) q.gang)
    | none => .next s

end Sys2Proof.Machine
end

