-- ==== Sys2Proof/Machine/Hoist.lean ====
section
/-! DEFINITION. Machine/Hoist.lean: the instructions of 12 R197 to R223: HOIST and HOISTM, SEAL, CWAIT and CTEST, sync words,
RLWAIT, SLUICE, and the steps of the hoist and of the sluice. -/

namespace Sys2Proof.Machine

/-! ## What waiting instructions share -/

/-- The first engine fault due to the crew, taken outside handler mode (12 R204). -/
def Ctx.takeDue (x : Ctx) (f : Res) : Res :=
  match x.c.due with
  | [] => f
  | d :: rest =>
    if x.c.inHandler then f
    else
      let s := x.upd fun c => { c with due := rest }
      .moved (settle (takeTrap s x.gid x.ci x.lanes x.pc d.cause d.eval true) x.gid)

/-- The commands that a waiting instruction waits for have numbers below this (07 R154, 12 R202). -/
def Ctx.bound (x : Ctx) : Nat :=
  match x.c.bounds.find? fun b => b.pc == x.pc && b.lanes &&& x.lanes != 0 with
  | some b => b.bound
  | none => x.st.nextId

/-- The crew without the bound of this group. -/
def Ctx.unbound (x : Ctx) : State := x.upd fun c => c.forget x.lanes

/-- Wait for the engines, keeping the bound. -/
def Ctx.waitBound (x : Ctx) : Res :=
  .wait (x.unbound.modCrew x.gid x.ci fun c => { c with bounds := c.bounds ++ [⟨x.pc, x.lanes, x.bound⟩] }) .engine false

/-- A scratchpad pointer that is a multiple of `n`. -/
def scrMult (p : Dword) (n : Nat) : Bool := spaceOf p == 3 && low60 p % n == 0

/-- After a step of the engines, the gang that issued the command settles. -/
def settleOwner (s : State) (o : CmdOwner) : State :=
  match o with
  | .crews g _ => afterIssue (settle s g) g
  | .node _ _ => s

/-! ## HOIST and HOISTM (12 R205 to R208, R214) -/

/-- A space that R24 allows for a layout record. -/
def recordSpace (p : Dword) : Bool :=
  spaceOf p == 0 || spaceOf p == 1 || spaceOf p == 2 || spaceOf p == 3 || spaceOf p == 4 || spaceOf p == 7

/-- The copy of the gang that the crew's next arrival joins. -/
def Ctx.copy? (x : Ctx) : Option (EngCmd × HoistCopy) :=
  x.st.cmds.findSome? fun y =>
    match y.owner, y.body with
    | .crews g _, .hoist h => if g = x.gid ∧ h.copyNo = x.c.hoists then some (y, h) else none
    | _, _ => none

/-- Another crew arrives at a copy. -/
def Ctx.joinCopy (x : Ctx) (y : EngCmd) (slice : Nat × Nat × Nat) : State :=
  let s := writeBackAll x.st x.core
  let s := modHoist s y.id fun h => { h with slices := h.slices ++ [slice], arrived := h.arrived ++ [x.ci] }
  s.modCmd y.id fun z => { z with owner := match z.owner with | .crews g cs => .crews g (cs ++ [x.ci]) | o => o }

/-- The first arrival of a copy: its command, place in the order and record range. -/
def Ctx.openCopy (x : Ctx) (s : State) (sel : HoistDst) (mask : Option (BitVec 4)) (rec dst sync : Dword) (slice : Nat × Nat × Nat) : State :=
  let h : HoistCopy := ⟨x.c.hoists, sel, mask, rec, dst, sync, [slice], [x.ci], false, none, [], []⟩
  (addCmd (writeBackAll s x.core) x.core x.c.slot x.pc (.crews x.gid [x.ci]) (.hoist h) (lockRange s x.ag rec 512 false)).2

/-- After an arrival: the crew's count advances, and the copy starts when it can. -/
def Ctx.hoistArrived (x : Ctx) (s : State) : Res :=
  .next (settle (startHoists (s.modCrew x.gid x.ci fun c => { c with hoists := c.hoists + 1 })) x.gid) none

/-- An arrival whose own operands are good. -/
def Ctx.hoistArrive (x : Ctx) (sel : HoistDst) (mask : Option (BitVec 4)) (rec dst slice sync : Dword) : Res :=
  let sl := (x.ci, bitsAt slice.toNat 0 32, bitsAt slice.toNat 32 32)
  match x.copy? with
  | some (y, h) =>
    if h.dstSel ≠ sel ∨ h.mask ≠ mask ∨ h.record ≠ rec ∨ h.dst ≠ dst ∨ h.sync ≠ sync then x.fail Cause.hoistMismatch
    else x.hoistArrived (x.joinCopy y sl)
  | none =>
    if !slotFree x.st x.core then .wait x.st .engine false
    else
      match sel with
      | .scratch => x.hoistArrived (x.openCopy x.st sel mask rec dst sync sl)
      | _ =>
        match claimEngine x.st x.core x.gid with
        | none => x.fail Cause.mxBusy
        | some s => x.hoistArrived (x.openCopy s sel mask rec dst sync sl)

/-- HOIST_PARAM of R207. -/
def hoistParamBad (sel : HoistDst) (rec dst sync : Dword) (mult : Nat) : Bool :=
  low60 rec % 512 != 0 || !recordSpace rec ||
    (match sel with | .scratch => spaceOf dst != 3 | b => bufSize b ≤ dst.toNat) || !scrMult sync mult

def execHoist (dstSel : HoistDst) (record dst slice bitmap : KReg) (s : State) : Host.Outcome State Fault Refusal :=
  issue (.hoist dstSel record dst slice bitmap) s fun x =>
    if hoistParamBad dstSel (x.k record) (x.k dst) (x.k bitmap) 32 then x.fail Cause.hoistParam
    else x.hoistArrive dstSel none (x.k record) (x.k dst) (x.k slice) (x.k bitmap)

def execHoistm (record dst slice sync : KReg) (mask : BitVec 4) (s : State) : Host.Outcome State Fault Refusal :=
  issue (.hoistm record dst slice sync mask) s fun x =>
    if mask = 0 || hoistParamBad .scratch (x.k record) (x.k dst) (x.k sync) 128 then x.fail Cause.hoistParam
    else x.hoistArrive .scratch (some mask) (x.k record) (x.k dst) (x.k slice) (x.k sync)

/-- The parts of a chunk's source elements that lie in another package or the host. -/
def remoteParts (s : State) (x : EngCmd) (k : Nat) : List FarPart :=
  match x.body with
  | .hoist h =>
    (match h.layout with
    | some l =>
      if spaceOf l.base != 5 && spaceOf l.base != 6 then []
      else
        (chunkElems l h.slices k).flatMap fun e =>
          match (access s (x.agent s) (l.elem (e % l.cols) (e / l.cols)) l.w (.plain l.w) .read false).1 with
          | .ok ps => farParts 0 ps
          | .error _ => []
    | none => [])
  | _ => []

/-- Ask for the parts that have not been asked for. -/
def askFar (cmd : Nat) (s : State) (ps : List FarPart) : State :=
  ps.foldl (fun s p => if (engineReq s cmd p).isSome then s else (sendRequest s cmd engineCrew p .read false).2) s

/-- A chunk of a copy, when its turn has come: its remote reads are asked for, and once they are answered it is copied. -/
def runChunk (s : State) (x : EngCmd) (k : Nat) : State :=
  let rs := remoteParts s x k
  if rs.isEmpty then hoistChunk s x k
  else
    match x.body with
    | .hoist h =>
      if x.paused || !h.todo.contains k then s
      else
        let s := askFar x.id (evictFar s x.core rs) rs
        if rs.all fun p => match engineReq s x.id p with | some r => r.answer.isSome | none => true then hoistChunk s x k else s
    | _ => s

/-- HOIST_CHUNK_COMPLETE; nothing when the copy cannot write that chunk now. -/
def execHoistChunkComplete (core cmd chunk : Nat) (s : State) : Host.Outcome State Fault Refusal :=
  match s.cmd? cmd with
  | some y => if y.core = core then .next (settleOwner (runChunk s y chunk) y.owner) else .next s
  | none => .next s

/-! ## A crew's own accesses for an engine instruction -/

/-- The first `n` bits of a storage element. -/
def takePieces : Nat → List Piece → List Piece
  | _, [] => []
  | n, .store key m :: ps => .store key (min n m) :: takePieces (n - m) ps
  | n, p :: ps => p :: takePieces n ps

/-- One element that the crew reads itself, in the group's lowest lane (12 R215, R219): of the `n` bits that are checked the
first `take` are read. -/
def Ctx.ownRead (x : Ctx) (s : State) (p : Dword) (n take : Nat) (al : Align) (k : AccKind) (f : State → Nat → Res) : Res :=
  match checkLanes s x.ag [(x.low, p)] n al k false with
  | (.trap c q, _) => .trap c q false
  | (.absent, _) => .fault .noSuchDeviceByte
  | (.park lanes q c, s) => .park s lanes q c k.code
  | (.ok es, s) =>
    match es with
    | [] => f s 0
    | e :: _ =>
      match elemRead s x.ag x.core x.mode { e with n := take, pieces := takePieces take e.pieces } with
      | (none, _) => .trap Cause.memUncorrectable p false
      | (some v, s) => f s v

/-- One element that the crew writes itself. -/
def Ctx.ownWrite (x : Ctx) (s : State) (p : Dword) (n v : Nat) (f : State → Res) : Res :=
  match checkLanes s x.ag [(x.low, p)] n (.plain n) .write false with
  | (.trap c q, _) => .trap c q false
  | (.absent, _) => .fault .noSuchDeviceByte
  | (.park lanes q c, s) => .park s lanes q c 1
  | (.ok es, s) => f (es.foldl (fun s e => elemWrite s x.ag x.core x.mode e v) s)

/-! ## SEAL (12 R215) -/

def execSeal (record out : KReg) (s : State) : Host.Outcome State Fault Refusal :=
  issue (.seal record out) s fun x =>
    let p := x.k record
    match spaceCause p with
    | some c => .trap c p false
    | none =>
      if !recordSpace p then x.fail Cause.layoutInvalid
      else
        x.ownRead x.st p 512 448 (.mult 512) .write fun s v =>
          let crc := sealOf v
          x.ownWrite s (ptrAdd p 448) 64 crc.toNat fun s => .next (s.modCrew x.gid x.ci fun c => c.setK out crc) none

/-! ## Completion bitmaps (12 R210) and sync words (R211 to R213) -/

/-- The bit key of `n` bits of SCR that a bitmap or sync-word instruction reads, `at0` of them checked for errors (08 R162),
or the trap: its EVAL is the pointer for a memory cause (18 R278). -/
def Ctx.scrKey (x : Ctx) (p : Dword) (n off m : Nat) : Except (Nat × Dword) Nat :=
  match boundCheck x.st x.ag p n with
  | .ok (some key) => if poisoned x.st (key + off) m then .error (Cause.memUncorrectable, p) else .ok key
  | .ok none => .error (Cause.scratchBounds, p)
  | .error e => .error (e, p)

/-- The word of a bitmap: its bits, or what stops the instruction. -/
def Ctx.bitmapWord (x : Ctx) (bitmap mask : Dword) (word : BitVec 5) : Except (Nat × Dword) Nat :=
  if !scrMult bitmap 32 || bitsAt mask.toNat 32 32 != 0 then .error (Cause.hoistParam, 0)
  else (x.scrKey (ptrAdd bitmap (32 * word.toNat)) 32 0 32).map fun key => x.st.mem.bits key 32

/-- The bit key of a sync word, or what stops the instruction. -/
def Ctx.syncKey (x : Ctx) (p : Dword) : Except (Nat × Dword) Nat :=
  if !scrMult p 128 then .error (Cause.hoistParam, 0) else x.scrKey p 128 64 64

/-- Trap, or go on with what was read. -/
def Ctx.ofRead (_ : Ctx) (r : Except (Nat × Dword) Nat) (f : Nat → Res) : Res :=
  match r with
  | .error e => .trap e.1 e.2 false
  | .ok v => f v

def execCwait (bitmap mask : KReg) (word : BitVec 5) (s : State) : Host.Outcome State Fault Refusal :=
  issue (.cwait bitmap mask word) s fun x =>
    x.takeDue (x.ofRead (x.bitmapWord (x.k bitmap) (x.k mask) word) fun v =>
      let m := bitsAt (x.k mask).toNat 0 32
      if v &&& m = m then .next x.st none
      else .wait (x.upd fun c => { c with cwaits := c.cwaits ||| x.lanes }) .engine false)

def execCtest (bitmap mask result : KReg) (word : BitVec 5) (s : State) : Host.Outcome State Fault Refusal :=
  issue (.ctest bitmap mask result word) s fun x =>
    x.ofRead (x.bitmapWord (x.k bitmap) (x.k mask) word) fun v =>
      x.setK result (BitVec.ofNat 64 (v &&& bitsAt (x.k mask).toNat 0 32))

def execSwarm (word target gen : KReg) (s : State) : Host.Outcome State Fault Refusal :=
  issue (.swarm word target gen) s fun x =>
    if bitsAt (x.k target).toNat 32 32 ≠ 0 then x.fail Cause.hoistParam
    else
      x.ofRead (x.syncKey (x.k word)) fun key =>
        let s := storeBits x.st key 64 (bitsAt (x.k target).toNat 0 32)
        .next (s.modCrew x.gid x.ci fun c => c.setK gen (BitVec.ofNat 64 (x.st.mem.bits (key + 64) 32))) none

def execSwait (word gen : KReg) (s : State) : Host.Outcome State Fault Refusal :=
  issue (.swait word gen) s fun x =>
    x.takeDue (x.ofRead (x.syncKey (x.k word)) fun key =>
      if x.st.mem.bits (key + 64) 32 ≠ bitsAt (x.k gen).toNat 0 32 then .next x.st none else .wait x.st .engine false)

/-! ## RLWAIT (12 R202) -/

/-- An entry of a waited-for command holds a range that the wait is for. -/
def rangeHeld (s : State) (core bound : Nat) (store : Bool) (r : LockRange) : Bool :=
  (s.core core).locks.any fun e => e.cmd < bound && e.ranges.any fun q => q.meets r && (store || q.write)

def execRlwait (start len : KReg) (store : Bool) (s : State) : Host.Outcome State Fault Refusal :=
  issue (.rlwait start len store) s fun x =>
    x.takeDue (
      let p := x.k start
      let n := (x.k len).toNat
      match spaceCause p with
      | some c => .trap c p false
      | none =>
        if n = 0 || 2 ^ 48 ≤ n then x.fail Cause.hoistParam
        else
          if (lockRange x.st x.ag p n store).any (rangeHeld x.st x.core x.bound store) then x.waitBound else .next x.unbound none)

/-! ## SLUICE (12 R218, R219) -/

/-- FMT of a sluice block. -/
def sluiceFmt : Nat → Fmt | 0 => .f32 | 1 => .bf16 | 2 => .f16 | _ => .i32

/-- A parameter block by its bits. -/
def parseBlock (b : Nat) (id cmd core : Nat) (owner : CmdOwner) (fn part : Nat) (srcs : List Dword) : Block :=
  { id := id, cmd := cmd, core := core, owner := owner, fn := fn, part := part, op := bitsAt b 0 2, fmt := sluiceFmt (bitsAt b 2 2)
    seqOrder := bitAt b 4, zero := bitAt b 5, read := bitAt b 6, slotBase := bitsAt b 16 12, count := bitsAt b 64 32
    sources := srcs, dest := BitVec.ofNat 64 (bitsAt b 192 64), flag := BitVec.ofNat 64 (bitsAt b 256 64)
    flagval := BitVec.ofNat 32 (bitsAt b 320 32), doneGroups := [], begun := [], stop := none, paused := false }

/-- The sources of a block, as many as NSRCM1 says. -/
def blockSources (b : Nat) : Nat := bitsAt b 8 4 + 1

/-- The block stores to its destination. -/
def Block.stores (b : Block) : Bool := b.op != 1 || b.read
def Block.w (b : Block) : Nat := fmtWidth b.fmt

/-- Step 4 of R219: a field breaks R218. -/
def blockBad (s : State) (fn stack b : Nat) : Bool :=
  let x := parseBlock b 0 0 0 (.crews 0 []) 0 0 []
  let n := blockSources b
  let list : Dword := BitVec.ofNat 64 (bitsAt b 128 64)
  let win := (s.fn fn).windows.getD stack (0, 0)
  x.op == 3 || (x.seqOrder && x.op != 0) || ((x.zero || x.read) && x.op != 1) || bitAt b 7 || bitsAt b 12 4 != 0 ||
    bitsAt b 28 36 != 0 || bitsAt b 96 32 != 0 || bitsAt b 352 160 != 0 || (x.op == 0 && n < 2) || (x.op == 2 && n != 1) ||
    x.count == 0 || !isDev list || low60 list % 64 != 0 || !isDev x.flag || low60 x.flag % 64 != 0 ||
    (if x.stores then !isDev x.dest || low60 x.dest % x.w != 0 else x.dest != 0) ||
    (x.op == 1 && win.2 < x.slotBase + x.count)

/-- Step 5: a source is out of place, or the destination meets it without being it. -/
def sourcesBad (b : Block) : Bool :=
  b.sources.any fun p => !isDev p || low60 p % b.w != 0 ||
    (b.stores && low60 p != low60 b.dest && meets (low60 p) (b.count * b.w) (low60 b.dest) (b.count * b.w))

/-- The ranges that posting registers. -/
def blockRanges (s : State) (ag : Agent) (b : Block) : List LockRange :=
  b.sources.flatMap (fun p => lockRange s ag p (b.count * b.w) false) ++
    (if b.stores then lockRange s ag b.dest (b.count * b.w) true else []) ++ lockRange s ag b.flag 64 true

/-- Post a checked block to a stack's queue. -/
def postBlock (s : State) (ag : Agent) (stack core slot : Nat) (pc : Dword) (owner : CmdOwner) (bits : Nat) (srcs : List Dword) : State :=
  match s.fresh with
  | (id, s) =>
    let b := parseBlock bits id 0 core owner ag.fn ag.part srcs
    match addCmd s core slot pc owner (.sluice stack id) (blockRanges s ag b) with
    | (cmd, s) => s.modStack stack fun k => { k with blocks := k.blocks ++ [{ b with cmd := cmd }] }

/-- Read `n` source pointers from a list. -/
def Ctx.readSources (x : Ctx) (list : Dword) : Nat → Nat → List Dword → State → (State → List Dword → Res) → Res
  | 0, _, acc, s, f => f s acc.reverse
  | n + 1, k, acc, s, f =>
    x.ownRead s (ptrAdd list (64 * k)) 64 64 (.plain 64) .read fun s v => x.readSources list n (k + 1) (BitVec.ofNat 64 v :: acc) s f

/-- Step 7: the block is posted, or waits for its queue with what has been copied. -/
def Ctx.post (x : Ctx) (s : State) (stack bits : Nat) (srcs : List Dword) : Res :=
  let s := s.modCrew x.gid x.ci fun c => c.forget x.lanes
  if 64 ≤ (s.stack stack).blocks.length then
    .wait (s.modCrew x.gid x.ci fun c => { c with posting := c.posting ++ [⟨x.pc, x.lanes, bits, srcs⟩] }) .engine false
  else .next (postBlock s { x.ag with cached := false } stack x.core x.c.slot x.pc (.crews x.gid [x.ci]) bits srcs) none

def execSluice (stack : BitVec 3) (block : KReg) (s : State) : Host.Outcome State Fault Refusal :=
  issue (.sluice stack block) s fun x =>
    let p := x.k block
    if !slotFree x.st x.core then .wait x.st .engine false
    else
      match x.c.posting.find? fun q => q.pc == x.pc && q.lanes &&& x.lanes != 0 with
      | some q => x.post x.st stack.toNat q.bits q.srcs
      | none =>
        if !isDev p || low60 p % 512 != 0 then x.fail Cause.sluiceParam
        else
          x.ownRead (writeBackAll x.st x.core) p 512 512 (.mult 512) .read fun s bits =>
            if blockBad s x.fn stack.toNat bits then x.fail Cause.sluiceParam
            else
              x.readSources (BitVec.ofNat 64 (bitsAt bits 128 64)) (blockSources bits) 0 [] s fun s srcs =>
                if sourcesBad (parseBlock bits 0 0 0 (.crews 0 []) 0 0 srcs) then x.fail Cause.sluiceParam
                else x.post s stack.toNat bits srcs

/-! ## The sluice at work (12 R220 to R222) -/

/-- Groups of a block. -/
def Block.groups (b : Block) : Nat := (b.count + 511) / 512

/-- The block's accesses. -/
def Block.agent (b : Block) : Agent := ⟨b.fn, b.part, none, 0, 0, false, false⟩

/-- Every bit of the pieces lies in a stack (12 R216). -/
def inStack (stack : Nat) (ps : List Piece) : Bool :=
  ps.all fun p => match p with
    | .store key n => key / 8 / 0xC00000000 == stack && (key + n - 1) / 8 / 0xC00000000 == stack
    | _ => false

/-- Check one element of a block: a cause with its kind, or its pieces. -/
def sluiceElem (s : State) (b : Block) (stack : Nat) (p : Dword) (k : AccKind) : Except Nat (List Piece) :=
  match (access s b.agent p b.w (.plain b.w) k false).1 with
  | .error f => .error f.cause
  | .ok ps => if !inStack stack ps then .error Cause.sluiceRemote else if k = .read && piecesPoisoned s ps then .error Cause.memUncorrectable else .ok ps

/-- Read element `i` of every source. -/
def sluiceRead (s : State) (b : Block) (stack i : Nat) : List Dword → Except (Dword × Nat × Nat) (List Nat)
  | [] => .ok []
  | p :: ps =>
    match sluiceElem s b stack (ptrAdd p (i * b.w)) .read with
    | .error e => .error (ptrAdd p (i * b.w), e, 0)
    | .ok x =>
      match sluiceRead s b stack i ps with
      | .error e => .error e
      | .ok vs => .ok (readPieces s x :: vs)

/-- The sum of one element position (06 R128). -/
def sluiceSum (b : Block) (vs : List Nat) : Nat :=
  match b.fmt with
  | .i32 => (vs.foldl (· + ·) 0) % 2 ^ 32
  | f =>
    let ws := vs.map fun v => BitVec.ofNat 32 (toBin binF32 .rne (valueOf f v))
    convert .rne .f32 f (if b.seqOrder then seqSum ws else treeSum 5 ws).toNat

/-- An exact slot of a stack. -/
def Stack.slot (k : Stack) (n : Nat) : BitVec 320 := match k.slots.find? fun p => p.1 == n with | some p => p.2 | none => 0
def Stack.setSlot (k : Stack) (n : Nat) (v : BitVec 320) : Stack :=
  let rest := k.slots.filter fun p => p.1 != n
  { k with slots := if v = 0 then rest else (n, v) :: rest }

/-- What element `i` stores, and the machine with its slot changed (06 R130, R131). -/
def sluiceValue (s : State) (b : Block) (stack i : Nat) (vs : List Nat) : Nat × State :=
  if b.op = 0 then (sluiceSum b vs, s)
  else if b.op = 2 then (vs.headD 0, s)
  else
    let n := ((s.fn b.fn).windows.getD stack (0, 0)).1 + b.slotBase + i
    let t := if b.zero then 0 else (s.stack stack).slot n
    let t := vs.foldl (fun t v => slotAdd t (valueOf b.fmt v)) t
    (convertX .rne (slotValue t) b.fmt, s.modStack stack fun k => k.setSlot n t)

/-- One element of a block. -/
def sluiceOne (s : State) (b : Block) (stack i : Nat) : Except (Dword × Nat × Nat) State :=
  match sluiceRead s b stack i b.sources with
  | .error e => .error e
  | .ok vs =>
    let r := sluiceValue s b stack i vs
    if !b.stores then .ok r.2
    else
      let tgt := ptrAdd b.dest (i * b.w)
      match sluiceElem s b stack tgt .write with
      | .error e => .error (tgt, e, 1)
      | .ok ps => .ok (abortFor (writePieces r.2 r.1 ps) b.owner b.agent tgt b.w)

/-- The ranges that a group touches (12 R203). -/
def groupRanges (s : State) (b : Block) (g : Nat) : List LockRange :=
  let n := min 512 (b.count - 512 * g) * b.w
  let off := 512 * g * b.w
  b.sources.flatMap (fun p => lockRange s b.agent (ptrAdd p off) n false) ++
    (if b.stores then lockRange s b.agent (ptrAdd b.dest off) n true else [])

/-- Change a block. -/
def modBlock (s : State) (stack id : Nat) (f : Block → Block) : State :=
  s.modStack stack fun k => { k with blocks := replaceFirst (fun b => b.id == id) f k.blocks }

/-- The lowest group that is not finished. -/
def Block.lowest (b : Block) : Nat := (leastBelow b.groups fun g => !b.doneGroups.contains g).getD 0

/-- A block ends: its slot, its entry and its place in the queue are free, and a fault is due to its crew (12 R204, R222). -/
def endBlock (s : State) (stack : Nat) (b : Block) (due : Option (Nat × Nat)) : State :=
  let s := match due with | some d => dueTo s b.owner ⟨d.1, BitVec.ofNat 64 (d.2 + 0x69 * 2 ^ 32)⟩ | none => s
  let s := s.modStack stack fun k => { k with blocks := k.blocks.filter fun x => x.id != b.id }
  wakeGangs (startHoists (endCmd s b.cmd)) (fun _ => true) .engine

/-- A replayable cause pauses a block (08 R168). -/
def pauseBlock (s : State) (stack : Nat) (b : Block) (p : Dword) (cause kind : Nat) : State :=
  let s := modBlock s stack b.id fun b => { b with paused := true }
  let from' := match s.cmd? b.cmd with | some x => (x.slot, x.pc) | none => (0, 0)
  putRecord s b.fn (b.core % 256) (faultRecord p cause kind true false b.core from'.1 0 from'.2) 1

/-- The store to FLAG waits for an earlier command of the block's core (12 R203). -/
def flagBlocked (s : State) (b : Block) : Bool := blockedBy s b.core b.cmd (lockRange s b.agent b.flag 64 true)

/-- The store to FLAG of a block that has finished or stopped, and its end (12 R221, R222). -/
def finishBlock (s : State) (stack : Nat) (b : Block) : State :=
  let v := b.flagval.toNat + (match b.stop with | some c => c.1 * 2 ^ 32 + 2 ^ 63 | none => 0)
  if flagBlocked s b then s
  else match engineWrite s b.agent b.flag 64 v (.plain 64) with
  | .ok s => endBlock (abortFor s b.owner b.agent b.flag 64) stack b b.stop
  | .error e => if replayable e then pauseBlock s stack b b.flag e 1 else endBlock s stack b (some (b.stop.getD (e, 0xFFFFFFFF)))

/-- A block stops (12 R222). -/
def stopBlock (s : State) (stack : Nat) (b : Block) (cause : Nat) : State :=
  let s := modBlock s stack b.id fun b => { b with stop := some (cause, b.lowest) }
  finishBlock s stack { b with stop := some (cause, b.lowest) }

/-- The elements of a block in turn, `j` of a group done: the machine, with the one that failed. -/
def sluiceElems (b : Block) (stack : Nat) : Nat → List Nat → State → State × Option (Nat × Dword × Nat × Nat)
  | _, [], s => (s, none)
  | j, i :: is, s =>
    match sluiceOne s b stack i with
    | .ok s => sluiceElems b stack (j + 1) is s
    | .error f => (s, some (j, f))

/-- One group of a block is summed, copied or added (12 R220). -/
def sluiceGroup (s : State) (stack : Nat) (b : Block) (g : Nat) : State :=
  if b.paused then s
  else if b.stop.isSome || b.doneGroups.length = b.groups then finishBlock s stack b
  else if b.groups ≤ g || b.doneGroups.contains g || blockedBy s b.core b.cmd (groupRanges s b g) then s
  else
    let done := match b.begun.find? fun p => p.1 == g with | some p => p.2 | none => 0
    match sluiceElems b stack done (((List.range (min 512 (b.count - 512 * g))).map (512 * g + ·)).drop done) s with
    | (s, some (j, p, e, kind)) =>
      if replayable e then
        pauseBlock (modBlock s stack b.id fun b => { b with begun := (g, j) :: b.begun.filter fun q => q.1 != g }) stack b p e kind
      else stopBlock s stack b e
    | (s, none) =>
      let b := { b with doneGroups := b.doneGroups ++ [g], begun := b.begun.filter fun q => q.1 != g }
      let s := modBlock s stack b.id fun _ => b
      if b.doneGroups.length = b.groups then finishBlock s stack b else s

/-- SLUICE_GROUP_COMPLETE; nothing when the group cannot run now. -/
def execSluiceGroupComplete (stack block group : Nat) (s : State) : Host.Outcome State Fault Refusal :=
  match (s.stack stack).blocks.find? fun b => b.id == block with
  | some b => .next (settleOwner (sluiceGroup s stack b group) b.owner)
  | none => .next s

end Sys2Proof.Machine
end

