-- ==== Sys2Proof/Machine/Matrix.lean ====
section
/-! DEFINITION. Machine/Matrix.lean: the matrix engine (07 R140 to R156): its instructions, loop steps, and the commands that
run at the head of its queue. -/

namespace Sys2Proof.Machine

/-! ## Format pairs (07 R142) -/

def pairFmts : Nat → Fmt × Fmt
  | 0 => (.e4m3, .e4m3) | 1 => (.e4m3, .e5m2) | 2 => (.e5m2, .e5m2) | 3 => (.md8, .md8) | 4 => (.md8, .e4m3)
  | 5 => (.bf16, .bf16) | 6 => (.f16, .f16) | 7 => (.i8, .i8) | 8 => (.i8, .i4) | 9 => (.i4, .i4) | 10 => (.i8, .i3)
  | _ => (.i8, .i6)

/-- The pair's chains are I32 (07 R142). -/
def pairInt (pair : Nat) : Bool := 7 ≤ pair

/-! ## Queueing a command -/

/-- Claim the engine, or MX_BUSY (07 R140). DEDUCED (log 53): MX_BUSY comes before the instruction's own issue checks. -/
def Ctx.withEngine (x : Ctx) (f : State → Res) : Res :=
  match claimEngine x.st x.core x.gid with
  | none => x.fail Cause.mxBusy
  | some s => f s

/-- Change an engine. -/
def modMx (s : State) (core : Nat) (f : MxEngine → MxEngine) : State := s.modCore core fun r => { r with mx := f r.mx }

/-- A loop becomes the last one issued on its accumulator, in every engine that runs it (07 R155). -/
def noteLoop (core acc : Nat) (cluster : Bool) (id : Nat) (st : LoopState) (s : State) : State :=
  (enginesOf core cluster).foldl (fun s c => modMx s c fun m => { m with lastLoop := m.lastLoop.set acc (id, st) }) s

/-- A command that is discarded at once: a loop is none the less the last one issued on its accumulator, and idle. -/
def MxOp.issuedIdle (op : MxOp) (core id : Nat) (s : State) : State :=
  match op with
  | .loop acc _ _ _ _ _ _ _ _ cluster _ => noteLoop core acc cluster id .idle s
  | _ => s

/-- Queue a checked command with its ranges on a core; a command after a stop of the same crew is discarded (07 R154). A
cluster command is in the queue of each core, with a slot and an entry there, and every core's ranges are in its own core's
entry too (07 R147; log 84). An instruction that finds no slot does not issue, so it claims nothing (12 R197). DEDUCED (log 53):
the issue checks, and the discard, come before the wait for a slot. -/
def Ctx.queueMx (x : Ctx) (s : State) (op : MxOp) (ranges : Nat → List LockRange) (after : Nat → State → State) : Res :=
  let es := enginesOf x.core op.cluster
  let others := es.filter fun c => c != x.core
  if x.c.mxStops ≠ [] then
    match s.fresh with | (id, s) => .next (op.issuedIdle x.core id s) none
  else if !(es.all (slotFree s)) then .wait x.st .engine false
  else
    let far := (others.flatMap ranges).filter fun r => r.dom == .scr
    match addCmdAt s x.core x.c.slot x.pc (.crews x.gid [x.ci]) (.mx op) (ranges x.core ++ far) (others.map fun c => (c, ranges c)) with
    | (id, s) => .next (after id s) none

def accRange (n : Nat) (write : Bool) : LockRange := ⟨.acc n, 0, 2 ^ 20, write⟩
def abufRange (n : Nat) (write : Bool) : LockRange := ⟨.abuf n, 0, 2 ^ 18, write⟩
def wbufRange (n : Nat) (write : Bool) : LockRange := ⟨.wbuf n, 0, 2 ^ 20, write⟩

/-! ## MXLOOP (07 R144) -/

/-- A source names a buffer below `n`, or is an SCR pointer and a multiple of 256. -/
def mxSource (p : Dword) (n : Nat) : Bool := p.toNat < n || scrMult p 256

/-- The bits from a pointer that a loop may read: `sparse` blocks of R146, or steps START to COUNT − 1. -/
def loopSpan (p : Dword) (sparse : Bool) (w inc start count : Nat) : Dword × Nat :=
  if sparse then (p, count * (256 + 16 * 256 * w)) else (ptrAdd p (start * inc), (count - 1 - start) * inc + 256 * w)

/-- The range of an SCR operand, cut at the gang's allocation, past which nothing is read (07 R145, R148). -/
def operandRange (s : State) (ag : Agent) (p : Dword) (n : Nat) : List LockRange :=
  lockRange s ag p (min n (ag.scratch * 8 - addrIn p)) false

/-- The ranges of a loop on one core, whose agent is given (07 R141, R144). -/
def loopRanges (s : State) (ag : Agent) (acc sparse : Nat) (a b : Dword) (count start inca incb pair : Nat) : List LockRange :=
  let f := pairFmts pair
  -- in a sparse mode the other operand is indexed by k-pair, up to 16 × COUNT − 1
  let last := if sparse = 0 then count else 16 * count
  let from' := if sparse = 0 then start else 0
  let src (p : Dword) (own : Bool) (w inc : Nat) : List LockRange :=
    if count ≤ from' then []
    else
      let r := loopSpan p own w inc from' (if own then count else last)
      operandRange s ag r.1 r.2
  [accRange acc true] ++
    (if a.toNat < 4 then [abufRange a.toNat false] else src a (sparse == 1) (fmtWidth f.1) inca) ++
    (if b.toNat < 2 then [wbufRange b.toNat false] else src b (sparse == 2) (fmtWidth f.2) incb)

def execMxloop (sparse acc : BitVec 2) (a b count inc : KReg) (cluster : Bool) (pair : BitVec 4) (s : State) :
    Host.Outcome State Fault Refusal :=
  issue (.mxloop sparse acc a b count inc cluster pair) s fun x =>
    x.withEngine fun s =>
      let pa := x.k a
      let pb := x.k b
      let inca := bitsAt (x.k inc).toNat 0 32
      let incb := bitsAt (x.k inc).toNat 32 32
      let cnt := bitsAt (x.k count).toNat 0 32
      let start := bitsAt (x.k count).toNat 32 32
      if sparse = 3 || 12 ≤ pair.toNat then x.fail Cause.undefFunction
      else if cluster && !x.g.cluster then x.fail Cause.mxCluster
      else if cluster && sparse ≠ 0 then x.fail Cause.mxOperand
      else if !mxSource pa 4 || !mxSource pb 2 || inca % 256 ≠ 0 || incb % 256 ≠ 0 then x.fail Cause.mxOperand
      else if pb.toNat < 2 && incb ≠ 0 then x.fail Cause.mxOperand
      else
        let op : MxOp := .loop acc.toNat sparse.toNat pa pb cnt start inca incb pair.toNat cluster false
        let ranges (c : Nat) : List LockRange :=
          loopRanges s { x.ag with core := some c } acc.toNat sparse.toNat pa pb cnt start inca incb pair.toNat
        x.queueMx s op ranges fun id => noteLoop x.core acc.toNat cluster id .busy

/-! ## MXWB, MXCLR, MXST, MXLD (07 R148, R151 to R153) -/

/-- The formats a weight half takes. -/
def weightFmt (c : Nat) : Bool := c == 3 || c == 4 || c == 5 || c == 6 || c == 7 || c == 8 || c == 0x0C || c == 0x0E || c == 0x10

def execMxwb (mode : WMode) (src ctl len : KReg) (s : State) : Host.Outcome State Fault Refusal :=
  issue (.mxwb mode src ctl len) s fun x =>
    x.withEngine fun s =>
      let p := x.k src
      let c := (x.k ctl).toNat
      let n := (x.k len).toNat
      if 64 ≤ c || !weightFmt (bitsAt c 1 5) || n < 256 || 1048576 < n || n % 256 ≠ 0 || !(p == 0 || scrMult p 256) then
        x.fail Cause.mxOperand
      else
        x.queueMx s (.wb mode p (bitsAt c 0 1) ((fmtOf (bitsAt c 1 5)).getD .i8) n)
          (fun _ => [wbufRange (bitsAt c 0 1) true] ++ (if p = 0 then [] else operandRange s x.ag p n)) fun _ s => s

def execMxclr (cluster intKind : Bool) (acc : BitVec 2) (s : State) : Host.Outcome State Fault Refusal :=
  issue (.mxclr cluster intKind acc) s fun x =>
    x.withEngine fun s =>
      if cluster && !x.g.cluster then x.fail Cause.mxCluster
      else
        let r := x.queueMx s (.clr acc.toNat intKind cluster) (fun _ => [accRange acc.toNat true]) fun _ s => s
        let mark (s : State) : State :=
          (enginesOf x.core cluster).foldl (fun s c => modMx s c fun m => { m with issuedKind := m.issuedKind.set acc.toNat intKind }) s
        match r with
        | .next s l => .next (mark s) l
        | r => r

/-- The issued KIND of every engine that a delivery acts on permits its target (07 R151 to R153). -/
def kindsAllow (s : State) (core acc : Nat) (cluster : Bool) (target : Bool → Bool) : Bool :=
  (enginesOf core cluster).all fun c => target ((s.core c).mx.issuedKind.getD acc false)

/-- The formats that MXST and MXLD deliver for a KIND. -/
def storeTarget (kind : Bool) (f : Fmt) : Bool :=
  if kind then f == .i32 || f == .i16 || f == .i8 || f == .i4
  else f == .f32 || f == .f16 || f == .bf16 || f == .e4m3 || f == .e5m2 || f == .md8
def loadTarget (kind : Bool) (f : Fmt) : Bool :=
  if kind then f == .i8 || f == .i4 else f == .e4m3 || f == .e5m2 || f == .md8 || f == .bf16 || f == .f16

def execMxst (dst ctl stride : KReg) (s : State) : Host.Outcome State Fault Refusal :=
  issue (.mxst dst ctl stride) s fun x =>
    x.withEngine fun s =>
      let p := x.k dst
      let c := (x.k ctl).toNat
      let n := (x.k stride).toNat
      let acc := bitsAt c 0 2
      let cl := bitAt c 7
      let kind := (s.core x.core).mx.issuedKind.getD acc false
      let okSpace := spaceOf p == 0 || spaceOf p == 1 || spaceOf p == 2 || spaceOf p == 3 || spaceOf p == 7
      match fmtOf (bitsAt c 2 5) with
      | none => x.fail Cause.mxOperand
      | some f =>
        let w := fmtWidth f
        let side := if cl then 256 else 128
        if 256 ≤ c || !kindsAllow s x.core acc (cl && x.g.cluster) (fun k => storeTarget k f) || !okSpace || low60 p % w ≠ 0 || n % w ≠ 0 || n < side * w || (cl && !x.g.cluster) then
          x.fail Cause.mxOperand
        else
          x.queueMx s (.st p acc f cl n kind 0)
            (fun c => [accRange acc false] ++ (if c = x.core then lockRange s x.ag p ((side - 1) * n + side * w) true else []))
            fun _ s => s

def execMxld (ctl off : KReg) (s : State) : Host.Outcome State Fault Refusal :=
  issue (.mxld ctl off) s fun x =>
    x.withEngine fun s =>
      let c := (x.k ctl).toNat
      let o := (x.k off).toNat
      let acc := bitsAt c 0 2
      let cl := bitAt c 9
      let kind := (s.core x.core).mx.issuedKind.getD acc false
      match fmtOf (bitsAt c 4 5) with
      | none => x.fail Cause.mxOperand
      | some f =>
        let w := fmtWidth f
        if 1024 ≤ c || !kindsAllow s x.core acc (cl && x.g.cluster) (fun k => loadTarget k f) || o % 256 ≠ 0 || 262144 < o + 16384 * w || (cl && !x.g.cluster) then x.fail Cause.mxOperand
        else x.queueMx s (.ld acc (bitsAt c 2 2) f cl o kind 0) (fun _ => [accRange acc false, abufRange (bitsAt c 2 2) true]) fun _ s => s

/-! ## MXWAIT and MXSTEP (07 R154, R155) -/

/-- The command is a matrix command of a crew. -/
def EngCmd.mxOf (x : EngCmd) (gid ci : Nat) : Bool :=
  match x.owner, x.body with
  | .crews g cs, .mx _ => g == gid && cs.contains ci
  | _, _ => false

/-- A loop's command in what MXSTEP reports changes to a new state. -/
def setLoop (s : State) (core cmd : Nat) (st : LoopState) : State :=
  let set (s : State) (c : Nat) : State := modMx s c fun m => { m with lastLoop := m.lastLoop.map fun l => if l.1 == cmd then (cmd, st) else l }
  (enginesOf core true).foldl (fun s c => if (s.core c).mx.lastLoop.any fun l => l.1 == cmd then set s c else s) s

def execMxwait (s : State) : Host.Outcome State Fault Refusal :=
  issue .mxwait s fun x =>
    x.withEngine fun s =>
      let x := x.withSt s
      if x.st.cmds.any fun y => y.id < x.bound && y.mxOf x.gid x.ci then x.waitBound
      else
        match x.c.mxStops.find? fun d => d.cmd < x.bound with
        | none => .next x.unbound none
        | some d =>
          if x.c.inHandler then .next x.unbound none
          else
            let s := setLoop (x.unbound.modCrew x.gid x.ci fun c => { c with mxStops := c.mxStops.filter fun e => e.cmd != d.cmd }) x.core d.cmd .idle
            .moved (settle (takeTrap s x.gid x.ci x.lanes x.pc d.cause d.eval true) x.gid)

/-- The state code of MXSTEP. -/
def LoopState.code : LoopState → Nat | .idle => 0 | .busy => 1 | .stopped => 2

def execMxstep (d : KReg) (acc : BitVec 2) (s : State) : Host.Outcome State Fault Refusal :=
  issue (.mxstep d acc) s fun x =>
    x.withEngine fun s =>
      let m := (s.core x.core).mx
      let v := (m.accs.getD acc.toNat Acc.reset).step % 2 ^ 32 + LoopState.code (m.lastLoop.getD acc.toNat (0, .idle)).2 * 2 ^ 32
      .next (s.modCrew x.gid x.ci fun c => c.setK d (BitVec.ofNat 64 v)) none

/-! ## Operand blocks (07 R143, R146, R149) -/

/-- `n` bits of SCR within the gang's allocation, at offset `off` of a pointer (07 R145, R148). -/
def operandRead (s : State) (ag : Agent) (p : Dword) (off n : Nat) : Except Nat Nat :=
  if ag.scratch * 8 < low60 p + off + n then .error Cause.scratchBounds else engineRead s ag (ptrAdd p off) n .free

/-- `n` bits at offset `off` of a source: an A buffer below `bufs`, or a pointer. -/
def readA (s : State) (ag : Agent) (core : Nat) (p : Dword) (off n : Nat) : Except Nat Nat :=
  if p.toNat < 4 then
    if off + n ≤ 2 ^ 18 then .ok (s.mem.bits (abufKey core p.toNat * 8 + off) n) else .error Cause.mxOperand
  else operandRead s ag p off n

/-- `n` bits at offset `off` of a weight half, within WLEN, or of a pointer. -/
def readB (s : State) (ag : Agent) (core : Nat) (p : Dword) (off n : Nat) : Except Nat Nat :=
  if p.toNat < 2 then
    if off + n ≤ ((s.core core).mx.halves.getD p.toNat Half.reset).len then .ok (s.mem.bits (wbufKey core p.toNat * 8 + off) n)
    else .error Cause.mxOperand
  else operandRead s ag p off n

/-- Elements of `w` bits. -/
def splitBits (w : Nat) : Nat → Nat → List Nat
  | 0, _ => []
  | n + 1, v => v % 2 ^ w :: splitBits w n (v / 2 ^ w)

/-- A compressed group as dense columns (07 R149): `vals` values a column, indices of `ib` bits, for the two k of a k-pair
whose first k within the group is `rel`; none when a column names a position twice (07 R150). -/
def expandGroup (w vals ib rel : Nat) (bits : Nat) : Option (List Nat) :=
  let idx (j t : Nat) : Nat := bitsAt bits (128 * vals * w + vals * ib * j + ib * t) ib
  let val (j t : Nat) : Nat := bitsAt bits ((vals * j + t) * w) w
  let twice (j : Nat) : Bool := (List.range vals).any fun t => (List.range t).any fun u => idx j t == idx j u
  if (List.range 128).any twice then none
  else
    some ((List.range 128).flatMap fun j => (List.range 2).map fun p =>
      match (List.range vals).find? fun t => idx j t == rel + p with
      | some t => val j t
      | none => 0)

/-- The B elements of k-pair `q`, in the order B[2q][0], B[2q+1][0], B[2q][1], … (07 R143, R149). -/
def blockB (s : State) (ag : Agent) (core : Nat) (p : Dword) (w incb q : Nat) : Except Nat (List Nat) :=
  let dense (off : Nat) : Except Nat (List Nat) :=
    match readB s ag core p off (256 * w) with
    | .error e => .error e
    | .ok v => .ok (splitBits w 256 v)
  let packed (vals ib kp : Nat) : Except Nat (List Nat) :=
    let size := 128 * vals * w + 128 * vals * ib
    match readB s ag core p (q / kp * size) size with
    | .error e => .error e
    | .ok v => (match expandGroup w vals ib (2 * (q % kp)) v with | some l => .ok l | none => .error Cause.sparseMeta)
  if p.toNat < 2 then
    match ((s.core core).mx.halves.getD p.toNat Half.reset).mode with
    | .dense => dense (q * 256 * w)
    | .s24 => packed 2 2 2
    | .s48 => packed 4 3 4
    | .bitmap => .error Cause.mxOperand
  else dense (q * incb)

/-- Where a walk of sparse blocks ends (07 R146). -/
inductive Walk where
  /-- Expanded step found: its k-pair and the offset of its dense block. -/
  | at (q off : Nat)
  /-- Every block walked: the number of present k-pairs. -/
  | done (total : Nat)
  /-- Stopped with a cause at a STEP. -/
  | bad (cause step : Nat)
  deriving DecidableEq, Repr

/-- The present k-pairs of a header, ascending. -/
def presentPairs (h : Nat) : List Nat := (List.range 16).filter fun i => bitAt h i

/-- Walk the blocks from block `b` at offset `off`, whose first expanded step is `e`, to expanded step `t`. -/
def walkBlocks (read : Nat → Nat → Except Nat Nat) (w t : Nat) : Nat → Nat → Nat → Nat → Walk
  | 0, _, _, e => .done e
  | left + 1, b, off, e =>
    match read off 256 with
    | .error c => .bad c (max e t)
    | .ok h =>
      if h / 2 ^ 16 ≠ 0 then .bad Cause.sparseMeta e
      else
        let ps := presentPairs h
        match ps[t - e]? with
        | some i => if e ≤ t then .at (16 * b + i) (off + 256 + (t - e) * 256 * w) else .done e
        | none => walkBlocks read w t left (b + 1) (off + 256 + ps.length * 256 * w) (e + ps.length)

/-! ## A step (07 R145 to R147; 06 R125 to R127) -/

/-- What one engine needs for its next step: the elements of A and B, the end of the loop, or a stop. -/
inductive StepFetch where
  | go (a b : List Nat)
  | done (step : Nat)
  | stop (cause step : Nat)
  deriving DecidableEq, Repr

/-- An engine's loop state before its first step: KIND, then the weight half's mode and format. -/
def loopBegin (s : State) (core acc sparse : Nat) (b : Dword) (pair : Nat) : Option Nat :=
  let m := (s.core core).mx
  let h := m.halves.getD b.toNat Half.reset
  if (m.accs.getD acc Acc.reset).intKind != pairInt pair then some Cause.mxOperand
  else if b.toNat < 2 && ((h.mode == .bitmap) != (sparse == 2)) then some Cause.mxOperand
  else none

/-- Fetch both blocks of step `t`. DESIGN CHOICE (log 109): of several failed checks a wrong WFMT comes first, then A's, then B's. -/
def stepFetch (s : State) (ag : Agent) (core sparse : Nat) (a b : Dword) (count inca incb pair t : Nat) : StepFetch :=
  let f := pairFmts pair
  let wa := fmtWidth f.1
  let wb := fmtWidth f.2
  let half := (s.core core).mx.halves.getD b.toNat Half.reset
  let aAt (off : Nat) : Except Nat (List Nat) :=
    match readA s ag core a off (256 * wa) with
    | .error e => .error e
    | .ok v => .ok (splitBits wa 256 v)
  let bAt (off : Nat) : Except Nat (List Nat) :=
    match readB s ag core b off (256 * wb) with
    | .error e => .error e
    | .ok v => .ok (splitBits wb 256 v)
  let both (x y : Except Nat (List Nat)) : StepFetch :=
    match x, y with
    | .ok x, .ok y => .go x y
    | .error e, _ => .stop e t
    | _, .error e => .stop e t
  let checkB (r : StepFetch) : StepFetch := if b.toNat < 2 && half.fmt != f.2 then .stop Cause.mxOperand t else r
  if sparse = 0 then
    if t < count then checkB (both (aAt (t * inca)) (blockB s ag core b wb incb t)) else .done t
  else if sparse = 1 then
    match walkBlocks (readA s ag core a) wa t count 0 0 0 with
    | .bad c e => .stop c e
    | .done n => .done (max n t)
    | .at q off => checkB (both (aAt off) (blockB s ag core b wb incb q))
  else
    match walkBlocks (readB s ag core b) wb t count 0 0 0 with
    | .bad c e => .stop c e
    | .done n => .done (max n t)
    | .at q off => checkB (both (aAt (q * inca)) (bAt off))

/-- Add products, given in element order, to a sparse chain. -/
def addChain {α : Type} (add : Word → α → Word) : Nat → List α → List (Nat × Word) → List (Nat × Word)
  | _, [], chain => chain
  | k, p :: ps, chain =>
    let old : Word := match chain with | (i, w) :: _ => if i = k then w else 0 | [] => 0
    let rest := match chain with | (i, _) :: cs => if i = k then cs else chain | [] => []
    let v := add old p
    if v = 0 then addChain add (k + 1) ps rest else (k, v) :: addChain add (k + 1) ps rest

/-- An F32 chain takes an exact product (06 R125, R126). -/
def chainF (w : Word) (p : XVal × XVal) : Word :=
  BitVec.ofNat 32 (toBin binF32 .rne ((binValue binF32 w.toNat).add .rne (p.1.mul p.2)))

/-- An I32 chain takes a product (06 R127). -/
def chainI (w : Word) (p : Int × Int) : Word := w + BitVec.ofInt 32 (p.1 * p.2)

/-- Element `2i + p` of each row against each column. -/
def crossPairs {α : Type} (a b : List α) : List (α × α) := a.flatMap fun x => b.map fun y => (x, y)

/-- The even or the odd elements of a block. -/
def everyOther {α : Type} (p : Nat) (l : List α) : List α := (l.zipIdx.filter fun x => x.2 % 2 == p).map fun x => x.1

/-- Both products of a step are added to every element. -/
def Acc.addStep (c : Acc) (pair : Nat) (a b : List Nat) : Acc :=
  let f := pairFmts pair
  if pairInt pair then
    let va := a.map (signedOf (fmtWidth f.1))
    let vb := b.map (signedOf (fmtWidth f.2))
    { c with even := addChain chainI 0 (crossPairs (everyOther 0 va) (everyOther 0 vb)) c.even
             odd := addChain chainI 0 (crossPairs (everyOther 1 va) (everyOther 1 vb)) c.odd }
  else
    let va := a.map (valueOf f.1)
    let vb := b.map (valueOf f.2)
    { c with even := addChain chainF 0 (crossPairs (everyOther 0 va) (everyOther 0 vb)) c.even
             odd := addChain chainF 0 (crossPairs (everyOther 1 va) (everyOther 1 vb)) c.odd }

/-- Change an accumulator of an engine. -/
def modAcc (s : State) (core acc : Nat) (f : Acc → Acc) : State := modMx s core fun m => { m with accs := m.accs.modify acc f }

/-- An engine's accumulator. -/
def accOf (s : State) (core acc : Nat) : Acc := (s.core core).mx.accs.getD acc Acc.reset

/-! ## The head of the queue (07 R141) -/

/-- The matrix command at the head of a core's queue. -/
def mxHead (s : State) (core : Nat) : Option (EngCmd × MxOp) :=
  match minBy (fun x => x.id) (s.cmds.filter fun x => (match x.body with | .mx _ => true | _ => false) && x.cores.contains core) with
  | some x => (match x.body with | .mx op => some (x, op) | _ => none)
  | none => none

/-- A command may run: it is at the head of the queue of each core that it acts on, and no earlier command of any of them
conflicts with it (07 R141, R147; 12 R203). -/
def mxReady (s : State) (x : EngCmd) : Bool :=
  !x.paused && x.cores.all fun c => (match mxHead s c with | some h => h.1.id == x.id | none => false) && !blockedBy s c x.id (cmdRanges s c x.id)

/-- The accumulator of a command and its code in EVAL (07 R154). -/
def MxOp.report : MxOp → Nat × Nat
  | .loop c _ _ _ _ _ _ _ _ _ _ => (c, 0)
  | .wb _ _ _ _ _ => (0, 1)
  | .clr c _ _ => (c, 2)
  | .st _ c _ _ _ _ _ => (c, 3)
  | .ld c _ _ _ _ _ _ => (c, 4)

/-- A command stops: its crew's later commands are discarded, and MXWAIT reports it (07 R154). -/
def stopMx (s : State) (x : EngCmd) (op : MxOp) (cause step : Nat) : State :=
  let r := op.report
  let eval : Dword := BitVec.ofNat 64 (step % 2 ^ 32 + r.1 * 2 ^ 32 + r.2 * 2 ^ 34)
  let mark (cs : List Nat) (c : Crew) : Crew := if cs.contains c.index then { c with mxStops := c.mxStops ++ [⟨x.id, cause, eval, r.1⟩] } else c
  let note (s : State) (gid : Nat) (cs : List Nat) : State := s.modGang gid fun g => { g with crews := g.crews.map (mark cs) }
  match x.owner with
  | .crews gid cs =>
    let later := (s.cmds.filter fun y => x.id < y.id && cs.any fun ci => y.mxOf gid ci).map fun y => y.id
    let s := setLoop (note s gid cs) x.core x.id .stopped
    let s := later.foldl (fun s id => endCmd (setLoop s x.core id .idle) id) s
    settleOwner (startHoists (endCmd s x.id)) x.owner
  | .node _ _ => startHoists (endCmd s x.id)

/-- A command completes. -/
def doneMx (s : State) (x : EngCmd) : State := settleOwner (startHoists (endCmd (setLoop s x.core x.id .idle) x.id)) x.owner

/-- The agent of engine `c` for a command. -/
def EngCmd.engineAgent (x : EngCmd) (s : State) (c : Nat) : Agent := { x.agent s with core := some c }

/-- Set STEP of every engine of a loop. -/
def setStep (s : State) (es : List Nat) (acc n : Nat) : State := es.foldl (fun s c => modAcc s c acc fun a => { a with step := n }) s

/-- The fetches of all engines, and the stop of the lowest that has one (07 R147). -/
def firstStop (l : List StepFetch) : Option (Nat × Nat) :=
  l.findSome? fun f => match f with | .stop c e => some (c, e) | _ => none

/-- The end that some engine reports. -/
def firstDone (l : List StepFetch) : Option Nat := l.findSome? fun f => match f with | .done n => some n | _ => none

/-- After a step, or in place of one: stop, complete, or stay. -/
def loopCheck (s : State) (x : EngCmd) (op : MxOp) (es : List Nat) (acc : Nat) (fetches : List StepFetch) : Option State :=
  match firstStop fetches with
  | some (c, e) => some (stopMx (setStep s es acc e) x op c e)
  | none =>
    match firstDone fetches with
    | some n => some (doneMx (setStep s es acc n) x)
    | none => none

/-- One step of the loop at the head (07 R145 to R147). -/
def loopStep (s : State) (x : EngCmd) (acc sparse : Nat) (a b : Dword) (count start inca incb pair : Nat) (cluster began : Bool) : State :=
  let op : MxOp := .loop acc sparse a b count start inca incb pair cluster true
  let es := enginesOf x.core cluster
  let s := if began then s else s.modCmd x.id fun y => { y with body := .mx op }
  let s := if began then s else setStep s es acc start
  match if began then none else es.findSome? fun c => loopBegin s c acc sparse b pair with
  | some c => stopMx s x op c start
  | none =>
    let t := (accOf s x.core acc).step
    let fetch (s : State) (t : Nat) : List StepFetch :=
      es.map fun c => stepFetch s (x.engineAgent s c) c sparse a b count inca incb pair t
    match loopCheck s x op es acc (fetch s t) with
    | some s => s
    | none =>
      let s := (es.zip (fetch s t)).foldl (fun s p =>
        match p.2 with
        | .go va vb => modAcc s p.1 acc fun c => { c.addStep pair va vb with step := t + 1 }
        | _ => s) s
      -- a loop whose last step this was completes with it
      match firstStop (fetch s (t + 1)), firstDone (fetch s (t + 1)) with
      | none, some n => doneMx (setStep s es acc n) x
      | _, _ => s

/-- MATRIX_STEP; nothing when no loop is at the head, or it may not run now. -/
def execMatrixStep (core : Nat) (s : State) : Host.Outcome State Fault Refusal :=
  match mxHead s core with
  | some (x, .loop acc sparse a b count start inca incb pair cluster began) =>
    .next (if mxReady s x then loopStep s x acc sparse a b count start inca incb pair cluster began else s)
  | _ => .next s

/-! ## Delivery (07 R152, R153) -/

/-- The value of element `k` of a chain. -/
def chainAt (l : List (Nat × Word)) (k : Nat) : Word := match l.find? fun p => p.1 == k with | some p => p.2 | none => 0

/-- The delivered element (06 R126, R127, R124). -/
def Acc.deliver (c : Acc) (f : Fmt) (k : Nat) : Nat :=
  let e := chainAt c.even k
  let o := chainAt c.odd k
  if c.intKind then convert .rne .i32 f (e + o).toNat else convert .rne .f32 f (addF32 e o).toNat

/-- Store elements of an MXST from position `pos` on, `fuel` of them: the machine, with the position and cause of one that
failed. Position `16384 e + 128 i + j` is element (i, j) of engine `e`. -/
def storeElems (x : EngCmd) (es : List Nat) (dst : Dword) (acc : Nat) (f : Fmt) (stride : Nat) : Nat → Nat → State → State × Option (Nat × Dword × Nat)
  | 0, _, s => (s, none)
  | fuel + 1, pos, s =>
    let e := pos / 16384
    let i := pos / 128 % 128 + (if es.length = 1 then 0 else 128 * (e / 2))
    let j := pos % 128 + (if es.length = 1 then 0 else 128 * (e % 2))
    let p := ptrAdd dst (i * stride + j * fmtWidth f)
    match engineWrite s (x.agent s) p (fmtWidth f) ((accOf s (es.getD e x.core) acc).deliver f (pos % 16384)) (.plain (fmtWidth f)) with
    | .error c => (s, some (pos, p, c))
    | .ok s => storeElems x es dst acc f stride fuel (pos + 1) (abortFor s x.owner (x.agent s) p (fmtWidth f))

/-- MXST at the head. -/
def runMxst (s : State) (x : EngCmd) (op : MxOp) (dst : Dword) (acc : Nat) (f : Fmt) (cluster : Bool) (stride pos : Nat) (kind : Bool) : State :=
  let es := enginesOf x.core cluster
  match storeElems x es dst acc f stride (16384 * es.length - pos) pos s with
  | (s, none) => doneMx s x
  | (s, some (k, p, c)) =>
    if replayable c then
      let s := s.modCmd x.id fun y => { y with body := .mx (.st dst acc f cluster stride kind k) }
      pauseCmd s x p c 1
    else stopMx s x op c (k % 16384)

/-- MXLD at the head: element (i, j) lands in the A block of k-pair j / 2. -/
def runMxld (s : State) (x : EngCmd) (acc buf : Nat) (f : Fmt) (cluster : Bool) (off : Nat) : State :=
  let w := fmtWidth f
  let put (s : State) (c : Nat) : State :=
    let a := accOf s c acc
    let m := (List.range 16384).foldl (fun m k =>
      m.setBits (abufKey c buf * 8 + off + k % 128 / 2 * 256 * w + (2 * (k / 128) + k % 2) * w) w (a.deliver f k)) s.mem
    { s with mem := m }
  doneMx ((enginesOf x.core cluster).foldl put s) x

/-- MXWB at the head (07 R148). -/
def runMxwb (s : State) (x : EngCmd) (op : MxOp) (mode : WMode) (src : Dword) (half : Nat) (f : Fmt) (len : Nat) : State :=
  let set (s : State) : State := modMx s x.core fun m => { m with halves := m.halves.set half ⟨mode, f, len⟩ }
  if src = 0 then doneMx (set s) x
  else
    match operandRead s (x.agent s) src 0 len with
    | .error c => stopMx s x op c 0
    | .ok v => doneMx (set { s with mem := s.mem.setBits (wbufKey x.core half * 8) len v }) x

/-- The KIND a delivery was checked against is still the accumulator's (07 R151). -/
def kindHolds (s : State) (core acc : Nat) (cluster kind : Bool) : Bool :=
  (enginesOf core cluster).all fun c => (accOf s c acc).intKind == kind

/-- The queued command at the head, other than a loop, runs. -/
def runMx (s : State) (x : EngCmd) (op : MxOp) : State :=
  match op with
  | .loop _ _ _ _ _ _ _ _ _ _ _ => s
  | .clr acc k cluster => doneMx ((enginesOf x.core cluster).foldl (fun s c => modAcc s c acc fun _ => ⟨[], [], k, 0⟩) s) x
  | .wb mode src half f len => runMxwb s x op mode src half f len
  | .st dst acc f cluster stride kind pos =>
    if kindHolds s x.core acc cluster kind then runMxst s x op dst acc f cluster stride pos kind else stopMx s x op Cause.mxOperand pos
  | .ld acc buf f cluster off kind _ =>
    if kindHolds s x.core acc cluster kind then runMxld s x acc buf f cluster off else stopMx s x op Cause.mxOperand 0

/-- MATRIX_COMMAND_COMPLETE; nothing when no such command is at the head, or it may not run now. -/
def execMatrixCommandComplete (core : Nat) (s : State) : Host.Outcome State Fault Refusal :=
  match mxHead s core with
  | some (x, op) => .next (if mxReady s x then runMx s x op else s)
  | none => .next s

end Sys2Proof.Machine
end

