-- ==== Sys2Proof/Machine/Spring.lean ====
section
/-! DEFINITION. Machine/Spring.lean: the spring array (13 R224 to R236): its instructions, the update of a colour, and the
commands that its queue performs. -/

namespace Sys2Proof.Machine

/-! ## Holding the array (13 R225) -/

/-- The die of a core. -/
def dieOf (core : Nat) : Nat := core / 64

/-- The launch holds the array of a die, or shares its graph's hold. -/
def springHeld (s : State) (die : Nat) (l : Launch) : Bool :=
  match (s.spring die).holder with
  | some (.launch id) => id == l.id
  | some (.graph g) => l.image.spring && (match l.owner with | .node h _ => h == g | .phase _ => false)
  | none => false

/-- An array at the start of ownership. -/
def Spring.fresh (h : SpHolder) : Spring := { Spring.reset with holder := some h }

/-- The queue of the array is full. -/
def springFull (s : State) (die : Nat) : Bool := 16 ≤ (s.spring die).queue.length

/-- Add a command to the queue of a die. -/
def pushSpring (s : State) (die core : Nat) (owner : CmdOwner) (lanes : Mask) (op : SpOp) : State :=
  match s.fresh with
  | (id, s) => s.modSpring die fun p => { p with queue := p.queue ++ [⟨id, owner, core, lanes, op, false⟩] }

/-- Ownership, then the operands' cause, then the queue (13 R225). -/
def Ctx.spring (x : Ctx) (bad : Option (Nat × Dword)) (op : SpOp) (waits : Bool) (before : State → State) : Res :=
  let die := dieOf x.core
  if !(match x.launch with | some l => springHeld x.st die l | none => false) then x.fail Cause.springBusy
  else
    match bad with
    | some (c, p) => .trap c p false
    | none =>
      if springFull x.st die then .wait x.st .engine false
      else
        let s := pushSpring (before x.st) die x.core (.crews x.gid [x.ci]) (if waits then x.lanes else 0) op
        if waits then .wait s .engine true else .next s none

/-- DEV, DEVS, VLT or LOC, and SCR where allowed. -/
def springSpace (p : Dword) (scr : Bool) : Bool :=
  spaceOf p == 0 || spaceOf p == 1 || spaceOf p == 2 || spaceOf p == 7 || (scr && spaceOf p == 3)

/-- FIRST and COUNT of a variable range. -/
def rangeFirst (r : Dword) : Nat := bitsAt r.toNat 0 16
def rangeCount (r : Dword) : Nat := bitsAt r.toNat 16 17

/-- A variable range breaks its own limits. -/
def rangeMalformed (r : Dword) : Bool := rangeCount r == 0 || 65536 < rangeCount r || bitsAt r.toNat 33 31 != 0

/-- The cause of the value array of an SPCLAMP or the destination of an SPREAD, after the range beyond NVAR (13 R232, R234;
log 85). -/
def springPtr (p : Dword) : Option (Nat × Dword) :=
  match spaceCause p with
  | some c => some (c, p)
  | none => if springSpace p true then none else some (Cause.springRange, p)

/-- The cause of an SPREAD's destination: its pointer, then its alignment (13 R234). -/
def destCause (dst : Dword) (ones : Bool) : Option (Nat × Dword) :=
  match springPtr dst with
  | some c => some c
  | none => if ones && low60 dst % 16 ≠ 0 then some (Cause.misaligned, dst) else none

/-- The operands of SPLOAD, of a variable range, and of SPSWEEP, checked at issue (13 R231 to R234). -/
def loadCause (image : Dword) : Option (Nat × Dword) :=
  if springSpace image false && low60 image % 512 == 0 then none else some (Cause.springImage, 0)
def rangeCause (range : Dword) : Option (Nat × Dword) := if rangeMalformed range then some (Cause.springRange, 0) else none
def sweepCause (count beta : Dword) : Option (Nat × Dword) :=
  if count.toNat = 0 ∨ 2 ^ 32 ≤ count.toNat ∨ 512 ≤ beta.toNat then some (Cause.springRange, 0) else none

/-- The sweep that a count and a BETA control queue. -/
def sweepOp (count beta : Dword) (clr : Bool) : SpOp :=
  .sweep count.toNat (if beta.getLsbD 8 then some (beta.extractLsb' 0 8) else none) clr false 0

/-- The bits that a read writes. -/
def readBits (range : Dword) (ones : Bool) : Nat := rangeCount range * (if ones then 16 else 1)

/-- At issue of a read, the destination's lines leave the core's data cache (14 R242). -/
def readEnter (s : State) (ag : Agent) (core : Nat) (dst range : Dword) (ones : Bool) : State :=
  enterRanges s core ag.fn (lockRange s ag dst (readBits range ones) true)

/-! ## The instructions -/

def execSpload (image : KReg) (s : State) : Host.Outcome State Fault Refusal :=
  issue (.spload image) s fun x => x.spring (loadCause (x.k image)) (.load (x.k image) none) true fun s => writeBackAll s x.core

def execSpclamp (range values : KReg) (s : State) : Host.Outcome State Fault Refusal :=
  issue (.spclamp range values) s fun x =>
    let r := x.k range
    x.spring (rangeCause r) (.clamp (rangeFirst r) (rangeCount r) (x.k values) []) true fun s => writeBackAll s x.core

def execSpclampFree (range : KReg) (s : State) : Host.Outcome State Fault Refusal :=
  issue (.spclampFree range) s fun x =>
    let r := x.k range
    x.spring (rangeCause r) (.free (rangeFirst r) (rangeCount r)) true fun s => writeBackAll s x.core

def execSpclampSet (range values : KReg) (s : State) : Host.Outcome State Fault Refusal :=
  issue (.spclampSet range values) s fun x =>
    let r := x.k range
    x.spring (rangeCause r) (.set (rangeFirst r) (rangeCount r) (x.k values) []) true fun s => writeBackAll s x.core

def execSpsweep (count beta : KReg) (clr : Bool) (s : State) : Host.Outcome State Fault Refusal :=
  issue (.spsweep count beta clr) s fun x =>
    x.spring (sweepCause (x.k count) (x.k beta)) (sweepOp (x.k count) (x.k beta) clr) false id

def execSpread (dst range : KReg) (s : State) : Host.Outcome State Fault Refusal :=
  issue (.spread dst range) s fun x =>
    let r := x.k range
    x.spring (rangeCause r) (.read (x.k dst) (rangeFirst r) (rangeCount r) false false 0) true fun s =>
      readEnter s x.ag x.core (x.k dst) r false

def execSpreadOnes (dst range : KReg) (clr : Bool) (s : State) : Host.Outcome State Fault Refusal :=
  issue (.spreadOnes dst range clr) s fun x =>
    let r := x.k range
    x.spring (rangeCause r) (.read (x.k dst) (rangeFirst r) (rangeCount r) true clr 0) true fun s =>
      readEnter s x.ag x.core (x.k dst) r true

/-! ## The update rule (13 R228 to R230) -/

/-- The SplitMix64 finaliser. -/
def splitMix (u : BitVec 64) : BitVec 64 :=
  let z := (u ^^^ (u >>> 30)) * 0xBF58476D1CE4E5B9
  let z := (z ^^^ (z >>> 27)) * 0x94D049BB133111EB
  z ^^^ (z >>> 31)

/-- The draw of seeded mode. -/
def seededDraw (seed : Dword) (sweep v c : Nat) : Nat :=
  (splitMix (seed ^^^ BitVec.ofNat 64 (v % 2 ^ 16 * 2 ^ 48 ||| sweep % 2 ^ 44 * 2 ^ 4 ||| c))).toNat % 65536

/-- The probability code of a variable from its field. -/
def updateP (x : SpVar) (beta : BitVec 8) (st : Nat → Bool) : Nat :=
  let field : Int := x.nbrs.foldl (fun a n => a + 16 * n.2.toInt * (if st n.1 then 1 else -1)) x.h.toInt
  let p : Int := clampInt (-32768) 32767 field * beta.toNat
  sigTable (clampInt 0 4095 (2048 + p / 32)).toNat

/-- Every unclamped variable of colour `c` takes its new state; `ctr` counts the draws of entropy mode. -/
def updateVars (sp : Spring) (c : Nat) (st : Nat → Bool) : List SpVar → Nat → Nat → List SpVar × Nat
  | [], _, ctr => ([], ctr)
  | x :: xs, v, ctr =>
    if x.colour = c ∧ !x.cl then
      let r := if sp.entropy then (Config.entropyDraw ctr).toNat else seededDraw sp.seed sp.sweepno v c
      let rest := updateVars sp c st xs (v + 1) (if sp.entropy then ctr + 1 else ctr)
      ({ x with s := r < updateP x sp.beta st } :: rest.1, rest.2)
    else
      let rest := updateVars sp c st xs (v + 1) ctr
      (x :: rest.1, rest.2)

/-- One colour of a sweep; after the last one, the counts and SWEEPNO. -/
def Spring.colour (sp : Spring) (c ctr : Nat) : Spring × Nat :=
  let st := (sp.vars.map fun x => x.s).toArray
  let r := updateVars sp c (fun i => st.getD i false) sp.vars 0 ctr
  let sp := { sp with vars := r.1 }
  if sp.colours ≤ c + 1 then
    ({ sp with vars := sp.vars.map fun x => { x with ones := min (x.ones + if x.s then 1 else 0) 65535 }
               sweepno := (sp.sweepno + 1) % 2 ^ 64 }, r.2)
  else (sp, r.2)

/-- The gangs of a die look at its queue again. -/
def wakeDie (s : State) (die : Nat) : State := wakeGangs s (fun g => dieOf g.core == die) .engine

/-- A command has left the queue: a place is free, and with it the slot of a node's command (01 R18). -/
def leaveArray (s : State) (die : Nat) (q : SpCmd) : State :=
  let s := wakeDie s die
  match q.owner with
  | .node _ _ => startHoists (endCmd s q.id)
  | .crews _ _ => s

/-- One colour of the sweep at the head. -/
def sweepStep (s : State) (die : Nat) (q : SpCmd) (rest : List SpCmd) (left : Nat) (beta : Option (BitVec 8)) (clr began : Bool) (c : Nat) : State :=
  let sp := s.spring die
  let sp := if began then sp else { sp with
    beta := beta.getD sp.beta
    vars := if clr then sp.vars.map fun x => { x with ones := 0 } else sp.vars }
  let r := sp.colour c s.freeCtr
  let last := sp.colours ≤ c + 1
  let left' := if last then left - 1 else left
  let queue := if left' = 0 then rest else { q with op := .sweep left' beta clr true (if last then 0 else c + 1) } :: rest
  let s : State := { s with freeCtr := r.2 }
  let s := s.modSpring die fun _ => { r.1 with queue := queue }
  if left' = 0 then settleOwner (leaveArray s die q) q.owner else s

/-- An image header keeps R226. -/
def imageHeaderOk (h : Nat) : Bool :=
  let nvar := bitsAt h 0 17
  let vars : Dword := BitVec.ofNat 64 (bitsAt h 128 64)
  nvar != 0 && nvar ≤ 65536 && bitsAt h 17 3 == 0 && bitsAt h 25 7 == 0 && bitsAt h 40 24 == 0 && bitsAt h 192 320 == 0 &&
    springSpace vars false && low60 vars % 1024 == 0

/-- The accesses of a command. -/
def SpCmd.agent (q : SpCmd) (s : State) : Agent := (EngCmd.mk 0 q.core 0 0 q.owner (.drain 0 0) false).agent s

/-- The ranges that a node's SPLOAD reads: its header, and the records that the header names as it stands (12 R198, 13 R231). -/
def loadRanges (s : State) (ag : Agent) (image : Dword) : List LockRange :=
  lockRange s ag image 512 false ++
    match engineRead s ag image 512 (.mult 512) with
    | .ok h => if imageHeaderOk h then lockRange s ag (BitVec.ofNat 64 (bitsAt h 128 64)) (1024 * bitsAt h 0 17) false else []
    | .error _ => []

/-- A node's command waits for earlier commands of its core (01 R18, 12 R203; log 86); an earlier one may have written the header
of an SPLOAD, which names the records anew. A command of a gang that is still saved waits for the gang (18 R289). -/
def springWaits (s : State) (q : SpCmd) : Bool :=
  let more := match q.op with | .load image none => loadRanges s (q.agent s) image | _ => []
  match q.owner with
  | .node _ _ => (match s.cmd? q.id with | some x => blockedBy s x.core x.id (cmdRanges s x.core x.id ++ more) | none => false)
  | .crews g _ => (s.gang? g).isNone

/-- SPRING_COLOUR_UPDATE; nothing when no sweep is at the head, or it must wait. -/
def execSpringColourUpdate (die : Nat) (s : State) : Host.Outcome State Fault Refusal :=
  match (s.spring die).queue with
  | q :: rest =>
    match q.op with
    | .sweep left beta clr began c => .next (if springWaits s q then s else sweepStep s die q rest left beta clr began c)
    | _ => .next s
  | [] => .next s

/-! ## The commands that wait (13 R226, R227, R231 to R234) -/

/-- The waiting group of a command: gang, crew and address. -/
def SpCmd.group (q : SpCmd) (s : State) : Option (Nat × Nat × Dword) :=
  match q.owner with
  | .crews gid (ci :: _) => (s.crew? gid ci).map fun c => (gid, ci, (c.lane (firstLane q.lanes)).pc)
  | _ => none

/-- The command at the head leaves the queue. -/
def popSpring (s : State) (die : Nat) (q : SpCmd) : State := leaveArray (s.modSpring die fun p => { p with queue := p.queue.drop 1 }) die q

/-- The command is performed: its group goes on, when its handler does not hold it (18 R279). -/
def springDone (s : State) (die : Nat) (q : SpCmd) : State :=
  let s := popSpring s die q
  match q.group s with
  | some (gid, ci, pc) => settleOwner (giveRes s gid ci q.lanes pc ⟨0, [], [], [], none⟩) q.owner
  | none => s

/-- The command fails: its group traps, or its node ends (13 R231 to R234). -/
def springFail (s : State) (die : Nat) (q : SpCmd) (cause : Nat) (eval : Dword) : State :=
  let s := popSpring s die q
  match q.group s with
  | some (gid, ci, pc) => settleOwner (eventTrap s gid ci q.lanes pc cause eval true) q.owner
  | none => dueTo s q.owner ⟨cause, eval⟩

/-- A replayable cause pauses the command with what it has done (08 R168). -/
def springPause (s : State) (die : Nat) (q : SpCmd) (op : SpOp) (p : Dword) (cause kind : Nat) : State :=
  let s := s.modSpring die fun x => { x with queue := x.queue.map fun y => if y.id == q.id then { y with op := op, paused := true } else y }
  let slot := match q.group s with | some (gid, ci, _) => (match s.crew? gid ci with | some c => c.slot | none => 0) | none => 0
  let pc := match q.group s with | some (_, _, pc) => pc | none => 0
  putRecord s (q.agent s).fn (q.core % 256) (faultRecord p cause kind true false q.core slot 0 pc) 1

/-- What a failed access leads to: a pause, the command then `op`, or a trap with the pointer in EVAL. -/
def springStop (s : State) (die : Nat) (q : SpCmd) (op : SpOp) (p : Dword) (cause kind : Nat) : State :=
  if replayable cause then springPause s die q op p cause kind else springFail s die q cause p

/-- A variable record; none when it breaks R227. -/
def parseVar (nvar colours v rec : Nat) : Option SpVar :=
  let deg := bitsAt rec 20 6
  let nb (n : Nat) : Nat × BitVec 8 := (bitsAt rec (256 + 24 * n) 16, BitVec.ofNat 8 (bitsAt rec (256 + 24 * n + 16) 8))
  let nbrs := (List.range deg).map nb
  if 32 < deg || bitsAt rec 26 6 != 0 || bitsAt rec 33 223 != 0 || bitsAt rec (256 + 24 * deg) (768 - 24 * deg) != 0 ||
      colours ≤ bitsAt rec 16 4 || (nbrs.any fun n => nvar ≤ n.1 || n.1 == v) then none
  else some ⟨BitVec.ofNat 16 (bitsAt rec 0 16), bitsAt rec 16 4, nbrs, bitAt rec 32, false, 0⟩

/-- What stops the reading of an image: a failed access with the records read before it, or a record that breaks its rule. -/
inductive ImageStop where
  | access (p : Dword) (cause : Nat) (taken : Option (Nat × List SpVar))
  | broken (cause : Nat)
  deriving DecidableEq, Repr

/-- Read the records of an image in ascending order, `xs` being those read; `h` is its header. -/
def readVars (s : State) (ag : Agent) (h nvar colours : Nat) : Nat → List SpVar → Except ImageStop (List SpVar)
  | 0, xs => .ok xs
  | n + 1, xs =>
    let p := ptrAdd (BitVec.ofNat 64 (bitsAt h 128 64)) (1024 * xs.length)
    match engineRead s ag p 1024 (.mult 1024) with
    | .error c => .error (.access p c (some (h, xs)))
    | .ok rec =>
      match parseVar nvar colours xs.length rec with
      | none => .error (.broken Cause.springImage)
      | some x => readVars s ag h nvar colours n (xs ++ [x])

/-- A neighbour has its variable's colour. -/
def colourClash (vars : List SpVar) : Bool :=
  let cs := (vars.map fun x => x.colour).toArray
  vars.any fun x => x.nbrs.any fun n => cs.getD n.1 16 == x.colour

/-- The problem of an image from its header's bits, `xs` its records read before. -/
def readProblem (s : State) (ag : Agent) (h : Nat) (xs : List SpVar) : Except ImageStop Spring :=
  let nvar := bitsAt h 0 17
  let colours := bitsAt h 20 4 + 1
  if !imageHeaderOk h then .error (.broken Cause.springImage)
  else
    (readVars s ag h nvar colours (nvar - xs.length) xs).bind fun xs =>
      if colourClash xs then .error (.broken Cause.springColour)
      else .ok { Spring.reset with nvar := nvar, colours := colours, entropy := bitAt h 24, beta := BitVec.ofNat 8 (bitsAt h 32 8)
                                   seed := BitVec.ofNat 64 (bitsAt h 64 64), vars := xs }

/-- The problem of an image: the header, then the records, on from what has been read (08 R168). -/
def readImage (s : State) (ag : Agent) (image : Dword) (taken : Option (Nat × List SpVar)) : Except ImageStop Spring :=
  match taken with
  | some (h, xs) => readProblem s ag h xs
  | none =>
    match engineRead s ag image 512 (.mult 512) with
    | .error c => .error (.access image c none)
    | .ok h => readProblem s ag h []

/-- SPLOAD when performed (13 R231). -/
def performLoad (s : State) (die : Nat) (q : SpCmd) (image : Dword) (taken : Option (Nat × List SpVar)) : State :=
  let empty := s.modSpring die fun x => { x with nvar := 0, vars := [] }
  match readImage s (q.agent s) image taken with
  | .ok n => springDone (s.modSpring die fun p => { n with holder := p.holder, queue := p.queue }) die q
  | .error (.access p c taken) => springStop (if replayable c then s else empty) die q (.load image taken) p c 0
  | .error (.broken c) => springFail empty die q c 0

/-- Change the variables of a range, each with its index within it. -/
def modVars (s : State) (die first count : Nat) (f : Nat → SpVar → SpVar) : State :=
  s.modSpring die fun p => { p with vars := p.vars.mapIdx fun v x => if first ≤ v && v < first + count then f (v - first) x else x }

/-- Read 1-bit values in turn, `vs` being those read: a failed access comes with what was read before it. -/
def readValues (s : State) (ag : Agent) (p : Dword) : Nat → List Bool → Except (Dword × Nat × List Bool) (List Bool)
  | 0, vs => .ok vs
  | n + 1, vs =>
    let e := ptrAdd p vs.length
    match engineRead s ag e 1 .free with
    | .error c => .error (e, c, vs)
    | .ok v => readValues s ag p n (vs ++ [v % 2 == 1])

/-- SPCLAMP and SPCLAMP.set when performed: the range, the value array, its values, then their effect (13 R232). `op` is the
command with the values taken before a pause. -/
def performClamp (s : State) (die : Nat) (q : SpCmd) (first count : Nat) (values : Dword) (taken : List Bool) (op : List Bool → SpOp)
    (f : Bool → SpVar → SpVar) : State :=
  if (s.spring die).nvar < first + count then springFail s die q Cause.springRange 0
  else
    match springPtr values with
    | some (c, p) => springFail s die q c p
    | none =>
      match readValues s (q.agent s) values (count - taken.length) taken with
      | .error (p, c, vs) => springStop s die q (op vs) p c 0
      | .ok vs => springDone (modVars s die first count fun i => f (vs.getD i false)) die q

/-- What an SPREAD writes of a variable: its state, or its count (13 R234). -/
def SpVar.out (x : SpVar) (ones : Bool) : Nat := if ones then x.ones else if x.s then 1 else 0

/-- Write the variables' elements in turn from element `pos`: the number written, the machine, and the failed access. -/
def writeVars (o : CmdOwner) (ag : Agent) (dst : Dword) (ones : Bool) : List SpVar → Nat → State → Nat × State × Option (Dword × Nat)
  | [], pos, s => (pos, s, none)
  | x :: xs, pos, s =>
    let w := if ones then 16 else 1
    let p := ptrAdd dst (pos * w)
    match engineWrite s ag p w (x.out ones) .free with
    | .error c => (pos, s, some (p, c))
    | .ok s => writeVars o ag dst ones xs (pos + 1) (abortFor s o ag p w)

/-- SPREAD when performed, on from element `pos` (13 R234): the counts read with `.clr` are set to 0, also before a stop. -/
def performRead (s : State) (die : Nat) (q : SpCmd) (dst : Dword) (first count : Nat) (ones clr : Bool) (pos : Nat) : State :=
  let ag := q.agent s
  if (s.spring die).nvar < first + count then springFail s die q Cause.springRange 0
  else
    match destCause dst ones with
    | some (c, p) => springFail s die q c p
    | none =>
      match writeVars q.owner ag dst ones (((s.spring die).vars.drop (first + pos)).take (count - pos)) pos s with
      | (n, s, e) =>
        let s := if ones && clr then modVars s die (first + pos) (n - pos) fun _ x => { x with ones := 0 } else s
        match e with
        | some (p, c) => springStop s die q (.read dst first count ones clr n) p c 1
        | none => springDone (leaveRanges s q.core ag.fn (lockRange s ag dst (count * (if ones then 16 else 1)) true)) die q

/-- The command at the head is performed. -/
def performSpring (s : State) (die : Nat) (q : SpCmd) : State :=
  match q.op with
  | .load image taken => performLoad s die q image taken
  | .clamp first count values taken =>
    performClamp s die q first count values taken (.clamp first count values) fun v x => { x with s := v, cl := true }
  | .set first count values taken => performClamp s die q first count values taken (.set first count values) fun v x => { x with s := v }
  | .free first count =>
    if (s.spring die).nvar < first + count then springFail s die q Cause.springRange 0
    else springDone (modVars s die first count fun _ x => { x with cl := false }) die q
  | .read dst first count ones clr pos => performRead s die q dst first count ones clr pos
  | .sweep _ _ _ _ _ => s

/-- SPRING_COMMAND_COMPLETE; nothing when no such command is at the head, or it is paused or must wait. -/
def execSpringCommandComplete (die : Nat) (s : State) : Host.Outcome State Fault Refusal :=
  match (s.spring die).queue with
  | q :: _ => .next (if q.paused || springWaits s q then s else performSpring s die q)
  | [] => .next s

end Sys2Proof.Machine
end

