-- ==== Sys2Proof/Machine/TaskOps.lean ====
section
/-! DEFINITION. Machine/TaskOps.lean: the task instructions (20 R317 to R321). -/

namespace Sys2Proof.Machine

/-! ## TSPAWN (20 R318) -/

/-- A child with its tag. -/
def childTask (u : TaskUnit) (own : Task) (entry ts arg : Dword) (core : Option Nat) : Task :=
  { num := u.nextNum, tag := (ts.toNat, own.children) :: own.tag, parent := some own.num, entry := entry, arg := arg, st := .queued
    core := core, runs := 0, children := 0, reads := [], writes := [], puts := [], deferred := none, front := false }

/-- Add a child of a task to the unit. -/
def addChild (s : State) (launch : Nat) (own : Task) (entry ts arg : Dword) (core : Option Nat) : BitVec 32 × State :=
  let u := unitOf s launch
  let t := childTask u own entry ts arg core
  let s := modUnit s launch fun u => { u with tasks := u.tasks ++ [t], nextNum := u.nextNum + 1 }
  (t.num, modTask s launch own.num fun t => { t with children := t.children + 1 })

/-- Speculative tasks that hold a spawned child. -/
def spawners (s : State) (launch : Nat) : List Task :=
  let ts := (unitOf s launch).tasks
  ts.filter fun t => !t.front && ts.any fun c => c.parent == some t.num

/-- The frontier task makes room for its child (20 R318): the machine, and where the record goes. A slot that an abort frees takes
the earliest record of the area first (20 R301). -/
def makeRoom (launch fn core : Nat) : Nat → State → State × Option (Option Nat)
  | 0, s => (s, placeFor s launch fn core)
  | fuel + 1, s =>
    match placeFor s launch fn core with
    | some p => (s, some p)
    | none =>
      match latest (spawners s launch) with
      | some t => makeRoom launch fn core fuel (fillSlices (abortTask s launch t) launch)
      | none => (s, none)

/-- The child is placed, and its number written. -/
def Ctx.spawned (x : Ctx) (s : State) (own : Task) (entry ts arg : Dword) (num : KReg) (core : Option Nat) : Res :=
  match addChild s x.g.launch own entry ts arg core with
  | (n, s) => .next (s.modCrew x.gid x.ci fun c => c.setK num (n.zeroExtend 64)) none

def execTspawn (entry ts arg num : KReg) (s : State) : Host.Outcome State Fault Refusal :=
  issue (.tspawn entry ts arg num) s fun x =>
    let e := x.k entry
    match x.task with
    | none => x.fail Cause.taskOutside
    | some own =>
      if !isDev e then x.fail Cause.fetchSpace
      else if e.toNat % 32 ≠ 0 then x.fail Cause.misaligned
      else if (x.k ts).toNat < (own.tag.headD (0, 0)).1 then x.fail Cause.tsRegress
      else if 65536 ≤ own.children then .trap Cause.taskParam 1 false
      else
        match placeFor x.st x.g.launch x.fn x.core with
        | some p => x.spawned x.st own e (x.k ts) (x.k arg) num p
        | none =>
          if !own.front then
            .wait (x.upd fun c => { c with bounds := c.bounds ++ [⟨x.pc, x.lanes, 0⟩] }) .frontier false
          else
            match makeRoom x.g.launch x.fn x.core (unitOf x.st x.g.launch).tasks.length x.st with
            | (s, some p) => x.spawned s own e (x.k ts) (x.k arg) num p
            | (s, none) => .moved (settle (takeTrap s x.gid x.ci x.lanes x.pc Cause.taskParam 2 false) x.gid)

/-! ## TEND, TQRY, TWAITW (20 R319 to R321) -/

def execTend (s : State) : Host.Outcome State Fault Refusal := issue .tend s fun x => x.exit

/-- The state of a task as TQRY reads it. -/
def taskWord (t : Task) : Dword := BitVec.ofNat 64 ((if t.front then 1 else 0) + t.reads.length % 512 * 2 + t.children * 2 ^ 16)

def execTqry (d : KReg) (s : State) : Host.Outcome State Fault Refusal :=
  issue (.tqry d) s fun x =>
    match x.task with
    | some t => x.setK d (taskWord t)
    | none => x.fail Cause.taskOutside

/-- The code of a task's state (20 R320). -/
def TaskState.code : TaskState → Nat | .queued => 0 | .running => 1 | .finished => 2

def execTqryTask (num d : KReg) (s : State) : Host.Outcome State Fault Refusal :=
  issue (.tqryTask num d) s fun x =>
    let n := x.k num
    let v := if 2 ^ 32 ≤ n.toNat then 3
      else match taskNumbered x.st x.g.launch (n.extractLsb' 0 32) with
        | some t => TaskState.code t.st
        | none => 3
    x.setK d (BitVec.ofNat 64 v)

/-- TWAITW in the frontier task; a speculative task waits as every irrevocable operation does (`before`). -/
def execTwaitw (s : State) : Host.Outcome State Fault Refusal := issue .twaitw s fun x => .next x.st none

end Sys2Proof.Machine
end

