-- ==== Sys2Proof/Machine/Routing.lean ====
section
/-! DEFINITION. Machine/Routing.lean: sorted lists (17 R266, R267), tape entries and tape nodes (R268 to R271). -/

namespace Sys2Proof.Machine

/-! ## TKINS (17 R266, R267) -/

/-- A candidate ranks above an entry. -/
def ranksAbove (a : Word) (x : Word) (e : Word × Word) : Bool :=
  let va := binValue binF32 a.toNat
  let vs := binValue binF32 e.1.toNat
  if va.isNan || vs.isNan then false else XVal.lt vs va || (!XVal.lt va vs && x.toNat < e.2.toNat)

/-- The first entry that a candidate ranks above. -/
def insertAt (a x : Word) (l : List (Word × Word)) : Option Nat :=
  let p := l.findIdx (ranksAbove a x)
  if p < l.length then some p else none

/-- The list after the insertion at `p`. -/
def insertList (a x : Word) (p : Nat) (l : List (Word × Word)) : List (Word × Word) := (l.take p ++ (a, x) :: l.drop p).take l.length

/-- The list registers carry their tags. -/
def listTags (c : Crew) (d k : Nat) : Bool :=
  (List.range k).all fun i => (c.vreg (d + 2 * i)).fmt == .f32 && classX (c.vreg (d + 2 * i + 1)).fmt

/-- The registers after TKINS. -/
def Crew.tkins (c : Crew) (d k : Nat) (lanes : Mask) (a b : VVal) : Crew :=
  let entry (i lane : Nat) : Word × Word := ((c.vreg (d + 2 * i)).val.lane lane, (c.vreg (d + 2 * i + 1)).val.lane lane)
  let list (lane : Nat) : List (Word × Word) := (List.range k).map fun i => entry i lane
  let place (lane : Nat) : Nat := (insertAt (a.lane lane) (b.lane lane) (list lane)).getD k
  let new (lane : Nat) : List (Word × Word) := insertList (a.lane lane) (b.lane lane) (place lane) (list lane)
  let uni := a.shape == 1 && b.shape == 1 && (List.range (2 * k)).all fun i => (c.vreg (d + i)).val.shape == 1
  let value (f : Nat → Word) : VVal := if uni then .uni (f (firstLane lanes)) else .ofLanes f
  (List.range k).foldl (fun w i =>
    let hit := maskOf fun lane => lanes.getLsbD lane && place lane ≤ i
    if hit == 0 then w
    else
      (w.write32 (BitVec.ofNat 7 (d + 2 * i)) hit (value fun lane => ((new lane).getD i (0, 0)).1) .f32).write32
        (BitVec.ofNat 7 (d + 2 * i + 1)) hit (value fun lane => ((new lane).getD i (0, 0)).2) .n32) c

def execTkins (d a b : Reg) (k : BitVec 3) (s : State) : Host.Outcome State Fault Refusal :=
  issue (.tkins d a b k) s fun x =>
    x.with2 a b fun p q =>
      if !p.isIn (· == .f32) || !q.isX || !listTags x.c d.toNat (k.toNat + 1) then x.fail Cause.tagMismatch
      else .next (x.upd fun c => c.tkins d.toNat (k.toNat + 1) x.lanes p.lo q.lo) none

/-! ## TAPEX (17 R269, R270) -/

/-- An entry breaks R269. -/
def tapeBad (e : Nat) : Bool :=
  4 ≤ bitsAt e 0 4 || 12 ≤ bitsAt e 4 4 || ((bitsAt e 0 4 == 1 || bitsAt e 0 4 == 2) && bitsAt e 32 16 % 2 == 0) ||
    bitsAt e 60 4 != 0 || bitsAt e 92 4 != 0 || bitsAt e 126 2 != 0

/-- The ten values of an entry. -/
def tapeFields (e : Nat) : List Nat :=
  [bitsAt e 0 8, bitsAt e 8 12 + 1, bitsAt e 20 12 + 1, bitsAt e 32 16 + 1, bitsAt e 48 12, bitsAt e 64 16, bitsAt e 80 12,
    bitsAt e 96 10, bitsAt e 106 10, bitsAt e 116 10]

/-- The entry of a lane, held in four registers; z holds zeros. -/
def Crew.tapeEntry (c : Crew) (a : Reg) (lane : Nat) : Nat :=
  if 112 ≤ a.toNat then 0
  else (List.range 4).foldl (fun v k => v + ((c.vreg (a.toNat + k)).val.lane lane).toNat * 2 ^ (32 * k)) 0

/-- A and A + 2 carry class W. -/
def Crew.tapeTags (c : Crew) (a : Reg) : Bool :=
  a.toNat == 120 || (a.toNat < 112 && classW (c.vreg a.toNat).fmt && classW (c.vreg (a.toNat + 2)).fmt)

def execTapex (d a : Reg) (s : State) : Host.Outcome State Fault Refusal :=
  issue (.tapex d a) s fun x =>
    let e (i : Nat) : Nat := x.c.tapeEntry a i
    let uni := a.toNat == 120 || (List.range 4).all fun k => (x.c.vreg (a.toNat + k)).val.shape == 1
    if !x.c.tapeTags a then x.fail Cause.tagMismatch
    else if (lanesOf x.lanes).any fun i => tapeBad (e i) then x.fail Cause.tapeBad
    else
      let value (k : Nat) : VVal :=
        let f (i : Nat) : Word := BitVec.ofNat 32 ((tapeFields (e i)).getD k 0)
        if uni then .uni (f x.low) else .ofLanes f
      .next (x.upd fun c => (List.range 10).foldl (fun c k => c.write32 (d + BitVec.ofNat 7 k) x.lanes (value k) .n32) c) none

/-! ## Tape nodes (17 R271) -/

/-- The BODY pointer of a node. -/
def nodeBody (s : State) (gr n : Nat) : Dword := match (s.graph? gr).bind fun g => g.nodes[n]? with | some x => x.body | none => 0

def execTapexTake (d : Reg) (s : State) : Host.Outcome State Fault Refusal :=
  issue (.tapexTake d) s fun x =>
    let r := x.st.core x.core
    if x.c.tape.isSome then x.fail Cause.tapeBad
    else if (match r.interp with | some g => g != x.gid | none => false) then x.fail Cause.tapeBusy
    else
      let s := x.st.modCore x.core fun r => { r with interp := some x.gid }
      match r.tapes with
      | [] => .wait s .engine false
      | (gr, n) :: rest =>
        let p := nodeBody s gr n
        let s := flushCache (s.modCore x.core fun r => { r with tapes := rest }) x.core
        .next (s.modCrew x.gid x.ci fun c =>
          { c with tape := some (gr, n) }.write64 d x.lanes (.uni (p.extractLsb' 0 32)) (.uni (p.extractLsb' 32 32)) .ptr) none

/-- Some engine command of a gang is outstanding (01 R6). -/
def engineBusy (s : State) (gid : Nat) : Bool :=
  let mine (o : CmdOwner) : Bool := match o with | .crews g _ => g == gid | .node _ _ => false
  (s.cmds.any fun x => mine x.owner) || (s.springs.any fun p => p.queue.any fun q => mine q.owner)

/-- A queue record that a gang's threads have sent is on its way. -/
def sendBusy (s : State) (gid : Nat) : Bool := recordsOut s gid (fun _ => true) (fun _ => true) || farRecordsOut s gid fun _ => true

/-- A gang is not over yet: engine commands are outstanding (01 R6), or queue records, which the increment at its end releases (01
R8, 15 R263). -/
def gangBusy (s : State) (gid : Nat) : Bool := engineBusy s gid || sendBusy s gid

/-- A cancel of the node's graph has become visible: its own, or the one that a fault in it makes (01 R8). -/
def graphCancelled (s : State) (gr : Nat) : Bool := match s.graph? gr with | some g => g.counter.st == .cancelled || g.counter.st == .faulted | none => true

/-- The node ends, which is a release of every bit at system scope (14 R241). -/
def execTapexDone (d : Reg) (s : State) : Host.Outcome State Fault Refusal :=
  issue (.tapexDone d) s fun x =>
    x.takeDue (match x.c.tape with
      | none => x.fail Cause.tapeBad
      | some (gr, n) =>
        if engineBusy x.st x.gid then .wait x.st .engine false
        -- records on their way wake the groups that wait for queues (15 R263)
        else if sendBusy x.st x.gid then .wait x.st .queue false
        else
          let how : CState := if graphCancelled x.st gr then .cancelled else .done
          let s := (writeBackAll x.st x.core).modGraph gr fun g => { g with nodes := g.nodes.modify n fun y => { y with st := .over how } }
          .next (s.modCrew x.gid x.ci fun c =>
            { c with tape := none }.write32 d x.lanes (.uni (if how = CState.cancelled then 1 else 0)) .n32) none)

end Sys2Proof.Machine
end

