-- ==== Sys2Proof/Machine/Place.lean ====
section
/-! DEFINITION. Machine/Place.lean: which core a gang fits and where it goes (02 R40 to R42), its scratchpad allocation
(08 R158), the slots of its crews (04 R65), and the state in which a gang starts (02 R12, 20 R298). -/

namespace Sys2Proof.Machine

/-! ## What a core has free (02 R41) -/

/-- Gangs on a core. -/
def gangsOn (s : State) (core : Nat) : List Gang := s.gangs.filter fun g => g.core == core

/-- Crews that have not ended on a core. -/
def crewsOn (s : State) (core : Nat) : List Crew := (gangsOn s core).flatMap fun g => g.crews.filter fun c => !c.ended

/-- Registers a crew holds: each slice of eight lanes that have all exited has returned its share (04 R80), but not in an
ordered launch (20 R298). -/
def crewRegs (ordered : Bool) (c : Crew) : Nat :=
  if c.ended then 0
  else if ordered then c.regs16 * 16
  else ((List.range 4).filter fun k => bitsAt c.live.toNat (8 * k) 8 != 0).length * (c.regs16 * 4)

def regsUsed (s : State) (core : Nat) : Nat :=
  (gangsOn s core).foldl (fun n g => g.crews.foldl (fun n c => n + crewRegs (gangOrdered s g.id) c) n) 0

def vaultUsed (s : State) (core : Nat) : Nat := (gangsOn s core).foldl (fun n g => n + g.vault) 0

/-- Bytes of an ordered launch's write buffer (20 R297). -/
def wbufBytes : Nat := 131072

/-- Allocated scratchpad bytes of a core: base and size. -/
def scratchUsed (s : State) (core : Nat) : List (Nat × Nat) :=
  (s.gangs.filterMap fun g =>
    if (g.core == core || (g.cluster && g.core / 4 == core / 4)) && g.scratch != 0 then some (g.sbase, g.scratch) else none) ++
    (if (s.core core).taskLaunch.isSome then [((s.core core).wbufBase, wbufBytes)] else [])

/-- The first byte of a core's node area (08 R158). -/
def scratchTop (s : State) (part : Nat) : Nat := 524288 - nodeBytes s part

/-- A run of bytes meets no allocation and ends below the node area. -/
def runFree (used : List (Nat × Nat)) (top a n : Nat) : Bool := a + n ≤ top && !(used.any fun u => meets a n u.1 u.2)

/-- The lowest base at which `n` bytes are free of `used` (08 R158). -/
def lowestBase (used : List (Nat × Nat)) (top n : Nat) : Option Nat :=
  if n = 0 then some 0 else minBy id ((0 :: used.map fun u => u.1 + u.2).filter fun a => runFree used top a n)

/-! ## What a gang needs -/

/-- The needs of a gang of a launch. -/
structure Need where
  crews : Nat
  regs : Nat
  scratch : Nat
  vault : Nat
  cluster : Bool
  /-- The die that a SPRING gang must lie on. -/
  die : Option Nat
  /-- The ordered launch. -/
  ordered : Option Nat
  deriving DecidableEq, Repr

def Launch.need (l : Launch) : Need :=
  ⟨l.crews, l.crews * l.regs16 * 16, l.image.scratch, l.image.vault, l.image.cluster, if l.image.spring then some l.die else none,
    if l.image.ordered then some l.id else none⟩

/-- The needs of a gang could be met by an empty core of the partition (02 R41, NO_FIT). -/
def fitsEmpty (s : State) (part : Nat) (n : Need) : Bool :=
  n.crews ≤ 32 && n.regs ≤ 4096 && n.vault ≤ 4194304 &&
    n.scratch + (if n.ordered.isSome then wbufBytes else 0) ≤ scratchTop s part &&
    (partCores s part).any fun c => match n.die with | some d => c / 64 == d | none => true

/-- The cores whose scratchpads a gang on a core holds its allocation in. -/
def Need.cores (n : Need) (core : Nat) : List Nat := if n.cluster then (List.range 4).map fun k => core / 4 * 4 + k else [core]

/-- The launch's write buffer is still to be placed on the core. -/
def Need.buffer (n : Need) (s : State) (core : Nat) : Bool := n.ordered.isSome && (s.core core).taskLaunch != n.ordered

/-- Where a gang would lie on a core: the write buffer's base when one is placed, and SBASE; none when it does not fit. -/
def fitAt (s : State) (part : Nat) (n : Need) (core : Nat) : Option (Option Nat × Nat) :=
  let top := scratchTop s part
  let room := (crewsOn s core).length + n.crews ≤ 32 && regsUsed s core + n.regs ≤ 4096 &&
    vaultUsed s core + n.vault ≤ 4194304 && (match n.die with | some d => core / 64 == d | none => true) &&
    (!n.cluster || (n.cores core).all fun c => (s.core c).mx.holder.isNone) &&
    (match n.ordered, (s.core core).taskLaunch with | some l, some k => l == k | _, _ => true) &&
    (s.part part).clusters.getLsbD (core / 4)
  if !room then none
  else
    let used := (n.cores core).flatMap fun c => scratchUsed s c
    if n.buffer s core then
      match lowestBase (scratchUsed s core) top wbufBytes with
      | none => none
      | some b => (lowestBase ((b, wbufBytes) :: used) top n.scratch).map fun a => (some b, a)
    else (lowestBase used top n.scratch).map fun a => (none, a)

/-! ## Choice of a core -/

/-- The bits of a range that lie in the vault of a core, named by VLT addresses (02 R42). -/
def vaultBits (core : Nat) (r : Dword × Nat) : Nat :=
  if spaceOf r.1 = 2 then
    let a := low60 r.1
    let lo := core * 2 ^ 28
    min (a + r.2) (lo + 2 ^ 25) - max a lo
  else 0

def vaultScore (core : Nat) (rs : List (Dword × Nat)) : Nat := rs.foldl (fun n r => n + vaultBits core r) 0

/-- The order of R42 among cores, as one number. -/
def placeKey (s : State) (die : Nat) (rs : List (Dword × Nat)) (core : Nat) : Nat :=
  (((2 ^ 80 - vaultScore core rs) * 2 + (if core / 64 = die then 0 else 1)) * 64 + (crewsOn s core).length) * 256 + core

/-- The ranges that a launch's gangs are placed by: region entries and the node's operands. -/
def Launch.ranges (l : Launch) : List (Dword × Nat) := (l.regions.map fun r => (r.base, r.length)) ++ l.operands

/-- The core that the next gang of a launch goes to. -/
def chooseCore (s : State) (l : Launch) : Option Nat :=
  minBy (placeKey s l.die l.ranges) ((partCores s l.part).filter fun c => (fitAt s l.part l.need c).isSome)

/-- The preferred core of a node among some cores (02 R40). -/
def preferred (s : State) (g : Graph) (n : Node) (cores : List Nat) : Option Nat :=
  let rs := (n.opers.filter fun o => o.1 != 0).map fun o => (o.2.1, o.2.2)
  let low := (minBy id n.preds).bind fun p => (g.nodes[p]?).bind fun x => x.core
  minBy (fun c => ((2 ^ 80 - vaultScore c rs) * 2 + (if low == some c then 0 else 1)) * 256 + c) (cores.filter fun c => coreInPart s g.part c)

/-! ## Crew slots (04 R65) -/

/-- The slot that the next crew on a core takes. -/
def nextSlot (used : List Nat) : Nat :=
  let port := (minBy (fun p => ((used.filter fun k => k % 4 == p).length) * 4 + p) (List.range 4)).getD 0
  (((List.range 8).map fun k => 4 * k + port).find? fun k => !used.contains k).getD 0

/-- Give slots to crews one after another. -/
def giveSlots : List Nat → List Crew → List Crew
  | _, [] => []
  | used, c :: cs =>
    let k := nextSlot used
    { c with slot := k } :: giveSlots (k :: used) cs

/-- The slots taken on a core. -/
def slotsOn (s : State) (core : Nat) : List Nat := (crewsOn s core).map fun c => c.slot

/-! ## A gang that starts -/

/-- Crew `i` of a gang as it starts in cycle `now` (04 R65, R73; 02 R12); a crew of an ordered launch holds no task yet (20 R298). -/
def newCrew (l : Launch) (gang now i : Nat) : Crew :=
  let c : Crew := { Crew.blank with index := i, ended := false, regs16 := l.regs16, lastIssue := now }
  let c := c.fresh (ptrAdd l.kernel (512 + 32 * l.image.entry)) [l.args, BitVec.ofNat 64 gang, BitVec.ofNat 64 i]
  let c := { c with trap := { c.trap with tvec := l.tvec } }
  if l.image.ordered then c.exitAll else c

/-- The gang of index `i` at a core. -/
def newGang (s : State) (l : Launch) (i core sbase : Nat) : Gang :=
  { id := s.nextId, launch := l.id, index := i, core := core, sbase := sbase, scratch := l.image.scratch, vault := l.image.vault
    cluster := l.image.cluster, spring := l.image.spring, g := List.replicate 16 0, gWrites := [], lode := Lode.reset
    crews := giveSlots (slotsOn s core) ((List.range l.crews).map (newCrew l i (issueTime s))), ending := none }

/-- The slice of a core's task unit serves a launch, its write buffer at a base (20 R297). -/
def takeSlice (s : State) (core launch base : Nat) : State :=
  s.modCore core fun r => { r with taskLaunch := some launch, wbufBase := base }

/-- A placed gang joins the machine: its write buffer, its engines (01 R9 CLUSTER), the gang itself. Its threads' first events
are acquires of every bit at system scope, so its core keeps no line (14 R241; 01 R18). -/
def enterGang (s : State) (l : Launch) (g : Gang) (buffer : Option Nat) : State :=
  let s := match buffer with | some b => takeSlice s g.core l.id b | none => s
  let s := if g.cluster then ((List.range 4).map fun k => g.core / 4 * 4 + k).foldl (fun s c => freshEngine s c g.id) s else s
  let s := flushCache s g.core
  { s with gangs := s.gangs ++ [g] }

/-- The task unit slices that no gang of their launch needs any more become free. -/
def freeTaskSlices (s : State) : State :=
  let idle (c : Nat) (r : Core) : Bool := match r.taskLaunch with
    | some l => !(s.gangs.any fun g => g.launch == l && g.core == c)
    | none => false
  { s with cores := s.cores.mapIdx fun c r => if idle c r then { r with taskLaunch := none } else r }

end Sys2Proof.Machine
end

