-- ==== Sys2Proof/Machine/Save.lean ====
section
/-! DEFINITION. Machine/Save.lean: saving and restoring gangs and their engine work (18 R287 to R293, 04 R65, 07 R156,
08 R169, 09 R196, 12 R223, 13 R236, 15 R255, R265, 20 R314). A save and a restore are one step each. -/

namespace Sys2Proof.Machine

/-! ## Cells of a run of bytes -/

/-- The bytes from key `a`, `n` of them, that are not 0. -/
def cellsIn (m : Memory) (a n : Nat) : List (Nat × Byte) :=
  if m.gen = 0 ∨ deviceBytes ≤ a then (m.cells.dropWhile fun c => c.1 < a).takeWhile fun c => c.1 < a + n
  else listCells (fun _ => 0) a (m.bytes a n)

/-- Unlist the bytes from key `a`, `n` of them. -/
def clearCells (m : Memory) (a n : Nat) : Memory :=
  { m with cells := m.cells.takeWhile (fun c => c.1 < a) ++ m.cells.dropWhile (fun c => c.1 < a + n) }

/-- Replace the bytes from key `a`, `n` of them, by listed bytes of that run. -/
def putCells (m : Memory) (a n : Nat) (cs : List (Nat × Byte)) : Memory :=
  cs.foldl (fun m c => if a ≤ c.1 && c.1 < a + n then m.setBytes c.1 [c.2] else m) (clearCells m a n)

/-- Move listed bytes by the distance from one key to another. -/
def shiftCells (from' dest : Nat) (cs : List (Nat × Byte)) : List (Nat × Byte) := cs.map fun c => (c.1 - from' + dest, c.2)

/-! ## The stop -/

/-- What is put aside together: the gangs of some launches and the nodes of some graphs. -/
structure Sel where
  launch : Nat → Bool
  graph : Nat → Bool

/-- The launches and graphs that satisfy a test. -/
def selOf (s : State) (p : Launch → Bool) (q : Graph → Bool) : Sel := ⟨fun k => (s.launch? k).any p, fun k => (s.graph? k).any q⟩

/-- Everything of a slice. -/
def sliceSel (s : State) (slice : Nat) : Sel := selOf s (fun l => l.slice == slice) fun g => g.slice == slice

/-- Everything of a function. -/
def fnSel (s : State) (fn : Nat) : Sel := selOf s (fun l => l.fn == fn) fun g => g.fn == fn

/-- A gang of a selected launch. -/
def Sel.gang (p : Sel) (g : Gang) : Bool := p.launch g.launch

/-- A gang by its name. -/
def Sel.gangId (p : Sel) (s : State) (gid : Nat) : Bool := match s.gang? gid with | some g => p.gang g | none => false

/-- The owner of a command belongs to the selection. -/
def Sel.owns (p : Sel) (s : State) (o : CmdOwner) : Bool :=
  match o with
  | .crews g _ => p.gangId s g
  | .node k _ => p.graph k

/-- Pond operations of stopped gangs are not begun: they leave the inlets, and their groups are READY again (09 R196). -/
def stopPondOps (s : State) (p : Sel) : State :=
  let mine (o : PondOp) : Bool := match o.src with | .group g _ _ _ => p.gangId s g | .host _ => false
  let ops := (s.ponds.flatMap fun d => d.ops).filter mine
  let trim (d : Pond) : Pond := if d.ops.any mine then { d with ops := d.ops.filter fun o => !mine o, opPaused := false } else d
  let s : State := { s with ponds := s.ponds.map trim }
  ops.foldl (fun s o =>
    let s := match o.kind with | .drain _ _ cmd _ _ _ => endCmd s cmd | _ => s
    match o.src with
    | .group g c lanes _ => s.modCrew g c fun c => c.reissue lanes
    | .host _ => s) s

/-- Records in transit to a queue are written up to the last that a selected gang has sent (15 R265), as far as the buffer can be
written now (log 32). -/
def landSends (mine : QReq → Bool) : Nat → State → Nat → Nat → State
  | 0, s, _, _ => s
  | fuel + 1, s, part, slot =>
    match s.queue? part slot with
    | none => s
    | some q =>
      if !(q.transit.any fun t => match t with | .recs r _ => mine r | _ => false) then s
      else
        match (arriveRecords s part slot).or (arriveClose s part slot) with
        | some s => landSends mine fuel s part slot
        | none => s

/-- A stopped gang's reservation at another package that has not been granted is withdrawn, and its ENQ is not issued
(15 R265; log 90); one that has been granted has been sent. -/
def stopRemoteSends (s : State) (p : Sel) : State :=
  let gone := reservations s fun r => p.gangId s r.gang
  let back (c : Crew) : Crew :=
    let out := c.remotes.filter fun w => w.reqs.any fun q => gone.any fun r => r.id == q.2.2
    out.foldl (fun c w => c.reissue w.lanes) { c with remotes := c.remotes.filter fun w => !out.contains w }
  gone.foldl (fun s r => postWithdraw (s.modCrew r.gang r.crew back) r) s

/-- ENQs of stopped gangs: one that was granted is sent, one that waits for its grant withdraws (15 R265). -/
def stopSends (s : State) (p : Sel) : State :=
  let mine (r : QReq) : Bool := r.node.isNone && p.gangId s r.gang
  let s := s.queues.foldl (fun s q => landSends mine (q.transit.length + 1) s q.part q.slot) s
  let waits := (s.queues.flatMap fun q => q.waiting).filter mine
  let s := waits.foldl (fun s r => s.modCrew r.gang r.crew fun c => c.reissue r.lanes) (withdraw s mine)
  stopRemoteSends s p

/-- A crew at its save point (18 R287): chains at their head, waiting groups READY at their instruction with the chute as it
was, but for those in the wait half of a full BAR and those whose answers the link unit or the spring array still holds. -/
def Crew.atSave (c : Crew) : Crew :=
  let c := c.rewind
  let full := c.barWaits.foldl (fun m w => if w.full then m ||| w.lanes else m) 0
  let waits := (c.lanesIn fun x => match x with | .wait _ => true | _ => false) &&& ~~~c.tied &&& ~~~full
  let c := (c.forget waits).reissue waits
  { c with
    arrivals := [], eretLanes := 0, repackLanes := 0, barWaits := c.barWaits.filter fun w => w.full
    cwaits := 0, yielded := false }

/-- Speculative tasks are aborted (20 R314). -/
def stopTasks (s : State) (p : Sel) : State :=
  let ls := (s.gangs.filter p.gang).map fun g => g.launch
  (s.launches.filter fun l => l.tasks.isSome && ls.contains l.id).foldl (fun s l =>
    (unitOf s l.id).tasks.foldl (fun s t =>
      match taskNumbered s l.id t.num with
      | some t => if !t.front && (t.st != .queued || !t.reads.isEmpty || !t.writes.isEmpty || !t.puts.isEmpty) then abortTask s l.id t else s
      | none => s) s) s

/-! ## Saving -/

/-- The allocations of a gang, as byte keys. -/
def gangScratch (g : Gang) : List (Nat × Nat) :=
  if g.scratch = 0 then []
  else (if g.cluster then (List.range 4).map fun k => g.core / 4 * 4 + k else [g.core]).map fun c => (scratchKey c + g.sbase, g.scratch)

/-- The engines a gang holds. -/
def heldEngines (s : State) (gid : Nat) : List (Nat × MxEngine) :=
  (List.range 256).filterMap fun c => let x := (s.core c).mx; if x.holder == some gid then some (c, x) else none

/-- The run of a core's matrix buffers. -/
def bufRun (core : Nat) : Nat × Nat := (abufKey core 0, 3 * 2 ^ 17)

/-- A gang put aside; its save point ends a cycle for its g registers (log 91). -/
def savedGang (s : State) (g : Gang) : SavedGang :=
  let es := heldEngines s g.id
  let g := applyGWrites g
  { gang := { g with crews := g.crews.map fun c => if c.ended then c else c.atSave
                     lode := { g.lode with resv := none } }
    scratch := (gangScratch g).flatMap fun r => cellsIn s.mem r.1 r.2
    engines := es
    bufs := es.flatMap fun e => cellsIn s.mem (bufRun e.1).1 (bufRun e.1).2
    interp := (s.core g.core).interp == some g.id }

/-- Untaken tape nodes go back to their machine's pool (18 R287). -/
def returnTapes (s : State) (p : Sel) : State :=
  let back := (s.cores.flatMap fun r => r.tapes).filter fun t => p.graph t.1
  let trim (r : Core) : Core := { r with tapes := r.tapes.filter fun t => !p.graph t.1 }
  if back.isEmpty then s
  else
    let s : State := { s with cores := s.cores.map trim }
    back.foldl (fun s t => s.modGraph t.1 fun g => { g with nodes := g.nodes.modify t.2 fun n => { n with st := .pooled 0 } }) s

/-- The array of a die belongs to the selection. -/
def Sel.holds (p : Sel) (h : Option SpHolder) : Bool :=
  match h with
  | some (.launch l) => p.launch l
  | some (.graph k) => p.graph k
  | none => false

def Saved.none : Saved := ⟨false, [], [], [], [], [], [], [], []⟩

/-- A context with nothing in it is no saved context. -/
def trimSaved (s : State) (fn : Nat) : State :=
  if (s.fn fn).saved = some Saved.none then s.modFn fn fun f => { f with saved := Option.none } else s

/-- What the function has put aside. -/
def savedOf (s : State) (fn : Nat) : Saved := (s.fn fn).saved.getD Saved.none

/-- The selection leaves the machine and joins what its function has put aside (18 R287). A spring array stays its holder's until
the holder ends, so nobody else takes it meanwhile (13 R225, R236). -/
def putAside (s : State) (fn : Nat) (p : Sel) : State :=
  let s := stopSends (stopPondOps (stopTasks s p) p) p
  let gs := s.gangs.filter p.gang
  let s := gs.foldl (fun s g => flushCache (dropHeldIf s g.core fun h => h.gang == g.id) g.core) s
  let s := returnTapes s p
  let cmds := s.cmds.filter fun x => p.owns s x.owner
  let ids := cmds.map fun x => x.id
  let locks := s.cores.zipIdx.flatMap fun r => (r.1.locks.filter fun e => ids.contains e.cmd).map fun e => (r.2, e)
  -- an array that is saved already is only kept for its holder
  let kept (x : Spring × Nat) : Bool := (savedOf s fn).springs.any fun a => a.1 == x.2 && a.2.holder == x.1.holder
  let arrays := s.springs.zipIdx.filterMap fun x => if p.holds x.1.holder && !kept x then some (x.2, x.1) else none
  let blocks := s.sluiceStacks.zipIdx.flatMap fun x => (x.1.blocks.filter fun b => p.owns s b.owner).map fun b => (x.2, b)
  let v := savedOf s fn
  let v : Saved := { v with
    gangs := v.gangs ++ gs.map (savedGang s), cmds := v.cmds ++ cmds, locks := v.locks ++ locks
    springs := v.springs ++ arrays, blocks := v.blocks ++ blocks
    lodeNodes := v.lodeNodes ++ s.lodeNodes.filter fun n => p.graph n.graph }
  let gone := gs.map fun g => g.id
  let strip (r : Core) : Core := { r with
    locks := r.locks.filter fun e => !ids.contains e.cmd
    mx := if r.mx.holder.any fun h => gone.contains h then { r.mx with holder := none } else r.mx
    interp := if r.interp.any fun h => gone.contains h then none else r.interp }
  let left := blocks.map fun b => b.2.id
  let s : State := { s with
    cmds := s.cmds.filter fun x => !ids.contains x.id
    cores := s.cores.map strip
    springs := s.springs.zipIdx.map fun x => if arrays.any fun a => a.1 == x.2 then { Spring.reset with holder := x.1.holder } else x.1
    sluiceStacks := s.sluiceStacks.map fun k => { k with blocks := k.blocks.filter fun b => !left.contains b.id }
    lodeNodes := s.lodeNodes.filter fun n => !p.graph n.graph
    gangs := s.gangs.filter fun g => !gone.contains g.id }
  startHoists (freeTaskSlices (dropEngineReads (trimSaved (s.modFn fn fun f => { f with saved := some v }) fn) ids.contains))

/-! ## Restoring -/

/-- The kernel of a gang keeps it on its own core (18 R289). -/
def Gang.stays (g : Gang) : Bool := g.vault != 0 || g.cluster || g.spring

/-- Where what a gang on core `old` had at core `c` of its cluster lies once the gang is on `core`. -/
def homeOf (old core c : Nat) : Nat := if c = old then core else core / 4 * 4 + c % 4

/-- The engines that a restored gang needs are unheld, and a SPRING gang's array is not another's. -/
def enginesFree (s : State) (l : Launch) (v : SavedGang) (core : Nat) : Bool :=
  (v.engines.all fun e => (s.core (homeOf v.gang.core core e.1)).mx.holder.isNone) &&
    (!v.gang.spring || (match (s.spring (core / 64)).holder with
      | none => true
      | some (.launch k) => k == l.id
      | some (.graph _) => springHeld s (core / 64) l))

/-- What a saved gang needs: the slots and registers of the crews that go on, and what the gang itself still holds (nothing
once a cancel has closed it: it only waits for its blocks). -/
def SavedGang.need (v : SavedGang) (l : Launch) : Need where
  crews := (v.gang.crews.filter fun c => !c.ended).length
  regs := v.gang.crews.foldl (fun n c => n + crewRegs l.image.ordered c) 0
  scratch := v.gang.scratch
  vault := v.gang.vault
  cluster := v.gang.cluster
  die := if v.gang.spring then some l.die else none
  ordered := if v.gang.ending.isSome then none else l.need.ordered

/-- Where a saved gang can be restored (18 R289). -/
def restoreCore (s : State) (l : Launch) (v : SavedGang) : Option Nat :=
  let ok (c : Nat) : Bool := (fitAt s l.part (v.need l) c).isSome && enginesFree s l v c
  if v.gang.stays then (if ok v.gang.core then some v.gang.core else none)
  else minBy (placeKey s l.die l.ranges) ((partCores s l.part).filter ok)

/-- The slots of restored crews: their own on the core they were saved from, when free (04 R65). DESIGN CHOICE (log 104): the crews
take their slots in their order in the gang. -/
def restoreSlots (own : Bool) : List Nat → List Crew → List Crew
  | _, [] => []
  | used, c :: cs =>
    if c.ended then c :: restoreSlots own used cs
    else
      let k := if own && !used.contains c.slot then c.slot else nextSlot used
      { c with slot := k } :: restoreSlots own (k :: used) cs

/-- A scratchpad range moves with its gang, at its core and at the others of the cluster (08 R159). -/
def moveRange (g : Gang) (core sbase : Nat) (r : LockRange) : LockRange :=
  let c := r.start / 2 ^ 22
  let o := r.start % 2 ^ 22
  let own := g.sbase * 8 ≤ o && o < (g.sbase + g.scratch) * 8
  if r.dom = .scr ∧ c / 4 = g.core / 4 then
    { r with start := homeOf g.core core c * 2 ^ 22 + (if own then o - g.sbase * 8 + sbase * 8 else o) }
  else r

/-- Insert a command in issue order. -/
def insertCmd (x : EngCmd) : List EngCmd → List EngCmd
  | [] => [x]
  | y :: l => if x.id < y.id then x :: y :: l else y :: insertCmd x l

/-- A saved command returns to a core, with its entries (12 R223, 18 R289). -/
def returnCmd (s : State) (x : EngCmd) (es : List (Nat × LockEntry)) : State :=
  es.foldl (fun s e => addEntry s e.1 e.2) { s with cmds := insertCmd x s.cmds }

/-- The entries of a saved command, with scratchpad ranges moved with the gang. -/
def movedLocks (w : Saved) (x : EngCmd) (old : Gang) (core sbase : Nat) : List (Nat × LockEntry) :=
  let move := moveRange old core sbase
  (w.locks.filter fun e => e.2.cmd == x.id).map fun e =>
    (homeOf old.core core e.1, { e.2 with ranges := e.2.ranges.map move, order := e.2.order.map move })

/-- Restore one gang with its commands and blocks, when a core fits it. -/
def restoreGang (s : State) (fn : Nat) (v : SavedGang) : State :=
  match s.launch? v.gang.launch with
  | none => s
  | some l =>
    match restoreCore s l v with
    | none => s
    | some core =>
      match fitAt s l.part (v.need l) core with
      | none => s
      | some (buffer, sbase) =>
        let old := v.gang
        let w := savedOf s fn
        let mine (o : CmdOwner) : Bool := match o with | .crews g _ => g == old.id | .node _ _ => false
        let g : Gang := { old with core := core, sbase := sbase, crews := restoreSlots (core == old.core) (slotsOn s core) old.crews }
        let s := match buffer with | some b => takeSlice s core l.id b | none => s
        let s := flushCache s core
        let s : State := { s with mem := ((gangScratch g).zip (gangScratch old)).foldl (fun m r =>
          let cs := v.scratch.filter fun c => r.2.1 ≤ c.1 && c.1 < r.2.1 + r.2.2
          putCells m r.1.1 r.1.2 (shiftCells r.2.1 r.1.1 cs)) s.mem }
        let s := v.engines.foldl (fun s e =>
          let dest := homeOf old.core core e.1
          let run := bufRun e.1
          let cs := v.bufs.filter fun c => run.1 ≤ c.1 && c.1 < run.1 + run.2
          let s : State := { s with mem := putCells s.mem (bufRun dest).1 run.2 (shiftCells run.1 (bufRun dest).1 cs) }
          s.modCore dest fun r => { r with mx := e.2 }) s
        let s := if v.interp && (s.core core).interp.isNone then s.modCore core fun r => { r with interp := some g.id } else s
        let s : State := { s with gangs := s.gangs ++ [g] }
        let back := w.cmds.filter fun x => mine x.owner
        let s := back.foldl (fun s x => returnCmd s { x with core := core } (movedLocks w x old core sbase)) s
        let s := (w.blocks.filter fun b => mine b.2.owner).foldl (fun s b =>
          s.modStack b.1 fun k => { k with blocks := k.blocks ++ [{ b.2 with core := core }] }) s
        s.modFn fn fun f => { f with saved := some { w with
          gangs := w.gangs.filter fun x => x.gang.id != old.id
          cmds := w.cmds.filter fun x => !mine x.owner
          locks := w.locks.filter fun e => !(back.any fun x => x.id == e.2.cmd)
          blocks := w.blocks.filter fun b => !mine b.2.owner } }

/-- Restore the node work of the selected graphs: commands, blocks, arrays and lode programs. -/
def restoreNodes (s : State) (fn : Nat) (p : Nat → Bool) (holder : SpHolder → Bool) : State :=
  let w := savedOf s fn
  let mine (o : CmdOwner) : Bool := match o with | .crews _ _ => false | .node k _ => p k
  let cmds := w.cmds.filter fun x => mine x.owner
  let s := cmds.foldl (fun s x => returnCmd s x (w.locks.filter fun e => e.2.cmd == x.id)) s
  let s := (w.blocks.filter fun b => mine b.2.owner).foldl (fun s b =>
    s.modStack b.1 fun k => { k with blocks := k.blocks ++ [b.2] }) s
  let back (x : Nat × Spring) : Bool := (match x.2.holder with | some h => holder h | none => false) && ((s.spring x.1).holder.isNone || (s.spring x.1).holder == x.2.holder)
  let arrays := w.springs.filter back
  let s := arrays.foldl (fun s x => s.modSpring x.1 fun _ => x.2) s
  let fits (n : LodeNode) : Bool := p n.graph && !(s.lodeNodes.any fun m => m.cluster == n.cluster && m.ctx == n.ctx)
  let s : State := { s with lodeNodes := s.lodeNodes ++ w.lodeNodes.filter fits }
  s.modFn fn fun f => { f with saved := some { w with
    cmds := w.cmds.filter fun x => !mine x.owner
    locks := w.locks.filter fun e => !(cmds.any fun x => x.id == e.2.cmd)
    blocks := w.blocks.filter fun b => !mine b.2.owner
    springs := w.springs.filter fun x => !(arrays.any fun a => a.1 == x.1 && a.2.holder == x.2.holder)
    lodeNodes := w.lodeNodes.filter fun n => !fits n } }

/-- Records of an ordered launch return to the slices of cores that hold its gangs (20 R314). -/
def rehomeTasks (s : State) (launch : Nat) : State :=
  let lost (t : Task) : Bool := match t.core with | some c => (s.core c).taskLaunch != some launch | none => false
  ((unitOf s launch).tasks.filter lost).foldl (fun s t =>
    let dest := (minBy (fun c => sliceTasks s launch c) (launchCores s launch)).bind fun c => if sliceTasks s launch c < 64 then some c else none
    modTask s launch t.num fun t => { t with core := dest }) s

/-- A restored frontier task's crew keeps its task; what the rest of the unit does follows (20 R314). -/
def resumeTasks (s : State) (slice : Nat) : State :=
  (s.launches.filter fun l => l.slice == slice && l.tasks.isSome && !l.ended && (launchCores s l.id).length != 0).foldl (fun s l =>
    settleTasks (rehomeTasks s l.id) l.id) s

/-- The saved gangs of some slices in the order in which they look for a core: those that must have their own first, so that no
other takes it (18 R289). -/
def restoreOrder (s : State) (fn : Nat) (slices : List Nat) : List SavedGang :=
  let gs := (savedOf s fn).gangs.filter fun x => match s.launch? x.gang.launch with | some l => slices.contains l.slice | none => false
  (gs.filter fun x => x.gang.stays) ++ gs.filter fun x => !x.gang.stays

/-- Bring back everything of some slices that fits (18 R289). -/
def bringBack (s : State) (fn : Nat) (slices : List Nat) : State :=
  match (s.fn fn).saved with
  | none => s
  | some _ =>
    let gr (k : Nat) : Bool := match s.graph? k with | some g => slices.contains g.slice | none => false
    let la (k : Nat) : Bool := match s.launch? k with | some l => slices.contains l.slice | none => false
    let s := restoreNodes s fn gr fun h => match h with | .launch l => la l | .graph k => gr k
    let s := (restoreOrder s fn slices).foldl (fun s x => restoreGang s fn x) s
    startHoists (trimSaved (slices.foldl resumeTasks s) fn)

/-! ## The whole function -/

/-- The vaults and node areas of a partition's cores. -/
def coreRuns (s : State) (part : Nat) : List (Nat × Nat) :=
  (partCores s part).flatMap fun c => [(vaultKey c, 2 ^ 22), (scratchKey c + scratchTop s part, nodeBytes s part)]

/-- The slots of a function's slot windows, as (stack, place in the window, value) (12 R217). -/
def slotsIn (s : State) (fn : Nat) : List (Nat × Nat × BitVec 320) :=
  s.sluiceStacks.zipIdx.flatMap fun k =>
    let w := (s.fn fn).windows.getD k.2 (0, 0)
    (k.1.slots.filter fun p => w.1 ≤ p.1 && p.1 < w.1 + w.2).map fun p => (k.2, p.1 - w.1, p.2)

/-- The slots of a function's windows become zero. -/
def clearSlots (s : State) (fn : Nat) : State :=
  let win (k : Nat) : Nat × Nat := (s.fn fn).windows.getD k (0, 0)
  { s with sluiceStacks := s.sluiceStacks.mapIdx fun k x =>
      { x with slots := x.slots.filter fun p => !((win k).1 ≤ p.1 && p.1 < (win k).1 + (win k).2) } }

/-- Saved slots return to the windows as they lie now. -/
def putSlots (s : State) (fn : Nat) (vs : List (Nat × Nat × BitVec 320)) : State :=
  vs.foldl (fun s v =>
    let w := (s.fn fn).windows.getD v.1 (0, 0)
    if v.2.1 < w.2 then s.modStack v.1 fun k => { k with slots := (w.1 + v.2.1, v.2.2) :: k.slots.filter fun p => p.1 != w.1 + v.2.1 } else s) s

/-- Every core data cache of a partition is written back and invalidated. -/
def flushPart (s : State) (part : Nat) : State := (partCores s part).foldl flushCache s

/-- Save the vaults, the node areas and the slots, with every cache of the partition written back (18 R287). -/
def saveCores (s : State) (fn part : Nat) : State :=
  let s := flushPart s part
  let cells := (coreRuns s part).flatMap fun r => cellsIn s.mem r.1 r.2
  let slots := slotsIn s fn
  (clearSlots s fn).modFn fn fun f => { f with saved := some { f.saved.getD Saved.none with whole := true, mem := cells, slots := slots } }

/-- Put them back (18 R289 steps 1 and 3). -/
def restoreCores (s : State) (fn part : Nat) : State :=
  match (s.fn fn).saved with
  | none => s
  | some v =>
    if !v.whole then s
    else
      let m := (coreRuns s part).foldl (fun m r => putCells m r.1 r.2 (v.mem.filter fun c => r.1 ≤ c.1 && c.1 < r.1 + r.2)) s.mem
      let s := putSlots { s with mem := m } fn v.slots
      trimSaved (s.modFn fn fun f => { f with saved := some { v with whole := false, mem := [], slots := [] } }) fn

end Sys2Proof.Machine
end

