-- ==== Sys2Proof/Machine/Admit.lean ====
section
/-! DEFINITION. Machine/Admit.lean: what the dispatcher reads and checks before it admits work (01 R9 to R22, 02 R36):
kernel images, launch records, region tables, graphs, phases and job records. -/

namespace Sys2Proof.Machine

/-! ## Reason codes (02 R36) -/
namespace Reason
def badKind : Nat := 1
def jobEnded : Nat := 2
def launchInvalid : Nat := 3
def graphInvalid : Nat := 4
def graphRace : Nat := 5
def dupSlice : Nat := 6
def cancelled : Nat := 7
def noFit : Nat := 8
def limit : Nat := 9
def badPointer : Nat := 10
def budget : Nat := 11
def badRecord : Nat := 12
end Reason

/-- The dispatcher's reads and writes for a function. -/
def dispAgent (fn part : Nat) : Agent := ⟨fn, part, none, 0, 0, false, false⟩

/-- Read a record in DEV or DEVS at a multiple of `mult`; none when the pointer is wrong or the record cannot be read. -/
def readRecord (s : State) (fn part : Nat) (p : Dword) (n mult : Nat) : Option Nat :=
  if !isDev p || addrIn p % mult != 0 then none
  else match engineRead s (dispAgent fn part) p n .free with | .ok v => some v | .error _ => none

/-- Read a record whose space no rule limits: DEV, DEVS or VLT, which the dispatcher can read (log 46). -/
def readTable (s : State) (fn part : Nat) (p : Dword) (n mult : Nat) : Option Nat :=
  if !(isDev p || spaceOf p == 2) || addrIn p % mult != 0 then none
  else match engineRead s (dispAgent fn part) p n .free with | .ok v => some v | .error _ => none

/-- Records of one size after one another. -/
def readArray (s : State) (fn part : Nat) (p : Dword) (n mult count : Nat) : List (Option Nat) :=
  (List.range count).map fun i => readTable s fn part (ptrAdd p (n * i)) n mult

/-! ## Kernel images (01 R9, R10, R19) -/

def Image.none : Image := ⟨0, 0, false, false, false, 0, 0, 0, 0, 0⟩

/-- The fields of an image header. -/
def parseImage (v : Nat) : Image :=
  { crews := bitsAt v 40 8, regs16 := bitsAt v 48 6, ordered := bitAt v 58, cluster := bitAt v 59, spring := bitAt v 60
    scratch := bitsAt v 64 32, codewords := bitsAt v 96 32, entry := bitsAt v 128 32, trapoff := bitsAt v 160 32, vault := bitsAt v 192 32 }

/-- What every image header obeys. -/
def imageCommon (v : Nat) : Bool :=
  let i := parseImage v
  bitsAt v 0 32 == 0x4B524E4C && bitsAt v 32 8 == 1 && bitsAt v 55 3 == 0 && bitsAt v 61 3 == 0 && v / 2 ^ 224 == 0 &&
    1 ≤ i.codewords && i.entry < i.codewords

/-- A header that a launch may name. -/
def imageOk (v : Nat) : Bool :=
  let i := parseImage v
  imageCommon v && !bitAt v 54 && 1 ≤ i.crews && i.crews ≤ 32 && 1 ≤ i.regs16 && i.regs16 ≤ 32 &&
    i.scratch % 512 == 0 && i.scratch ≤ 524288 && (i.trapoff < i.codewords || i.trapoff == 0xFFFFFFFF) &&
    i.vault % 65536 == 0 && i.vault ≤ 4194304

/-- A header of a lode image (01 R19). -/
def lodeImageOk (v : Nat) : Bool :=
  let i := parseImage v
  imageCommon v && bitAt v 54 && i.crews == 0 && i.regs16 == 0 && i.scratch == 0 && i.vault == 0 && !i.ordered && !i.cluster &&
    !i.spring && i.trapoff == 0xFFFFFFFF

/-! ## Launch records (01 R11 to R14; 02 R344) -/

/-- A DONEFLAG that R344 refuses. -/
def doneflagBad (p : Dword) : Bool := p != 0 && (!(isDev p || spaceOf p == 6) || addrIn p % 32 != 0)

/-- A launch record breaks its own fields, names an unused class, or breaks R344. -/
def launchBad (s : State) (part v : Nat) : Bool :=
  let n := bitsAt v 112 6
  bitsAt v 64 24 == 0 || 32 < bitsAt v 88 6 || bitsAt v 94 2 != 0 || 32 < bitsAt v 96 6 || bitsAt v 102 2 != 0 ||
    bitsAt v 107 5 != 0 || 32 < n || bitsAt v 118 10 != 0 || (n == 0 && bitsAt v 192 64 != 0) || bitsAt v 416 96 != 0 ||
    (s.part part).weight.getD (bitsAt v 104 3) 0 == 0 || doneflagBad (BitVec.ofNat 64 (bitsAt v 320 64))

def parseRegion (v : Nat) : Region := ⟨BitVec.ofNat 64 (bitsAt v 0 64), bitsAt v 64 48, BitVec.ofNat 64 (bitsAt v 128 64)⟩

/-- Two ranges share a bit; DEV and DEVS name the same bits. DESIGN CHOICE (log 105): bits of a read operand past the end of its space,
which R20 does not rule out, are no bits of any range. -/
def rangesOverlap (p : Dword) (n : Nat) (q : Dword) (m : Nat) : Bool :=
  (spaceOf p == spaceOf q || (isDev p && isDev q)) && meets (low60 p) n (low60 q) m

/-- A region entry by itself. -/
def regionBad (v : Nat) : Bool :=
  let r := parseRegion v
  r.length == 0 || bitsAt v 112 16 != 0 || v / 2 ^ 192 != 0 || low60 r.object % 64 != 0 || 2 ^ 60 < low60 r.base + r.length

/-- Overlapping regions name different objects. DESIGN CHOICE (log 93): the objects are the same when all 64 bits of the
pointers are, so a DEV and a DEVS pointer to the same bits name different objects. -/
def regionsClash : List Region → Bool
  | [] => false
  | r :: rs => (rs.any fun q => rangesOverlap r.base r.length q.base q.length && r.object != q.object) || regionsClash rs

/-- The region table of a launch record: the reasons it gives, and the regions. -/
def readRegionTable (s : State) (fn part v : Nat) : List Nat × List Region :=
  let n := bitsAt v 112 6
  if n = 0 ∨ 32 < n then ([], [])
  else
    let es := readArray s fn part (BitVec.ofNat 64 (bitsAt v 192 64)) 256 256 n
    let vs := es.filterMap id
    ((if es.any fun e => e.isNone then [Reason.badPointer] else []) ++
      (if (vs.any regionBad) || regionsClash (vs.map parseRegion) then [Reason.launchInvalid] else []), vs.map parseRegion)

/-- Unended launches that crews of the partition started. -/
def deviceLaunches (s : State) (part : Nat) : Nat :=
  (s.launches.filter fun l => l.part == part && !l.ended && (match l.owner with | .phase _ => true | .node _ _ => false)).length

/-- The root task of gang `g` of an ordered launch as it is admitted: its gang has no core yet (20 R298). -/
def rootTask (kernel : Dword) (i : Image) (g : Nat) : Task :=
  { num := BitVec.ofNat 32 g, tag := [(0, g)], parent := none, entry := ptrAdd kernel (512 + 32 * i.entry), arg := BitVec.ofNat 64 g
    st := .queued, core := none, runs := 0, children := 0, reads := [], writes := [], puts := [], deferred := none, front := false }

/-- The launch that a record describes. -/
def buildLaunch (s : State) (fn part die slice : Nat) (owner : LaunchOwner) (v : Nat) (h : Nat) (regions : List Region)
    (operands : List (Dword × Nat)) : Launch :=
  let i := parseImage h
  let kernel : Dword := BitVec.ofNat 64 (bitsAt v 0 64)
  let gangs := bitsAt v 64 24
  let crews := bitsAt v 88 6
  let regs := bitsAt v 96 6
  let tvec : Dword := BitVec.ofNat 64 (bitsAt v 256 64)
  let bits := 512 + 32 * i.codewords
  { id := s.nextId, part := part, fn := fn, handle := 0, owner := owner, slice := slice, die := die, kernel := kernel, image := i
    gangs := gangs, crews := if crews = 0 then i.crews else crews, regs16 := if regs = 0 then i.regs16 else regs
    tclass := bitsAt v 104 3, args := BitVec.ofNat 64 (bitsAt v 128 64), regions := regions, operands := operands
    tvec := if tvec != 0 then tvec else if i.trapoff = 0xFFFFFFFF then 0xFFFFFFFFFFFFFFFF else ptrAdd kernel (512 + 32 * i.trapoff)
    doneflag := BitVec.ofNat 64 (bitsAt v 320 64), doneval := BitVec.ofNat 32 (bitsAt v 384 32), placed := 0, holdsSpring := false
    tasks := if i.ordered then some ⟨(List.range gangs).map (rootTask kernel i), BitVec.ofNat 32 gangs, 0⟩ else none
    pieces := boundRuns s fn (bits / 2 ^ 19 + 2) (addrIn kernel) bits, changed := false
    counter := ⟨gangs, 0, 0, 0, .pending⟩, ended := false }

/-- Check a launch record: the lowest reason that applies, or the launch (02 R36, R43). `device`: started by LAUNCH. -/
def checkLaunch (s : State) (fn part die slice : Nat) (owner : LaunchOwner) (p : Dword) (operands : List (Dword × Nat)) (device : Bool) :
    Except Nat Launch :=
  match readRecord s fn part p 512 512 with
  | none => .error Reason.badPointer
  | some v =>
    let head := readRecord s fn part (BitVec.ofNat 64 (bitsAt v 0 64)) 512 512
    let table := readRegionTable s fn part v
    let l := buildLaunch s fn part die slice owner v (head.getD 0) table.2 operands
    let rs : List Nat :=
      (if launchBad s part v then [Reason.launchInvalid] else []) ++ table.1 ++
      (match head with
        | none => [Reason.badPointer]
        | some h => if !imageOk h then [Reason.launchInvalid] else if fitsEmpty s part l.need then [] else [Reason.noFit]) ++
      (if device && 1024 ≤ deviceLaunches s part then [Reason.limit] else [])
    match minBy id rs with
    | some r => .error r
    | none => .ok l

/-! ## Graphs (01 R15, R16, R20) -/

/-- An operand of a node record. -/
def nodeOper (v n : Nat) : Nat × Dword × Nat :=
  (bitsAt v (256 + 192 * n + 112) 2, BitVec.ofNat 64 (bitsAt v (256 + 192 * n) 64), bitsAt v (256 + 192 * n + 64) 48)

/-- An operand entry breaks R16 or, for one that is written, R20. -/
def operBad (v noper n : Nat) : Bool :=
  let o := nodeOper v n
  let all := bitsAt v (256 + 192 * n) 192
  if o.1 = 0 ∨ noper ≤ n then all != 0
  else o.2.2 == 0 || bitsAt v (256 + 192 * n + 114) 78 != 0 || (2 ≤ o.1 && 2 ^ 60 < low60 o.2.1 + o.2.2)

/-- Node record `i` of a graph; none when it breaks R16 or the second condition of R20. -/
def parseNode (i v : Nat) : Option Node :=
  let npred := bitsAt v 8 4
  let noper := bitsAt v 12 3
  let pred (k : Nat) : Nat := bitsAt v (64 + 12 * k) 12
  if 6 ≤ bitsAt v 0 3 || bitsAt v 3 5 != 0 || 8 < npred || 4 < noper || bitAt v 15 || bitsAt v 16 12 != i || bitsAt v 28 36 != 0 ||
      ((List.range 8).any fun k => if k < npred then i ≤ pred k else pred k != 0) || bitsAt v 160 32 != 0 ||
      (List.range 4).any (operBad v noper) then none
  else some { ty := bitsAt v 0 3, preds := (List.range npred).map pred, body := BitVec.ofNat 64 (bitsAt v 192 64)
              opers := (List.range noper).map (nodeOper v), st := .blocked, core := none }

/-- The ancestors of each node, as bit sets, in order. A node that cannot be read may have every lower one (log 94). -/
def ancestors (ns : List (Option Node)) : List Nat :=
  ns.foldl (fun acc n => acc ++ [match n with
    | some n => n.preds.foldl (fun m p => m ||| acc.getD p 0 ||| 2 ^ p) 0
    | none => 2 ^ acc.length - 1]) []

/-- Operands of two nodes overlap, one of them written. -/
def nodesMeet (a b : Node) : Bool :=
  a.opers.any fun o => b.opers.any fun q => o.1 != 0 && q.1 != 0 && (2 ≤ o.1 || 2 ≤ q.1) && rangesOverlap o.2.1 o.2.2 q.2.1 q.2.2

/-- The third condition of R20 fails, whatever the nodes that cannot be read hold. -/
def graphRaces (ns : List (Option Node)) : Bool :=
  let anc := ancestors ns
  ns.zipIdx.any fun b => (ns.take b.2).zipIdx.any fun a =>
    match a.1, b.1 with
    | some x, some y => nodesMeet x y && !bitAt (anc.getD b.2 0) a.2
    | _, _ => false

/-- A graph record: the reasons it gives, its node array and its nodes. DESIGN CHOICE (log 93): a graph record that breaks R15
itself gives GRAPH_INVALID, for which the reason table names no code. -/
def readGraph (s : State) (fn part : Nat) (p : Dword) : List Nat × Dword × List Node :=
  match readRecord s fn part p 128 128 with
  | none => ([Reason.badPointer], 0, [])
  | some v =>
    let n := bitsAt v 0 13
    let arr : Dword := BitVec.ofNat 64 (bitsAt v 64 64)
    if n = 0 ∨ 4096 < n ∨ bitsAt v 13 51 ≠ 0 then ([Reason.graphInvalid], arr, [])
    else
      let es := readArray s fn part arr 1024 1024 n
      let ns := es.zipIdx.map fun e => e.1.bind (parseNode e.2)
      ((if es.any fun e => e.isNone then [Reason.badPointer] else []) ++
        (if (es.zip ns).any fun e => e.1.isSome && e.2.isNone then [Reason.graphInvalid] else []) ++
        (if graphRaces ns then [Reason.graphRace] else []), arr, ns.filterMap id)

/-! ## Phases (01 R21) -/

/-- Phase record at a pointer: the reasons it gives, and its graphs as (record, node array, nodes). DEDUCED (log 46): the record may
lie in VLT too, since no rule names its space. DESIGN CHOICE (log 93): the array of graph record pointers is asked to be 64-bit
aligned. -/
def readPhase (s : State) (fn part : Nat) (p : Dword) : List Nat × List (Dword × Dword × List Node) :=
  match readTable s fn part p 128 128 with
  | none => ([Reason.badPointer], [])
  | some v =>
    let n := bitsAt v 64 9
    if n = 0 ∨ 256 < n ∨ bitsAt v 73 55 ≠ 0 then ([Reason.badRecord], [])
    else
      let ps := readArray s fn part (BitVec.ofNat 64 (bitsAt v 0 64)) 64 64 n
      let gs := (ps.filterMap id).map fun q => (BitVec.ofNat 64 q, readGraph s fn part (BitVec.ofNat 64 q))
      ((if ps.any fun e => e.isNone then [Reason.badPointer] else []) ++ gs.flatMap (fun g => g.2.1), gs.map fun g => (g.1, g.2.2.1, g.2.2.2))

/-! ## Job records (01 R22, R23; 02 R34, R36) -/

/-- A job record by its fields. -/
structure JobRec where
  kind : Nat
  slice : Nat
  last : Bool
  jobid : Dword
  deadline : Nat
  budget : Nat
  phases : Dword
  nphases : Nat
  status : Dword
  cookie : Dword
  bad : Bool
  deriving DecidableEq, Repr

/-- The STATUS of a job record obeys R344. -/
def statusOk (p : Dword) : Bool := isDev p && addrIn p % 256 == 0

def parseJob (v : Nat) : JobRec :=
  let status : Dword := BitVec.ofNat 64 (bitsAt v 384 64)
  let budget := bitsAt v 192 64
  { kind := bitsAt v 0 8, slice := bitsAt v 16 16, last := bitAt v 32, jobid := BitVec.ofNat 64 (bitsAt v 64 64)
    deadline := bitsAt v 128 64, budget := budget, phases := BitVec.ofNat 64 (bitsAt v 256 64), nphases := bitsAt v 320 16
    status := status, cookie := BitVec.ofNat 64 (bitsAt v 448 64)
    bad := bitsAt v 8 8 != 0 || bitsAt v 33 31 != 0 || bitsAt v 336 48 != 0 || budget == 0 || 2 ^ 63 ≤ budget ||
      bitsAt v 320 16 == 0 || !statusOk status }

/-- What becomes of an intake record now: refused with reasons of its own and its job's, or it waits, or it is eligible. -/
inductive Fate where
  | refuse (reasons : List Nat)
  | waits
  | eligible
  deriving DecidableEq, Repr

/-- The unended job of a partition with a JOBID. -/
def jobOf (s : State) (part : Nat) (jobid : Dword) : Option Job := s.jobs.find? fun j => j.part == part && j.jobid == jobid && !j.ended

/-- A SLICE 0 record with a JOBID waits in the dispatcher's order (01 R23). -/
def firstWaits (s : State) (part : Nat) (jobid : Dword) : Bool :=
  (List.range 65).any fun f => (s.part part).funcs.getLsbD f && (s.fn f).intakeRecs.any fun r =>
    let j := parseJob r.bits
    j.slice == 0 && j.jobid == jobid

/-- The reasons of a job record and its job (01 R22, R23). -/
def jobReasons (s : State) (part : Nat) (j : JobRec) : List Nat :=
  (if j.kind = 1 then [] else [Reason.badKind]) ++ (if j.bad then [Reason.badRecord] else []) ++
    match jobOf s part j.jobid with
    | some k => if k.admitted.contains j.slice then [Reason.dupSlice] else []
    | none => if j.slice != 0 && !firstWaits s part j.jobid then [Reason.jobEnded] else []

/-- The fate of a record by its own fields and its job (01 R22, R23; 02 R34). -/
def jobFate (s : State) (part : Nat) (j : JobRec) : Fate :=
  let rs := jobReasons s part j
  if !rs.isEmpty then .refuse rs
  else
    match jobOf s part j.jobid with
    | some k => if j.slice != 0 && k.doneSlices.contains (j.slice - 1) then .eligible else .waits
    | none => if j.slice = 0 then .eligible else .waits

end Sys2Proof.Machine
end

