-- ==== Sys2Proof/Machine/Area.lean ====
section
/-! DEFINITION. Machine/Area.lean: the context-save area (18 R290 to R294): its header, its sections with their lengths, the crew
record of R293, and what a function that adopts an area reads from it. Where R292 names what a section holds and not how, the
order and the widths are this model's (log 23). -/

namespace Sys2Proof.Machine

/-! ## Fields -/

/-- A field of an area: a number in whole bytes, or a run of bytes given by those that are not zero. -/
inductive AreaField where
  | num (bytes v : Nat)
  | run (len : Nat) (cells : List (Nat × Byte))
  deriving DecidableEq, Repr

def AreaField.len : AreaField → Nat | .num n _ => n | .run n _ => n

/-- The bytes that fields take. -/
def fieldsLen (fs : List AreaField) : Nat := fs.foldl (fun n f => n + f.len) 0

/-- The bytes of fields from key `a` that a memory of generation `gen` lists. -/
def fieldCells (gen : Nat) : Nat → List AreaField → List Host.Cell
  | _, [] => []
  | a, .num n v :: fs => listCells (unlisted gen) a (bytesOfNat n v) ++ fieldCells gen (a + n) fs
  | a, .run n cs :: fs =>
    (if gen = 0 then (cs.filter fun c => c.1 < n).map (fun c => (a + c.1, c.2))
      else listCells (unlisted gen) a (takeBytes (fun _ => 0) n 0 cs)) ++ fieldCells gen (a + n) fs

/-- How a value is written to an area and read back from byte `a` on, with the byte after it. -/
structure Codec (α : Type) where
  put : α → List AreaField
  get : Memory → Nat → Option (α × Nat)

namespace Codec

/-- A number in `n` bytes. -/
def nat (n : Nat) : Codec Nat := ⟨fun v => [.num n v], fun m a => some (m.bits (a * 8) (n * 8), a + n)⟩

/-- Read through a codec of another type; none where the bytes stand for no value. -/
def view {α β : Type} (c : Codec α) (f : β → α) (g : α → Option β) : Codec β :=
  ⟨fun v => c.put (f v), fun m a => (c.get m a).bind fun r => (g r.1).map fun v => (v, r.2)⟩

/-- The same where every read value stands for one. -/
def iso {α β : Type} (c : Codec α) (f : β → α) (g : α → β) : Codec β := c.view f fun v => some (g v)

/-- One after another. -/
def and {α β : Type} (c : Codec α) (d : Codec β) : Codec (α × β) :=
  ⟨fun v => c.put v.1 ++ d.put v.2, fun m a => (c.get m a).bind fun r => (d.get m r.2).map fun q => ((r.1, q.1), q.2)⟩

/-- `n` values from byte `a`. -/
def getMany {α : Type} (c : Codec α) (m : Memory) : Nat → Nat → Option (List α × Nat)
  | 0, a => some ([], a)
  | n + 1, a => (c.get m a).bind fun r => (c.getMany m n r.2).map fun q => (r.1 :: q.1, q.2)

/-- Exactly `n` values. -/
def vec {α : Type} (n : Nat) (c : Codec α) : Codec (List α) := ⟨fun vs => vs.flatMap c.put, fun m a => c.getMany m n a⟩

/-- A count, then that many values. -/
def list {α : Type} (c : Codec α) : Codec (List α) :=
  ⟨fun vs => .num 4 vs.length :: vs.flatMap c.put, fun m a => c.getMany m (m.bits (a * 8) 32) (a + 4)⟩

def opt {α : Type} (c : Codec α) : Codec (Option α) := c.list.iso Option.toList List.head?
def bits (w : Nat) : Codec (BitVec w) := (nat ((w + 7) / 8)).iso BitVec.toNat (BitVec.ofNat w)
def bool : Codec Bool := (nat 1).iso Bool.toNat (· != 0)

/-- A number of any size: its bytes are counted. -/
def num : Codec Nat :=
  ⟨fun v => [.num 4 (v.log2 / 8 + 1), .num (v.log2 / 8 + 1) v],
    fun m a => let n := m.bits (a * 8) 32; some (m.bits ((a + 4) * 8) (n * 8), a + 4 + n)⟩

/-- A name of the model's own for an instance: those of an adopted context come after the machine's (log 23). -/
def name (base : Nat) : Codec Nat := num.iso id (base + ·)

def int : Codec Int := (bool.and num).iso (fun v => (v < 0, v.natAbs)) fun v => if v.1 then -(v.2 : Int) else v.2

/-- One of a list of names. -/
def oneOf {α : Type} [DecidableEq α] (xs : List α) : Codec α := (nat 1).view (fun v => xs.findIdx (· = v)) fun i => xs[i]?

/-- A run of `n` bytes whose listed bytes have keys from `key`. -/
def run (key n : Nat) : Codec (List (Nat × Byte)) :=
  ⟨fun cs => [.run n (cs.map fun c => (c.1 - key, c.2))],
    fun m a => some ((cellsIn m a n).map fun c => (c.1 - a + key, c.2), a + n)⟩

end Codec

open Codec

/-! ## The parts of a context -/

def cPair : Codec (Nat × Nat) := num.and num
def cDword : Codec Dword := bits 64
def cMask : Codec Mask := bits 32
def cWord : Codec Word := bits 32
def cReg : Codec Reg := bits 7
def cKReg : Codec KReg := bits 4
def cMReg : Codec MReg := bits 3

def cFmt : Codec Fmt := oneOf ((List.range 23).filterMap fmtOf)
def cInstr : Codec Instr :=
  (nat 4).view (fun i => ((encode i).getD 0).toNat) fun v => match decode (BitVec.ofNat 32 v) with | .ok i => some i | .error _ => none
def cCState : Codec CState := oneOf [.pending, .running, .done, .cancelled, .faulted, .suspended]

def cVVal : Codec VVal :=
  ((nat 1).and cWord.list).view (fun | .uni v => (1, [v]) | .aff b s => (2, [b, s]) | .gen l => (0, l))
    fun | (1, [v]) => some (.uni v) | (2, [b, s]) => some (.aff b s) | (0, l) => some (.gen l) | _ => none

def cRemoteOp : Codec RemoteOp :=
  ((nat 1).and (num.list.and cWord.list.list)).view
    (fun
      | .read => (0, [], []) | .write v => (1, [v], []) | .atomic o f x y => (2, [o, f, x, y], [])
      | .enq h p g rs => (3, [h.toNat, p, g], rs) | .qopen h => (4, [h.toNat], []) | .qtest h => (5, [h.toNat], [])
      | .qclose h p => (6, [h.toNat, p], []) | .reserve h p nb n g => (7, [h.toNat, p, nb.toNat, n, g], [])
      | .withdraw h g => (8, [h.toNat, g], []))
    fun
      | (0, [], _) => some .read | (1, [v], _) => some (.write v) | (2, [o, f, x, y], _) => some (.atomic o f x y)
      | (3, [h, p, g], rs) => some (.enq (BitVec.ofNat 64 h) p g rs) | (4, [h], _) => some (.qopen (BitVec.ofNat 64 h))
      | (5, [h], _) => some (.qtest (BitVec.ofNat 64 h)) | (6, [h, p], _) => some (.qclose (BitVec.ofNat 64 h) p)
      | (7, [h, p, nb, n, g], _) => some (.reserve (BitVec.ofNat 64 h) p (nb != 0) n g) | (8, [h, g], _) => some (.withdraw (BitVec.ofNat 64 h) g)
      | _ => none

def cOwner (b : Nat) : Codec CmdOwner :=
  (bool.and ((name b).and num.list)).view (fun | .crews g cs => (false, g, cs) | .node g n => (true, g, [n]))
    fun | (false, g, cs) => some (.crews g cs) | (true, g, [n]) => some (.node g n) | _ => none

def cDom : Codec LockDom := oneOf ([.dev, .vlt, .scr] ++ (List.range 4).map .abuf ++ (List.range 2).map .wbuf ++ (List.range 4).map .acc)
def cRange : Codec LockRange :=
  (cDom.and (num.and (num.and bool))).iso (fun r => (r.dom, r.start, r.len, r.write)) fun (d, a, n, w) => ⟨d, a, n, w⟩
def cLock (b : Nat) : Codec LockEntry :=
  ((name b).and (bool.and (cRange.list.and cRange.list))).iso (fun e => (e.cmd, e.incoming, e.ranges, e.order)) fun (c, i, r, o) => ⟨c, i, r, o⟩

def cLayout : Codec Layout :=
  (num.and (cFmt.and (cDword.and (num.list.and int.list)))).iso (fun l => (l.rank, l.fmt, l.base, l.extent, l.stride))
    fun (r, f, p, e, t) => ⟨r, f, p, e, t⟩
def cHoist : Codec HoistCopy :=
  (num.and ((oneOf [HoistDst.scratch, .a0, .a1, .a2, .a3, .w0, .w1]).and ((bits 4).opt.and (cDword.and (cDword.and (cDword.and
    ((num.and cPair).list.and (num.list.and (bool.and (cLayout.opt.and (num.list.and cPair.list))))))))))).iso
    (fun h => (h.copyNo, h.dstSel, h.mask, h.record, h.dst, h.sync, h.slices, h.arrived, h.started, h.layout, h.todo, h.part))
    fun (n, d, m, r, p, y, s, a, t, l, k, e) => ⟨n, d, m, r, p, y, s, a, t, l, k, e⟩

def cWMode : Codec WMode := oneOf [.dense, .s24, .s48, .bitmap]
def cMxOp : Codec MxOp :=
  ((nat 1).and (cDword.list.and (num.list.and (bool.list.and (cFmt.and cWMode))))).view
    (fun
      | .loop c e p q n k i j r cl g => (0, [p, q], [c, e, n, k, i, j, r], [cl, g], .n32, .dense)
      | .wb m p h f n => (1, [p], [h, n], [], f, m)
      | .clr c i cl => (2, [], [c], [i, cl], .n32, .dense)
      | .st p c f cl t k n => (3, [p], [c, t, n], [cl, k], f, .dense)
      | .ld c u f cl o k n => (4, [], [c, u, o, n], [cl, k], f, .dense))
    fun
      | (0, [p, q], [c, e, n, k, i, j, r], [cl, g], _, _) => some (.loop c e p q n k i j r cl g)
      | (1, [p], [h, n], [], f, m) => some (.wb m p h f n)
      | (2, [], [c], [i, cl], _, _) => some (.clr c i cl)
      | (3, [p], [c, t, n], [cl, k], f, _) => some (.st p c f cl t k n)
      | (4, [], [c, u, o, n], [cl, k], f, _) => some (.ld c u f cl o k n)
      | _ => none

def cBody : Codec CmdBody :=
  ((nat 1).and (cHoist.opt.and (cMxOp.opt.and cPair))).view
    (fun
      | .hoist h => (0, some h, none, 0, 0) | .mx o => (1, none, some o, 0, 0) | .drain p k => (2, none, none, p, k)
      | .sluice k n => (3, none, none, k, n) | .spring d => (4, none, none, d, 0))
    fun
      | (0, some h, _, _, _) => some (.hoist h) | (1, _, some o, _, _) => some (.mx o) | (2, _, _, p, k) => some (.drain p k)
      | (3, _, _, k, n) => some (.sluice k n) | (4, _, _, d, _) => some (.spring d) | _ => none
/-- An engine command; a sluice's block has a name of the model's own too. -/
def cCmd (b : Nat) : Codec EngCmd :=
  ((name b).and (num.and (num.and (cDword.and ((cOwner b).and (cBody.and bool)))))).iso
    (fun x => (x.id, x.core, x.slot, x.pc, x.owner, x.body, x.paused))
    fun (i, c, k, p, o, y, z) => ⟨i, c, k, p, o, (match y with | .sluice k n => .sluice k (b + n) | y => y), z⟩

def cAcc : Codec Acc :=
  ((num.and cWord).list.and ((num.and cWord).list.and (bool.and num))).iso (fun a => (a.even, a.odd, a.intKind, a.step)) fun (e, o, k, s) => ⟨e, o, k, s⟩
def cHalf : Codec Half := (cWMode.and (cFmt.and num)).iso (fun h => (h.mode, h.fmt, h.len)) fun (m, f, n) => ⟨m, f, n⟩
def cEngine (b : Nat) : Codec MxEngine :=
  ((name b).opt.and (cAcc.list.and (cHalf.list.and (bool.list.and ((name b).and (oneOf [LoopState.idle, .busy, .stopped])).list)))).iso
    (fun e => (e.holder, e.accs, e.halves, e.issuedKind, e.lastLoop)) fun (h, a, w, k, l) => ⟨h, a, w, k, l⟩

def cSpVar : Codec SpVar :=
  ((bits 16).and (num.and ((num.and (bits 8)).list.and (bool.and (bool.and num))))).iso (fun v => (v.h, v.colour, v.nbrs, v.s, v.cl, v.ones))
    fun (h, c, n, s, l, o) => ⟨h, c, n, s, l, o⟩
def cSpOp : Codec SpOp :=
  ((nat 1).and (cDword.list.and (num.list.and (bool.list.and ((bits 8).opt.and cSpVar.list.opt))))).view
    (fun
      | .load p none => (0, [p], [], [], none, none) | .load p (some (h, xs)) => (0, [p], [h], [], none, some xs)
      | .clamp f n p t => (1, [p], [f, n], t, none, none) | .free f n => (2, [], [f, n], [], none, none)
      | .set f n p t => (3, [p], [f, n], t, none, none) | .sweep l e c g k => (4, [], [l, k], [c, g], e, none)
      | .read p f n o c k => (5, [p], [f, n, k], [o, c], none, none))
    fun
      | (0, [p], [], _, _, _) => some (.load p none) | (0, [p], [h], _, _, some xs) => some (.load p (some (h, xs)))
      | (1, [p], [f, n], t, _, _) => some (.clamp f n p t) | (2, _, [f, n], _, _, _) => some (.free f n)
      | (3, [p], [f, n], t, _, _) => some (.set f n p t) | (4, _, [l, k], [c, g], e, _) => some (.sweep l e c g k)
      | (5, [p], [f, n, k], [o, c], _, _) => some (.read p f n o c k) | _ => none
def cSpCmd (b : Nat) : Codec SpCmd :=
  ((name b).and ((cOwner b).and (num.and (cMask.and (cSpOp.and bool))))).iso (fun q => (q.id, q.owner, q.core, q.lanes, q.op, q.paused))
    fun (i, o, c, l, p, z) => ⟨i, o, c, l, p, z⟩
def cHolder (b : Nat) : Codec SpHolder :=
  (bool.and (name b)).iso (fun | .launch n => (false, n) | .graph n => (true, n)) fun | (false, n) => .launch n | (true, n) => .graph n
def cSpring (b : Nat) : Codec Spring :=
  ((cHolder b).opt.and (num.and (num.and (bool.and ((bits 8).and (cDword.and (cSpVar.list.and (num.and (cSpCmd b).list)))))))).iso
    (fun p => (p.holder, p.nvar, p.colours, p.entropy, p.beta, p.seed, p.vars, p.sweepno, p.queue))
    fun (h, n, c, e, t, d, v, w, q) => ⟨h, n, c, e, t, d, v, w, q⟩

def cBlock (b : Nat) : Codec Block :=
  ((name b).and ((name b).and (num.and ((cOwner b).and (num.and (num.and (num.and (cFmt.and (bool.and (bool.and (bool.and (num.and (num.and
    (cDword.list.and (cDword.and (cDword.and (cWord.and (num.list.and (cPair.list.and (cPair.opt.and bool)))))))))))))))))))).iso
    (fun k => (k.id, k.cmd, k.core, k.owner, k.fn, k.part, k.op, k.fmt, k.seqOrder, k.zero, k.read, k.slotBase, k.count, k.sources, k.dest,
      k.flag, k.flagval, k.doneGroups, k.begun, k.stop, k.paused))
    fun (i, c, r, o, f, p, n, m, q, z, e, s, t, l, d, g, v, y, u, w, x) => ⟨i, c, r, o, f, p, n, m, q, z, e, s, t, l, d, g, v, y, u, w, x⟩

def cLode : Codec Lode :=
  ((oneOf [LodeState.none, .running, .exited, .faulted]).and (cDword.and (cDword.list.and num.opt))).iso (fun l => (l.st, l.pc, l.x, l.resv))
    fun (s, p, x, r) => ⟨s, p, x, r⟩
def cLodeNode (b : Nat) : Codec LodeNode :=
  (num.and (num.and ((name b).and (num.and (num.and cLode))))).iso (fun n => (n.cluster, n.ctx, n.graph, n.node, n.core, n.lode))
    fun (c, x, g, n, k, l) => ⟨c, x, g, n, k, l⟩

/-! ## The crew record (18 R293) -/

def Why.code : Why → Nat | .chute => 1 | .members => 2 | .barrier => 3 | .repack => 4 | .engine => 5 | .frontier => 6 | .queue => 7
/-- STATE and WHY of an entry: bits [71:64] of its 128 (04 R69). -/
def LaneState.code : LaneState → Nat | .ready => 0 | .join => 1 | .wait y => 2 + y.code * 8 | .parked => 3 | .exited => 7
def laneStates : List LaneState :=
  [.ready, .join, .parked, .exited] ++ [Why.chute, .members, .barrier, .repack, .engine, .frontier, .queue].map .wait
/-- An entry of the program-counter table, in the 128 bits of 04 R69. -/
def cPcEntry : Codec PcEntry :=
  (nat 16).view (fun e => e.pc.toNat + e.st.code * 2 ^ 64 + e.age % 512 * 2 ^ 72) fun v =>
    (laneStates.find? fun s => s.code == bitsAt v 64 8).map fun s => ⟨BitVec.ofNat 64 (bitsAt v 0 64), s, bitsAt v 72 9⟩
/-- A rejoin register, in the 160 bits of 04 R77. -/
def cJReg : Codec JReg :=
  (nat 20).view (fun j => j.mask.toNat + j.arrived.toNat * 2 ^ 32 + j.target.toNat * 2 ^ 64 +
      (match j.st with | .idle => 0 | .set => 1 | .await => 2) * 2 ^ 128) fun v =>
    ([JState.idle, .set, .await][bitsAt v 128 2]?).map fun s =>
      ⟨BitVec.ofNat 32 (bitsAt v 0 32), BitVec.ofNat 32 (bitsAt v 32 32), BitVec.ofNat 64 (bitsAt v 64 64), s⟩
def cTrap : Codec TrapRegs :=
  ((bits 8).and (cDword.and (cDword.and (cDword.and ((bits 4).and (cMask.and (cDword.and cDword))))))).iso
    (fun t => (t.cause, t.epc, t.eval, t.tvec, t.tstat, t.elanes, t.escratch, t.elhist)) fun (c, p, e, v, s, l, x, h) => ⟨c, p, e, v, s, l, x, h⟩
def cRes : Codec GroupRes :=
  ((bits 5).and ((cKReg.and cDword).list.and ((cReg.and (cMask.and cVVal)).list.and ((cMReg.and (cMask.and cMask)).list.and
    (num.and (cDword.and bool)).opt)))).iso (fun r => (r.wbase, r.ks, r.ws, r.ms, r.trap)) fun (w, k, v, m, t) => ⟨w, k, v, m, t⟩
/-- The requests that the link unit keeps for a group, with what its instruction needs of them (18 R287). -/
def cRemote (b : Nat) : Codec RemoteWait :=
  (cDword.and (cMask.and (cInstr.and ((bits 5).and ((num.and (num.and (name b))).list.and (cPair.list.and ((num.and cDword).list.and
    (num.and (num.and (cPair.list.and cRemoteOp))).list))))))).iso
    (fun w => (w.pc, w.lanes, w.instr, w.wbase, w.reqs, w.vals, w.ptrs, w.near)) fun (p, l, i, w, r, v, q, n) => ⟨p, l, i, w, r, v, q, n⟩

/-- The slices of eight lanes that a crew keeps (04 R80, 20 R298). -/
def keptSlices (ordered : Bool) (c : Crew) : List Nat :=
  if c.ended then [] else if ordered then List.range 4 else (List.range 4).filter fun k => bitsAt c.live.toNat (8 * k) 8 != 0

/-- The tag byte of a register: shape and format. -/
def tagByte (r : VReg) : Nat :=
  (match r.val with | .gen _ => 0 | .uni _ => 1 | .aff _ _ => 2) + 4 * fmtCode r.fmt

/-- The words of a register's value. -/
def regWords (slices : List Nat) (r : VReg) : List AreaField :=
  match r.val with
  | .uni v => [.num 4 v.toNat]
  | .aff b s => [.num 4 b.toNat, .num 4 s.toNat]
  | .gen _ => slices.flatMap fun k => (List.range 8).map fun i => .num 4 (r.val.lane (8 * k + i)).toNat

/-- A register from its tag byte and its words from byte `a`. -/
def getReg (m : Memory) (slices : List Nat) (t a : Nat) : Option (VReg × Nat) :=
  let word (i : Nat) : Word := BitVec.ofNat 32 (m.bits ((a + 4 * i) * 8) 32)
  match fmtOf (bitsAt t 2 5), t % 4 with
  | some f, 1 => some (⟨.uni (word 0), f⟩, a + 4)
  | some f, 2 => some (⟨.aff (word 0) (word 1), f⟩, a + 8)
  | some f, 0 => some (⟨.ofLanes fun i => match slices.findIdx? (· == i / 8) with | some k => word (8 * k + i % 8) | none => 0, f⟩, a + 32 * slices.length)
  | _, _ => none

/-- The registers from their tag bytes. -/
def getRegs (m : Memory) (slices : List Nat) : List Nat → Nat → Option (List VReg × Nat)
  | [], a => some ([], a)
  | t :: ts, a => (getReg m slices t a).bind fun r => (getRegs m slices ts r.2).map fun q => (r.1 :: q.1, q.2)

/-- What a crew record holds before the registers. -/
def cCrewHead (b : Nat) : Codec Crew :=
  ((nat 1).and ((nat 1).and ((bits 5).and (cDword.and (cTrap.and ((vec 32 cPcEntry).and ((vec 7 cMask).and ((vec 8 cJReg).and ((vec 16 cDword).and
    ((cDword.and cFmt).list.and ((vec 8 cMask).and ((vec 8 cMask).and ((num.and (cMask.and bool)).list.and
      ((cDword.and (bool.and num)).list.and ((num.and cDword).list.and (((name b).and (num.and (cDword.and num))).list.and
        (cRemote b).list)))))))))))))))).iso
    (fun c => (c.slot, c.index, c.wbase, c.lhist, c.trap, c.pcs, c.m.drop 1, c.j, c.k, c.fifo.map fun e => (e.1.val, e.1.fmt),
      c.barPending, c.barDone, c.barWaits.map fun w => (w.bar, w.lanes, w.full), c.qregs.map fun q => (q.handle, q.producer, q.index),
      c.due.map fun d => (d.cause, d.eval), c.mxStops.map fun x => (x.cmd, x.cause, x.eval, x.acc), c.remotes))
    fun (k, i, w, h, t, p, m, j, x, f, u, d, a, q, y, z, r) => { Crew.blank with
      slot := k, index := i, ended := false, wbase := w, lhist := h, trap := t, pcs := p, m := 0 :: m, j := j, k := x
      fifo := f.map fun e => (⟨e.1, e.2⟩, 0), barPending := u, barDone := d, barWaits := a.map fun e => ⟨e.1, e.2.1, e.2.2⟩
      qregs := q.map fun e => ⟨e.1, e.2.1, e.2.2⟩, due := y.map fun e => ⟨e.1, e.2⟩
      mxStops := z.map fun e => ⟨e.1, e.2.1, e.2.2.1, e.2.2.2⟩, remotes := r }

/-- A crew record; whether the launch is ordered, whether the crew has ended and its register allocation come from outside it. -/
def cCrew (b : Nat) (ordered ended : Bool) (regs16 : Nat) : Codec Crew where
  put c := (cCrewHead b).put c ++ c.regs.map (fun r => .num 1 (tagByte r)) ++ c.regs.flatMap (regWords (keptSlices ordered c))
  get m a := ((cCrewHead b).get m a).bind fun r =>
    let c := { r.1 with ended := ended, regs16 := regs16 }
    ((nat 1).getMany m c.nregs r.2).bind fun t =>
      (getRegs m (keptSlices ordered c) t.1 t.2).map fun q => ({ c with regs := q.1 }, q.2)

/-- What the model keeps of a crew beside its record, the lanes that have taken chute entries last. -/
def cCrewRest (b : Nat) : Codec Crew :=
  (cMask.and ((cDword.and (cMask.and num)).list.and ((cDword.and cMask).list.and
    ((cMask.and (cDword.and cRes)).list.and (num.and ((name b).and num).opt))))).and ((bits 32).opt.and (num.and cMask.list)) |>.iso
    (fun c => ((c.tied, c.bounds.map fun w => (w.pc, w.lanes, w.bound), c.gone,
      c.pend.map fun p => (p.lanes, p.pc, p.res), c.hoists, c.tape), c.task, c.lastIssue, c.fifo.map fun e => e.2))
    fun ((t, w, g, p, h, y), k, l, f) => { Crew.blank with
      tied := t
      bounds := w.map fun e => ⟨e.1, e.2.1, if e.2.2 = 0 then 0 else b + e.2.2⟩, gone := g, pend := p.map fun e => ⟨e.1, e.2.1, e.2.2⟩
      hoists := h, tape := y, task := k, lastIssue := l, fifo := f.map fun m => (⟨0, .n32⟩, m) }

/-- A crew from its record and the rest. -/
def joinCrew (c r : Crew) : Crew :=
  { c with tied := r.tied, bounds := r.bounds, gone := r.gone, pend := r.pend, hoists := r.hoists, tape := r.tape
           task := r.task, lastIssue := r.lastIssue, fifo := (c.fifo.zip r.fifo).map fun e => (e.1.1, e.2.2) }

/-- Crew records one after another. -/
def getCrews (b : Nat) (ordered : Bool) (m : Memory) : List (Bool × Nat) → Nat → Option (List Crew × Nat)
  | [], a => some ([], a)
  | e :: es, a => ((cCrew b ordered e.1 e.2).get m a).bind fun r => (getCrews b ordered m es r.2).map fun q => (r.1 :: q.1, q.2)

/-! ## Gangs -/

/-- A gang without its crews, in the order of R292: core, scratchpad base and size, g0 to g15, lode thread. -/
def cGangHead (b : Nat) : Codec Gang :=
  ((nat 2).and ((nat 4).and ((nat 4).and ((vec 16 cWord).and (cLode.and ((name b).and ((name b).and (num.and (num.and (bool.and (bool.and
    (oneOf [GangEnd.cancelled, .faulted]).opt))))))))))).iso
    (fun g => (g.core, g.sbase, g.scratch, g.g, g.lode, g.id, g.launch, g.index, g.vault, g.cluster, g.spring, g.ending))
    fun (c, s, n, w, l, i, h, x, v, k, p, e) => ⟨i, h, x, c, s, n, v, k, p, w, [], l, [], e⟩

/-- Change the last issue of every crew: in an area it is how long ago it was, since CYCLE is the destination's (18 R294). -/
def SavedGang.mapIssue (v : SavedGang) (f : Nat → Nat) : SavedGang :=
  { v with gang := { v.gang with crews := v.gang.crews.map fun c => { c with lastIssue := f c.lastIssue } } }

/-- A gang section's content (18 R292); whether its launch is ordered comes first. -/
def putGang (ordered : Bool) (v : SavedGang) : List AreaField :=
  let g := v.gang
  bool.put ordered ++ (cGangHead 0).put g ++ ((gangScratch g).flatMap fun r => (run r.1 r.2).put (v.scratch.filter fun c => r.1 ≤ c.1 && c.1 < r.1 + r.2)) ++
    (bool.and num).list.put (g.crews.map fun c => (c.ended, c.regs16)) ++ (g.crews.flatMap fun c => (cCrew 0 ordered c.ended c.regs16).put c) ++
    (cCrewRest 0).list.put g.crews ++ bool.put v.interp

/-- The scratchpad runs of a gang section. -/
def getRuns (m : Memory) : List (Nat × Nat) → Nat → List (Nat × Byte) × Nat
  | [], a => ([], a)
  | r :: rs, a => let q := getRuns m rs (a + r.2); ((cellsIn m a r.2).map (fun c => (c.1 - a + r.1, c.2)) ++ q.1, q.2)

def getGang (b : Nat) (m : Memory) (a : Nat) : Option SavedGang :=
  (bool.get m a).bind fun o =>
    ((cGangHead b).get m o.2).bind fun g =>
      let r := getRuns m (gangScratch g.1) g.2
      ((bool.and num).list.get m r.2).bind fun e =>
        (getCrews b o.1 m e.1 e.2).bind fun c =>
          ((cCrewRest b).list.get m c.2).bind fun x =>
            (bool.get m x.2).map fun i => ⟨{ g.1 with crews := (c.1.zip x.1).map fun p => joinCrew p.1 p.2 }, r.1, [], [], i.1⟩

/-! ## The dispatcher's state, ponds and queues -/

def cCounter : Codec Counter :=
  (num.and (num.and (num.and (num.and cCState)))).iso (fun c => (c.total, c.done, c.cancelled, c.faulted, c.st)) fun (t, d, c, f, s) => ⟨t, d, c, f, s⟩
def cJob : Codec Job :=
  (cDword.and (num.and (num.list.and (num.list.and bool)))).iso (fun j => (j.jobid, j.part, j.admitted, j.doneSlices, j.ended)) fun (i, p, a, d, e) => ⟨i, p, a, d, e⟩
def cSlice (b : Nat) : Codec Slice :=
  ((name b).and (num.and (num.and ((bits 32).and ((name b).and (num.and (bool.and (cDword.and (num.and (num.and (num.and (cDword.and (num.and
    (cDword.and (cDword.and (num.and (bool.and (num.and (cCounter.and bool))))))))))))))))))).iso
    (fun l => (l.id, l.part, l.fn, l.handle, l.seq, l.sliceNo, l.last, l.jobid, l.deadline, l.budget, l.used, l.phases, l.nphases, l.status,
      l.cookie, l.nextPhase, l.running, l.reason, l.counter, l.ended))
    fun (i, p, f, h, q, n, t, j, d, g, u, s, k, w, c, x, r, y, o, e) => ⟨i, p, f, h, q, n, t, j, d, g, u, s, k, w, c, x, r, y, o, e⟩
def cPhase (b : Nat) : Codec Phase :=
  ((name b).and (num.and (num.and ((bits 32).and ((name b).and (num.and (cCounter.and bool))))))).iso
    (fun p => (p.id, p.part, p.fn, p.handle, p.slice, p.index, p.counter, p.ended)) fun (i, p, f, h, s, n, c, e) => ⟨i, p, f, h, s, n, c, e⟩

def cNodeState (b : Nat) : Codec NodeState :=
  ((nat 1).and ((name b).and cCState)).view
    (fun
      | .blocked => (0, 0, .pending) | .ready q => (1, q, .pending) | .pooled q => (2, q, .pending) | .dispatched => (3, 0, .pending)
      | .over h => (4, 0, h) | .ended h => (5, 0, h))
    fun
      | (0, _) => some .blocked | (1, q, _) => some (.ready q) | (2, q, _) => some (.pooled q) | (3, _) => some .dispatched
      | (4, _, h) => some (.over h) | (5, _, h) => some (.ended h) | _ => none
def cNode (b : Nat) : Codec Node :=
  (num.and (num.list.and (cDword.and ((num.and (cDword.and num)).list.and ((cNodeState b).and num.opt))))).iso
    (fun n => (n.ty, n.preds, n.body, n.opers, n.st, n.core)) fun (t, p, y, o, s, c) => ⟨t, p, y, o, s, c⟩
def cGraph (b : Nat) : Codec Graph :=
  ((name b).and (num.and (num.and ((bits 32).and ((name b).and ((name b).and (num.and (cDword.and (cDword.and (bool.and ((cNode b).list.and
    (bool.and (cCounter.and bool))))))))))))).iso
    (fun g => (g.id, g.part, g.fn, g.handle, g.phase, g.slice, g.die, g.recPtr, g.nodesPtr, g.admitted, g.nodes, g.holdsSpring, g.counter, g.ended))
    fun (i, p, f, h, a, s, d, r, n, m, x, k, c, e) => ⟨i, p, f, h, a, s, d, r, n, m, x, k, c, e⟩

def cImage : Codec Image :=
  (num.and (num.and (bool.and (bool.and (bool.and (num.and (num.and (num.and (num.and num))))))))).iso
    (fun i => (i.crews, i.regs16, i.ordered, i.cluster, i.spring, i.scratch, i.codewords, i.entry, i.trapoff, i.vault))
    fun (c, r, o, k, p, s, w, e, t, v) => ⟨c, r, o, k, p, s, w, e, t, v⟩
def cTaskLine : Codec TaskLine :=
  (cDom.and (num.and (num.and ((bits 512).and (bits 512))))).iso (fun w => (w.dom, w.line, w.key, w.data, w.mask)) fun (d, l, k, v, m) => ⟨d, l, k, v, m⟩
def cHeldPut : Codec HeldPut :=
  (cDword.and (cPair.list.and (num.and (num.and cDword)))).iso (fun p => (p.handle, p.recs, p.core, p.slot, p.pc)) fun (h, r, c, s, p) => ⟨h, r, c, s, p⟩
def cDeferred : Codec Deferred :=
  (num.and (cDword.and (cDword.and (cMask.and bool)))).iso (fun d => (d.cause, d.epc, d.eval, d.lanes, d.chain)) fun (c, p, e, l, h) => ⟨c, p, e, l, h⟩
def cTask : Codec Task :=
  ((bits 32).and (cPair.list.and ((bits 32).opt.and (cDword.and (cDword.and ((oneOf [TaskState.queued, .running, .finished]).and (num.opt.and (num.and
    (num.and ((cDom.and num).list.and (cTaskLine.list.and (cHeldPut.list.and (cDeferred.opt.and bool))))))))))))).iso
    (fun t => (t.num, t.tag, t.parent, t.entry, t.arg, t.st, t.core, t.runs, t.children, t.reads, t.writes, t.puts, t.deferred, t.front))
    fun (n, g, p, e, a, s, c, r, h, x, w, u, d, f) => ⟨n, g, p, e, a, s, c, r, h, x, w, u, d, f⟩
def cUnit : Codec TaskUnit := (cTask.list.and ((bits 32).and num)).iso (fun u => (u.tasks, u.nextNum, u.commits)) fun (t, n, c) => ⟨t, n, c⟩
def cLaunchOwner (b : Nat) : Codec LaunchOwner :=
  (bool.and ((name b).and num)).iso (fun | .node g n => (true, g, n) | .phase p => (false, p, 0)) fun | (true, g, n) => .node g n | (false, p, _) => .phase p
def cLaunch (b : Nat) : Codec Launch :=
  ((name b).and (num.and (num.and ((bits 32).and ((cLaunchOwner b).and ((name b).and (num.and (cDword.and (cImage.and (num.and (num.and (num.and (num.and
    (cDword.and ((cDword.and (num.and cDword)).list.and ((cDword.and num).list.and (cDword.and (cDword.and (cWord.and (num.and (bool.and (cUnit.opt.and
      (cPair.list.and (bool.and (cCounter.and bool))))))))))))))))))))))))).iso
    (fun l => (l.id, l.part, l.fn, l.handle, l.owner, l.slice, l.die, l.kernel, l.image, l.gangs, l.crews, l.regs16, l.tclass, l.args,
      l.regions.map fun r => (r.base, r.length, r.object), l.operands, l.tvec, l.doneflag, l.doneval, l.placed, l.holdsSpring, l.tasks, l.pieces,
      l.changed, l.counter, l.ended))
    fun (i, p, f, h, o, s, d, k, m, g, c, r, t, a, e, q, v, y, z, n, j, u, w, x, ct, en) =>
      ⟨i, p, f, h, o, s, d, k, m, g, c, r, t, a, e.map fun x => ⟨x.1, x.2.1, x.2.2⟩, q, v, y, z, n, j, u, w, x, ct, en⟩

def cCursor (b : Nat) : Codec Cursor :=
  (num.and (num.and (num.and (num.and ((name b).and num))))).iso (fun c => (c.slot, c.basin, c.mark, c.next, c.gang, c.cgen)) fun (s, k, m, n, g, e) => ⟨s, k, m, n, g, e⟩
/-- What the host has waiting at an inlet: window puts and removals. -/
def hostOps (d : Pond) : List (Nat × Option (Nat × Nat)) :=
  d.ops.filterMap fun o =>
    match o.src, o.kind with
    | .host f, .windowPut k v => some (f, some (k, v))
    | .host f, .remove => some (f, none)
    | _, _ => none
def hostOp (o : Nat × Option (Nat × Nat)) : PondOp := ⟨.host o.1, (match o.2 with | some p => .windowPut p.1 p.2 | none => .remove), 0, 0⟩
def cPond (b : Nat) : Codec Pond :=
  (num.and (num.and (num.and (num.and (cDword.and (num.and (num.and (num.and (num.and (bool.and (num.and (num.list.and ((cCursor b).list.and (num.list.and
    (bool.and ((num.and cPair.opt).list.and ((cDword.and (num.and (num.and (num.and (num.and cDword)).opt))).list.and bool))))))))))))))))).iso
    (fun d => (d.part, d.slot, d.fn, d.gen, d.base, d.w, d.basins, d.slack, d.cap, d.vaultDom, d.total, d.counts, d.cursors, d.cursorGens, d.broken,
      hostOps d, d.paused.map fun p => (p.addr, p.width, p.bits, p.who), d.opPaused))
    fun (p, s, f, g, a, w, n, k, c, v, t, m, u, e, x, o, q, z) =>
      ⟨p, s, f, g, a, w, n, k, c, v, t, m, u, e, x, o.map hostOp, q.map fun r => ⟨r.1, r.2.1, r.2.2.1, r.2.2.2⟩, z⟩

def cQReq (b : Nat) : Codec QReq :=
  ((name b).and ((name b).and (num.and (cMask.and (cDword.and (num.and (cReg.and ((bits 5).and (cWord.list.list.and (num.and (cPair.opt.and
    (num.and cMask).list))))))))))).iso
    (fun r => (r.id, r.gang, r.crew, r.lanes, r.pc, r.producer, r.d, r.wbase, r.recs, r.counted, r.node, r.threads))
    fun (i, g, c, l, p, n, d, w, r, k, o, t) => ⟨i, g, c, l, p, n, d, w, r, k, o, t⟩
def cTransit (b : Nat) : Codec QTransit :=
  (((cQReq b).and bool).opt.and num).iso (fun | .recs r a => (some (r, a), 0) | .close p => (none, p))
    fun | (some (r, a), _) => .recs r a | (none, p) => .close p
def cQueue (b : Nat) : Codec Queue :=
  (num.and (num.and (num.and (num.and (cDword.and (num.and (num.and (bool.and (num.and (num.list.and (bool.list.and (num.and ((cQReq b).list.and
    ((cTransit b).list.and ((cQReq b).list.and num.list))))))))))))))).iso
    (fun q => (q.part, q.slot, q.fn, q.gen, q.buf, q.slots, q.producers, q.rmtok, q.free, q.order, q.closed, q.consumers, q.waiting, q.transit,
      q.granted, q.closing))
    fun (p, s, f, g, a, n, r, k, e, o, c, u, w, t, h, l) => ⟨p, s, f, g, a, n, r, k, e, o, c, u, w, t, h, l⟩

/-- A queue with what its buffer holds: slots and their 512 bits (18 R292). -/
def cQueueBuf (b : Nat) : Codec (Queue × List (Nat × Nat)) := (cQueue b).and (num.and (nat 64)).list

/-- What the slots of a queue's buffer hold that have a record; none of a slot that cannot be read. -/
def queueRecords (s : State) (q : Queue) : List (Nat × Nat) :=
  q.order.filterMap fun k => match engineRead s q.agent (ptrAdd q.buf (512 * k)) 512 .free with | .ok v => some (k, v) | .error _ => none

/-! ## Sections (18 R292) -/

/-- What the function section holds. -/
structure FnPart where
  node : Nat
  counts : List Nat
  names : Nat
  whole : Bool
  jobs : List Job
  slices : List Slice
  phases : List Phase
  graphs : List Graph
  launches : List Launch
  ponds : List Pond
  queues : List (Queue × List (Nat × Nat))
  lodeNodes : List LodeNode
  deriving DecidableEq, Repr

def cFnPart (b : Nat) : Codec FnPart :=
  ((nat 2).and ((vec 8 (nat 2)).and (num.and (bool.and (cJob.list.and ((cSlice b).list.and ((cPhase b).list.and ((cGraph b).list.and ((cLaunch b).list.and
    ((cPond b).list.and ((cQueueBuf b).list.and (cLodeNode b).list))))))))))).iso
    (fun f => (f.node, f.counts, f.names, f.whole, f.jobs, f.slices, f.phases, f.graphs, f.launches, f.ponds, f.queues, f.lodeNodes))
    fun (n, c, m, w, j, s, p, g, l, d, q, o) => ⟨n, c, m, w, j, s, p, g, l, d, q, o⟩

/-- What a core section holds: the core, its vault and node area where they are saved, its range-lock table, the matrix engine as
each saved gang that held it left it, with its buffers, and its engine commands, hoist copies among them. -/
structure CorePart where
  core : Nat
  nodeBytes : Nat
  whole : Bool
  mem : List (Nat × Byte)
  locks : List LockEntry
  engines : List MxEngine
  bufs : List (List (Nat × Byte))
  cmds : List EngCmd
  deriving DecidableEq, Repr

def CorePart.runs (c : CorePart) : List (Nat × Nat) :=
  if c.whole then [(vaultKey c.core, 2 ^ 22), (scratchKey c.core + (524288 - c.nodeBytes), c.nodeBytes)] else []

def cCoreHead (b : Nat) : Codec (Nat × Nat × Bool × List LockEntry × List MxEngine × List EngCmd) :=
  (nat 2).and (num.and (bool.and ((cLock b).list.and ((cEngine b).list.and (cCmd b).list))))

def cCorePart (b : Nat) : Codec CorePart where
  put c := (cCoreHead b).put (c.core, c.nodeBytes, c.whole, c.locks, c.engines, c.cmds) ++
    (c.runs.flatMap fun r => (run r.1 r.2).put (c.mem.filter fun x => r.1 ≤ x.1 && x.1 < r.1 + r.2)) ++
    c.bufs.flatMap (run (bufRun c.core).1 (bufRun c.core).2).put
  get m a :=
    ((cCoreHead b).get m a).bind fun r =>
      let c : CorePart := ⟨r.1.1, r.1.2.1, r.1.2.2.1, [], r.1.2.2.2.1, r.1.2.2.2.2.1, [], r.1.2.2.2.2.2⟩
      let q := getRuns m c.runs r.2
      ((run (bufRun c.core).1 (bufRun c.core).2).getMany m c.engines.length q.2).map fun e => ({ c with mem := q.1, bufs := e.1 }, e.2)

def cDiePart (b : Nat) : Codec (Nat × Spring) := (nat 1).and (cSpring b)
def cStackPart (b : Nat) : Codec (Nat × List Block × List (Nat × BitVec 320)) := (nat 1).and ((cBlock b).list.and ((nat 2).and (bits 320)).list)

/-- A section: its own length in bits, itself included, and its content. -/
def sized (fs : List AreaField) : List AreaField := .num 8 ((fieldsLen fs + 8) * 8) :: fs

/-- Fields up to a multiple of 512 bits. -/
def padded (fs : List AreaField) : List AreaField := fs ++ [.num ((64 - fieldsLen fs % 64) % 64) 0]

/-- The function section of a save. -/
def fnPart (s : State) (fn : Nat) (v : Saved) : FnPart :=
  { node := s.link.node.toNat, counts := (List.range 8).map (fun k => ((s.fn fn).windows.getD k (0, 0)).2), names := s.nextId + s.link.nextReq, whole := v.whole
    jobs := s.jobs.filter fun j => !j.ended && s.slices.any fun l => l.fn == fn && l.jobid == j.jobid && l.part == j.part
    slices := s.slices.filter fun l => l.fn == fn && !l.ended, phases := s.phases.filter fun p => p.fn == fn && !p.ended
    graphs := s.graphs.filter fun g => g.fn == fn && !g.ended, launches := s.launches.filter fun l => l.fn == fn && !l.ended
    ponds := s.ponds.filter fun d => d.fn == fn, queues := (s.queues.filter fun q => q.fn == fn).map fun q => (q, queueRecords s q), lodeNodes := v.lodeNodes }

/-- The core sections of a save. -/
def coreParts (s : State) (part : Nat) (v : Saved) : List CorePart :=
  (partCores s part).filterMap fun c =>
    let es := v.gangs.flatMap fun g => (g.engines.filter fun e => e.1 == c).map fun e => (e.2, cellsIn ⟨g.bufs, 0⟩ (bufRun c).1 (bufRun c).2)
    let locks := (v.locks.filter fun x => x.1 == c).map fun x => x.2
    let cmds := v.cmds.filter fun x => x.core == c
    if !v.whole && es.isEmpty && locks.isEmpty && cmds.isEmpty then none
    else some ⟨c, nodeBytes s part, v.whole, v.mem, locks, es.map fun e => e.1, es.map fun e => e.2, cmds⟩

/-- The stack sections of a save. -/
def stackParts (v : Saved) : List (Nat × List Block × List (Nat × BitVec 320)) :=
  (List.range 8).filterMap fun k =>
    let bs := (v.blocks.filter fun b => b.1 == k).map fun b => b.2
    let xs := (v.slots.filter fun x => x.1 == k).map fun x => x.2
    if bs.isEmpty && xs.isEmpty then none else some (k, bs, xs)

/-- The sections of a save by kind, in the order of R292. -/
def areaKinds (s : State) (fn part : Nat) (v : Saved) : List (List AreaField) :=
  let ordered (g : Gang) : Bool := match s.launch? g.launch with | some l => l.image.ordered | none => false
  [sized ((cFnPart 0).put (fnPart s fn v)),
    v.gangs.flatMap fun x => sized (putGang (ordered x.gang) (x.mapIssue fun t => issueTime s - t)),
    (coreParts s part v).flatMap fun c => sized ((cCorePart 0).put c),
    v.springs.flatMap fun x => sized ((cDiePart 0).put x),
    (stackParts v).flatMap fun x => sized ((cStackPart 0).put x)].map padded

/-! ## The header and the save -/

/-- The header of 18 R290: offsets in bits. -/
def areaHeader (clusters used gangs : Nat) (offs : List Nat) : Nat :=
  let h := 0x43585441 + 2 ^ 32 + clusters * 2 ^ 64 + used % 2 ^ 64 * 2 ^ 128 + gangs % 2 ^ 32 * 2 ^ 192 +
    (offs.zipIdx.foldl (fun n o => n + o.1 % 2 ^ 64 * 2 ^ (256 + 64 * o.2)) 0)
  h + (crcBytes (bytesOfNat 504 h)).toNat * 2 ^ 4032

/-- The offset in bits of each kind: the header takes 4,096. -/
def kindOffs : Nat → List (List AreaField) → List Nat
  | _, [] => []
  | a, k :: ks => a :: kindOffs (a + fieldsLen k * 8) ks

/-- The bytes of an area that hold what a function has put aside: the header and the sections. -/
def areaBytes (s : State) (fn part : Nat) : Nat := 512 + fieldsLen (areaKinds s fn part (savedOf s fn)).flatten

/-- A save writes the area: the header and its sections, as far as the area goes (log 23). -/
def writeArea (s : State) (fn part : Nat) : State :=
  let f := s.fn fn
  let v := savedOf s fn
  let kinds := areaKinds s fn part v
  let used := areaBytes s fn part
  let h := areaHeader (s.part part).clusters.toNat (used * 8) v.gangs.length (kindOffs 4096 kinds)
  let a := f.ctxbase.toNat
  let n := min (min used (f.ctxsize * 65536)) (deviceBytes - a)
  { s with mem := putCells s.mem a n (fieldCells s.mem.gen a (.num 512 h :: kinds.flatten)) }

/-! ## Adoption -/

/-- The header of a function's area. -/
def headerBits (s : State) (fn : Nat) : Nat := s.mem.bits ((s.fn fn).ctxbase.toNat * 8) 4096

/-- A header is valid for a function (18 R291). -/
def headerOk (s : State) (fn part : Nat) : Bool :=
  let f := s.fn fn
  let h := headerBits s fn
  f.ctxbase.toNat + 512 ≤ deviceBytes && bitsAt h 0 32 == 0x43585441 && bitsAt h 32 8 == 1 &&
    bitsAt h 4032 64 == (crcBytes (bytesOfNat 504 h)).toNat && bitsAt h 128 64 ≤ f.ctxsize * 2 ^ 19 &&
    bitsAt h 64 64 == (s.part part).clusters.toNat

/-- The contents of the sections of one kind from byte `a` to byte `e`, `n` of them at most. -/
def sections {α : Type} (m : Memory) (get : Memory → Nat → Option α) (e : Nat) : Nat → Nat → Option (List α)
  | 0, _ => some []
  | n + 1, a =>
    let len := m.bits (a * 8) 64 / 8
    if e < a + 8 ∨ len = 0 then some []
    else (get m (a + 8)).bind fun v => (sections m get e n (a + len)).map fun vs => v :: vs

/-- The context of a function that core sections and gang sections give together. -/
def joinSaved (f : FnPart) (gs : List SavedGang) (cs : List CorePart) (ds : List (Nat × Spring))
    (ks : List (Nat × List Block × List (Nat × BitVec 320))) : Saved :=
  let engines (g : SavedGang) : SavedGang :=
    let mine := cs.flatMap fun c => ((c.engines.zip c.bufs).filter fun e => e.1.holder == some g.gang.id).map fun e => (c.core, e)
    { g with engines := mine.map fun e => (e.1, e.2.1), bufs := mine.flatMap fun e => e.2.2 }
  { whole := f.whole, gangs := gs.map engines, cmds := (cs.flatMap fun c => c.cmds).foldl (fun l x => insertCmd x l) []
    locks := cs.flatMap fun c => c.locks.map fun e => (c.core, e), springs := ds, blocks := ks.flatMap fun k => k.2.1.map fun b => (k.1, b)
    lodeNodes := f.lodeNodes, mem := cs.flatMap fun c => c.mem, slots := ks.flatMap fun k => k.2.2.map fun x => (k.1, x) }

/-- What an area holds, its names coming after `b`; none where its sections cannot be read. -/
def readArea (s : State) (fn b : Nat) : Option (Nat × Adopted) :=
  let h := headerBits s fn
  let m := s.mem
  let offAt (i : Nat) : Nat := (s.fn fn).ctxbase.toNat + bitsAt h (256 + 64 * i) 64 / 8
  let stop := (s.fn fn).ctxbase.toNat + bitsAt h 128 64 / 8
  ((cFnPart b).get m (offAt 0 + 8)).bind fun f =>
    (sections m (getGang b) (offAt 2) (bitsAt h 192 32) (offAt 1)).bind fun gs =>
      (sections m (fun m a => ((cCorePart b).get m a).map fun r => r.1) (offAt 3) 256 (offAt 2)).bind fun cs =>
        (sections m (fun m a => ((cDiePart b).get m a).map fun r => r.1) (offAt 4) 4 (offAt 3)).bind fun ds =>
          (sections m (fun m a => ((cStackPart b).get m a).map fun r => r.1) stop 8 (offAt 4)).map fun ks =>
            let f := f.1
            (f.names, ⟨joinSaved f (gs.map fun g => g.mapIssue fun t => issueTime s - t) cs ds ks, f.node, f.counts, f.jobs, f.slices, f.phases, f.graphs, f.launches, f.ponds, f.queues⟩)

/-- The destination's slot windows and node are those of the save (18 R294). -/
def adoptFits (s : State) (fn : Nat) (a : Adopted) : Bool :=
  a.node == s.link.node.toNat && (List.range 8).all fun k => a.counts.getD k 0 == ((s.fn fn).windows.getD k (0, 0)).2

end Sys2Proof.Machine
end

