-- ==== Sys2Proof/Machine/Work.lean ====
section
/-! DEFINITION. Machine/Work.lean: completion counters and how they end (01 R5 to R8), handles (02 R38), the dispatcher's own
writes (R344), status records (R35), cancelling (R45, R46), phases and slices as they end (01 R20 to R23), and which slice
of a function runs (02 R34). -/

namespace Sys2Proof.Machine

/-! ## Counters (01 R7, R8) -/

def CState.code : CState → Nat | .pending => 0 | .running => 1 | .done => 2 | .cancelled => 3 | .faulted => 4 | .suspended => 5

/-- The 128 bits of a counter. -/
def Counter.bits (c : Counter) : Nat :=
  c.total % 2 ^ 24 + c.done % 2 ^ 24 * 2 ^ 24 + c.cancelled % 2 ^ 24 * 2 ^ 48 + c.faulted % 2 ^ 24 * 2 ^ 72 + CState.code c.st * 2 ^ 96

/-- Every child has ended. -/
def Counter.over (c : Counter) : Bool := c.done + c.cancelled + c.faulted == c.total

/-- A child ends. -/
def Counter.count (c : Counter) (how : CState) : Counter :=
  match how with
  | .cancelled => { c with cancelled := c.cancelled + 1 }
  | .faulted => { c.fault with faulted := c.faulted + 1 }
  | _ => { c with done := c.done + 1 }

/-- Children end before they start. -/
def Counter.skip (c : Counter) (n : Nat) : Counter := { c with cancelled := c.cancelled + n }

/-- The first child starts. -/
def Counter.start (c : Counter) : Counter := if c.st == .pending then { c with st := .running } else c

/-- STATE at the end. -/
def Counter.final (c : Counter) : CState := match c.st with | .cancelled => .cancelled | .faulted => .faulted | _ => .done

/-- A cancel becomes visible. -/
def Counter.cancel (c : Counter) : Counter := { c with st := .cancelled }

/-- A cancel or a fault has changed STATE. -/
def Counter.stopped (c : Counter) : Bool := c.st == .cancelled || c.st == .faulted

/-! ## Handles (02 R38) -/

def Level.code : Level → Nat | .launch => 0 | .graph => 1 | .phase => 2 | .slice => 3

/-- An unended instance of a partition has a handle. -/
def handleTaken (s : State) (part : Nat) (lv : Level) (h : BitVec 32) : Bool :=
  match lv with
  | .launch => s.launches.any fun x => x.part == part && x.handle == h && !x.ended
  | .graph => s.graphs.any fun x => x.part == part && x.handle == h && !x.ended
  | .phase => s.phases.any fun x => x.part == part && x.handle == h && !x.ended
  | .slice => s.slices.any fun x => x.part == part && x.handle == h && !x.ended

/-- The first sequence number from `n` that is not passed over. -/
def freeSeq (s : State) (part : Nat) (lv : Level) : Nat → Nat → Nat
  | 0, n => n
  | fuel + 1, n =>
    let skip := handleTaken s part lv (BitVec.ofNat 32 (Level.code lv * 2 ^ 30 + n)) || (lv == .slice && n == 0x3FFFFFFF)
    if skip then freeSeq s part lv fuel ((n + 1) % 2 ^ 30) else n

/-- The next handle of a level. -/
def newHandle (s : State) (part : Nat) (lv : Level) : BitVec 32 × State :=
  let k := Level.code lv
  let n := freeSeq s part lv (s.launches.length + s.graphs.length + s.phases.length + s.slices.length + 2) ((s.part part).nextSeq.getD k 0)
  (BitVec.ofNat 32 (k * 2 ^ 30 + n), s.modPart part fun p => { p with nextSeq := p.nextSeq.set k ((n + 1) % 2 ^ 30) })

/-! ## The dispatcher's own writes (02 R344) -/

/-- The record of a dispatcher's write that failed. -/
def dispRecord (s : State) (fn : Nat) (addr : Dword) (cause : Nat) : State :=
  putRecord s fn 0 (faultRecord addr cause 1 true true 0 0 0 0) 1

/-- A host word is written over the host bus (22 R326); its answer is not waited for. -/
def postHost (s : State) (p : Dword) (n v : Nat) : State :=
  let id := s.link.nextReq
  { s with link := { s.link with nextReq := id + 1, reqs := s.link.reqs ++ [⟨id, none, low60 p, n, [], .write v, 0, 0, true, none, 0⟩] } }

/-- A write of the dispatcher: made, paused, or dropped; later status records for the address of a paused one wait behind it. -/
def dispWrite (s : State) (fn part : Nat) (addr : Dword) (n v : Nat) : State :=
  if n = 256 && (s.fn fn).pausedDisp.any fun w => w.addr == addr && w.width == 256 then s.modFn fn fun f => { f with pausedDisp := f.pausedDisp ++ [⟨addr, n, v⟩] }
  else if spaceOf addr = 6 then postHost s addr n v
  else
    match engineWrite s (dispAgent fn part) addr n v .free with
    | .ok s => s
    | .error c =>
      let s := if replayable c then s.modFn fn fun f => { f with pausedDisp := f.pausedDisp ++ [⟨addr, n, v⟩] } else s
      dispRecord s fn addr c

/-- A status record (02 R35). -/
def statusBits (cookie jobid : Dword) (slice state : Nat) (late : Bool) (reason : Nat) (handle : BitVec 32) (used : Nat) : Nat :=
  cookie.toNat + jobid.toNat * 2 ^ 64 + slice * 2 ^ 128 + state * 2 ^ 144 + (if late then 2 ^ 148 else 0) + reason * 2 ^ 152 +
    handle.toNat * 2 ^ 160 + used % 2 ^ 64 * 2 ^ 192

/-- The status record of an admitted slice. -/
def writeStatus (s : State) (l : Slice) (reason : Nat) : State :=
  let late := l.ended && l.deadline < s.cycle.toNat
  dispWrite s l.fn l.part l.status 256 (statusBits l.cookie l.jobid l.sliceNo (CState.code l.counter.st) late reason l.handle l.used)

/-! ## Cancelling (02 R45, R46) -/

/-- Saved gangs of a launch end without being restored, but for those whose sluice blocks are still to run (18 R288). -/
def cancelSaved (s : State) (l : Launch) : State :=
  match (s.fn l.fn).saved with
  | none => s
  | some old =>
    let v := old
    let mine (g : Nat) : Bool := v.gangs.any fun x => x.gang.id == g && x.gang.launch == l.id
    let owned (o : CmdOwner) : Bool := match o with | .crews g _ => mine g | .node _ _ => false
    let busy (g : Nat) : Bool := v.blocks.any fun b => match b.2.owner with | .crews k _ => k == g | .node _ _ => false
    let sluice (x : EngCmd) : Bool := match x.body with | .sluice _ _ => true | _ => false
    let drops := v.cmds.filter fun x => owned x.owner && !sluice x
    let dropIds := drops.map fun x => x.id
    let done := v.gangs.filter fun x => x.gang.launch == l.id && !busy x.gang.id
    let close (x : SavedGang) : SavedGang :=
      if x.gang.launch != l.id then x
      else
        let g := x.gang
        { gang := { g with
            ending := some (g.ending.getD .cancelled), crews := g.crews.map fun c => { c.exitAll with ended := true }
            scratch := 0, vault := 0, cluster := false, spring := false }
          scratch := [], engines := [], bufs := [], interp := false }
    let v : Saved := { v with
      gangs := (v.gangs.filter fun x => !(done.any fun y => y.gang.id == x.gang.id)).map close
      cmds := v.cmds.filter fun x => !dropIds.contains x.id
      locks := v.locks.filter fun e => !dropIds.contains e.2.cmd
      springs := v.springs.map fun x => (x.1, { x.2 with queue := x.2.queue.filter fun q => !owned q.owner }) }
    let stops := (old.gangs.filter fun x => x.gang.launch == l.id).flatMap fun x => x.gang.crews.filter fun c => !c.ended
    let s := s.modFn l.fn fun f => { f with saved := some v }
    -- an array that is back without its gang discards its commands too
    let s : State := { s with springs := s.springs.map fun p =>
      { p with queue := p.queue.filter fun q => !owned q.owner } }
    let s := stops.foldl (fun s c => c.qregs.foldl (fun s r => closeReg s l.part r) (endTape s c.tape)) s
    let s := done.foldl (fun s x => closeGangCursors (s.modLaunch l.id fun l => { l with
      counter := l.counter.count (match x.gang.ending with | some .faulted => .faulted | _ => .cancelled) }) x.gang.id) s
    trimSaved s l.fn

/-- Everything of a launch that has not ended stops: gangs not started are counted, running ones stop (01 R8). -/
def stopLaunch (s : State) (id : Nat) : State :=
  match s.launch? id with
  | none => s
  | some l =>
    let s := s.modLaunch id fun l => { l with
      counter := l.counter.skip (l.gangs - l.placed), placed := l.gangs, tasks := l.tasks.map fun u => { u with tasks := [] } }
    let s := (s.gangs.filter fun g => g.launch == id).foldl (fun s g =>
      stopGang (s.modGang g.id fun g => { g with crews := g.crews.map fun c => { c with task := none } }) g.id .cancelled) s
    cancelSaved s l

/-- Cancel a launch. -/
def cancelLaunch (s : State) (id : Nat) : State :=
  match s.launch? id with
  | some l => if l.ended then s else stopLaunch (s.modLaunch id fun l => { l with counter := l.counter.cancel }) id
  | none => s

/-- The engine commands of a node leave (02 R46); posted sluice blocks stay. -/
def dropNode (s : State) (fn gr n : Nat) : State :=
  let mine (o : CmdOwner) : Bool := match o with | .node g k => g == gr && k == n | .crews _ _ => false
  let sluice (x : EngCmd) : Bool := match x.body with | .sluice _ _ => true | _ => false
  let s := ((s.cmds.filter fun x => mine x.owner && !sluice x).map fun x => x.id).foldl endCmd s
  let s : State := { s with
    springs := s.springs.map fun p => { p with queue := p.queue.filter fun q => !mine q.owner }
    lodeNodes := s.lodeNodes.filter fun x => !(x.graph == gr && x.node == n) }
  -- a group that waits for room in a spring queue looks again (13 R225)
  let s := wakeGangs s (fun _ => true) .engine
  startHoists (trimSaved (s.modFn fn fun f => { f with saved := f.saved.map fun v =>
    let ids := (v.cmds.filter fun x => mine x.owner && !sluice x).map fun x => x.id
    { v with
      cmds := v.cmds.filter fun x => !ids.contains x.id, locks := v.locks.filter fun e => !ids.contains e.2.cmd
      springs := v.springs.map fun p => (p.1, { p.2 with queue := p.2.queue.filter fun q => !mine q.owner })
      lodeNodes := v.lodeNodes.filter fun x => !(x.graph == gr && x.node == n) } }) fn)

/-- A tape node that no crew has taken leaves its core's list: whether it was there. -/
def dropTape (s : State) (gr n : Nat) : Bool × State :=
  if s.cores.any fun r => r.tapes.contains (gr, n) then
    (true, { s with cores := s.cores.map fun r => { r with tapes := r.tapes.filter fun t => t != (gr, n) } })
  else (false, s)

/-- Set how far a node is. -/
def setNode (s : State) (gr n : Nat) (st : NodeState) : State :=
  s.modGraph gr fun g => { g with nodes := g.nodes.modify n fun x => { x with st := st } }

/-- The sluice block of a node is posted or saved. -/
def nodeBlock (s : State) (fn gr n : Nat) : Bool :=
  let mine (b : Block) : Bool := match b.owner with | .node g k => g == gr && k == n | .crews _ _ => false
  (s.sluiceStacks.any fun k => k.blocks.any mine) || (savedOf s fn).blocks.any fun b => mine b.2

/-- A node not ended stops. -/
def stopNode (s : State) (g : Graph) (n : Nat) (x : Node) : State :=
  match x.st with
  | .ended _ => s
  | .over _ => s
  | .dispatched =>
    (match x.ty with
    | 0 => (s.launches.filter fun l => l.owner == .node g.id n && !l.ended).foldl (fun s l => cancelLaunch s l.id) s
    | 3 => if nodeBlock s g.fn g.id n then s else setNode s g.id n (.over .cancelled)
    | 5 => (match dropTape s g.id n with | (true, s) => setNode s g.id n (.over .cancelled) | (false, s) => s)
    | _ => setNode (dropNode s g.fn g.id n) g.id n (.over .cancelled))
  | _ => setNode s g.id n (.over .cancelled)

/-- Every node not ended stops. -/
def stopGraph (s : State) (id : Nat) : State :=
  match s.graph? id with
  | some g => g.nodes.zipIdx.foldl (fun s p => stopNode s g p.2 p.1) s
  | none => s

def cancelGraph (s : State) (id : Nat) : State :=
  match s.graph? id with
  | some g => if g.ended then s else stopGraph (s.modGraph id fun g => { g with counter := g.counter.cancel }) id
  | none => s

/-- The children of a phase that have not ended are cancelled. -/
def stopPhase (s : State) (id : Nat) : State :=
  let s := (s.graphs.filter fun g => g.phase == id && !g.ended).foldl (fun s g => cancelGraph s g.id) s
  (s.launches.filter fun l => l.owner == .phase id && !l.ended).foldl (fun s l => cancelLaunch s l.id) s

def cancelPhase (s : State) (id : Nat) : State :=
  match s.phase? id with
  | some p => if p.ended then s else stopPhase (s.modPhase id fun p => { p with counter := p.counter.cancel }) id
  | none => s

/-- Phases never admitted are counted, the others cancelled (01 R21). -/
def stopSlice (s : State) (id : Nat) : State :=
  let s := s.modSlice id fun l => { l with counter := l.counter.skip (l.nphases - l.nextPhase), nextPhase := l.nphases }
  (s.phases.filter fun p => p.slice == id && !p.ended).foldl (fun s p => cancelPhase s p.id) s

def cancelSlice (s : State) (id : Nat) : State :=
  match s.slice? id with
  | some l => if l.ended then s else stopSlice (s.modSlice id fun l => { l with counter := l.counter.cancel }) id
  | none => s

/-! ## Which slice runs (02 R34) -/

/-- The function holds its partition's quantum. -/
def fnResident (s : State) (fn : Nat) : Bool := match partOfFn s fn with | some p => (s.part p).resident == some fn | none => false

/-- The work of a slice may go on. -/
def sliceRuns (s : State) (slice : Nat) : Bool :=
  match s.slice? slice with
  | some l => l.running && !l.ended && fnResident s l.fn
  | none => false

/-- Admitted slices of a function that compete: neither ended nor suspended. -/
def contenders (s : State) (fn : Nat) : List Slice := s.slices.filter fun l => l.fn == fn && !l.ended && l.counter.st != .suspended

/-- Before another by deadline, then by sequence number. -/
def earlier (d1 q1 d2 q2 : Nat) : Bool := d1 < d2 || (d1 == d2 && q1 < q2)

/-- The slice first in order. -/
def firstSlice : List Slice → Option Slice
  | [] => none
  | l :: ls =>
    match firstSlice ls with
    | none => some l
    | some m => if earlier m.deadline m.seq l.deadline l.seq then some m else some l

/-- The eligible record of a function first in order. -/
def firstRecord (s : State) (part : Nat) : List IntakeRec → Option (IntakeRec × JobRec)
  | [] => none
  | r :: rs =>
    let j := parseJob r.bits
    let rest := firstRecord s part rs
    match jobFate s part j with
    | .eligible =>
      (match rest with
      | some (q, k) => if earlier k.deadline q.seq j.deadline r.seq then some (q, k) else some (r, j)
      | none => some (r, j))
    | _ => rest

/-- The running slice of a function. -/
def runningSlice (s : State) (fn : Nat) : Option Slice := s.slices.find? fun l => l.fn == fn && l.running && !l.ended

/-- A slice is saved with the rest of its function left running: the procedure of a pre-emption (18 R286, R287). -/
def saveSlice (s : State) (l : Slice) : State := writeArea (flushPart (putAside s l.fn (sliceSel s l.id)) l.part) l.fn l.part

/-- A slice stops running: its gangs are saved. -/
def setAside (s : State) (l : Slice) : State := saveSlice (s.modSlice l.id fun l => { l with running := false }) l

/-- A slice runs: its saved gangs return. -/
def setRunning (s : State) (l : Slice) : State := bringBack (s.modSlice l.id fun l => { l with running := true }) l.fn [l.id]

/-- The intake pond of a function. -/
def intakePond (s : State) (fn part : Nat) : Option Pond := pondOf s part fn ((s.fn fn).intake.zeroExtend 64)

/-- The dispatcher can take a record out of an intake pond now. -/
def Pond.gives (d : Pond) (s : State) : Bool := !(d.broken || d.away s || d.paused ≠ [] || d.draining)

/-- The admitted slice that is to start running now: it comes first, strictly before the running one, and no eligible record that
can be taken now comes before it (02 R34). -/
def nextSlice (s : State) (fn : Nat) : Option Slice :=
  if !fnResident s fn then none
  else
    match firstSlice (contenders s fn) with
    | none => none
    | some l =>
      if l.running then none
      else
        match runningSlice s fn with
        | some r => if l.deadline < r.deadline then some l else none
        | none =>
          match firstRecord s l.part (s.fn fn).intakeRecs with
          | some (q, k) =>
            let taken : Bool := match intakePond s fn l.part with | some d => d.gives s | none => false
            if taken && earlier k.deadline q.seq l.deadline l.seq then none else some l
          | none => some l

/-- After anything that may change which slice of a function runs: the next one displaces the running one. -/
def arbitrate (s : State) (fn : Nat) : State :=
  match nextSlice s fn with
  | none => s
  | some l => setRunning (match runningSlice s fn with | some r => setAside s r | none => s) l

/-- The slices of a function that have their gangs on its cores: the running one, and those that only wait for their gangs to end. -/
def backSlices (s : State) (fn : Nat) : List Nat :=
  (s.slices.filter fun l => l.fn == fn && !l.ended && (l.running || l.counter.stopped)).map fun l => l.id

/-- A gang that stayed saved returns once a core fits it (18 R289). -/
def retryRestores (s : State) : State :=
  let due (fn : Nat) : Bool := (s.fn fn).saved.any (fun v => !v.gangs.isEmpty && !v.whole) && fnResident s fn &&
    (restoreOrder s fn (backSlices s fn)).any fun x => (s.launch? x.gang.launch).any fun l => (restoreCore s l x).isSome
  ((List.range s.fns.length).filter due).foldl (fun s fn => deliverAnswers (bringBack s fn (backSlices s fn))) s

/-! ## Starting (01 R8) -/

def startSlice (s : State) (id : Nat) : State := s.modSlice id fun l => { l with counter := l.counter.start }
def startPhase (s : State) (id : Nat) : State :=
  match s.phase? id with
  | some p => startSlice (s.modPhase id fun p => { p with counter := p.counter.start }) p.slice
  | none => s
def startGraph (s : State) (id : Nat) : State :=
  match s.graph? id with
  | some g => startPhase (s.modGraph id fun g => { g with counter := g.counter.start }) g.phase
  | none => s

/-- The first gang of a launch starts. -/
def startLaunch (s : State) (id : Nat) : State :=
  match s.launch? id with
  | some l =>
    let s := s.modLaunch id fun l => { l with counter := l.counter.start }
    match l.owner with
    | .phase p => startPhase s p
    | .node g _ => startGraph s g
  | none => s

/-! ## Phases (01 R21) -/

/-- The die whose task-graph machine takes a partition's graphs (02 R39). -/
def machineDie (s : State) (part : Nat) : Nat :=
  let n (d : Nat) : Nat := ((List.range 16).filter fun c => (s.part part).clusters.getLsbD (16 * d + c)).length
  (minBy (fun d => (16 - n d) * 4 + d) (List.range 4)).getD 0

/-- Admit one graph of a phase. DESIGN CHOICE (log 101): it takes its handle here, before its machine has a place for it (02 R38). -/
def admitGraph (s : State) (l : Slice) (phase : Nat) (g : Dword × Dword × List Node) : State :=
  match newHandle s l.part .graph with
  | (h, s) =>
    { s with
      nextId := s.nextId + 1
      graphs := s.graphs ++ [{ id := s.nextId, part := l.part, fn := l.fn, handle := h, phase := phase, slice := l.id
                               die := machineDie s l.part, recPtr := g.1, nodesPtr := g.2.1, admitted := false, nodes := g.2.2
                               holdsSpring := false, counter := ⟨g.2.2.length, 0, 0, 0, .pending⟩, ended := false }] }

/-- Admit the graphs of a phase as checked. -/
def admitPhase (s : State) (l : Slice) (gs : List (Dword × Dword × List Node)) : State :=
  match newHandle s l.part .phase with
  | (h, s) =>
    let id := s.nextId
    let s : State := { s with
      nextId := id + 1
      phases := s.phases ++ [{ id := id, part := l.part, fn := l.fn, handle := h, slice := l.id, index := l.nextPhase
                               counter := ⟨gs.length, 0, 0, 0, .pending⟩, ended := false }] }
    gs.foldl (fun s g => admitGraph s l id g) (s.modSlice l.id fun l => { l with nextPhase := l.nextPhase + 1 })

/-- The next phase of a slice is read and admitted; a failure ends the slice FAULTED with its reason. -/
def nextPhase (s : State) (slice : Nat) : State :=
  match s.slice? slice with
  | none => s
  | some l =>
    if l.counter.stopped || l.nphases ≤ l.nextPhase then s
    else
      let r := readPhase s l.fn l.part (ptrAdd l.phases (128 * l.nextPhase))
      match minBy id r.1 with
      | some why =>
        stopSlice (s.modSlice slice fun l => { l with counter := { l.counter with st := .faulted }, reason := why }) slice
      | none => admitPhase s l r.2

/-! ## Ends (01 R8, R20 to R23) -/

/-- The spring array of a holder that ends is released, where it is saved too (13 R225, R236). -/
def freeArray (s : State) (fn : Nat) (h : SpHolder) : State :=
  let s : State := { s with springs := s.springs.map fun p => if p.holder == some h then Spring.reset else p }
  trimSaved (s.modFn fn fun f => { f with saved := f.saved.map fun v => { v with springs := v.springs.filter fun p => p.2.holder != some h } }) fn

/-- A launch ends: its spring array is released, DONEFLAG is written, its parent counts it (01 R8, R12; 02 R344). -/
def endLaunch (s : State) (l : Launch) : State :=
  let how := l.counter.final
  let s := s.modLaunch l.id fun l => { l with ended := true, counter := { l.counter with st := how }, tasks := none, pieces := [], changed := false }
  let s := if l.holdsSpring then freeArray s l.fn (.launch l.id) else s
  let s := match l.owner with
    | .node g n => setNode s g n (.over how)
    | .phase p => s.modPhase p fun p => { p with counter := p.counter.count how }
  if l.doneflag = 0 then s else dispWrite s l.fn l.part l.doneflag 32 l.doneval.toNat

/-- A dispatched hoist, sluice or spring node has no command left. -/
def nodeIdle (s : State) (fn gr n : Nat) : Bool :=
  let mine (o : CmdOwner) : Bool := match o with | .node g k => g == gr && k == n | .crews _ _ => false
  let v := savedOf s fn
  !((s.cmds.any fun x => mine x.owner) || (s.springs.any fun p => p.queue.any fun q => mine q.owner) ||
    (v.cmds.any fun x => mine x.owner) || (v.springs.any fun p => p.2.queue.any fun q => mine q.owner))

/-- How an ended node is counted: a node that ends after a cancel or fault of its graph counts as CANCELLED. -/
def Node.outcome (x : Node) (stopped idle : Bool) : Option CState :=
  match x.st with
  | .over how => some (if stopped then .cancelled else how)
  | .dispatched => if (x.ty == 2 || x.ty == 3 || x.ty == 4) && idle then some (if stopped then .cancelled else .done) else none
  | _ => none

/-- What a blocked node becomes once its predecessors have ended (01 R20, 02 R39). -/
def Node.settle (x : Node) (before : List Node) (admitted : Bool) (seq : Nat) : Node :=
  match x.st with
  | .blocked =>
    let how (p : Nat) : Option CState :=
      match before[p]? with
      | some y => (match y.st with | .ended h => some h | _ => none)
      | none => none
    if x.preds.any fun p => how p == some .cancelled then { x with st := .ended .cancelled }
    else if admitted && x.preds.all fun p => how p == some .done then { x with st := .ready seq }
    else x
  | _ => x

/-- The nodes of a graph after one pass in ascending INDEX, with those that ended. -/
def settleNodes (s : State) (g : Graph) : List Node × List CState :=
  let stopped := g.counter.stopped
  g.nodes.zipIdx.foldl (fun (acc : List Node × List CState) p =>
    match p.1.outcome stopped (nodeIdle s g.fn g.id p.2) with
    | some how => (acc.1 ++ [{ p.1 with st := .ended how }], acc.2 ++ [how])
    | none =>
      let x := p.1.settle acc.1 g.admitted s.nextId
      let new : List CState := match p.1.st, x.st with | .blocked, .ended h => [h] | _, _ => []
      (acc.1 ++ [x], acc.2 ++ new)) ([], [])

/-- One graph: nodes that ended are counted, a fault cancels the rest, blocked ones become ready. -/
def settleGraph (s : State) (g : Graph) : State :=
  let r := settleNodes s g
  if r.1 = g.nodes then s
  else
    let s : State := { s with nextId := s.nextId + 1 }
    let s := s.modGraph g.id fun g => { g with nodes := r.1, counter := r.2.foldl Counter.count g.counter }
    if r.2.contains .faulted then stopGraph s g.id else s

/-- A graph ends. -/
def endGraph (s : State) (g : Graph) : State :=
  let how := g.counter.final
  let s := s.modGraph g.id fun g => { g with ended := true, counter := { g.counter with st := how } }
  let s := if g.holdsSpring then freeArray s g.fn (.graph g.id) else s
  s.modPhase g.phase fun p => { p with counter := p.counter.count how }

/-- A phase ends (01 R21). -/
def endPhase (s : State) (p : Phase) : State :=
  let how := p.counter.final
  let s := s.modPhase p.id fun p => { p with ended := true, counter := { p.counter with st := how } }
  let s := s.modSlice p.slice fun l => { l with counter := l.counter.count how }
  match how with
  | .cancelled => cancelSlice s p.slice
  | .faulted => stopSlice s p.slice
  | _ => nextPhase s p.slice

/-- A slice ends: its status record, its job, and the next slice in order (01 R23, 02 R34, R35). DEDUCED (log 56): REASON is 0 when
it ends CANCELLED. -/
def endSlice (s : State) (l : Slice) : State :=
  let how := l.counter.final
  let l := { l with ended := true, running := false, counter := { l.counter with st := how } }
  let s := s.modSlice l.id fun _ => l
  let job (j : Job) : Job :=
    if j.part == l.part && j.jobid == l.jobid && !j.ended then
      { j with doneSlices := if how == .done then j.doneSlices ++ [l.sliceNo] else j.doneSlices, ended := l.last || how != .done }
    else j
  arbitrate (writeStatus { s with jobs := s.jobs.map job } l (if how == .cancelled then 0 else l.reason)) l.fn

/-- A FAULTED launch of which something has not been stopped (01 R8). -/
def launchLeft (s : State) (l : Launch) : Bool :=
  l.counter.st == .faulted && !l.ended && (l.placed < l.gangs || (s.gangs.any fun g => g.launch == l.id && g.ending.isNone) ||
    (savedOf s l.fn).gangs.any fun x => x.gang.launch == l.id && x.gang.ending.isNone)

/-- Something is due at some level. -/
def workDue (s : State) : Bool :=
  (s.launches.any fun l => !l.ended && l.counter.over) || s.launches.any (launchLeft s) ||
    (s.graphs.any fun g => !g.ended && (g.counter.over || (settleNodes s g).1 != g.nodes)) ||
    (s.phases.any fun p => !p.ended && (p.counter.over || (p.counter.st == .faulted &&
      ((s.graphs.any fun g => g.phase == p.id && !g.ended && !g.counter.stopped) ||
        s.launches.any fun l => l.owner == .phase p.id && !l.ended && !l.counter.stopped)))) ||
    s.slices.any fun l => !l.ended && l.counter.over

/-- One pass over every level, bottom up. -/
def workPass (s : State) : State :=
  let s := (s.launches.filter (launchLeft s)).foldl (fun s l => stopLaunch s l.id) s
  let s := (s.launches.filter fun l => !l.ended && l.counter.over).foldl endLaunch s
  let s := (s.graphs.filter fun g => !g.ended).foldl (fun s g => match s.graph? g.id with | some g => settleGraph s g | none => s) s
  let s := (s.graphs.filter fun g => !g.ended && g.counter.over).foldl endGraph s
  let s := (s.phases.filter fun p => !p.ended && p.counter.st == .faulted).foldl (fun s p => stopPhase s p.id) s
  let s := (s.phases.filter fun p => !p.ended && p.counter.over).foldl endPhase s
  (s.slices.filter fun l => !l.ended && l.counter.over).foldl endSlice s

/-- The counters after a step: everything that has ended is counted at every level above it (01 R8). -/
def settleWork : Nat → State → State
  | 0, s => s
  | fuel + 1, s => if workDue s then settleWork fuel (workPass s) else s

end Sys2Proof.Machine
end

