-- ==== Sys2Proof/Machine/Dispatcher.lean ====
section
/-! DEFINITION. Machine/Dispatcher.lean: intake records admitted and refused (02 R34 to R36), budgets and resumption (R37),
LAUNCH (R43), CANCEL (R45, R47) and CNTRD (05 R112). -/

namespace Sys2Proof.Machine

/-! ## Removing an intake record (02 R35) -/

/-- The records above a removed one move down; a record that cannot be read moves as the dispatcher read it. -/
def moveDown (s : State) (part slot b : Nat) (recs : List IntakeRec) : Nat → Nat → State
  | 0, _ => s
  | n + 1, p =>
    match s.pond? part slot with
    | none => s
    | some d =>
      let known := match recs.find? fun r => r.basin == b && r.pos == p + 1 with | some r => r.bits | none => 0
      let v := match engineRead s d.agent (d.recAddr b (p + 1)) d.w .free with | .ok v => v | .error _ => known
      moveDown (writePlaced s part slot (d.recAddr b p) d.w v none) part slot b recs n (p + 1)

/-- The dispatcher removes a record from an intake pond. -/
def removeRecord (s : State) (d : Pond) (r : IntakeRec) : State :=
  let s := moveDown s d.part d.slot r.basin (s.fn d.fn).intakeRecs (d.counts.getD r.basin 0 - r.pos - 1) r.pos
  let s := s.modPond d.part d.slot fun d =>
    { d.closeCursors (fun _ => true) with counts := d.counts.modify r.basin (· - 1), total := d.total - 1 }
  let shift (q : IntakeRec) : IntakeRec := if q.basin == r.basin && r.pos < q.pos then { q with pos := q.pos - 1 } else q
  s.modFn d.fn fun f => { f with intakeRecs := (f.intakeRecs.filter fun q => q.seq != r.seq).map shift }

/-! ## Refusing and admitting (02 R34 to R36) -/

/-- The cause that reports a STATUS pointer (02 R344). -/
def statusCause (p : Dword) : Nat :=
  match spaceCause p with
  | some c => c
  | none => if isDev p then Cause.misaligned else Cause.spaceMismatch

/-- Refuse a record. -/
def refuseRecord (s : State) (fn part : Nat) (j : JobRec) (reason : Nat) : State :=
  if statusOk j.status then
    dispWrite s fn part j.status 256 (statusBits j.cookie j.jobid j.slice 8 false reason 0xFFFFFFFF 0)
  else dispRecord s fn j.status (statusCause j.status)

/-- The job of an admitted slice. -/
def admitJob (s : State) (part : Nat) (j : JobRec) : State :=
  match jobOf s part j.jobid with
  | some _ =>
    let add (k : Job) : Job := if k.part == part && k.jobid == j.jobid && !k.ended then { k with admitted := k.admitted ++ [j.slice] } else k
    { s with jobs := s.jobs.map add }
  | none => { s with jobs := s.jobs ++ [⟨j.jobid, part, [j.slice], [], false⟩] }

/-- Admit a slice and its first phase; it runs. -/
def admitSlice (s : State) (fn part seq : Nat) (j : JobRec) (gs : List (Dword × Dword × List Node)) : State :=
  match newHandle (admitJob s part j) part .slice with
  | (h, s) =>
    let l : Slice := { id := s.nextId, part := part, fn := fn, handle := h, seq := seq, sliceNo := j.slice, last := j.last, jobid := j.jobid
                       deadline := j.deadline, budget := j.budget, used := 0, phases := j.phases, nphases := j.nphases, status := j.status
                       cookie := j.cookie, nextPhase := 0, running := true, reason := 0
                       counter := ⟨j.nphases, 0, 0, 0, .pending⟩, ended := false }
    admitPhase (writeStatus { s with nextId := s.nextId + 1, slices := s.slices ++ [l] } l 0) l gs

/-- The reasons that phase 0 of a job record gives. -/
def phaseReasons (s : State) (fn part : Nat) (j : JobRec) : List Nat := if j.nphases = 0 then [] else (readPhase s fn part j.phases).1

/-- An eligible record comes before everything of its function that could run. -/
def comesFirst (s : State) (fn part : Nat) (r : IntakeRec) (j : JobRec) : Bool :=
  (match firstRecord s part (s.fn fn).intakeRecs with | some (q, _) => q.seq == r.seq | none => false) &&
    (match runningSlice s fn with
    | some l => j.deadline < l.deadline
    | none => (contenders s fn).all fun l => earlier j.deadline r.seq l.deadline l.seq)

/-- DISPATCH_RECORD: none when the dispatcher neither refuses nor admits the record now. After a refusal of the record that was
first, an admitted slice that waited behind it may run. -/
def dispatchRecord (s : State) (fn seq : Nat) : Option State :=
  match partOfFn s fn, (s.fn fn).intakeRecs.find? fun r => r.seq == seq with
  | some part, some r =>
    match intakePond s fn part with
    | none => none
    | some d =>
      let j := parseJob r.bits
      if !d.gives s then none
      else
        match jobFate s part j with
        | .waits => none
        | .refuse rs =>
          let all := if rs.contains Reason.badKind || rs.contains Reason.jobEnded then rs else rs ++ phaseReasons s fn part j
          some (refuseRecord (removeRecord s d r) fn part j ((minBy id all).getD 0))
        | .eligible =>
          if !fnResident s fn || !comesFirst s fn part r j then none
          else
            let ph := readPhase s fn part j.phases
            match minBy id ph.1 with
            | some why => some (arbitrate (refuseRecord (removeRecord s d r) fn part j why) fn)
            | none =>
              let s := match runningSlice s fn with | some l => setAside s l | none => s
              some (admitSlice (removeRecord s d r) fn part seq j ph.2)
  | _, _ => none

def execDispatchRecord (fn seq : Nat) (s : State) : Host.Outcome State Fault Refusal := .next ((dispatchRecord s fn seq).getD s)

/-! ## Budgets (02 R37) -/

/-- BUDGET_EXHAUST: none before the count has reached BUDGET. -/
def exhaustBudget (s : State) (slice : Nat) : Option State :=
  match s.slice? slice with
  | none => none
  | some l =>
    if !sliceRuns s slice || l.used < l.budget || l.counter.stopped then none
    else
      let s := saveSlice s l
      let l := { l with running := false, counter := { l.counter with st := .suspended } }
      let s := (writeStatus (s.modSlice slice fun _ => l) l Reason.budget).signal l.fn 0
      some (arbitrate s l.fn)

def execBudgetExhaust (slice : Nat) (s : State) : Host.Outcome State Fault Refusal := .next ((exhaustBudget s slice).getD s)

/-- The unended slice of a partition that a handle names. -/
def sliceOf (s : State) (part : Nat) (h : BitVec 32) : Option Slice := s.slices.find? fun l => l.part == part && l.handle == h && !l.ended

/-- OP = 1 of an intake window. -/
def resumeSlice (s : State) (fn : Nat) : State :=
  let f := s.fn fn
  match (partOfFn s fn).bind fun p => sliceOf s p f.ctlHandle with
  | none => s
  | some l =>
    if l.counter.st != .suspended || f.addBudget = 0 then s
    else
      let l := { l with budget := l.used + f.addBudget.toNat, counter := { l.counter with st := .running } }
      arbitrate (writeStatus (s.modSlice l.id fun _ => l) l 0) l.fn

def execResumeSlice (fn : Nat) (s : State) : Host.Outcome State Fault Refusal :=
  .next (if present s fn then resumeSlice s fn else s)

/-! ## CANCEL (02 R45, R47) -/

/-- The instance of a partition that a handle names, an unended one first, else the one that ended last: its level, number,
STATE and whether it has ended. -/
def instanceOf (s : State) (part : Nat) (h : BitVec 32) : Option (Level × Nat × Counter × Bool) :=
  let pick (l : List (Nat × Counter × Bool)) (lv : Level) : Option (Level × Nat × Counter × Bool) :=
    match l.find? fun x => !x.2.2 with
    | some x => some (lv, x)
    | none => l.getLast?.map fun x => (lv, x)
  match bitsAt h.toNat 30 2 with
  | 0 => pick ((s.launches.filter fun x => x.part == part && x.handle == h).map fun x => (x.id, x.counter, x.ended)) .launch
  | 1 => pick ((s.graphs.filter fun x => x.part == part && x.handle == h).map fun x => (x.id, x.counter, x.ended)) .graph
  | 2 => pick ((s.phases.filter fun x => x.part == part && x.handle == h).map fun x => (x.id, x.counter, x.ended)) .phase
  | _ => pick ((s.slices.filter fun x => x.part == part && x.handle == h).map fun x => (x.id, x.counter, x.ended)) .slice

/-- CANCEL on a handle: the result of R47. -/
def cancelHandle (s : State) (part : Nat) (h : BitVec 32) : Nat × State :=
  match instanceOf s part h with
  | none => (3, s)
  | some (lv, id, c, ended) =>
    if c.st == .cancelled then (2, s)
    else if ended then (1, s)
    else
      (0, match lv with
        | .launch => cancelLaunch s id
        | .graph => cancelGraph s id
        | .phase => cancelPhase s id
        | .slice => cancelSlice s id)

def execCancel (h r : KReg) (s : State) : Host.Outcome State Fault Refusal :=
  issue (.cancel h r) s fun x =>
    let v := x.k h
    if 2 ^ 32 ≤ v.toNat then x.setK r 3
    else
      match cancelHandle x.st x.part (v.extractLsb' 0 32) with
      | (n, s) => .next (s.modCrew x.gid x.ci fun c => c.setK r (BitVec.ofNat 64 n)) none

/-- OP = 2 of an intake window. -/
def execCancelSlice (fn : Nat) (s : State) : Host.Outcome State Fault Refusal :=
  match partOfFn s fn with
  | some p => .next (if present s fn then (cancelHandle s p (s.fn fn).ctlHandle).2 else s)
  | none => .next s

/-! ## CNTRD (05 R112) -/

/-- The counter that a handle names, or all ones. -/
def counterBits (s : State) (part : Nat) (h : Dword) : Nat :=
  if 2 ^ 32 ≤ h.toNat then 2 ^ 128 - 1
  else
    match instanceOf s part (h.extractLsb' 0 32) with
    | some (_, _, c, _) => Counter.bits c
    | none => 2 ^ 128 - 1

def execCntrd (h lo hi : KReg) (s : State) : Host.Outcome State Fault Refusal :=
  issue (.cntrd h lo hi) s fun x =>
    if lo = hi then .trap Cause.reservedNonzero (decodeEval ((encode (.cntrd h lo hi)).getD 0) x.c) false
    else
      let v := counterBits x.st x.part (x.k h)
      .next ((flushCache x.st x.core).modCrew x.gid x.ci fun c => (c.setK lo (BitVec.ofNat 64 v)).setK hi (BitVec.ofNat 64 (v / 2 ^ 64))) none

/-! ## LAUNCH (02 R43) -/

/-- The phase that contains a launch. -/
def phaseOf (s : State) (l : Launch) : Nat :=
  match l.owner with
  | .phase p => p
  | .node g _ => match s.graph? g with | some g => g.phase | none => 0

/-- What the phase of a LAUNCH gives against it: a cancel of a level above the request (02 R45), or 16,777,215 children, more
than which its counter cannot count (01 R5). DESIGN CHOICE (log 92): the second is refused with LIMIT. -/
def phaseReasonsFor (s : State) (phase : Nat) : List Nat :=
  match s.phase? phase with
  | some p => (if p.counter.st == .cancelled then [Reason.cancelled] else []) ++ (if 16777215 ≤ p.counter.total then [Reason.limit] else [])
  | none => []

/-- Admit a checked launch to a phase (02 R43): its handle. -/
def admitOwned (s : State) (phase : Nat) (l : Launch) : BitVec 32 × State :=
  match newHandle s l.part .launch with
  | (h, s) =>
    let s : State := { s with nextId := s.nextId + 1, launches := s.launches ++ [{ l with id := s.nextId, handle := h }] }
    (h, s.modPhase phase fun p => { p with counter := { p.counter with total := p.counter.total + 1 } })

/-- The word that LAUNCH writes when it is refused. -/
def launchRefused (reason : Nat) : Dword := BitVec.ofNat 64 (0xFFFFFFFF + reason * 2 ^ 32)

def execLaunch (src dst : KReg) (s : State) : Host.Outcome State Fault Refusal :=
  issue (.launch src dst) s fun x =>
    -- a release at system scope (14 R241) waits for the records that the group's threads have sent (15 R253, R263)
    if x.sending then .wait x.st .queue false else
    let s := writeBackAll x.st x.core
    let answer (s : State) (v : Dword) : Res := .next (s.modCrew x.gid x.ci fun c => c.setK dst v) none
    match x.launch with
    | none => answer s (launchRefused Reason.badPointer)
    | some own =>
      let phase := phaseOf s own
      -- a record in the wrong place never reaches the dispatcher
      if (readRecord s x.fn x.part (x.k src) 512 512).isNone then answer s (launchRefused Reason.badPointer)
      else
        match checkLaunch s x.fn x.part (x.core / 64) own.slice (.phase phase) (x.k src) [] true, phaseReasonsFor s phase with
        | .error r, rs => answer s (launchRefused (rs.foldl min r))
        | .ok _, r :: rs => answer s (launchRefused (rs.foldl min r))
        | .ok l, [] =>
          match admitOwned s phase l with
          | (h, s) => answer s (h.zeroExtend 64)

end Sys2Proof.Machine
end

