-- ==== Sys2Proof/Machine/Graph.lean ====
section
/-! DEFINITION. Machine/Graph.lean: the task-graph machines (02 R39, R40; 01 R17 to R19; 17 R271), the placing of gangs
(02 R41, R42; 20 R297, R298) and their completion (01 R6). -/

namespace Sys2Proof.Machine

/-! ## Ready pools (02 R39) -/

/-- GRAPH_ADMIT: none when the machine of its die is full, or the graph is not waiting. -/
def admitToMachine (s : State) (id : Nat) : Option State :=
  match s.graph? id with
  | none => none
  | some g =>
    let held := (s.graphs.filter fun h => h.die == g.die && h.admitted && !h.ended).length
    if g.admitted || g.ended || g.counter.stopped || 1024 ≤ held then none
    else some (settleWork 8 (s.modGraph id fun g => { g with admitted := true }))

def execGraphAdmit (graph : Nat) (s : State) : Host.Outcome State Fault Refusal := .next ((admitToMachine s graph).getD s)

/-- Nodes in the ready pool of a die. -/
def poolCount (s : State) (die : Nat) : Nat :=
  (s.graphs.filter fun g => g.die == die && !g.ended).foldl (fun n g =>
    n + (g.nodes.filter fun x => match x.st with | .pooled _ => true | _ => false).length) 0

/-- Ready nodes outside the pool, as (when, graph handle, INDEX, graph). -/
def readyNodes (s : State) (die : Nat) : List (Nat × Nat × Nat × Nat) :=
  (s.graphs.filter fun g => g.die == die && !g.ended && !g.counter.stopped).flatMap fun g =>
    g.nodes.zipIdx.filterMap fun p => match p.1.st with | .ready q => some (q, g.handle.toNat, p.2, g.id) | _ => none

/-- The order in which ready nodes enter. -/
def readyKey (r : Nat × Nat × Nat × Nat) : Nat := (r.1 * 2 ^ 32 + r.2.1) * 2 ^ 12 + r.2.2.1

/-- Free places of the pool of a die are filled. -/
def fillPool : Nat → State → Nat → State
  | 0, s, _ => s
  | room + 1, s, die =>
    match minBy readyKey (readyNodes s die) with
    | none => s
    | some r => fillPool room { (setNode s r.2.2.2 r.2.2.1 (.pooled s.nextId)) with nextId := s.nextId + 1 } die

/-- Every machine's pool. -/
def fillPools (s : State) : State :=
  (List.range 4).foldl (fun s d => if (readyNodes s d).isEmpty then s else fillPool (1024 - poolCount s d) s d) s

/-! ## Nodes (01 R17 to R19; 02 R40) -/

/-- A node is dispatched to a core. -/
def sendNode (s : State) (g : Graph) (n : Nat) (core : Option Nat) : State :=
  startGraph (s.modGraph g.id fun g => { g with nodes := g.nodes.modify n fun x => { x with st := .dispatched, core := core } }) g.id

/-- A node ends FAULTED as it is dispatched, with a reason for the slice's status record where the rules give one. -/
def failNode (s : State) (g : Graph) (n : Nat) (reason : Option Nat) : State :=
  let s := setNode (startGraph s g.id) g.id n (.over .faulted)
  match reason with
  | some r => s.modSlice g.slice fun l => { l with reason := if l.reason = 0 then r else l.reason }
  | none => s

/-- A SIMT launch node: none while another holds the array that it needs. -/
def sendLaunch (s : State) (g : Graph) (n : Nat) (x : Node) : Option State :=
  let opers := (x.opers.filter fun o => o.1 != 0).map fun o => (o.2.1, o.2.2)
  match checkLaunch s g.fn g.part g.die g.slice (.node g.id n) x.body opers false with
  | .error r => some (failNode s g n (some r))
  | .ok l =>
    let add (s : State) (holds : Bool) : State :=
      match newHandle s g.part .launch with
      | (h, s) => { (sendNode s g n none) with
          nextId := s.nextId + 1, launches := s.launches ++ [{ l with id := s.nextId, handle := h, holdsSpring := holds }] }
    if !l.image.spring then some (add s false)
    else
      match (s.spring g.die).holder with
      | some (.graph k) => if k = g.id then some (add s false) else none
      | some (.launch _) => none
      | none => some (add (s.modSpring g.die fun _ => Spring.fresh (.launch s.nextId)) true)

/-- A lode program: none while the four contexts of its cluster are busy. -/
def sendLode (s : State) (g : Graph) (n : Nat) (x : Node) : Option State :=
  match preferred s g x (partCores s g.part) with
  | none => none
  | some core =>
    let cl := core / 4
    match [128, 129, 130, 131].find? fun k => !(s.lodeNodes.any fun m => m.cluster == cl && m.ctx == k) with
    | none => none
    | some ctx =>
      match readRecord s g.fn g.part x.body 512 512 with
      | none => some (failNode s g n (some Reason.badPointer))
      | some h =>
        if !lodeImageOk h then some (failNode s g n (some Reason.launchInvalid))
        else
          let start (r : Nat) : Dword :=
            match r with
            | 10 => ptrAdd g.nodesPtr (1024 * n)
            | 11 => g.handle.zeroExtend 64
            | 12 => BitVec.ofNat 64 n
            | _ => 0
          let pc := ptrAdd x.body (512 + 32 * (parseImage h).entry)
          let ctxt : LodeNode := ⟨cl, ctx, g.id, n, core, ⟨.running, pc, (List.range 31).map fun r => start (r + 1), none⟩⟩
          some { (sendNode s g n (some core)) with lodeNodes := s.lodeNodes ++ [ctxt] }

/-- The instruction that an engine command block describes (01 R17), with its operands in the order K1 to K4. DESIGN CHOICE
(log 93): bits [63:16] of the control word must be zero. -/
def blockCommand (v : Nat) : Option (Instr × Dword × Dword × Dword × Dword) :=
  let ctl := bitsAt v 256 64
  let word := bitsAt ctl 0 7 * 2 ^ 25 + bitsAt ctl 7 4 * 2 ^ 21 + bitsAt ctl 11 5
  let k (i : Nat) : Dword := BitVec.ofNat 64 (bitsAt v (64 * i) 64)
  if ctl / 2 ^ 16 ≠ 0 ∨ v / 2 ^ 320 ≠ 0 then none
  else match decode (BitVec.ofNat 32 word) with | .ok i => some (i, k 0, k 1, k 2, k 3) | .error _ => none

/-- A hoist node: none while the core has no free slot. DESIGN CHOICE (log 93): the command block may stand at any bit address, and
a node whose command block or source list cannot be read, by a replayable cause too, ends FAULTED at once. -/
def sendHoist (s : State) (g : Graph) (n : Nat) (x : Node) : Option State :=
  match preferred s g x (partCores s g.part) with
  | none => none
  | some core =>
    if !slotFree s core then none
    else
      let go (sel : HoistDst) (mask : Option (BitVec 4)) (rec dst slice sync : Dword) (mult : Nat) : State :=
        let engine := match sel with | .scratch => true | _ => graphHoldsEngine s g.id core
        if hoistParamBad sel rec dst sync mult || mask == some 0 || !engine then failNode s g n none
        else
          let h : HoistCopy := ⟨0, sel, mask, rec, dst, sync, [(0, bitsAt slice.toNat 0 32, bitsAt slice.toNat 32 32)], [0], false, none, [], []⟩
          let s := sendNode s g n (some core)
          let ag : Agent := ⟨g.fn, g.part, some core, 0, 0, false, true⟩
          startHoists (addCmd s core 0 0 (.node g.id n) (.hoist h) (lockRange s ag rec 512 false)).2
      match (readTable s g.fn g.part x.body 512 1).bind blockCommand with
      | some (.hoist sel _ _ _ _, a, b, c, d) => some (go sel none a b c d 32)
      | some (.hoistm _ _ _ _ mask, a, b, c, d) => some (go .scratch (some mask) a b c d 128)
      | _ => some (failNode s g n none)

/-- The stack that holds a source. -/
def stackOf (s : State) (fn part : Nat) (p : Dword) : Option Nat :=
  match (access s (dispAgent fn part) p 1 .free .read false).1 with
  | .ok (.store key _ :: _) => some (key / 8 / 0xC00000000)
  | _ => none

/-- The source pointers of a parameter block; none when the list is out of place or cannot be read. -/
def blockSrcs (s : State) (fn part v : Nat) : Option (List Dword) :=
  let es := (List.range (blockSources v)).map fun i => readRecord s fn part (ptrAdd (BitVec.ofNat 64 (bitsAt v 128 64)) (64 * i)) 64 64
  if es.all Option.isSome then some ((es.filterMap id).map fun p => BitVec.ofNat 64 p) else none

/-- A sluice node: none while the queue of its stack or the slots of its core are full. DESIGN CHOICE (log 93): its block takes
a command slot and a range-lock entry of the preferred core, and that core counts as the one it ran on. -/
def sendSluice (s : State) (g : Graph) (n : Nat) (x : Node) : Option State :=
  match preferred s g x (partCores s g.part) with
  | none => none
  | some core =>
    if !slotFree s core then none
    else
      match readRecord s g.fn g.part x.body 512 512 with
      | none => some (failNode s g n none)
      | some v =>
        match blockSrcs s g.fn g.part v with
        | none => some (failNode s g n none)
        | some srcs =>
          match stackOf s g.fn g.part (srcs.headD 0) with
          | none => some (failNode s g n none)
          | some k =>
            if 8 ≤ k || blockBad s g.fn k v || sourcesBad (parseBlock v 0 0 0 (.node g.id n) g.fn g.part srcs) then some (failNode s g n none)
            else if 64 ≤ (s.stack k).blocks.length then none
            else
              let ag : Agent := ⟨g.fn, g.part, some core, 0, 0, false, true⟩
              some (postBlock (sendNode s g n (some core)) ag k core 0 0 (.node g.id n) v srcs)

/-- The spring command of an engine command block, with the cause that its operands give at issue and the range of memory it
names there, as (pointer, bits, written). -/
def springCommand (v : Nat) : Option (Option (Nat × Dword) × SpOp × Option (Dword × Nat × Bool)) :=
  match blockCommand v with
  | some (i, a, b, _, _) =>
    (match i with
    | .spload _ => some (loadCause a, .load a none, some (a, 512, false))
    | .spclamp _ _ => some (rangeCause a, .clamp (rangeFirst a) (rangeCount a) b [], some (b, rangeCount a, false))
    | .spclampFree _ => some (rangeCause a, .free (rangeFirst a) (rangeCount a), none)
    | .spclampSet _ _ => some (rangeCause a, .set (rangeFirst a) (rangeCount a) b [], some (b, rangeCount a, false))
    | .spsweep _ _ clr => some (sweepCause a b, sweepOp a b clr, none)
    | .spread _ _ => some (rangeCause b, .read a (rangeFirst b) (rangeCount b) false false 0, some (a, readBits b false, true))
    | .spreadOnes _ _ clr => some (rangeCause b, .read a (rangeFirst b) (rangeCount b) true clr 0, some (a, readBits b true, true))
    | _ => none)
  | none => none

/-- Put a spring node's command into its core's slots and its die's queue (01 R18; log 86). -/
def postSpring (s : State) (g : Graph) (n core : Nat) (op : SpOp) (run : Option (Dword × Nat × Bool)) : State :=
  let ag : Agent := ⟨g.fn, g.part, some core, 0, 0, false, true⟩
  let ranges := match op, run with
    | .load image _, _ => loadRanges s ag image
    | _, some (p, k, w) => lockRange s ag p k w
    | _, none => []
  match addCmd s core 0 0 (.node g.id n) (.spring g.die) ranges with
  | (id, s) => s.modSpring g.die fun p => { p with queue := p.queue ++ [⟨id, .node g.id n, core, 0, op, false⟩] }

/-- A spring node: none while another holds the array, or its queue or the slots of its core are full. DESIGN CHOICE (log 93): the
command block may stand at any bit address, and the preferred core counts as the one it ran on. -/
def sendSpring (s : State) (g : Graph) (n : Nat) (x : Node) : Option State :=
  match preferred s g x (partCores s g.part) with
  | none => none
  | some core =>
    let taken : Option State :=
      match (s.spring g.die).holder with
      | some (.graph k) => if k = g.id then some s else none
      | some (.launch _) => none
      | none => some ((s.modSpring g.die fun _ => Spring.fresh (.graph g.id)).modGraph g.id fun g => { g with holdsSpring := true })
    match taken with
    | none => none
    | some s =>
      if springFull s g.die || !slotFree s core then none
      else
        match (readTable s g.fn g.part x.body 512 1).bind springCommand with
        | some (none, op, run) => some (postSpring (sendNode s g n (some core)) g n core op run)
        | _ => some (failNode s g n none)

/-- A tape node: none while no core of the partition has an interpreter gang of the function. -/
def sendTape (s : State) (g : Graph) (n : Nat) (x : Node) : Option State :=
  let has (c : Nat) : Bool :=
    match (s.core c).interp with
    | some k => (match (s.gang? k).bind fun w => s.launch? w.launch with | some l => l.fn == g.fn | none => false)
    | none => false
  match preferred s g x ((partCores s g.part).filter has) with
  | none => none
  | some core => some (wakeCore ((sendNode s g n (some core)).modCore core fun r => { r with tapes := r.tapes ++ [(g.id, n)] }) core .engine)

/-- Send a ready node to a unit of its type; none when no unit can take it now. -/
def serveNode (s : State) (g : Graph) (n : Nat) (x : Node) : Option State :=
  match x.ty with
  | 0 => sendLaunch s g n x
  | 1 => sendLode s g n x
  | 2 => sendHoist s g n x
  | 3 => sendSluice s g n x
  | 4 => sendSpring s g n x
  | _ => sendTape s g n x

/-- The pool entry of a node, when its graph's work may go on. -/
def poolSeq (s : State) (g : Graph) (x : Node) : Option Nat :=
  match x.st with
  | .pooled q => if sliceRuns s g.slice && !g.counter.stopped && !g.ended then some q else none
  | _ => none

/-- NODE_DISPATCH: none when the node is not in the pool, cannot be served, or an earlier one of its type can be. -/
def dispatchNode (s : State) (gr n : Nat) : Option State :=
  match s.graph? gr with
  | none => none
  | some g =>
    match g.nodes[n]? with
    | none => none
    | some x =>
      match poolSeq s g x with
      | none => none
      | some q =>
        let before := s.graphs.any fun h => h.die == g.die && h.nodes.zipIdx.any fun p =>
          p.1.ty == x.ty && (match poolSeq s h p.1 with
            | some r => (r < q || (r == q && (h.handle.toNat < g.handle.toNat || (h.id == g.id && p.2 < n)))) && (serveNode s h p.2 p.1).isSome
            | none => false)
        if before then none else serveNode s g n x

def execNodeDispatch (graph node : Nat) (s : State) : Host.Outcome State Fault Refusal :=
  .next (settleWork 8 ((dispatchNode s graph node).getD s))

/-! ## Placing gangs (02 R41, R42) -/

/-- A SPRING launch has or gets its die's array: none while another holds it, an earlier launch waits for it, or the launch's own
array is saved and cannot be restored yet (13 R225). -/
def takeArray (s : State) (l : Launch) : Option State :=
  if !l.image.spring || springHeld s l.die l then some s
  else if l.holdsSpring then none
  else if s.launches.any fun k => k.die == l.die && k.id < l.id && k.image.spring && !k.holdsSpring && !k.ended && k.placed == 0 && sliceRuns s k.slice then none
  else
    match (s.spring l.die).holder with
    | some _ => none
    | none => some ((s.modSpring l.die fun _ => Spring.fresh (.launch l.id)).modLaunch l.id fun l => { l with holdsSpring := true })

/-- GANG_PLACE: none when the next gang of the launch cannot be placed now. DESIGN CHOICE (log 93): a launch node ran on the
core of its gang 0. -/
def placeGang (s : State) (launch : Nat) : Option State :=
  match s.launch? launch with
  | none => none
  | some l =>
    if l.ended || l.counter.stopped || l.gangs ≤ l.placed || !sliceRuns s l.slice then none
    else
      match takeArray s l with
      | none => none
      | some s =>
        match chooseCore s l with
        | none => none
        | some core =>
          match fitAt s l.part l.need core with
          | none => none
          | some (buffer, sbase) =>
            let g := newGang s l l.placed core sbase
            let s := enterGang { s with nextId := s.nextId + 1 } l g buffer
            let s := startLaunch (s.modLaunch l.id fun l => { l with placed := l.placed + 1 }) l.id
            let s := match l.owner with
              | .node k n => if l.placed = 0 then s.modGraph k fun h => { h with nodes := h.nodes.modify n fun x => { x with core := some core } } else s
              | .phase _ => s
            if l.image.ordered then some (settleTasks (placeRoot s l.id l.fn l.placed core) l.id)
            else some s

def execGangPlace (launch : Nat) (s : State) : Host.Outcome State Fault Refusal := .next ((placeGang s launch).getD s)

/-! ## Completion (01 R6) -/

/-- Untaken tape nodes of a core without an interpreter gang go back to the pool. -/
def releaseInterp (s : State) (core gid : Nat) : State :=
  if (s.core core).interp != some gid then s
  else
    let back := (s.core core).tapes
    let s := s.modCore core fun r => { r with interp := none, tapes := [] }
    back.foldl (fun s t => setNode s t.1 t.2 (.pooled 0)) s

/-- A gang with no thread left ends, its records still on their way or not: none while a thread runs or an engine command of it is
outstanding. -/
def endGang (s : State) (gid : Nat) : Option State :=
  match s.gang? gid with
  | none => none
  | some g =>
    if (g.crews.any fun c => !c.ended) || engineBusy s gid then none
    else
      let how : CState := match g.ending with | none => .done | some .cancelled => .cancelled | some .faulted => .faulted
      let s := releaseInterp (releaseEngines (closeGangCursors (writeBackAll s g.core) gid) gid) g.core gid
      let s : State := { s with gangs := s.gangs.filter fun x => x.id != gid }
      let s := freeTaskSlices (s.modCore g.core fun r => { r with faultBuf := r.faultBuf.filter fun h => h.gang != gid })
      let s := s.modLaunch g.launch fun l => { l with counter := l.counter.count how }
      some (settleWork 8 (if how = .faulted then stopLaunch s g.launch else s))

/-- GANG_COMPLETE: none while a thread runs, or an engine command of the gang or a record that it has sent is outstanding. -/
def completeGang (s : State) (gid : Nat) : Option State := if sendBusy s gid then none else endGang s gid

def execGangComplete (gang : Nat) (s : State) : Host.Outcome State Fault Refusal := .next ((completeGang s gang).getD s)

end Sys2Proof.Machine
end

