-- ==== Sys2Proof/Machine/Time.lean ====
section
/-! DEFINITION. Machine/Time.lean: cycles pass: CYCLE (05 R112), the cycle's GSWs (15 R257), budgets (01 R23, 02 R37),
the stall counts of ENQs (15 R262), and answers kept for crews that are back (18 R287). -/

namespace Sys2Proof.Machine

/-- Stall counts run while the gang of the ENQ is on a core (15 R262, R265). -/
def countSends (s : State) (n : Nat) : State :=
  let here (g : Nat) : Bool := s.gangs.any fun x => x.id == g
  let queue (q : Queue) : Queue := { q with waiting := q.waiting.map fun r => if here r.gang then { r with counted := r.counted + n } else r }
  let req (r : LinkReq) : LinkReq :=
    match r.op, r.answer with
    | .reserve _ _ _ _ _, none => if here r.gang then { r with counted := r.counted + n } else r
    | _, _ => r
  { s with queues := s.queues.map queue, link := { s.link with reqs := s.link.reqs.map req } }

/-- Budgets count while their slice runs. -/
def countBudgets (s : State) (n : Nat) : State :=
  { s with slices := s.slices.map fun l => if l.running && !l.ended && fnResident s l.fn then { l with used := l.used + n } else l }

/-- `n` cycles pass. -/
def passTime (s : State) (n : Nat) : State :=
  let s := countBudgets (countSends s n) n
  deliverAnswers { s with
    cycle := s.cycle + BitVec.ofNat 64 n
    gangs := s.gangs.map fun g => if g.gWrites.isEmpty then g else applyGWrites g }

end Sys2Proof.Machine
end

