-- ==== Sys2Proof/Machine/Turn.lean ====
section
/-! DEFINITION. Machine/Turn.lean: the quanta of a partition (02 R29), pre-emption and entry starts (18 R286 to R289),
suspend, resume and adoption (R286, R294), and the reset of a function (R295, R296). -/

namespace Sys2Proof.Machine

/-! ## Records for Sprinlek (18 R284) -/

/-- A record with the layout of 18 R281 and a cause; the fields that no rule gives are free (log 24). -/
def mailBits (k cause : Nat) : BitVec 256 :=
  let v := natOfBytes ((List.range 32).map fun i => Config.freeByte (k + i))
  trapRecord (BitVec.ofNat 64 (bitsAt v 0 64)) cause (bitsAt v 72 8) (bitsAt v 80 8) (bitsAt v 88 5) (BitVec.ofNat 32 (bitsAt v 96 32))
    (BitVec.ofNat 64 (bitsAt v 128 64)) (bitsAt v 192 32)

/-- Send one. -/
def tellSprinlek (s : State) (cause : Nat) : State := { (mailRecord s (mailBits s.freeCtr cause)) with freeCtr := s.freeCtr + 32 }

/-! ## Adoption (18 R286, R294) -/

/-- A saved command and a saved block of an area, in the partition and function that take it over. -/
def EngCmd.moved (x : EngCmd) (part : Nat) : EngCmd :=
  match x.body with
  | .drain _ slot => { x with body := .drain part slot }
  | _ => x

/-- A saved context taken over by a function. -/
def Saved.moved (v : Saved) (fn part : Nat) : Saved :=
  { v with cmds := v.cmds.map fun x => x.moved part, blocks := v.blocks.map fun b => (b.1, { b.2 with fn := fn, part := part }) }

/-- A pond taken over. -/
def Pond.moved (d : Pond) (fn part : Nat) : Pond :=
  { d with part := part, fn := fn, ops := d.ops.map fun o => match o.src with | .host _ => { o with src := .host fn } | .group _ _ _ _ => o }

/-- What a function can take over from its area: its names, and the context. -/
def adoptable (s : State) (fn part : Nat) : Option (Nat × Adopted) :=
  let free (a : Adopted) : Bool :=
    (a.ponds.all fun d => (s.pond? part d.slot).isNone) && a.queues.all fun q => (s.queue? part q.1.slot).isNone
  if headerOk s fn part then (readArea s fn (s.nextId + s.link.nextReq)).filter fun r => adoptFits s fn r.2 && free r.2 else none

/-- A function takes over the context of its area; the generations of pond and queue slots go on from theirs (09 R186). -/
def adopt (s : State) (fn part : Nat) (names : Nat) (a : Adopted) : State :=
  let next := s.nextId + s.link.nextReq + names
  let s : State := { s with
    nextId := next, link := { s.link with nextReq := next }
    jobs := s.jobs ++ a.jobs.map fun x => { x with part := part }
    slices := s.slices ++ a.slices.map fun x => { x with part := part, fn := fn, running := false }
    phases := s.phases ++ a.phases.map fun x => { x with part := part, fn := fn }
    graphs := s.graphs ++ a.graphs.map fun x => { x with part := part, fn := fn }
    launches := s.launches ++ a.launches.map fun x => { x with part := part, fn := fn }
    ponds := s.ponds ++ a.ponds.map fun d => d.moved fn part
    queues := s.queues ++ a.queues.map fun q => { q.1 with part := part, fn := fn }
    pondGens := a.ponds.foldl (fun l d => setGen l part d.slot d.gen) s.pondGens
    queueGens := a.queues.foldl (fun l q => setGen l part q.1.slot q.1.gen) s.queueGens }
  let s := s.modFn fn fun f => { f with saved := some (a.saved.moved fn part), ctxstate := .saved }
  -- spring arrays are their holders' again (13 R225)
  let s : State := { s with springs := s.springs.mapIdx fun i p =>
    match a.saved.springs.find? fun x => x.1 == i with
    | some x => if p.holder.isNone then { p with holder := x.2.holder } else p
    | none => p }
  -- the buffers of the queues, as far as they can be written
  a.queues.foldl (fun s q => q.2.foldl (fun s r => (writeSlot s { q.1 with part := part, fn := fn } r.1 r.2).getD s) s) s

/-! ## Pre-emption (18 R286 to R288) -/

/-- A function has a context to save (18 R292): work put aside, slices that have not ended, ponds, queues, or slots. -/
def hasContext (s : State) (fn : Nat) : Bool :=
  let v := savedOf s fn
  !v.gangs.isEmpty || !v.cmds.isEmpty || !v.blocks.isEmpty || !v.springs.isEmpty || !v.lodeNodes.isEmpty ||
    (s.slices.any fun l => l.fn == fn && !l.ended) || (s.ponds.any fun d => d.fn == fn) ||
    (s.queues.any fun q => q.fn == fn) || !(slotsIn s fn).isEmpty

/-- The slices of a function stop running. -/
def stopSlices (s : State) (fn : Nat) : State :=
  { s with slices := s.slices.map fun l => if l.fn == fn && l.running then { l with running := false } else l }

/-- Pre-empt the function that holds a partition's quantum. -/
def preempt (s : State) (fn part : Nat) : State :=
  let s := putAside (stopSlices s fn) fn (fnSel s fn)
  let s := s.modPart part fun p => { p with resident := none }
  if hasContext s fn then (writeArea (saveCores s fn part) fn part).modFn fn fun f => { f with ctxstate := .saved }
  else (flushPart s part).modFn fn fun f => { f with saved := none, ctxstate := .empty }

/-- QUANTUM_END: none before the entry's LENGTH is over. -/
def endQuantum (s : State) (part : Nat) : Option State :=
  match (s.part part).resident with
  | some fn => if (s.part part).entryEnd ≤ s.cycle.toNat then some (settleWork 8 (preempt s fn part)) else none
  | none => none

def execQuantumEnd (part : Nat) (s : State) : Host.Outcome State Fault Refusal := .next ((endQuantum s part).getD s)

/-! ## Entry starts (18 R286, R289) -/

/-- The dispatcher holds a slice of a function that may run. -/
def hasWork (s : State) (fn part : Nat) : Bool :=
  (firstRecord s part (s.fn fn).intakeRecs).isSome || !(contenders s fn).isEmpty

/-- The function's context as a pre-emption now would put it aside. -/
def contextNow (s : State) (fn part : Nat) : State :=
  if (s.part part).resident == some fn then saveCores (putAside (stopSlices s fn) fn (fnSel s fn)) fn part else s

/-- CTXNEED (18 R285): the implementation's figure for the partition's shape, and no less than what a save would write now. DESIGN
CHOICE (log 23). -/
def ctxNeed (s : State) (fn part : Nat) : Nat :=
  max (Config.ctxNeed fn (s.part part).clusters) ((areaBytes (contextNow s fn part) fn part + 65535) / 65536)

/-- CTXSIZE is too small for an entry of the function. -/
def ctxTooSmall (s : State) (fn part : Nat) : Bool := (s.fn fn).ctxsize < ctxNeed s fn part

/-- The function takes the partition's cores: its context comes back, and its first slice runs. -/
def enter (s : State) (fn part len : Nat) : State :=
  let s := s.modPart part fun p => { p with resident := some fn, entryEnd := s.cycle.toNat + len * 1000 }
  let s := (restoreCores s fn part).modFn fn fun f => { f with ctxstate := .resident }
  let s := match nextSlice s fn with | some l => s.modSlice l.id fun l => { l with running := true } | none => s
  deliverAnswers (bringBack s fn (backSlices s fn))

/-- One entry begins, or is skipped. -/
def serveEntry (s : State) (fn part len : Nat) : State :=
  let f := s.fn fn
  if ctxTooSmall s fn part then
    if f.ctxSmallFor == some f.ctxsize then s
    else tellSprinlek (s.modFn fn fun f => { f with ctxSmallFor := some f.ctxsize }) Cause.ctxSmall
  else if f.ctxstate == .saved || (f.ctxstate == .empty && hasWork s fn part) then enter s fn part len
  else s

/-- QUANTUM_ENTRY_START: none while an entry runs, or in an unused partition. -/
def startQuantum (s : State) (part : Nat) : Option State :=
  let p := s.part part
  if p.resident.isSome || p.nquanta = 0 then none
  else
    let q := p.quantum.getD p.rot (0, 0)
    some (settleWork 8 (serveEntry (s.modPart part fun p => { p with rot := (p.rot + 1) % p.nquanta }) q.1 part q.2))

def execQuantumEntryStart (part : Nat) (s : State) : Host.Outcome State Fault Refusal := .next ((startQuantum s part).getD s)

/-- Some entry in use would not be skipped without a trace. -/
def entryDue (s : State) (part : Nat) : Bool :=
  let p := s.part part
  p.resident.isNone && (p.quantum.take p.nquanta).any fun q =>
    let f := s.fn q.1
    if ctxTooSmall s q.1 part then f.ctxSmallFor != some f.ctxsize
    else f.ctxstate == .saved || (f.ctxstate == .empty && hasWork s q.1 part)

/-! ## Suspend and resume (18 R286) -/

/-- The partition in which a function holds the quantum. -/
def residentIn (s : State) (fn : Nat) : Option Nat := leastBelow 64 fun p => (s.part p).resident == some fn

/-- OP = 1. -/
def suspendFn (s : State) (fn : Nat) : State :=
  let s := match residentIn s fn with | some p => preempt s fn p | none => s
  s.modFn fn fun f => { f with ctxstate := .suspended }

def execSuspend (fn : Nat) (s : State) : Host.Outcome State Fault Refusal := hostAct s (settleWork 8 (suspendFn s fn))

/-- OP = 2. -/
def resumeFn (s : State) (fn : Nat) : State :=
  let f := s.fn fn
  match f.ctxstate with
  | .suspended => s.modFn fn fun f => { f with ctxstate := if f.saved.isSome then .saved else .empty }
  | .empty =>
    match partOfFn s fn with
    | some part => (match adoptable s fn part with | some (n, a) => adopt s fn part n a | none => tellSprinlek s Cause.restoreBad)
    | none => tellSprinlek s Cause.restoreBad
  | _ => s

def execResume (fn : Nat) (s : State) : Host.Outcome State Fault Refusal := hostAct s (resumeFn s fn)

/-! ## What a reset abandons (18 R295) -/

/-- Elements of a parked group's store or atomic. -/
def parkedElems (s : State) (g : Gang) (c : Crew) (core : Nat) : Nat :=
  let parked := c.lanesIn fun x => x == .parked
  let ag : Agent := gangAgent s { g with core := core } false
  let groups := (lanesOf parked).filter fun i => firstLane (c.atPc parked (c.lane i).pc) == i
  groups.foldl (fun n i =>
    let lanes := c.atPc parked (c.lane i).pc
    match engineRead s ag (c.lane i).pc 32 .free with
    | .error _ => n
    | .ok w =>
      match decode (BitVec.ofNat 32 w) with
      | .ok (.st _ _ _ _ _) => n + (lanesOf lanes).length
      | .ok (.stk _ _ _ _ _) => n + 1
      | .ok (.atadd _ _ _ _ _) => n + (lanesOf lanes).length
      | .ok (.atmin _ _ _ _ _) => n + (lanesOf lanes).length
      | .ok (.atmax _ _ _ _ _) => n + (lanesOf lanes).length
      | .ok (.atand _ _ _ _ _) => n + (lanesOf lanes).length
      | .ok (.ator _ _ _ _ _) => n + (lanesOf lanes).length
      | .ok (.atxor _ _ _ _ _) => n + (lanesOf lanes).length
      | .ok (.atxch _ _ _ _ _) => n + (lanesOf lanes).length
      | .ok (.atcas _ _ _ _ _) => n + (lanesOf lanes).length
      | _ => n) 0

/-- Elements that begin in a chunk of a copy and are still to write, at each core it writes: those that a paused chunk has done are
not counted. -/
def hoistLeft (s : State) (x : EngCmd) (h : HoistCopy) : Nat :=
  let layout : Option Layout :=
    match h.layout with
    | some l => some l
    | none => match engineRead s (x.agent s) h.record 512 (.mult 512) with | .ok v => parseLayout v | .error _ => none
  match layout with
  | none => 0
  | some l =>
    let done (k : Nat) : Nat := match h.part.find? fun p => p.1 == k with | some p => p.2 | none => 0
    let left (k : Nat) : Nat := (((chunkElems l h.slices k).drop (done k)).filter fun e => 4096 * k ≤ e * l.w).length
    (if h.started then h.todo else copyChunks l h.slices).foldl (fun n k => n + left k) 0 * (h.cores x.core).length

/-- Element writes of a command that have not begun. -/
def cmdLeft (s : State) (x : EngCmd) : Nat :=
  match x.body with
  | .hoist h => hoistLeft s x h
  | .mx (.st _ _ _ cluster _ _ pos) => 16384 * (enginesOf x.core cluster).length - pos
  | .mx (.ld _ _ _ cluster _ _ _) => 16384 * (enginesOf x.core cluster).length
  | .mx _ => 0
  | .drain part slot =>
    (match s.pond? part slot with
    | some d =>
      (match d.ops.find? fun o => match o.kind with | .drain _ _ cmd _ _ _ => cmd == x.id | _ => false with
      | some o => (match o.kind with | .drain _ _ _ _ _ copied => d.total - copied | _ => 0)
      | none => 0)
    | none => 0)
  | .sluice _ _ => 0
  | .spring _ => 0

/-- Elements of a block that are still to write: those of groups not begun, and what a begun group has not done. -/
def blockLeft (b : Block) : Nat :=
  let done (g : Nat) : Nat := match b.begun.find? fun p => p.1 == g with | some p => p.2 | none => 0
  (List.range b.groups).foldl (fun n g => if b.doneGroups.contains g then n else n + (min 512 (b.count - 512 * g) - done g)) 0

/-- Elements of a spring read that are still to write. -/
def springLeft (q : SpCmd) : Nat := match q.op with | .read _ _ count _ _ pos => count - pos | _ => 0

/-- Pond records of a function not placed: PUTs and window puts at the inlets, and placement writes that wait. -/
def putsLeft (s : State) (fn : Nat) : Nat :=
  (s.ponds.filter fun d => d.fn == fn).foldl (fun n d =>
    d.ops.foldl (fun n o => match o.kind with | .put _ recs => n + recs.length | .windowPut _ _ => n + 1 | _ => n) (n + d.paused.length)) 0

/-- Queue records of a function's gangs not sent: their ENQs wait for a grant here or at another package. -/
def enqsLeft (s : State) (gids : List Nat) : Nat :=
  let far (r : LinkReq) : Nat := match r.op with | .reserve _ _ _ n _ => if gids.contains r.gang then n else 0 | _ => 0
  (s.queues.flatMap fun q => q.waiting).foldl (fun n r => if r.node.isNone && gids.contains r.gang then n + r.recs.length else n) 0 +
    s.link.reqs.foldl (fun n r => n + far r) 0

/-- The gangs of a function on the cores and saved, each with its core. -/
def gangsOf (s : State) (fn : Nat) : List Gang := (s.gangs.filter (fnSel s fn).gang) ++ (savedOf s fn).gangs.map fun x => x.gang

/-- The four counts of 18 R296. -/
def abandoned (s : State) (fn : Nat) : Nat × Nat × Nat × Nat :=
  let p := fnSel s fn
  let v := savedOf s fn
  let gs := gangsOf s fn
  let threads := gs.foldl (fun n g => g.crews.foldl (fun n c => if c.ended then n else n + parkedElems s g c g.core) n) 0
  let cmds := ((s.cmds.filter fun x => p.owns s x.owner) ++ v.cmds).foldl (fun n x => n + cmdLeft s x) 0
  let blocks := ((s.sluiceStacks.flatMap fun k => k.blocks).filter (fun b => b.fn == fn) ++ v.blocks.map fun b => b.2).foldl (fun n b => n + blockLeft b) 0
  let reads := ((s.springs.filter fun x => p.holds x.holder) ++ v.springs.map fun x => x.2).foldl (fun n x => x.queue.foldl (fun n q => n + springLeft q) n) 0
  (threads, cmds + blocks + reads, putsLeft s fn, enqsLeft s (gs.map fun g => g.id))

/-- The reset record (18 R296). -/
def resetBits (a : Nat × Nat × Nat × Nat) (cycle : Nat) : Nat :=
  a.1 % 2 ^ 64 + a.2.1 % 2 ^ 64 * 2 ^ 64 + a.2.2.1 % 2 ^ 32 * 2 ^ 128 + a.2.2.2 % 2 ^ 32 * 2 ^ 160 + cycle * 2 ^ 192

/-! ## Reset of a function (18 R295) -/

/-- Posted blocks of a function do not run on. -/
def dropBlocks (s : State) (fn : Nat) : State :=
  let ids := ((s.sluiceStacks.flatMap fun k => k.blocks).filter fun b => b.fn == fn).map fun b => b.cmd
  let s : State := { s with sluiceStacks := s.sluiceStacks.map fun k => { k with blocks := k.blocks.filter fun b => b.fn != fn } }
  let s := ids.foldl endCmd s
  s.modFn fn fun f => { f with saved := f.saved.map fun v => { v with blocks := [], cmds := v.cmds.filter fun x => match x.body with | .sluice _ _ => false | _ => true } }

/-- Every slice of a function ends CANCELLED. Records that its gangs have sent hold none of them: they are performed, as far as a
queue can take them now, and those of another package are on their way. -/
def cancelSlices (s : State) (fn : Nat) : State :=
  let gids := (s.gangs.filter (fnSel s fn).gang).map fun g => g.id
  let s := s.queues.foldl (fun s q => landSends (fun r => r.node.isNone && gids.contains r.gang) (q.transit.length + 1) s q.part q.slot) s
  let s := (s.slices.filter fun l => l.fn == fn && !l.ended).foldl (fun s l => cancelSlice s l.id) s
  settleWork 16 (gids.foldl (fun s g => (endGang s g).getD s) s)

/-- Ponds, queues, cursors and slot contents are discarded; generations advance. -/
def discardFn (s : State) (fn : Nat) : State :=
  let s := (s.ponds.filter fun d => d.fn == fn).foldl (fun s d => removePond s d.part d.slot) s
  let s := (s.queues.filter fun q => q.fn == fn).foldl (fun s q => removeQueue s q.part q.slot) s
  clearSlots s fn

/-- The records of a function after its reset. -/
def Fn.afterReset (f : Fn) : Fn :=
  { f with
    root := 0, rroot := 0, dirtyen := false, faultpond := 0xFFFFFFFF
    intake := 0xFFFFFFFF, drops := 0, ctlHandle := 0, addBudget := 0
    saved := none, ctxstate := .empty, intakeRecs := [], retry := [], pausedDisp := [] }

/-- A QOPEN.prod at another package: its answer is waited for, so that what it registers is closed (15 R261). -/
def isOpen (r : LinkReq) : Bool := match r.op with | .qopen _ => true | _ => false

/-- The whole reset. -/
def resetFn (s : State) (fn : Nat) : State :=
  let counts := abandoned s fn
  let gids := (gangsOf s fn).map fun g => g.id
  let s := match residentIn s fn with
    | some p => (flushPart s p).modPart p fun x => { x with resident := none }
    | none => s
  let s := discardFn (cancelSlices (dropBlocks s fn) fn) fn
  let s : State := { s with link := { s.link with reqs := s.link.reqs.filter fun r => r.posted || isOpen r || !gids.contains r.gang } }
  let s := s.modFn fn Fn.afterReset
  let spot := (s.fn fn).resetrec.toNat
  let s := if spot + 32 ≤ deviceBytes then
    noteStore { s with mem := s.mem.setBits (spot * 8) 256 (resetBits counts s.cycle.toNat) } (spot * 8) 256 else s
  tellSprinlek s Cause.vfReset

def execVfReset (fn : Nat) (s : State) : Host.Outcome State Fault Refusal := hostAct s (resetFn s fn)

/-- A function level reset, of a virtual function. -/
def execFunctionLevelReset (fn : Nat) (s : State) : Host.Outcome State Fault Refusal :=
  if 1 ≤ fn && fn ≤ 64 then hostAct s (resetFn s fn) else .next s

end Sys2Proof.Machine
end

