-- ==== Sys2Proof/Machine/Host.lean ====
section
/-! DEFINITION. Machine/Host.lean: what the host does to the package: intake windows (02 R31, R32), control records (02 R28,
R33; 08 R165; 12 R217; 18 R285; 20 R302; 22 R322 to R325, R331), replay and retry (08 R168, 02 R344), dirty tracking
(08 R170) and device memory (22 R323). -/

namespace Sys2Proof.Machine

/-! ## Writes to records -/

/-- A record of `old` bits after a host write of `n` bits `v` at bit `pos`. -/
def merged (old pos n v : Nat) : Nat := mergeNat old (v * 2 ^ pos) ((2 ^ n - 1) * 2 ^ pos)

/-- A write sets a bit of the fields (first bit, width). -/
def setsBits (fields : List (Nat × Nat)) (pos v : Nat) : Bool := fields.any fun r => bitsAt (v * 2 ^ pos) r.1 r.2 != 0

/-- A naturally aligned write of 4 or 8 bytes (08 R165). -/
def recordWrite (off size : Nat) : Bool := (size == 4 || size == 8) && off % size == 0

/-- A write of `n` bits at `pos` covers some bit of a field. -/
def covers (pos n lo w : Nat) : Bool := meets pos n lo w

/-! ## Intake windows (02 R31, R32) -/

/-- Capacity minus count of the intake pond (02 R32). -/
def intakeFree (s : State) (fn : Nat) : Nat :=
  match (partOfFn s fn).bind (intakePond s fn) with
  | some d => min (d.cap - d.total) 0xFFFFFFFF
  | none => 0

/-- The window control block as the host reads it (02 R32). -/
def windowBits (s : State) (fn : Nat) : Nat :=
  let f := s.fn fn
  f.intake.toNat + intakeFree s fn * 2 ^ 32 + f.drops * 2 ^ 64 + f.ctlHandle.toNat * 2 ^ 96 + f.addBudget.toNat * 2 ^ 128

/-- DROPS grows by one, saturating. -/
def countDrop (s : State) (fn : Nat) : State := s.modFn fn fun f => { f with drops := min (f.drops + 1) 0xFFFFFFFF }

/-- The records that a pond holds, basin by basin, as (basin, position, bits). -/
def pondRecords (s : State) (d : Pond) : List (Nat × Nat × Nat) :=
  (List.range d.basins).flatMap fun b => (List.range (d.counts.getD b 0)).map fun p =>
    (b, p, match engineRead s d.agent (d.recAddr b p) d.w .free with | .ok v => v | .error _ => 0)

/-- A write of INTAKE_HANDLE: a 512-bit pond of the function, or none; the dispatcher reads what a new pond holds.
DESIGN CHOICE (log 101): the records that already lie there are numbered basin by basin. -/
def setIntake (s : State) (fn : Nat) (h : BitVec 32) : State :=
  match (partOfFn s fn).bind fun p => pondOf s p fn (h.zeroExtend 64) with
  | none => s.modFn fn fun f => { f with intake := 0xFFFFFFFF, intakeRecs := [] }
  | some d =>
    if d.w ≠ 512 then s.modFn fn fun f => { f with intake := 0xFFFFFFFF, intakeRecs := [] }
    else if (s.fn fn).intake = h then s
    else
      let recs := (pondRecords s d).zipIdx.map fun r => IntakeRec.mk (s.nextId + r.2) r.1.1 r.1.2.1 r.1.2.2
      ({ s with nextId := s.nextId + recs.length }).modFn fn fun f => { f with intake := h, intakeRecs := recs }

def execIntakeHandle (fn : Nat) (h : Word) (s : State) : Host.Outcome State Fault Refusal :=
  .next (if present s fn then setIntake s fn h else s)

/-- A PUT of a whole unit takes its place at the inlet of the intake pond, or is dropped. -/
def putUnit (s : State) (fn key bits : Nat) : State :=
  match (partOfFn s fn).bind (intakePond s fn) with
  | none => countDrop s fn
  | some d => s.modPond d.part d.slot fun d => { d with ops := d.ops ++ [⟨.host fn, .windowPut key bits, 0, 0⟩] }

/-- The units of a write to the put area, ascending. -/
def putUnits (fn off : Nat) (data : List Byte) : Nat → State → State
  | 0, s => s
  | n + 1, s =>
    let s := putUnits fn off data n s
    let u := off / 64 + n
    if off ≤ 64 * u ∧ 64 * u + 64 ≤ off + data.length then
      putUnit s fn (4 * (u % 64)) (natOfBytes ((data.drop (64 * u - off)).take 64))
    else countDrop s fn

/-- A posted write to the put area (02 R31). -/
def intakePut (s : State) (fn off : Nat) (data : List Byte) : State :=
  let data := data.take (0x1000 - off)
  if data.isEmpty then s else putUnits fn off data ((off + data.length - 1) / 64 + 1 - off / 64) s

def execIntakePut (fn off : Nat) (data : List Byte) (s : State) : Host.Outcome State Fault Refusal :=
  .next (if present s fn then intakePut s fn off data else s)

/-- A write to the window control block, at bit `pos` (02 R32). -/
def windowWrite (s : State) (fn pos n v : Nat) : State :=
  if setsBits [(194, 318)] pos v then countDrop s fn
  else
    let w := merged (windowBits s fn) pos n v
    let s := s.modFn fn fun f => { f with
      drops := bitsAt w 64 32, ctlHandle := BitVec.ofNat 32 (bitsAt w 96 32), addBudget := BitVec.ofNat 64 (bitsAt w 128 64) }
    let s := if covers pos n 0 32 then setIntake s fn (BitVec.ofNat 32 (bitsAt w 0 32)) else s
    match bitsAt w 192 2 with
    | 1 => resumeSlice s fn
    | 2 => (match partOfFn s fn with | some p => (cancelHandle s p (s.fn fn).ctlHandle).2 | none => s)
    | _ => s

/-! ## Ponds from the host (02 R33) -/

/-- The pond control record (02 R33). -/
def pondRecBits (s : State) (fn : Nat) : Nat :=
  let f := s.fn fn
  f.pondRegion.toNat + f.pondCap.toNat * 2 ^ 64 + f.pondParams.toNat * 2 ^ 128 + f.pondHandle.toNat * 2 ^ 192 + f.pondResult * 2 ^ 224 +
    (if pondBusy s fn then 2 ^ 234 else 0)

def pondRecWrite (s : State) (fn pos n v : Nat) : State :=
  if setsBits [(235, 277)] pos v then s
  else
    let w := merged (pondRecBits s fn) pos n v
    let s := s.modFn fn fun f => { f with
      pondRegion := BitVec.ofNat 64 (bitsAt w 0 64), pondCap := BitVec.ofNat 64 (bitsAt w 64 64)
      pondParams := BitVec.ofNat 64 (bitsAt w 128 64), pondHandle := BitVec.ofNat 32 (bitsAt w 192 32) }
    if bitsAt w 232 2 = 1 || bitsAt w 232 2 = 2 then pondOp s fn (bitsAt w 232 2) else s

/-! ## Translation control (08 R165 to R170) -/

/-- A write of FAULTPOND: a 256-bit pond of the function, or none. -/
def setFaultpond (s : State) (fn : Nat) (h : BitVec 32) : State :=
  let ok : Bool := match (partOfFn s fn).bind fun p => pondOf s p fn (h.zeroExtend 64) with | some d => d.w == 256 | none => false
  s.modFn fn fun f => { f with faultpond := if ok then h else 0xFFFFFFFF }

def execFaultpond (fn : Nat) (h : Word) (s : State) : Host.Outcome State Fault Refusal := hostAct s (setFaultpond s fn h)

/-- OP = 1: the function's cached translations are invalid. -/
def invalidateFn (s : State) (fn : Nat) : State :=
  { s with cores := s.cores.map fun r => { r with tlb := r.tlb.filter fun t => t.fn != fn } }

def execInvalidateTranslations (fn : Nat) (s : State) : Host.Outcome State Fault Refusal := hostAct s (invalidateFn s fn)

/-- OP = 3: the records of dirty bits set are cleared. -/
def resyncFn (s : State) (fn : Nat) : State :=
  { s with cores := s.cores.map fun r => { r with tlb := r.tlb.map fun t => if t.fn == fn then { t with dirtySet := [] } else t } }

def execDirtyResync (fn : Nat) (s : State) : Host.Outcome State Fault Refusal := hostAct s (resyncFn s fn)

/-- Parked groups of a gang are READY again. -/
def Gang.unpark (g : Gang) : Gang :=
  { g with crews := g.crews.map fun c => if c.ended then c else c.release (c.lanesIn fun x => x == .parked) fun pc => pc }

/-- Saved work of a function replays when it is back (08 R169). -/
def Saved.replay (v : Saved) : Saved :=
  { v with
    gangs := v.gangs.map fun x => { x with gang := x.gang.unpark }
    cmds := v.cmds.map fun x => { x with paused := false }
    blocks := v.blocks.map fun b => (b.1, { b.2 with paused := false })
    springs := v.springs.map fun p => (p.1, { p.2 with queue := p.2.queue.map fun q => { q with paused := false } }) }

/-- Engine commands, sluice blocks and spring commands of a function go on. -/
def unpause (s : State) (fn : Nat) : State :=
  let p := fnSel s fn
  let s : State := { s with
    gangs := s.gangs.map fun g => if p.gang g then g.unpark else g
    cmds := s.cmds.map fun x => if p.owns s x.owner then { x with paused := false } else x
    sluiceStacks := s.sluiceStacks.map fun k => { k with blocks := k.blocks.map fun b => if b.fn == fn then { b with paused := false } else b }
    springs := s.springs.map fun x => { x with queue := x.queue.map fun q => if p.owns s q.owner then { q with paused := false } else q } }
  s.modFn fn fun f => { f with saved := f.saved.map Saved.replay }

/-- OP = 2: parked groups and paused writes go on (08 R168, R169; 09 R190; 02 R344). -/
def replayFn (s : State) (fn : Nat) : State :=
  let s := unpause s fn
  let s := (s.ponds.filter fun d => d.fn == fn).foldl (fun s d => replayPlacement s d.part d.slot) s
  let ws := (s.fn fn).pausedDisp
  let s := s.modFn fn fun f => { f with pausedDisp := [] }
  -- DEV, DEVS and HST need no partition, so a function that no partition names any more has its writes made too
  startHoists (ws.foldl (fun s w => dispWrite s fn ((partOfFn s fn).getD 0) w.addr w.width w.bits) s)

def execReplayParked (fn : Nat) (s : State) : Host.Outcome State Fault Refusal := hostAct s (replayFn s fn)

/-- The translation control record (08 R165). -/
def transBits (s : State) (fn : Nat) : Nat :=
  let f := s.fn fn
  f.root.toNat + f.rroot.toNat * 2 ^ 64 + f.membase * 2 ^ 128 + f.memsize * 2 ^ 152 + f.dirtymap.toNat * 2 ^ 192 +
    (if f.dirtyen then 2 ^ 256 else 0) + f.faultpond.toNat * 2 ^ 288

def transWrite (s : State) (fn pos n v : Nat) : State :=
  if setsBits [(176, 16), (257, 31), (323, 189)] pos v then s
  else
    let w := merged (transBits s fn) pos n v
    let s := s.modFn fn fun f => { f with
      root := BitVec.ofNat 64 (bitsAt w 0 64), rroot := BitVec.ofNat 64 (bitsAt w 64 64), membase := bitsAt w 128 24
      memsize := bitsAt w 152 24, dirtymap := BitVec.ofNat 64 (bitsAt w 192 64), dirtyen := bitAt w 256 }
    let s := if covers pos n 288 32 then setFaultpond s fn (BitVec.ofNat 32 (bitsAt w 288 32)) else s
    match bitsAt w 320 2 with
    | 1 => invalidateFn s fn
    | 2 => replayFn s fn
    | 3 => resyncFn s fn
    | _ => s

/-- A fault or trap record that failed is put again (08 R168). -/
def execFaultRecordRetry (fn : Nat) (s : State) : Host.Outcome State Fault Refusal := .next (retryRecords s fn)

/-! ## Slot windows (12 R217), context control (18 R285), task queues (20 R302) -/

/-- A sluice block of the function is posted or saved. -/
def blockPosted (s : State) (fn : Nat) : Bool :=
  (s.sluiceStacks.any fun k => k.blocks.any fun b => b.fn == fn) || !(savedOf s fn).blocks.isEmpty

/-- A slot window record (12 R217). -/
def slotBits (s : State) (fn stack : Nat) : Nat := let w := (s.fn fn).windows.getD stack (0, 0); w.1 + w.2 * 2 ^ 12

def slotWrite (s : State) (fn stack pos n v : Nat) : State :=
  let w := merged (slotBits s fn stack) pos n v
  if setsBits [(25, 39)] pos v || blockPosted s fn || 4096 < bitsAt w 0 12 + bitsAt w 12 13 then s
  else s.modFn fn fun f => { f with windows := f.windows.set stack (bitsAt w 0 12, bitsAt w 12 13) }

def CtxState.code : CtxState → Nat | .empty => 0 | .resident => 1 | .saved => 2 | .suspended => 3 | .resetting => 4

/-- The context control record (18 R285). -/
def ctxBits (s : State) (fn : Nat) : Nat :=
  let f := s.fn fn
  let need := match partOfFn s fn with | some p => ctxNeed s fn p | none => 0
  f.ctxbase.toNat + f.ctxsize * 2 ^ 64 + need % 2 ^ 32 * 2 ^ 96 + CtxState.code f.ctxstate * 2 ^ 128 + f.resetrec.toNat * 2 ^ 192

def ctxWrite (s : State) (fn pos n v : Nat) : State :=
  if setsBits [(134, 58), (256, 256)] pos v then s
  else
    let w := merged (ctxBits s fn % 2 ^ 96 + (s.fn fn).resetrec.toNat * 2 ^ 192) pos n v
    let s := s.modFn fn fun f => { f with
      ctxbase := BitVec.ofNat 64 (bitsAt w 0 64), ctxsize := bitsAt w 64 32, resetrec := BitVec.ofNat 64 (bitsAt w 192 64) }
    match bitsAt w 131 2 with
    | 1 => settleWork 8 (suspendFn s fn)
    | 2 => resumeFn s fn
    | 3 => resetFn s fn
    | _ => s

/-- The ordered launches of a function that have not ended. -/
def orderedLaunches (s : State) (fn : Nat) : List Launch := s.launches.filter fun l => l.fn == fn && l.image.ordered && !l.ended

/-- The task queue control record; TQUSED counts the entries in use (20 R302). -/
def tqBits (s : State) (fn : Nat) : Nat :=
  let f := s.fn fn
  f.tqbase.toNat + f.tqsize * 2 ^ 64 + areaUsed s fn % 2 ^ 24 * 2 ^ 128

def tqWrite (s : State) (fn pos n v : Nat) : State :=
  if setsBits [(88, 40), (152, 360)] pos v || !(orderedLaunches s fn).isEmpty then s
  else
    let w := merged (tqBits s fn) pos n v
    s.modFn fn fun f => { f with tqbase := BitVec.ofNat 64 (bitsAt w 0 64), tqsize := bitsAt w 64 24 }

/-! ## Link, start status and remote access records (22 R324, R325, R331) -/

/-- LANDV (22 R324). DEDUCED (log 95): at reset LAND0 is 0 and bit 0 is 1, as the field's Effect says; the table's Reset column
gives 0. -/
def landv (s : State) : Nat := (List.range 4).foldl (fun m d => if landValid s d then m + 2 ^ d else m) 0

/-- The package link record (22 R324). -/
def linkBits (s : State) : Nat :=
  s.link.node.toNat + (s.link.land.zipIdx.map fun p => p.1 * 2 ^ (16 + 24 * p.2)).foldl (· + ·) 0 + landv s * 2 ^ 112 + s.link.portup.toNat * 2 ^ 116

def linkWrite (s : State) (pos n v : Nat) : State :=
  if setsBits [(12, 4), (134, 378)] pos v then s
  else
    let w := merged (linkBits s) pos n v
    { s with link := { s.link with land := (List.range 4).map fun d => bitsAt w (16 + 24 * d) 24 } }

/-- The start status record (22 R331). -/
def startBits (s : State) : Nat :=
  let m := s.mgmt
  m.stage + (if m.slot then 2 ^ 4 else 0) + (if m.warm then 2 ^ 5 else 0) + (if m.hbmskip then 2 ^ 6 else 0) + (if m.stskip then 2 ^ 7 else 0) +
    min m.failsRead 15 * 2 ^ 8 + m.reason * 2 ^ 12 + (if m.selftest then 2 ^ 16 else 0) + m.epoch % 2 ^ 32 * 2 ^ 32 + m.mbox.toNat * 2 ^ 64

def startWrite (s : State) (pos n v : Nat) : State :=
  if setsBits [(17, 15), (96, 32)] pos v then s
  else { s with mgmt := { s.mgmt with selftest := bitAt (merged (startBits s) pos n v) 16 } }

/-- A remote access record (22 R325). -/
def remoteBits (s : State) (fn : Nat) : Nat :=
  let f := s.fn fn
  f.imbase + f.imsize * 2 ^ 24 + f.accept.toNat * 2 ^ 64

def remoteWrite (s : State) (fn pos n v : Nat) : State :=
  if setsBits [(48, 16), (4160, 4032)] pos v then s
  else
    let w := merged (remoteBits s fn) pos n v
    s.modFn fn fun f => { f with imbase := bitsAt w 0 24, imsize := bitsAt w 24 24, accept := BitVec.ofNat 4096 (bitsAt w 64 4096) }

/-! ## Partition records (02 R28) -/

/-- A partition record. -/
def partBits (p : Part) : Nat :=
  let list (l : List Nat) (w : Nat) : Nat := (l.zipIdx.map fun x => x.1 * 2 ^ (w * x.2)).foldl (· + ·) 0
  p.clusters.toNat + list p.weight 8 * 2 ^ 64 + p.nquanta * 2 ^ 128 + p.nodescr * 2 ^ 133 +
    list (p.quantum.map fun q => q.1 + q.2 * 2 ^ 8) 32 * 2 ^ 256 + p.funcs.toNat * 2 ^ 768

/-- A record's fields put into a partition. -/
def partOfBits (p : Part) (w : Nat) : Part :=
  { p with
    clusters := BitVec.ofNat 64 (bitsAt w 0 64), weight := (List.range 8).map fun i => bitsAt w (64 + 8 * i) 8
    nquanta := bitsAt w 128 5, nodescr := bitsAt w 133 11
    quantum := (List.range 16).map fun q => (bitsAt w (256 + 32 * q) 7, bitsAt w (264 + 32 * q) 24)
    funcs := BitVec.ofNat 65 (bitsAt w 768 65) }

/-- A partition keeps the constraints of 02 R28 against the others. -/
def partOk (s : State) (i : Nat) (p : Part) : Bool :=
  p.nquanta ≤ 16 && p.nodescr ≤ 1024 &&
    (s.parts.zipIdx.all fun q => q.2 == i || (q.1.clusters &&& p.clusters == 0 && q.1.funcs &&& p.funcs == 0)) &&
    (p.quantum.take p.nquanta).all fun q => q.1 ≤ 64 && p.funcs.getLsbD q.1 && 100 ≤ q.2

/-- The partition has no admitted slice and no saved context. -/
def partIdle (s : State) (i : Nat) : Bool :=
  !(s.slices.any fun l => l.part == i && !l.ended) &&
    (List.range 65).all fun f => !(s.part i).funcs.getLsbD f || (s.fn f).saved.isNone

/-- The reserved bits of a partition record. -/
def partReserved : List (Nat × Nat) := (144, 112) :: (833, 191) :: (List.range 16).map fun q => (263 + 32 * q, 1)

/-- A write to a partition record; one that is made starts the rotation again (02 R29). -/
def partWriteAt (s : State) (i pos n v : Nat) : State :=
  let p := partOfBits (s.part i) (merged (partBits (s.part i)) pos n v)
  if setsBits partReserved pos v || !partIdle s i || !partOk s i p then s
  else
    let s := match (s.part i).resident with | some fn => preempt s fn i | none => s
    s.modPart i fun q => { p with rot := 0, resident := none, entryEnd := q.entryEnd, nextSeq := q.nextSeq }

def execPartitionRecordWrite (part off size : Nat) (data : Dword) (s : State) : Host.Outcome State Fault Refusal :=
  if recordWrite off size && off < 128 && part < 64 then hostAct s (partWriteAt s part (8 * off) (8 * size) (data.toNat % 2 ^ (8 * size))) else .next s

/-! ## The BARs (22 R322) -/

/-- The records of the second BAR. -/
inductive CtlRecord where
  | translation (fn : Nat) | slots (fn stack : Nat) | context (fn : Nat) | tasks (fn : Nat) | pond (fn : Nat) | link | start
  | remote (fn : Nat) | partition (part : Nat)
  deriving DecidableEq, Repr

/-- The record at byte `off` of the second BAR, with the byte within it. A device in RECOVERY has the start status record
alone (22 R330). -/
def recordAt (s : State) (off : Nat) : Option (CtlRecord × Nat) :=
  let at0 (base stride size count : Nat) (r : Nat → CtlRecord) : Option (CtlRecord × Nat) :=
    let i := (off - base) / stride
    let o := (off - base) % stride
    if i < count && o < size then some (r i, o) else none
  if s.mgmt.stage = 8 && off / 0x10000 != 7 then none
  else
    match off / 0x10000 with
    | 1 => at0 0x10000 0x100 64 65 .translation
    | 2 => (at0 0x20000 0x40 64 65 .translation).map fun r => (match r.1 with | .translation f => .slots f (r.2 / 8) | x => x, r.2 % 8)
    | 3 => at0 0x30000 0x100 64 65 .context
    | 4 => at0 0x40000 0x100 64 65 .tasks
    | 5 => at0 0x50000 0x100 64 65 .pond
    | 6 => at0 0x60000 0x10000 64 1 fun _ => .link
    | 7 => at0 0x70000 0x10000 16 1 fun _ => .start
    | 8 => at0 0x80000 0x400 1024 65 .remote
    | 9 => at0 0x80000 0x400 1024 65 .remote
    | 10 => at0 0xA0000 0x80 128 64 .partition
    | _ => none

/-- A write of `n` bits `v` at byte `off` of the second BAR; outside every record nothing happens. -/
def secondBar (s : State) (off n v : Nat) : State :=
  match recordAt s off with
  | some (.translation f, o) => transWrite s f (8 * o) n v
  | some (.slots f k, o) => slotWrite s f k (8 * o) n v
  | some (.context f, o) => ctxWrite s f (8 * o) n v
  | some (.tasks f, o) => tqWrite s f (8 * o) n v
  | some (.pond f, o) => pondRecWrite s f (8 * o) n v
  | some (.link, o) => linkWrite s (8 * o) n v
  | some (.start, o) => startWrite s (8 * o) n v
  | some (.remote f, o) => remoteWrite s f (8 * o) n v
  | some (.partition p, o) => partWriteAt s p (8 * o) n v
  | none => s

/-- The bits of a record as the host reads it: OP fields read zero (22 R322). -/
def recordBits (s : State) : CtlRecord → Nat
  | .translation f => transBits s f
  | .slots f k => slotBits s f k
  | .context f => ctxBits s f
  | .tasks f => tqBits s f
  | .pond f => pondRecBits s f
  | .link => linkBits s
  | .start => startBits s
  | .remote f => remoteBits s f
  | .partition p => partBits (s.part p)

/-- A host write to a function's first BAR or the physical function's second. -/
def hostRegisterWrite (s : State) (bar fn off size : Nat) (data : Dword) : State :=
  let v := data.toNat % 2 ^ (8 * size)
  if !present s fn then s
  else if bar = 1 then
    if off < 0x1000 then intakePut s fn off (bytesOfNat size data.toNat)
    else if 0x1040 ≤ off then s
    else if recordWrite off size then windowWrite s fn (8 * (off - 0x1000)) (8 * size) v
    else countDrop s fn
  else if bar = 2 && fn = 0 && recordWrite off size then secondBar s off (8 * size) v
  else s

def execHostRegisterWrite (bar fn off size : Nat) (data : Dword) (s : State) : Host.Outcome State Fault Refusal :=
  .next (hostRegisterWrite s bar fn off size data)

/-! ## Device memory (22 R323) -/

/-- The device byte of offset 0 of a function's third BAR, and how many bytes it reaches. -/
def barReach (s : State) (fn : Nat) : Nat × Nat :=
  if fn = 0 then (0, deviceBytes)
  else
    let f := s.fn fn
    (f.membase * 65536, min (f.memsize * 65536) (deviceBytes - f.membase * 65536))

/-- A host write through the third BAR, performed at the home die cache; it sets dirty bits (08 R170). -/
def hostWrite (s : State) (fn off : Nat) (data : List Byte) : State :=
  let r := barReach s fn
  let data := data.take (r.2 - off)
  if data.isEmpty || !present s fn then s
  else
    let key := (r.1 + off) * 8
    let n := data.length * 8
    let s : State := markWrite s key n
    noteStore { s with mem := s.mem.setBytes (r.1 + off) data } key n

def execHostMemoryWrite (fn off : Nat) (data : List Byte) (s : State) : Host.Outcome State Fault Refusal := .next (hostWrite s fn off data)

/-- A host read: what memory and the die caches hold, and zero elsewhere. -/
def hostRead (s : State) (fn off len : Nat) : List Byte :=
  let r := barReach s fn
  let n := if !present s fn then 0 else min len (r.2 - off)
  s.mem.bytes (r.1 + off) n ++ List.replicate (len - n) 0

/-- The byte at `off` of a function's first or second BAR: the window control block and the control records, and zero elsewhere,
the put area among it (22 R322; log 96). -/
def barByte (s : State) (bar fn off : Nat) : Byte :=
  if !present s fn then 0
  else if bar = 1 then (if 0x1000 ≤ off && off < 0x1040 then BitVec.ofNat 8 (bitsAt (windowBits s fn) (8 * (off - 0x1000)) 8) else 0)
  else if bar = 2 && fn = 0 then
    match recordAt s off with
    | some (r, o) => BitVec.ofNat 8 (bitsAt (recordBits s r) (8 * o) 8)
    | none => 0
  else 0

/-- What a host read of a BAR gives (22 R322, R323). -/
def barRead (s : State) (bar fn off len : Nat) : List Byte :=
  if bar = 3 then hostRead s fn off len else (List.range len).map fun i => barByte s bar fn (off + i)

/-- The host reads. -/
def readBar (s : State) (bar fn off len : Nat) : State := { s with link := { s.link with hostRead := barRead s bar fn off len } }

def execHostMemoryRead (fn off len : Nat) (s : State) : Host.Outcome State Fault Refusal :=
  .next (readBar s 3 fn off len)

end Sys2Proof.Machine
end

