-- ==== Sys2Proof/Machine/Link.lean ====
section
/-! DEFINITION. Machine/Link.lean: the link unit (22 R324 to R326): incoming requests, answers, ports and routes. -/

namespace Sys2Proof.Machine

/-! ## Incoming requests (22 R325) -/

/-- The queue of the package that a handle names. -/
def namedQueue (s : State) (h : Dword) : Option Queue := s.queues.find? fun q => queueHandle s q.slot q.gen == h

/-- A request about a queue: its function must accept the source node, and RMTOK be 1 (15 R258, R259); `missing` when the
handle names no such queue. -/
def withQueue (s : State) (node : Nat) (h : Dword) (missing : Nat) (f : Queue → Option RemoteAns × State) : Option RemoteAns × State :=
  match namedQueue s h with
  | some q =>
    if !(s.fn q.fn).accept.getLsbD node then (some .refused, s) else if q.rmtok then f q else (some (.data missing), s)
  | none => (some (.data missing), s)

/-- An incoming reservation: none when its answer is its grant (15 R262). -/
def incomingReserve (s : State) (node prod : Nat) (nb : Bool) (count tag : Nat) (q : Queue) : Option RemoteAns × State :=
  if q.closed.getD prod true then (some .refused, s)
  else if nb && !(q.waiting.isEmpty && count ≤ q.free) then (some (.data 1), s)
  else
    let req : QReq := ⟨s.nextId, 0, 0, 0, 0, prod, 120, 0, List.replicate count [], 0, some (node, tag), []⟩
    let s : State := { s with nextId := s.nextId + 1 }
    (none, grantAll (s.modQueue q.part q.slot fun q => { q with waiting := q.waiting ++ [req] }) q.part q.slot)

/-- The records of a granted reservation: none when their answer waits until they are written (15 R262). -/
def incomingEnq (s : State) (node prod tag : Nat) (recs : List (List Word)) (q : Queue) : Option RemoteAns × State :=
  match q.granted.find? fun r => r.node == some (node, tag) && r.producer == prod && r.recs.length == recs.length with
  | none => (some .refused, s)
  | some r =>
    if recs.any fun ws => 8 < ws.length then (some .refused, s)
    else
      (none, s.modQueue q.part q.slot fun q => { q with
        granted := q.granted.filter (· != r), transit := q.transit ++ [QTransit.recs { r with recs := recs } true] }.sendCloses)

/-- A reservation of another node is withdrawn, and the slots of one that was granted are free again (15 R262, R265). -/
def incomingWithdraw (s : State) (node tag : Nat) (q : Queue) : Option RemoteAns × State :=
  let mine (r : QReq) : Bool := r.node == some (node, tag)
  let freed := (q.granted.filter mine).foldl (fun n r => n + r.recs.length) 0
  (some (.data 0), grantAll (s.modQueue q.part q.slot fun q => { q with
    free := q.free + freed, waiting := q.waiting.filter fun r => !mine r, granted := q.granted.filter fun r => !mine r }) q.part q.slot)

/-- An incoming request: what it is answered at once, and the machine after it. -/
def incoming (s : State) (r : RemoteReq) : Option RemoteAns × State :=
  match r.op with
  | .reserve h prod nb n tag => withQueue s r.node h 257 (incomingReserve s r.node prod nb n tag)
  | .enq h prod tag recs => withQueue s r.node h 2 (incomingEnq s r.node prod tag recs)
  | .withdraw h tag => withQueue s r.node h 0 (incomingWithdraw s r.node tag)
  | .qopen h =>
    withQueue s r.node h 257 fun q =>
      if q.producers ≤ q.closed.length then (some (.data 256), s)
      else (some (.data q.closed.length), s.modQueue q.part q.slot fun q => { q with closed := q.closed ++ [false] })
  | .qtest h => withQueue s r.node h 257 fun _ => (some (.data 258), s)
  | .qclose h prod =>
    withQueue s r.node h 0 fun q =>
      if prod < q.closed.length then (some (.data 0), s.modQueue q.part q.slot fun q => { q with closing := q.closing ++ [prod] }.sendCloses)
      else (some .refused, s)
  | op => match remotePerform s r.node ((r.addr, r.width) :: r.more) op with | (a, s) => (some a, s)

def execRemoteRequest (req : RemoteReq) (s : State) : Host.Outcome State Fault Refusal :=
  match incoming s req with
  | (a, s) => .next { s with link := { s.link with lastAnswer := a } }

/-! ## Answers (18 R287) -/

/-- A request's answer is still wanted. -/
def wanted (s : State) (r : LinkReq) : Bool :=
  let asks (g : Gang) : Bool := g.id == r.gang &&
    (r.crew == lodeCrew || g.crews.any fun c => c.index == r.crew && c.remotes.any fun w => w.reqs.any fun p => p.2.2 == r.id)
  let held : Bool := s.cores.any fun c => c.faultBuf.any fun h => h.asked.any fun a => a.2 == r.id
  let node (n : LodeNode) : Bool := n.graph == r.gang && nodeCrew n.node == r.crew
  let saved (v : Saved) : Bool := (v.gangs.any fun x => asks x.gang) || v.lodeNodes.any node
  !r.posted && (r.crew == engineCrew || held || s.gangs.any asks || s.lodeNodes.any node || s.fns.any fun f => f.saved.any saved)

/-- The registration that an answered QOPEN.prod has made at another package. -/
def LinkReq.opened (r : LinkReq) : Option QReg :=
  match r.op, r.answer with
  | .qopen h, some (.data n) => if n < 256 then some ⟨h, true, n⟩ else none
  | _, _ => none

/-- A registration whose crew has ended before it came is closed (15 R261): its producer would else never be. -/
def closeOpens (s : State) : State :=
  let lost := s.link.reqs.filter fun r => r.opened.isSome && !wanted s r
  if lost.isEmpty then s
  else
    (lost.filterMap LinkReq.opened).foldl postClose
      { s with link := { s.link with reqs := s.link.reqs.filter fun r => !(lost.any fun q => q.id == r.id) } }

/-- The bits that answer a request: no more than it asked for (a queue request asks for none, and its answer is a number). -/
def LinkReq.take (r : LinkReq) : RemoteAns → RemoteAns
  | .data v => if r.width = 0 then .data v else .data (v % 2 ^ (r.more.foldl (fun n p => n + p.2) r.width))
  | a => a

/-- An answer comes back: the link unit keeps it for its crew and delivers it when the crew is there. -/
def answer (s : State) (id : Nat) (a : RemoteAns) : State :=
  let set (r : LinkReq) : LinkReq := if r.id == id && r.answer.isNone then { r with answer := some (r.take a) } else r
  let reqs := (s.link.reqs.map set).filter fun r => r.answer.isNone || r.opened.isSome || wanted s r
  -- a release that waits for the records looks again (15 R253)
  let sent (g : Gang) : Bool := s.link.reqs.any fun r => r.id == id && r.posted && r.gang == g.id
  closeOpens (deliverAnswers (wakeGangs { s with link := { s.link with reqs := reqs } } sent .queue))

def execRemoteResponse (id : Nat) (ans : RemoteAns) (s : State) : Host.Outcome State Fault Refusal := .next (answer s id ans)

/-! ## Ports and routes (22 R326) -/

/-- PORTUP bit of a port. -/
def setPort (s : State) (port : Nat) (up : Bool) : State :=
  let bit : BitVec 18 := BitVec.ofNat 18 (2 ^ port)
  { s with link := { s.link with portup := if up then s.link.portup ||| bit else s.link.portup &&& ~~~bit } }

/-- A port fails; its unacknowledged requests stay outstanding and are resent elsewhere. -/
def execPortFailure (port : Nat) (s : State) : Host.Outcome State Fault Refusal := .next (setPort s port false)

def execPortTrained (port : Nat) (s : State) : Host.Outcome State Fault Refusal := .next (setPort s port true)

/-- A request to a node has found no route for 1 ms. -/
def execRouteTimeout (id : Nat) (s : State) : Host.Outcome State Fault Refusal :=
  .next (if s.link.reqs.any fun r => r.id == id && r.node.isSome && r.answer.isNone then answer s id .refused else s)

end Sys2Proof.Machine
end

