-- ==== Sys2Proof/Machine/Boot.lean ====
section
/-! DEFINITION. Machine/Boot.lean: starts of the package (22 R327 to R331), attestation (R332) and the power limit (R333). -/

namespace Sys2Proof.Machine

/-! ## A start (22 R329, R330) -/

/-- Bytes that lose their contents at a start: listed bytes hold free values (22 R329; log 21). -/
def scramble : Nat → List (Nat × Byte) → Memory → Memory
  | _, [], m => m
  | k, c :: cs, m => scramble (k + 1) cs (m.setBytes c.1 [Config.freeByte k])

/-- Storage after a start: device memory is kept when HBM training was skipped, and else every byte of it is a free value; what the
other storages list is free (22 R329; log 21). -/
def startMemory (s : State) (kept : Bool) : Memory :=
  let rest := s.mem.cells.dropWhile fun c => c.1 < deviceBytes
  scramble s.freeCtr rest (if kept then s.mem else ⟨rest, s.mem.gen + 1⟩)

/-- The poisoned words after a start: those of device memory that it kept. -/
def startPoison (s : State) (kept : Bool) : List Nat := if kept then s.poison.filter fun w => w * 8 < deviceBytes else []

/-- The images fail step 2 (22 R328, R329): a cold start verifies their security version, and a warm start their hashes against
those that the last cold start verified. -/
def imagesFail (m : Mgmt) (images : List (Nat × BitVec 384)) (warm : Bool) : List (Nat × Nat) :=
  if warm then (if images.map (fun i => i.2) = m.imageHashes then [] else [(2, 2)])
  else if images.any fun i => i.1 < m.minsvn then [(2, 3)] else []

/-- The step at which a start fails, and why (22 R328, R330): for a reason of the outside world, for its images, because the
configuration record has a security version below MINSVN, or because PLIMIT is out of its range (log 97). -/
def startFail (s : State) (env : StartEnv) (warm : Bool) : Option (Nat × Nat) :=
  minBy (fun f => f.1) (env.failAt.toList ++ imagesFail s.mgmt env.images warm ++
    (if env.configVersion < s.mgmt.minsvn then [(5, 3)] else []) ++ (if env.plimit < 600 || 1800 < env.plimit then [(5, 6)] else []))

/-- The attestation log that Sprinlek builds (22 R332): each image, the configuration record, the start. -/
def startLog (env : StartEnv) (epoch : Nat) : List AttEntry :=
  (env.images.map fun i => ⟨2, i.2, epoch⟩) ++ [⟨5, env.configHash, epoch⟩, ⟨6, Config.sha384 (bytesOfNat 4 epoch), epoch⟩]

/-- What the management cluster holds after a start. `last` is the last step reached, `ok` says whether it ended in READY,
and `why` is the failure. -/
def startMgmt (s : State) (env : StartEnv) (warm ok recovery : Bool) (last : Nat) (why : Option Nat) : Mgmt :=
  let m := s.mgmt
  let epoch := if warm then m.epoch else (m.epoch + 1) % 2 ^ 32
  let broken := 1 ≤ m.stage && m.stage ≤ 6
  let stskip := warm && !m.selftest
  let past (k : Nat) : Bool := ok || k < last
  -- step 3 is skipped when the retained values carry this power epoch and the stacks are near their training temperature
  let skip : Bool := warm && m.trained == some epoch && env.hbmRetained
  { m with
    stage := if recovery then 8 else if ok then 7 else match why with | some _ => 15 | none => last
    slot := 3 ≤ m.fails && m.fails ≤ 5
    warm := warm
    hbmskip := past 3 && skip
    stskip := past 4 && stskip
    failsRead := m.fails
    reason := match why with | some r => r | none => if broken then 8 else m.reason
    selftest := m.selftest && warm && !(ok || 4 ≤ last)
    epoch := epoch
    mbox := if ok then BitVec.ofNat 32 (natOfBytes ((List.range 4).map fun i => Config.freeByte (s.freeCtr + s.mem.cells.length + i))) else 0xFFFFFFFF
    fails := if ok then 0 else m.fails + 1
    minsvn := if past 5 then max m.minsvn env.minsvn else m.minsvn
    plimit := if past 5 then env.plimit else m.plimit
    attlog := if ok then startLog env epoch else []
    quote := none
    mailRecs := []
    imageHashes := if warm then m.imageHashes else if past 2 then env.images.map fun i => i.2 else []
    trained := if past 3 && !skip then some epoch else m.trained }

/-- A start: every function is EMPTY, and ponds, queues, handles and saved contexts are gone (22 R329). -/
def startPackage (s : State) (env : StartEnv) (warm : Bool) : State :=
  let recovery := 6 ≤ s.mgmt.fails
  let fail := startFail s env warm
  let last := if recovery then 1 else match fail with | some (k, _) => max 1 (min k 6) | none => 6
  let ok := !recovery && fail.isNone
  -- a timeout or a reset leaves its step in progress: START_TIMEOUT, or the next start, ends it
  let why : Option Nat :=
    if recovery then none else match fail with | some (_, r) => if r = 7 ∨ r = 8 then none else some r | none => none
  let m := startMgmt s env warm ok recovery last why
  let stages := last + (if recovery || ok || why.isSome then 1 else 0)
  { State.reset with
    mem := startMemory s m.hbmskip
    poison := startPoison s m.hbmskip
    agenda := s.agenda
    freeCtr := s.freeCtr + s.mem.cells.length + 4
    nextId := s.nextId
    link := { Link.reset with node := if ok || 5 < last then env.node else 0 }
    mgmt := m
    msix := List.replicate stages (0, 3) }

def execColdStart (env : StartEnv) (s : State) : Host.Outcome State Fault Refusal := .next (startPackage s env false)
def execWarmStart (env : StartEnv) (s : State) : Host.Outcome State Fault Refusal := .next (startPackage s env true)

/-- A start that has not reached READY within 120 s fails (22 R330). -/
def execStartTimeout (s : State) : Host.Outcome State Fault Refusal :=
  if 1 ≤ s.mgmt.stage ∧ s.mgmt.stage ≤ 6 then
    .next ({ s with mgmt := { s.mgmt with stage := 15, reason := 7 } }.signal 0 3)
  else .next s

/-! ## Attestation and power (22 R332, R333) -/

/-- The bytes of the attestation log. -/
def logBytes (l : List AttEntry) : List Byte := l.flatMap fun e => bytesOfNat 4 e.step ++ bytesOfNat 48 e.hash.toNat ++ bytesOfNat 4 e.epoch

/-- A quote: the log's digest and the nonce, signed with both identity keys. -/
def quoteOf (l : List AttEntry) (nonce : List Byte) : Quote :=
  let d := Config.sha384 (logBytes l)
  let v := d.toNat + natOfBytes nonce * 2 ^ 384
  ⟨d, nonce, Config.signEd25519 v, Config.signMlDsa65 v⟩

def execAttestationQuote (nonce : List Byte) (s : State) : Host.Outcome State Fault Refusal :=
  .next (if s.mgmt.mbox = 0xFFFFFFFF then s else { s with mgmt := { s.mgmt with quote := some (quoteOf s.mgmt.attlog nonce) } })

/-- Idle cycles are inserted; every count goes on. -/
def execPowerLimit (cycles : Nat) (s : State) : Host.Outcome State Fault Refusal := .next (passTime s cycles)

end Sys2Proof.Machine
end

