-- ==== Sys2Proof/Machine/Float.lean ====
section
/-! DEFINITION. Machine/Float.lean: floating-point arithmetic, comparison, transcendental functions, conversions and sign
operations (07 R133 to R139; 06 R115 to R124). -/

namespace Sys2Proof.Machine

/-- The binary format of a class F format. -/
def fltOf (f : Fmt) : BinFmt := (binOf f).getD binF32

/-- The common format of two float sources, z being +0 of the other's format, F32 when both are z (07 R133). -/
def floatFmt (a b : Opnd) : Option Fmt :=
  match commonFmt a b .f32 with
  | some f => if classF f then some f else none
  | none => none

/-- A lane operation on two codes of format `f`, rounded once. -/
def flt2 (f : Fmt) (r : Rnd) (op : XVal → XVal → XVal) (a b : Word) : Word :=
  BitVec.ofNat 32 (toBin (fltOf f) r (op (binValue (fltOf f) a.toNat) (binValue (fltOf f) b.toNat)))

/-- Two float sources of one format and a result of it. -/
def Ctx.float2 (x : Ctx) (d a b : Reg) (nw : Bool) (r : Rnd) (op : XVal → XVal → XVal) : Res :=
  x.with2 a b fun p q =>
    match floatFmt p q with
    | some f => x.put d nw (VVal.map2 (flt2 f r op) p.lo q.lo) (.uni 0) f
    | none => x.fail Cause.tagMismatch

def execFadd (d a b : Reg) (nw : Bool) (rnd : Rnd) (s : State) : Host.Outcome State Fault Refusal :=
  issue (.fadd d a b nw rnd) s fun x => x.float2 d a b nw rnd (XVal.add rnd)
def execFsub (d a b : Reg) (nw : Bool) (rnd : Rnd) (s : State) : Host.Outcome State Fault Refusal :=
  issue (.fsub d a b nw rnd) s fun x => x.float2 d a b nw rnd fun u v => XVal.add rnd u v.negate
def execFmul (d a b : Reg) (nw : Bool) (rnd : Rnd) (s : State) : Host.Outcome State Fault Refusal :=
  issue (.fmul d a b nw rnd) s fun x => x.float2 d a b nw rnd XVal.mul

/-- The formats of an FFMA: of A and B, and of D and the result (07 R133). -/
def fmaFmt (a b d : Opnd) : Option (Fmt × Fmt) :=
  match a.fmt, b.fmt, d.fmt with
  | none, none, some g => if classF g then some (g, g) else none
  | _, _, none => (floatFmt a b).map fun f => (f, f)
  | _, _, some g => match floatFmt a b with | some f => if g = f ∨ g = .f32 then some (f, g) else none | none => none

/-- One rounding of the exact product plus the addend. -/
def fmaWord (f g : Fmt) (r : Rnd) (a b d : Word) : Word :=
  let p := XVal.mul (binValue (fltOf f) a.toNat) (binValue (fltOf f) b.toNat)
  BitVec.ofNat 32 (toBin (fltOf g) r (p.add r (binValue (fltOf g) d.toNat)))

def execFfma (d a b : Reg) (nw : Bool) (rnd : Rnd) (s : State) : Host.Outcome State Fault Refusal :=
  issue (.ffma d a b nw rnd) s fun x =>
    x.with3 a b d fun p q o =>
      match fmaFmt p q o with
      | some (f, g) => x.put d nw (VVal.map3 (fmaWord f g rnd) p.lo q.lo o.lo) (.uni 0) g
      | none => x.fail Cause.tagMismatch

def execFmin (d a b : Reg) (nw : Bool) (s : State) : Host.Outcome State Fault Refusal :=
  issue (.fmin d a b nw) s fun x => x.float2 d a b nw .rne minX
def execFmax (d a b : Reg) (nw : Bool) (s : State) : Host.Outcome State Fault Refusal :=
  issue (.fmax d a b nw) s fun x => x.float2 d a b nw .rne maxX

def execFcmp (cond : BitVec 3) (m : MReg) (a b : Reg) (s : State) : Host.Outcome State Fault Refusal :=
  issue (.fcmp cond m a b) s fun x =>
    x.with2 a b fun p q =>
      match floatFmt p q with
      | some f =>
        let test (u v : Word) : Bool := fcmpHolds cond.toNat (binValue (fltOf f) u.toNat) (binValue (fltOf f) v.toNat)
        x.setM m (maskWhere test p.lo q.lo)
      | none => x.fail Cause.tagMismatch

/-! ## Transcendental functions (07 R136) -/

/-- One F32 source and one F32 result, rounded to nearest even. -/
def Ctx.transc (x : Ctx) (d a : Reg) (nw : Bool) (f : XVal → XVal) : Res :=
  x.with1 a fun p =>
    if p.isIn fun g => g == .f32 then
      x.put d nw (p.lo.map1 fun w => BitVec.ofNat 32 (toBin binF32 .rne (f (binValue binF32 w.toNat)))) (.uni 0) .f32
    else x.fail Cause.tagMismatch

def execFrcp (d a : Reg) (nw : Bool) (s : State) : Host.Outcome State Fault Refusal :=
  issue (.frcp d a nw) s fun x => x.transc d a nw frcpX
def execFrsq (d a : Reg) (nw : Bool) (s : State) : Host.Outcome State Fault Refusal :=
  issue (.frsq d a nw) s fun x => x.transc d a nw frsqX
def execFexp2 (d a : Reg) (nw : Bool) (s : State) : Host.Outcome State Fault Refusal :=
  issue (.fexp2 d a nw) s fun x => x.transc d a nw fexp2X
def execFlog2 (d a : Reg) (nw : Bool) (s : State) : Host.Outcome State Fault Refusal :=
  issue (.flog2 d a nw) s fun x => x.transc d a nw flog2X
def execFtanh (d a : Reg) (nw : Bool) (s : State) : Host.Outcome State Fault Refusal :=
  issue (.ftanh d a nw) s fun x => x.transc d a nw ftanhX
def execFsig (d a : Reg) (nw : Bool) (s : State) : Host.Outcome State Fault Refusal :=
  issue (.fsig d a nw) s fun x => x.transc d a nw fsigX

/-! ## Conversions (07 R137, R138) -/

/-- A result of format `t` from one source, lane by lane: the container of its bits. -/
def Ctx.convertTo (x : Ctx) (d : Reg) (nw : Bool) (p : Opnd) (r : Rnd) (t : Fmt) : Res :=
  let f := p.fmt.getD .n32
  let bits (i : Nat) : Nat := convert r f t (if fmtWide f then (p.wide i).toNat else (p.lo.lane i).toNat)
  let uni := p.isUni || (!fmtWide f && p.lo.shape == 1)
  if fmtWide t then
    let v := pairOf uni fun i => BitVec.ofNat 64 (bits i)
    x.put d nw v.1 v.2 t
  else x.put d nw (wordOf uni fun i => container t (bits i)) (.uni 0) t

/-- One source that passes a test of its format, converted to `t`. -/
def Ctx.conv (x : Ctx) (d a : Reg) (nw : Bool) (r : Rnd) (t : Fmt) (ok : Fmt → Bool) : Res :=
  x.with1 a fun p =>
    if p.isWide && x.c.oddWide a then x.fail Cause.badRegcode
    else if p.isIn ok then x.convertTo d nw p r t else x.fail Cause.tagMismatch

def execFcvt (d a : Reg) (fmt : BitVec 7) (nw : Bool) (rnd : Rnd) (s : State) : Host.Outcome State Fault Refusal :=
  issue (.fcvt d a fmt nw rnd) s fun x =>
    match fmtOf fmt.toNat with
    | some t => if t = .ptr then x.fail Cause.tagMismatch else x.conv d a nw rnd t fun f => f != .ptr
    | none => x.fail Cause.tagMismatch

def execI2f (d a : Reg) (nw : Bool) (rnd : Rnd) (s : State) : Host.Outcome State Fault Refusal :=
  issue (.i2f d a nw rnd) s fun x => x.conv d a nw rnd .f32 fun f => classX f || classW f

def execF2i (d a : Reg) (unsigned nw : Bool) (rnd : Rnd) (s : State) : Host.Outcome State Fault Refusal :=
  issue (.f2i d a unsigned nw rnd) s fun x => x.conv d a nw rnd (if unsigned then .n32 else .i32) classFloat

/-! ## Sign operations (07 R139) -/

/-- The canonical NaN of a float format, NaR in MD8. -/
def nanOf (f : Fmt) : Nat := match binOf f with | some b => nanCode b | none => 0x80

/-- The sign bit of a code cleared, or inverted. -/
def signOp (f : Fmt) (negate : Bool) (w : Word) : Word :=
  let v := w.toNat
  let top := 2 ^ (fmtWidth f - 1)
  if valueOf f v = .nan then BitVec.ofNat 32 (nanOf f)
  else if f = .md8 ∧ v % 256 = 0 then 0
  else BitVec.ofNat 32 (v % top + (if negate && v / top % 2 == 0 then top else 0))

/-- One float source and its sign changed. -/
def Ctx.sign (x : Ctx) (d a : Reg) (nw negate : Bool) : Res :=
  x.with1 a fun p =>
    if p.isIn classFloat then x.put d nw (p.lo.map1 (signOp (p.fmt.getD .f32) negate)) (.uni 0) (p.fmt.getD .f32)
    else x.fail Cause.tagMismatch

def execFabs (d a : Reg) (nw : Bool) (s : State) : Host.Outcome State Fault Refusal :=
  issue (.fabs d a nw) s fun x => x.sign d a nw false
def execFneg (d a : Reg) (nw : Bool) (s : State) : Host.Outcome State Fault Refusal :=
  issue (.fneg d a nw) s fun x => x.sign d a nw true

end Sys2Proof.Machine
end

