-- ==== Sys2Proof/Machine/Rv.lean ====
section
/-! DEFINITION. Machine/Rv.lean: the RV64IMAC words of the lode core (04 R81): their fields, and what their arithmetic
computes. The encodings and results are RISC-V's (log 13); every address is a bit pointer, without scaling. -/

namespace Sys2Proof.Machine

/-- Integer operations of two operands. -/
inductive RvAlu where
  | add | sub | sll | slt | sltu | xor | srl | sra | or | and
  | mul | mulh | mulhsu | mulhu | div | divu | rem | remu
  deriving DecidableEq, Repr

/-- Conditions of branches. -/
inductive RvCond where | eq | ne | lt | ge | ltu | geu
  deriving DecidableEq, Repr

/-- Read-modify-write operations of the A extension. -/
inductive RvAmo where | swap | add | xor | and | or | min | max | minu | maxu
  deriving DecidableEq, Repr

/-- An instruction of a lode context. Sizes are in bytes. -/
inductive Rv where
  | lui (rd : Nat) (v : Dword)
  | auipc (rd : Nat) (v : Dword)
  | jal (rd : Nat) (off : Dword)
  | jalr (rd rs : Nat) (off : Dword)
  | branch (c : RvCond) (a b : Nat) (off : Dword)
  | load (size : Nat) (signed : Bool) (rd rs : Nat) (off : Dword)
  | store (size : Nat) (rs src : Nat) (off : Dword)
  | op (f : RvAlu) (w : Bool) (rd a b : Nat)
  | opImm (f : RvAlu) (w : Bool) (rd a : Nat) (v : Dword)
  | fence
  | lr (size rd rs : Nat)
  | sc (size rd rs src : Nat)
  | amo (f : RvAmo) (size rd rs src : Nat)
  deriving DecidableEq, Repr

/-! ## Fields of 32-bit words -/

def rvRd (w : Nat) : Nat := bitsAt w 7 5
def rvRs1 (w : Nat) : Nat := bitsAt w 15 5
def rvRs2 (w : Nat) : Nat := bitsAt w 20 5
def rvF3 (w : Nat) : Nat := bitsAt w 12 3
def rvF7 (w : Nat) : Nat := bitsAt w 25 7

/-- A signed number of `n` bits. -/
def sext (n v : Nat) : Dword := (BitVec.ofNat n v).signExtend 64

def immI (w : Nat) : Dword := sext 12 (bitsAt w 20 12)
def immS (w : Nat) : Dword := sext 12 (bitsAt w 7 5 + bitsAt w 25 7 * 32)
def immB (w : Nat) : Dword := sext 13 (bitsAt w 8 4 * 2 + bitsAt w 25 6 * 32 + bitsAt w 7 1 * 2 ^ 11 + bitsAt w 31 1 * 2 ^ 12)
def immU (w : Nat) : Dword := sext 32 (bitsAt w 12 20 * 2 ^ 12)
def immJ (w : Nat) : Dword := sext 21 (bitsAt w 21 10 * 2 + bitsAt w 20 1 * 2 ^ 11 + bitsAt w 12 8 * 2 ^ 12 + bitsAt w 31 1 * 2 ^ 20)

/-- The condition of a branch. -/
def rvCond : Nat → Option RvCond
  | 0 => some .eq | 1 => some .ne | 4 => some .lt | 5 => some .ge | 6 => some .ltu | 7 => some .geu | _ => none

/-- The operation of OP and OP-32. -/
def rvOp (f3 f7 : Nat) (w : Bool) : Option RvAlu :=
  match f7, f3 with
  | 0, 0 => some .add | 0, 1 => some .sll | 0, 5 => some .srl | 32, 0 => some .sub | 32, 5 => some .sra
  | 0, 2 => if w then none else some .slt
  | 0, 3 => if w then none else some .sltu
  | 0, 4 => if w then none else some .xor
  | 0, 6 => if w then none else some .or
  | 0, 7 => if w then none else some .and
  | 1, 0 => some .mul
  | 1, 1 => if w then none else some .mulh
  | 1, 2 => if w then none else some .mulhsu
  | 1, 3 => if w then none else some .mulhu
  | 1, 4 => some .div | 1, 5 => some .divu | 1, 6 => some .rem | 1, 7 => some .remu
  | _, _ => none

/-- OP-IMM and OP-IMM-32. -/
def rvOpImm (x : Nat) (w : Bool) : Option Rv :=
  let go (f : RvAlu) (v : Dword) : Option Rv := some (.opImm f w (rvRd x) (rvRs1 x) v)
  let amount := bitsAt x 20 (if w then 5 else 6)
  let high := x / 2 ^ (if w then 25 else 26)
  let sra := if w then 32 else 16
  match rvF3 x with
  | 0 => go .add (immI x)
  | 1 => if high = 0 then go .sll (BitVec.ofNat 64 amount) else none
  | 5 => if high = 0 then go .srl (BitVec.ofNat 64 amount) else if high = sra then go .sra (BitVec.ofNat 64 amount) else none
  | 2 => if w then none else go .slt (immI x)
  | 3 => if w then none else go .sltu (immI x)
  | 4 => if w then none else go .xor (immI x)
  | 6 => if w then none else go .or (immI x)
  | _ => if w then none else go .and (immI x)

/-- Loads: size and extension. -/
def rvLoad : Nat → Option (Nat × Bool)
  | 0 => some (1, true) | 1 => some (2, true) | 2 => some (4, true) | 3 => some (8, true)
  | 4 => some (1, false) | 5 => some (2, false) | 6 => some (4, false) | _ => none

/-- The A extension. -/
def rvAtomic (x : Nat) : Option Rv :=
  let size := if rvF3 x = 2 then 4 else 8
  let amo (f : RvAmo) : Option Rv := some (.amo f size (rvRd x) (rvRs1 x) (rvRs2 x))
  if rvF3 x ≠ 2 ∧ rvF3 x ≠ 3 then none
  else
    match bitsAt x 27 5 with
    | 0 => amo .add
    | 1 => amo .swap
    | 2 => if rvRs2 x = 0 then some (.lr size (rvRd x) (rvRs1 x)) else none
    | 3 => some (.sc size (rvRd x) (rvRs1 x) (rvRs2 x))
    | 4 => amo .xor
    | 8 => amo .or
    | 12 => amo .and
    | 16 => amo .min
    | 20 => amo .max
    | 24 => amo .minu
    | 28 => amo .maxu
    | _ => none

/-- A 32-bit word; none is the illegal-instruction exception (ECALL and EBREAK raise one too, and end the thread). -/
def rvWord (x : Nat) : Option Rv :=
  match bitsAt x 0 7 with
  | 0x37 => some (.lui (rvRd x) (immU x))
  | 0x17 => some (.auipc (rvRd x) (immU x))
  | 0x6F => some (.jal (rvRd x) (immJ x))
  | 0x67 => if rvF3 x = 0 then some (.jalr (rvRd x) (rvRs1 x) (immI x)) else none
  | 0x63 => (rvCond (rvF3 x)).map fun c => .branch c (rvRs1 x) (rvRs2 x) (immB x)
  | 0x03 => (rvLoad (rvF3 x)).map fun l => .load l.1 l.2 (rvRd x) (rvRs1 x) (immI x)
  | 0x23 => if rvF3 x ≤ 3 then some (.store (2 ^ rvF3 x) (rvRs1 x) (rvRs2 x) (immS x)) else none
  | 0x13 => rvOpImm x false
  | 0x1B => rvOpImm x true
  | 0x33 => (rvOp (rvF3 x) (rvF7 x) false).map fun f => .op f false (rvRd x) (rvRs1 x) (rvRs2 x)
  | 0x3B => (rvOp (rvF3 x) (rvF7 x) true).map fun f => .op f true (rvRd x) (rvRs1 x) (rvRs2 x)
  | 0x0F => if rvF3 x = 0 then some .fence else none
  | 0x2F => rvAtomic x
  | _ => none

/-! ## 16-bit words (the C extension) -/

/-- A register of the short field at bit `lo`. -/
def rvShort (x lo : Nat) : Nat := bitsAt x lo 3 + 8

/-- The immediate of C.ADDI, C.LI, C.ANDI and C.ADDIW. -/
def immC (x : Nat) : Dword := sext 6 (bitsAt x 2 5 + bitsAt x 12 1 * 32)

/-- Quadrant 0. -/
def rvQ0 (x : Nat) : Option Rv :=
  let w := bitsAt x 6 1 * 4 + bitsAt x 10 3 * 8 + bitsAt x 5 1 * 64
  let d := bitsAt x 10 3 * 8 + bitsAt x 5 2 * 64
  match bitsAt x 13 3 with
  | 0 =>
    let n := bitsAt x 11 2 * 16 + bitsAt x 7 4 * 64 + bitsAt x 6 1 * 4 + bitsAt x 5 1 * 8
    if n = 0 then none else some (.opImm .add false (rvShort x 2) 2 (BitVec.ofNat 64 n))
  | 2 => some (.load 4 true (rvShort x 2) (rvShort x 7) (BitVec.ofNat 64 w))
  | 3 => some (.load 8 true (rvShort x 2) (rvShort x 7) (BitVec.ofNat 64 d))
  | 6 => some (.store 4 (rvShort x 7) (rvShort x 2) (BitVec.ofNat 64 w))
  | 7 => some (.store 8 (rvShort x 7) (rvShort x 2) (BitVec.ofNat 64 d))
  | _ => none

/-- The offsets of C.J and of C.BEQZ. -/
def immCJ (x : Nat) : Dword :=
  sext 12 (bitsAt x 3 3 * 2 + bitsAt x 11 1 * 2 ^ 4 + bitsAt x 2 1 * 2 ^ 5 + bitsAt x 7 1 * 2 ^ 6 + bitsAt x 6 1 * 2 ^ 7 +
    bitsAt x 9 2 * 2 ^ 8 + bitsAt x 8 1 * 2 ^ 10 + bitsAt x 12 1 * 2 ^ 11)
def immCB (x : Nat) : Dword :=
  sext 9 (bitsAt x 3 2 * 2 + bitsAt x 10 2 * 2 ^ 3 + bitsAt x 2 1 * 2 ^ 5 + bitsAt x 5 2 * 2 ^ 6 + bitsAt x 12 1 * 2 ^ 8)

/-- The arithmetic of quadrant 1. -/
def rvQ1Alu (x : Nat) : Option Rv :=
  let rd := rvShort x 7
  let n := BitVec.ofNat 64 (bitsAt x 2 5 + bitsAt x 12 1 * 32)
  match bitsAt x 10 2 with
  | 0 => some (.opImm .srl false rd rd n)
  | 1 => some (.opImm .sra false rd rd n)
  | 2 => some (.opImm .and false rd rd (immC x))
  | _ =>
    match bitsAt x 12 1, bitsAt x 5 2 with
    | 0, 0 => some (.op .sub false rd rd (rvShort x 2))
    | 0, 1 => some (.op .xor false rd rd (rvShort x 2))
    | 0, 2 => some (.op .or false rd rd (rvShort x 2))
    | 0, _ => some (.op .and false rd rd (rvShort x 2))
    | _, 0 => some (.op .sub true rd rd (rvShort x 2))
    | _, 1 => some (.op .add true rd rd (rvShort x 2))
    | _, _ => none

/-- Quadrant 1. -/
def rvQ1 (x : Nat) : Option Rv :=
  let rd := rvRd x
  match bitsAt x 13 3 with
  | 0 => some (.opImm .add false rd rd (immC x))
  | 1 => if rd = 0 then none else some (.opImm .add true rd rd (immC x))
  | 2 => some (.opImm .add false rd 0 (immC x))
  | 3 =>
    let n := bitsAt x 6 1 * 16 + bitsAt x 2 1 * 32 + bitsAt x 5 1 * 64 + bitsAt x 3 2 * 128 + bitsAt x 12 1 * 512
    if rd = 2 then (if n = 0 then none else some (.opImm .add false 2 2 (sext 10 n)))
    else if immC x = 0 then none else some (.lui rd (immC x <<< 12))
  | 4 => rvQ1Alu x
  | 5 => some (.jal 0 (immCJ x))
  | 6 => some (.branch .eq (rvShort x 7) 0 (immCB x))
  | _ => some (.branch .ne (rvShort x 7) 0 (immCB x))

/-- Quadrant 2. -/
def rvQ2 (x : Nat) : Option Rv :=
  let rd := rvRd x
  let rs := bitsAt x 2 5
  match bitsAt x 13 3 with
  | 0 => some (.opImm .sll false rd rd (BitVec.ofNat 64 (bitsAt x 2 5 + bitsAt x 12 1 * 32)))
  | 2 => if rd = 0 then none else some (.load 4 true rd 2 (BitVec.ofNat 64 (bitsAt x 4 3 * 4 + bitsAt x 12 1 * 32 + bitsAt x 2 2 * 64)))
  | 3 => if rd = 0 then none else some (.load 8 true rd 2 (BitVec.ofNat 64 (bitsAt x 5 2 * 8 + bitsAt x 12 1 * 32 + bitsAt x 2 3 * 64)))
  | 4 =>
    if bitsAt x 12 1 = 0 then
      if rs = 0 then (if rd = 0 then none else some (.jalr 0 rd 0)) else some (.op .add false rd 0 rs)
    else if rs = 0 then (if rd = 0 then none else some (.jalr 1 rd 0)) else some (.op .add false rd rd rs)
  | 6 => some (.store 4 2 rs (BitVec.ofNat 64 (bitsAt x 9 4 * 4 + bitsAt x 7 2 * 64)))
  | 7 => some (.store 8 2 rs (BitVec.ofNat 64 (bitsAt x 10 3 * 8 + bitsAt x 7 3 * 64)))
  | _ => none

/-- The instruction of a parcel: 32 bits when its low two bits are ones, else its low 16 bits. -/
def rvDecode (w : Word) : Option Rv :=
  let x := w.toNat
  match x % 4 with
  | 0 => rvQ0 (x % 65536)
  | 1 => rvQ1 (x % 65536)
  | 2 => rvQ2 (x % 65536)
  | _ => rvWord x

/-- The bits that a parcel takes. -/
def rvLength (w : Word) : Nat := if w.toNat % 4 = 3 then 32 else 16

/-! ## Arithmetic -/

/-- A result of `n` bits, sign-extended to 64. -/
def rvWide (w : Bool) (v : Dword) : Dword := if w then (v.extractLsb' 0 32).signExtend 64 else v

/-- An integer operation on `n`-bit operands; a divisor of 0 gives all-ones and the dividend. -/
def rvAlu (n : Nat) (f : RvAlu) (a b : BitVec n) : BitVec n :=
  let sh := b.toNat % n
  match f with
  | .add => a + b
  | .sub => a - b
  | .sll => a <<< sh
  | .slt => if a.slt b then 1 else 0
  | .sltu => if a.ult b then 1 else 0
  | .xor => a ^^^ b
  | .srl => a >>> sh
  | .sra => a.sshiftRight sh
  | .or => a ||| b
  | .and => a &&& b
  | .mul => a * b
  | .mulh => BitVec.ofInt n (a.toInt * b.toInt / 2 ^ n)
  | .mulhsu => BitVec.ofInt n (a.toInt * (b.toNat : Int) / 2 ^ n)
  | .mulhu => BitVec.ofNat n (a.toNat * b.toNat / 2 ^ n)
  | .div => if b = 0 then BitVec.allOnes n else BitVec.ofInt n (a.toInt.tdiv b.toInt)
  | .divu => if b = 0 then BitVec.allOnes n else BitVec.ofNat n (a.toNat / b.toNat)
  | .rem => if b = 0 then a else BitVec.ofInt n (a.toInt.tmod b.toInt)
  | .remu => if b = 0 then a else BitVec.ofNat n (a.toNat % b.toNat)

/-- The result of an operation, on words when `w`. -/
def rvCompute (f : RvAlu) (w : Bool) (a b : Dword) : Dword :=
  if w then (rvAlu 32 f (a.extractLsb' 0 32) (b.extractLsb' 0 32)).signExtend 64 else rvAlu 64 f a b

def rvHolds (c : RvCond) (a b : Dword) : Bool :=
  match c with
  | .eq => a == b | .ne => a != b | .lt => a.slt b | .ge => !a.slt b | .ltu => a.ult b | .geu => !a.ult b

end Sys2Proof.Machine
end

