-- ==== Sys2Proof/Machine/Lode.lean ====
section
/-! DEFINITION. Machine/Lode.lean: lode threads and lode programs: fetch, CHPUSH, LEXIT, the RV64IMAC instructions and
exceptions (04 R81 to R85; 14 R249; 01 R19). -/

namespace Sys2Proof.Machine

/-! ## Contexts -/

/-- The context of a lode thread or program. -/
def lodeOf (s : State) (c : Cur) : Option Lode :=
  match c with
  | .lode g => (s.gang? g).map fun g => g.lode
  | .lodeNode cluster ctx => (s.lodeNodes.find? fun n => n.cluster == cluster && n.ctx == ctx).map fun n => n.lode
  | .crew _ _ _ _ => none

/-- Change it. -/
def modLode (s : State) (c : Cur) (f : Lode → Lode) : State :=
  match c with
  | .lode g => s.modGang g fun g => { g with lode := f g.lode }
  | .lodeNode cluster ctx => { s with lodeNodes := replaceFirst (fun n => n.cluster == cluster && n.ctx == ctx) (fun n => { n with lode := f n.lode }) s.lodeNodes }
  | .crew _ _ _ _ => s

/-- The agent of its accesses: SCR is the gang's scratchpad, or the node area of the program's core (04 R81, 01 R18). -/
def lodeAgent (s : State) (c : Cur) : Agent :=
  match c with
  | .lode g => (match s.gang? g with | some g => gangAgent s g false | none => ⟨0, 0, none, 0, 0, false, false⟩)
  | .lodeNode cluster ctx =>
    (match s.lodeNodes.find? fun n => n.cluster == cluster && n.ctx == ctx with
    | some n =>
      (match s.graph? n.graph with
      | some g => ⟨g.fn, g.part, some n.core, 0, 0, false, true⟩
      | none => ⟨0, 0, none, 0, 0, false, true⟩)
    | none => ⟨0, 0, none, 0, 0, false, true⟩)
  | .crew _ _ _ _ => ⟨0, 0, none, 0, 0, false, false⟩

/-- x[i]; x0 reads zero. -/
def Lode.reg (l : Lode) (i : Nat) : Dword := if i = 0 then 0 else l.x.getD (i - 1) 0

/-- Write x[i]; a write to x0 is discarded. -/
def Lode.setReg (l : Lode) (i : Nat) (v : Dword) : Lode := if i = 0 then l else { l with x := l.x.set (i - 1) v }

/-! ## Ends (04 R82, R83) -/

/-- The groups of the lanes `m` of a crew, lowest PC first. -/
def Crew.groupsOf (c : Crew) : Nat → Mask → List (Mask × Dword)
  | 0, _ => []
  | fuel + 1, m =>
    match c.lowestGroup m with
    | none => []
    | some (l, pc) => (l, pc) :: c.groupsOf fuel (m &&& ~~~l)

/-- Every group of a crew that waits for the chute traps CHUTE_ORPHAN (04 R83), but those that a handler holds, which look
at the chute again when it ends (18 R279): one that still lacks entries then traps as it issues. -/
def orphanCrew (s : State) (gid : Nat) (c : Crew) : State :=
  (c.groupsOf 32 (c.lanesIn fun x => x == .wait .chute)).foldl (fun s p =>
    match s.crew? gid c.index with
    | some d => if d.holds p.1 then s else eventTrap s gid c.index p.1 p.2 Cause.chuteOrphan 0 false
    | none => s) s

/-- Groups that wait for the chute trap when STATE leaves RUNNING (04 R83). -/
def orphanGang (s : State) (gid : Nat) : State :=
  match s.gang? gid with
  | none => s
  | some g => afterIssue (settle (g.crews.foldl (fun s c => if c.ended then s else orphanCrew s gid c) s) gid) gid

/-- A context ends: groups that wait for the chute trap, a node is over (01 R19). -/
def endLode (s : State) (c : Cur) (st : LodeState) : State :=
  match c with
  | .lode g => orphanGang (s.modGang g fun g => { g with lode := { g.lode with st := st, resv := none } }) g
  | .lodeNode cluster ctx =>
    (match s.lodeNodes.find? fun n => n.cluster == cluster && n.ctx == ctx with
    | some n =>
      let s : State := { s with lodeNodes := s.lodeNodes.filter fun m => !(m.cluster == cluster && m.ctx == ctx) }
      setNode s n.graph n.node (.over (if st = .exited then .done else .faulted))
    | none => s)
  | .crew _ _ _ _ => s

/-- An exception: the context ends FAULTED, and the function's system software gets LODE_FAULT (log 14). -/
def lodeFault (s : State) (c : Cur) (addr : Dword) (kind : Nat) : State :=
  match lodeOf s c with
  | none => s
  | some l =>
    let ag := lodeAgent s c
    let core := ag.core.getD 0
    endLode (putRecord s ag.fn (core % 256) (faultRecord addr Cause.lodeFault kind false false core 0 0 l.pc) 1) c .faulted

/-! ## Fetch -/

/-- What the fetch of a lode context gives. -/
inductive LodeFetched where
  | word (w : Word) (s : State)
  | stop (s : State)
  | fault (f : Fault)
  deriving DecidableEq, Repr

/-- Sixteen bits of code; none is an exception, or a device byte that no stack has. -/
def fetchHalf (s : State) (ag : Agent) (pc : Dword) : Except (Option Fault) Nat × State :=
  if !isDev pc || pc.toNat % 16 != 0 then (.error none, s)
  else
    match access s ag pc 16 (.plain 16) .fetch false with
    | (.error _, s) => (.error none, s)
    | (.ok ps, s) =>
      if ps.any pieceAbsent then (.error (some .noSuchDeviceByte), s)
      else if piecesPoisoned s ps then (.error none, s) else (.ok (readPieces s ps), s)

/-- The next instruction of a context: 16 bits, and 16 more when its low two bits are ones. -/
def fetchLode (s : State) (c : Cur) : LodeFetched :=
  match lodeOf s c with
  | none => .stop s
  | some l =>
    let ag := lodeAgent s c
    match fetchHalf s ag l.pc with
    | (.error (some f), _) => .fault f
    | (.error none, s) => .stop (lodeFault s c l.pc 3)
    | (.ok lo, s) =>
      if lo % 4 ≠ 3 then .word (BitVec.ofNat 32 lo) s
      else
        match fetchHalf s ag (l.pc + 16) with
        | (.error (some f), _) => .fault f
        | (.error none, s) => .stop (lodeFault s c l.pc 3)
        | (.ok hi, s) => .word (BitVec.ofNat 32 (lo + hi * 65536)) s

/-! ## Memory (04 R81) -/

/-- The spaces a lode context reaches. -/
def lodeSpace (p : Dword) : Bool := spaceOf p ≤ 3 || spaceOf p == 5 || spaceOf p == 6

/-- What an access of a lode context gives: a value, a wait for an answer, an exception, or a model stop. -/
inductive LodeMem where
  | value (v : Nat) (s : State)
  | waits (s : State)
  | exception (s : State)
  | fault (f : Fault)
  deriving DecidableEq, Repr

/-- The request of a context that has been answered. -/
def lodeAnswer (s : State) (c : Cur) : Option LinkReq :=
  s.link.reqs.find? fun r => !r.posted && (r.gang, r.crew) == lodeRequester s c && r.answer.isSome

/-- An access of `n` bytes: `act` performs it on the bits of the package's own storage, `op` asks another node or the
host. -/
def lodeAccess (s : State) (c : Cur) (p : Dword) (n : Nat) (k : AccKind) (hostAtomic : Bool) (op : RemoteOp)
    (act : State → Agent → List Piece → Nat × State) : LodeMem :=
  let ag := lodeAgent s c
  if p.toNat % (8 * n) ≠ 0 || !lodeSpace p then .exception s
  else
    match lodeAnswer s c with
    | some r =>
      let s : State := { s with link := { s.link with reqs := s.link.reqs.filter fun q => q.id != r.id } }
      (match r.answer with
      | some (.data v) => .value v s
      | _ => .exception s)
    | none =>
      match access s ag p (8 * n) (.plain (8 * n)) k hostAtomic with
      | (.error _, s) => .exception s
      | (.ok ps, s) =>
        if ps.any pieceAbsent then .fault .noSuchDeviceByte
        else if spaceOf p == 5 || spaceOf p == 6 then
          let who := lodeRequester s c
          .waits (sendParts who.1 who.2 (fun _ _ => op) false s (farParts 0 ps)).2
        else if k != .write && piecesPoisoned s ps then .exception s
        else
          let r := act s ag ps
          .value r.1 r.2

/-- Loads and stores of the package's storage. -/
def lodeLoad (s : State) (_ : Agent) (ps : List Piece) : Nat × State := (readPieces s ps, s)
def lodeStore (v : Nat) (s : State) (_ : Agent) (ps : List Piece) : Nat × State := (0, writePieces s v ps)

/-- An AMO as an atomic of 09 R177, with the tag that its comparison needs. -/
def amoOp (f : RvAmo) (n : Nat) : AtOp × Fmt :=
  let u : Fmt := if n = 4 then .n32 else .n64
  let i : Fmt := if n = 4 then .i32 else .i64
  match f with
  | .swap => (.xch, u) | .add => (.add, u) | .xor => (.xor, u) | .and => (.and, u) | .or => (.or, u)
  | .min => (.min, i) | .max => (.max, i) | .minu => (.min, u) | .maxu => (.max, u)

/-- An AMO at the storage that owns its bits (14 R249: an atomic event). -/
def lodeAmo (op : AtOp) (f : Fmt) (n opnd : Nat) (s : State) (_ : Agent) (ps : List Piece) : Nat × State :=
  let old := readPieces s ps
  match atomicNew op (some f) (8 * n) old opnd 0 with
  | some v => (old, writePieces s v ps)
  | none => (old, s)

/-- The bit key of an access to one storage, for a reservation. -/
def pieceKey : List Piece → Option Nat
  | [.store key _] => some key
  | _ => none

/-! ## Instructions -/

/-- The value that a load of `n` bytes gives. -/
def lodeExtend (n : Nat) (signed : Bool) (v : Nat) : Dword := if signed then sext (8 * n) v else BitVec.ofNat 64 v

/-- Go on after an instruction of `len` bits, with rd written. -/
def lodeNext (s : State) (c : Cur) (len rd : Nat) (v : Dword) : State :=
  modLode s c fun l => { (l.setReg rd v) with pc := l.pc + BitVec.ofNat 64 len }

/-- Go on at a target; one that is no multiple of 16 is an instruction-address-misaligned exception. -/
def lodeJump (s : State) (c : Cur) (len rd : Nat) (target : Dword) : State :=
  if target.toNat % 16 ≠ 0 then lodeFault s c target 3
  else modLode s c fun l => { (l.setReg rd (l.pc + BitVec.ofNat 64 len)) with pc := target }

/-- The end of an access: rd is written with what `f` makes of the value. -/
def lodeFinish (c : Cur) (len rd : Nat) (p : Dword) (kind : Nat) (f : Nat → Dword) (m : LodeMem) : Host.Outcome State Fault Refusal :=
  match m with
  | .value v s => .next (lodeNext s c len rd (f v))
  | .waits s => .next s
  | .exception s => .next (lodeFault s c p kind)
  | .fault f => .fault f

/-- The reservation of a context after an LR at a bit key (log 12). -/
def reserveAt (key : Option Nat) (s : State) (c : Cur) : State := modLode s c fun l => { l with resv := key }

/-- The bit key of an aligned element of the package's storage. -/
def lodeKey (s : State) (c : Cur) (p : Dword) (n : Nat) (k : AccKind) : Option Nat :=
  match (access s (lodeAgent s c) p (8 * n) (.plain (8 * n)) k false).1 with
  | .ok ps => pieceKey ps
  | .error _ => none

/-- One RV64IMAC instruction of a context. -/
def runRv (s : State) (c : Cur) (l : Lode) (len : Nat) (i : Rv) : Host.Outcome State Fault Refusal :=
  match i with
  | .lui rd v => .next (lodeNext s c len rd v)
  | .auipc rd v => .next (lodeNext s c len rd (l.pc + v))
  | .jal rd off => .next (lodeJump s c len rd (l.pc + off))
  | .jalr rd rs off => .next (lodeJump s c len rd ((l.reg rs + off) &&& ~~~1))
  | .branch f a b off => .next (if rvHolds f (l.reg a) (l.reg b) then lodeJump s c len 0 (l.pc + off) else lodeNext s c len 0 0)
  | .load n signed rd rs off =>
    lodeFinish c len rd (l.reg rs + off) 0 (lodeExtend n signed) (lodeAccess s c (l.reg rs + off) n .read false .read lodeLoad)
  | .store n rs src off =>
    let v := (l.reg src).toNat % 2 ^ (8 * n)
    lodeFinish c len 0 (l.reg rs + off) 1 (fun _ => 0) (lodeAccess s c (l.reg rs + off) n .write false (.write v) (lodeStore v))
  | .op f w rd a b => .next (lodeNext s c len rd (rvCompute f w (l.reg a) (l.reg b)))
  | .opImm f w rd a v => .next (lodeNext s c len rd (rvCompute f w (l.reg a) v))
  | .fence => .next (lodeNext s c len 0 0)
  | .lr n rd rs =>
    let p := l.reg rs
    if spaceOf p = 5 || spaceOf p = 6 then .next (lodeFault s c p 2)
    else
      let key := lodeKey s c p n .read
      lodeFinish c len rd p 2 (lodeExtend n true) (lodeAccess s c p n .read false .read fun s ag ps => ((lodeLoad s ag ps).1, reserveAt key s c))
  | .sc n rd rs src =>
    let p := l.reg rs
    let v := (l.reg src).toNat % 2 ^ (8 * n)
    if spaceOf p = 5 || spaceOf p = 6 then .next (lodeFault s c p 2)
    else
      let held := l.resv.isSome && lodeKey s c p n .write == l.resv
      lodeFinish c len rd p 2 (fun v => BitVec.ofNat 64 v) (lodeAccess s c p n .write false .read fun s _ ps =>
        let s := reserveAt none s c
        if held then (0, writePieces s v ps) else (1, s))
  | .amo f n rd rs src =>
    let p := l.reg rs
    let v := (l.reg src).toNat % 2 ^ (8 * n)
    let o := amoOp f n
    let hostOk : Bool := match f with | .swap => true | .add => true | _ => false
    lodeFinish c len rd p 2 (lodeExtend n true)
      (lodeAccess s c p n .atomic hostOk (.atomic o.1.code (fmtCode o.2) v 0) (lodeAmo o.1 o.2 n v))

/-- The context that issues, when it is running. -/
def withLode (s : State) (f : Cur → Lode → Host.Outcome State Fault Refusal) : Host.Outcome State Fault Refusal :=
  match s.cur with
  | some (.lode g) => (match lodeOf s (.lode g) with | some l => f (.lode g) l | none => .fault .noIssuingGroup)
  | some (.lodeNode k x) => (match lodeOf s (.lodeNode k x) with | some l => f (.lodeNode k x) l | none => .fault .noIssuingGroup)
  | _ => .fault .noIssuingGroup

/-- LODE_INSTRUCTION: one RV64IMAC instruction, or the illegal-instruction exception (04 R81, R85). -/
def execLodeInstruction (parcel : Word) (s : State) : Host.Outcome State Fault Refusal :=
  withLode s fun c l =>
    match rvDecode parcel with
    | some i => runRv s c l (rvLength parcel) i
    | none => .next (lodeFault s c l.pc 3)

/-! ## CHPUSH and LEXIT (04 R84, R85) -/

/-- The crew that a push names. -/
def chuteCrew (s : State) (c : Cur) (i : Nat) : Option Crew :=
  match c with
  | .lode g => (s.crew? g i).bind fun w => if w.ended then none else some w
  | _ => none

/-- The entry joins the chute: a release at gang scope that the pop acquires (14 R249), so the core keeps no stale line;
groups waiting for the chute look again. -/
def pushChute (s : State) (gid i : Nat) (e : ChuteEntry) : State :=
  let s := match s.gang? gid with | some g => flushCache s g.core | none => s
  s.modCrew gid i fun w => { w with fifo := w.fifo ++ [(e, 0)] }.wake .chute

def execChpush (rd rs1 rs2 : BitVec 5) (s : State) : Host.Outcome State Fault Refusal :=
  withLode s fun c l =>
    let d := (l.reg rs2.toNat).toNat
    match fmtOf (bitsAt d 5 5) with
    | none => .next (lodeNext s c 32 rd.toNat (BitVec.ofInt 64 (-2)))
    | some f =>
      if d / 2 ^ 10 ≠ 0 then .next (lodeNext s c 32 rd.toNat (BitVec.ofInt 64 (-2)))
      else
        match c, chuteCrew s c (bitsAt d 0 5) with
        | .lode g, some w =>
          if 64 ≤ w.fifo.length then .next s
          else .next (lodeNext (pushChute s g w.index ⟨l.reg rs1.toNat, f⟩) c 32 rd.toNat (BitVec.ofNat 64 (63 - w.fifo.length)))
        | _, _ => .next (lodeNext s c 32 rd.toNat (BitVec.ofInt 64 (-1)))

def execLexit (s : State) : Host.Outcome State Fault Refusal := withLode s fun c _ => .next (endLode s c .exited)

/-! ## Errors of storage (08 R162) and reservations -/

/-- A 64-bit word of storage meets an error that cannot be corrected (08 R162). -/
def softError (s : State) (word : Nat) : State := poisonWord s word

/-- A 64-bit word in a core's data cache meets one. -/
def cacheError (s : State) (core word : Nat) : State :=
  s.modCore core fun r => { r with dcache := r.dcache.map fun x => if x.line == word / 8 then { x with bad := x.bad ||| BitVec.ofNat 8 (2 ^ (word % 8)) } else x }

/-- Reservations whose 64-bit word a step has written, be it with the bits that were there, are lost (14 R246, R249; log 12). -/
def dropReservations (s t : State) : State :=
  if t.written.isEmpty && t.mem = s.mem then t
  else
    let hit (k : Nat) : Bool := s.mem.bits k 64 != t.mem.bits k 64 || t.written.any fun w => w.2 != 0 && meets k 64 w.1 w.2
    let keep (l : Lode) : Lode := match l.resv with | some k => if hit (k / 64 * 64) then { l with resv := none } else l | none => l
    { t with
      gangs := t.gangs.map fun g => if g.lode.resv.isSome then { g with lode := keep g.lode } else g
      lodeNodes := t.lodeNodes.map fun n => { n with lode := keep n.lode }
      written := [] }

end Sys2Proof.Machine
end

