-- ==== Sys2Proof/Machine/Dispatch.lean ====
section
/-! DEFINITION. Machine/Dispatch.lean: the meaning of every instruction, one arm a constructor. -/

namespace Sys2Proof.Machine

/-- What each instruction does. -/
def exec (i : Instr) (s : State) : Host.Outcome State Fault Refusal :=
  match i with
  | .iadd d a b nw fn => Sys2Proof.Machine.execIadd d a b nw fn s
  | .isub d a b nw fn => Sys2Proof.Machine.execIsub d a b nw fn s
  | .imul d a b nw fn => Sys2Proof.Machine.execImul d a b nw fn s
  | .imad d a b nw => Sys2Proof.Machine.execImad d a b nw s
  | .idiv d a b nw fn => Sys2Proof.Machine.execIdiv d a b nw fn s
  | .imin d a b nw => Sys2Proof.Machine.execImin d a b nw s
  | .imax d a b nw => Sys2Proof.Machine.execImax d a b nw s
  | .and d a b nw => Sys2Proof.Machine.execAnd d a b nw s
  | .or d a b nw => Sys2Proof.Machine.execOr d a b nw s
  | .xor d a b nw => Sys2Proof.Machine.execXor d a b nw s
  | .andn d a b nw => Sys2Proof.Machine.execAndn d a b nw s
  | .orn d a b nw => Sys2Proof.Machine.execOrn d a b nw s
  | .xnor d a b nw => Sys2Proof.Machine.execXnor d a b nw s
  | .shl d a b nw => Sys2Proof.Machine.execShl d a b nw s
  | .shr d a b nw => Sys2Proof.Machine.execShr d a b nw s
  | .sar d a b nw => Sys2Proof.Machine.execSar d a b nw s
  | .rol d a b nw => Sys2Proof.Machine.execRol d a b nw s
  | .ror d a b nw => Sys2Proof.Machine.execRor d a b nw s
  | .popc d a nw => Sys2Proof.Machine.execPopc d a nw s
  | .clz d a nw => Sys2Proof.Machine.execClz d a nw s
  | .ctz d a nw => Sys2Proof.Machine.execCtz d a nw s
  | .brev d a nw => Sys2Proof.Machine.execBrev d a nw s
  | .bfx d a b nw signed => Sys2Proof.Machine.execBfx d a b nw signed s
  | .bfi d a b nw => Sys2Proof.Machine.execBfi d a b nw s
  | .icmp cond m a b => Sys2Proof.Machine.execIcmp cond m a b s
  | .sel d a b nw m => Sys2Proof.Machine.execSel d a b nw m s
  | .mov d a nw => Sys2Proof.Machine.execMov d a nw s
  | .retag d a fmt nw => Sys2Proof.Machine.execRetag d a fmt nw s
  | .shapeq d a nw => Sys2Proof.Machine.execShapeq d a nw s
  | .fmtq d a nw => Sys2Proof.Machine.execFmtq d a nw s
  | .iaddi d a imm => Sys2Proof.Machine.execIaddi d a imm s
  | .andi d a imm => Sys2Proof.Machine.execAndi d a imm s
  | .ori d a imm => Sys2Proof.Machine.execOri d a imm s
  | .xori d a imm => Sys2Proof.Machine.execXori d a imm s
  | .shli d a count => Sys2Proof.Machine.execShli d a count s
  | .shri d a count => Sys2Proof.Machine.execShri d a count s
  | .sari d a count => Sys2Proof.Machine.execSari d a count s
  | .icmpi cond m a imm => Sys2Proof.Machine.execIcmpi cond m a imm s
  | .movi d imm => Sys2Proof.Machine.execMovi d imm s
  | .movhi d imm => Sys2Proof.Machine.execMovhi d imm s
  | .padd d a b w => Sys2Proof.Machine.execPadd d a b w s
  | .pdiff d a b w => Sys2Proof.Machine.execPdiff d a b w s
  | .palign d a w => Sys2Proof.Machine.execPalign d a w s
  | .pspace d a => Sys2Proof.Machine.execPspace d a s
  | .psetsp d a b => Sys2Proof.Machine.execPsetsp d a b s
  | .pchk d a w => Sys2Proof.Machine.execPchk d a w s
  | .kadd d a src => Sys2Proof.Machine.execKadd d a src s
  | .ksub d a src => Sys2Proof.Machine.execKsub d a src s
  | .kmul d a src => Sys2Proof.Machine.execKmul d a src s
  | .kshl d a src => Sys2Proof.Machine.execKshl d a src s
  | .kshr d a src => Sys2Proof.Machine.execKshr d a src s
  | .kand d a src => Sys2Proof.Machine.execKand d a src s
  | .kor d a src => Sys2Proof.Machine.execKor d a src s
  | .kmov d a => Sys2Proof.Machine.execKmov d a s
  | .kmovi d imm => Sys2Proof.Machine.execKmovi d imm s
  | .rfal d a => Sys2Proof.Machine.execRfal d a s
  | .ktov d k fmt => Sys2Proof.Machine.execKtov d k fmt s
  | .kpop d => Sys2Proof.Machine.execKpop d s
  | .krdlane d a lane => Sys2Proof.Machine.execKrdlane d a lane s
  | .winbase n => Sys2Proof.Machine.execWinbase n s
  | .winbaseK k => Sys2Proof.Machine.execWinbaseK k s
  | .fadd d a b nw rnd => Sys2Proof.Machine.execFadd d a b nw rnd s
  | .fsub d a b nw rnd => Sys2Proof.Machine.execFsub d a b nw rnd s
  | .fmul d a b nw rnd => Sys2Proof.Machine.execFmul d a b nw rnd s
  | .ffma d a b nw rnd => Sys2Proof.Machine.execFfma d a b nw rnd s
  | .fmin d a b nw => Sys2Proof.Machine.execFmin d a b nw s
  | .fmax d a b nw => Sys2Proof.Machine.execFmax d a b nw s
  | .fcmp cond m a b => Sys2Proof.Machine.execFcmp cond m a b s
  | .frcp d a nw => Sys2Proof.Machine.execFrcp d a nw s
  | .frsq d a nw => Sys2Proof.Machine.execFrsq d a nw s
  | .fexp2 d a nw => Sys2Proof.Machine.execFexp2 d a nw s
  | .flog2 d a nw => Sys2Proof.Machine.execFlog2 d a nw s
  | .ftanh d a nw => Sys2Proof.Machine.execFtanh d a nw s
  | .fsig d a nw => Sys2Proof.Machine.execFsig d a nw s
  | .fcvt d a fmt nw rnd => Sys2Proof.Machine.execFcvt d a fmt nw rnd s
  | .fabs d a nw => Sys2Proof.Machine.execFabs d a nw s
  | .fneg d a nw => Sys2Proof.Machine.execFneg d a nw s
  | .i2f d a nw rnd => Sys2Proof.Machine.execI2f d a nw rnd s
  | .f2i d a unsigned nw rnd => Sys2Proof.Machine.execF2i d a unsigned nw rnd s
  | .shfli d a b nw m => Sys2Proof.Machine.execShfli d a b nw m s
  | .shflu d a b nw m => Sys2Proof.Machine.execShflu d a b nw m s
  | .shfld d a b nw m => Sys2Proof.Machine.execShfld d a b nw m s
  | .shflx d a b nw m => Sys2Proof.Machine.execShflx d a b nw m s
  | .vote d a kind nw m => Sys2Proof.Machine.execVote d a kind nw m s
  | .reduce d a kind nw m => Sys2Proof.Machine.execReduce d a kind nw m s
  | .redminidx d a nw m => Sys2Proof.Machine.execRedminidx d a nw m s
  | .scan d a kind nw m => Sys2Proof.Machine.execScan d a kind nw m s
  | .bra p neg off => Sys2Proof.Machine.execBra p neg off s
  | .call off => Sys2Proof.Machine.execCall off s
  | .brx k => Sys2Proof.Machine.execBrx k s
  | .jset j off => Sys2Proof.Machine.execJset j off s
  | .jwait j => Sys2Proof.Machine.execJwait j s
  | .nop => Sys2Proof.Machine.execNop s
  | .exit => Sys2Proof.Machine.execExit s
  | .yield => Sys2Proof.Machine.execYield s
  | .ret => Sys2Proof.Machine.execRet s
  | .repack d a => Sys2Proof.Machine.execRepack d a s
  | .mand d a b => Sys2Proof.Machine.execMand d a b s
  | .mor d a b => Sys2Proof.Machine.execMor d a b s
  | .mxor d a b => Sys2Proof.Machine.execMxor d a b s
  | .mnot d a => Sys2Proof.Machine.execMnot d a s
  | .mset d a => Sys2Proof.Machine.execMset d a s
  | .mtov d a => Sys2Proof.Machine.execMtov d a s
  | .ld d k o w imm => Sys2Proof.Machine.execLd d k o w imm s
  | .lds d k o w imm => Sys2Proof.Machine.execLds d k o w imm s
  | .st d k o w imm => Sys2Proof.Machine.execSt d k o w imm s
  | .ldk d k o w imm => Sys2Proof.Machine.execLdk d k o w imm s
  | .stk d k o w imm => Sys2Proof.Machine.execStk d k o w imm s
  | .atadd d k o w imm => Sys2Proof.Machine.execAtadd d k o w imm s
  | .atmin d k o w imm => Sys2Proof.Machine.execAtmin d k o w imm s
  | .atmax d k o w imm => Sys2Proof.Machine.execAtmax d k o w imm s
  | .atand d k o w imm => Sys2Proof.Machine.execAtand d k o w imm s
  | .ator d k o w imm => Sys2Proof.Machine.execAtor d k o w imm s
  | .atxor d k o w imm => Sys2Proof.Machine.execAtxor d k o w imm s
  | .atxch d k o w imm => Sys2Proof.Machine.execAtxch d k o w imm s
  | .atcas d k o w imm => Sys2Proof.Machine.execAtcas d k o w imm s
  | .pf k o w imm => Sys2Proof.Machine.execPf k o w imm s
  | .pondmk h region cap par => Sys2Proof.Machine.execPondmk h region cap par s
  | .pondrm h => Sys2Proof.Machine.execPondrm h s
  | .put d k o key => Sys2Proof.Machine.execPut d k o key s
  | .pcount d h n => Sys2Proof.Machine.execPcount d h n s
  | .drain h dst count => Sys2Proof.Machine.execDrain h dst count s
  | .basin d h n => Sys2Proof.Machine.execBasin d h n s
  | .bnext d k o m => Sys2Proof.Machine.execBnext d k o m s
  | .bwrite d k o => Sys2Proof.Machine.execBwrite d k o s
  | .pondOperationPerform part slot => Sys2Proof.Machine.execPondOperationPerform part slot s
  | .drainComplete part slot => Sys2Proof.Machine.execDrainComplete part slot s
  | .acq obj scope => Sys2Proof.Machine.execAcq obj scope s
  | .rel obj scope => Sys2Proof.Machine.execRel obj scope s
  | .fence scope => Sys2Proof.Machine.execFence scope s
  | .bar b => Sys2Proof.Machine.execBar b s
  | .barArrive b => Sys2Proof.Machine.execBarArrive b s
  | .barWait b => Sys2Proof.Machine.execBarWait b s
  | .swait word gen => Sys2Proof.Machine.execSwait word gen s
  | .swarm word target gen => Sys2Proof.Machine.execSwarm word target gen s
  | .gsr d g => Sys2Proof.Machine.execGsr d g s
  | .gsw g a => Sys2Proof.Machine.execGsw g a s
  | .qopenMake h buf par => Sys2Proof.Machine.execQopenMake h buf par s
  | .qopenCons h => Sys2Proof.Machine.execQopenCons h s
  | .qopenProd h => Sys2Proof.Machine.execQopenProd h s
  | .enq d k o nb n => Sys2Proof.Machine.execEnq d k o nb n s
  | .deq d k o nb n => Sys2Proof.Machine.execDeq d k o nb n s
  | .qclose h => Sys2Proof.Machine.execQclose h s
  | .queueRecordArrival part slot => Sys2Proof.Machine.execQueueRecordArrival part slot s
  | .producerCloseArrival part slot => Sys2Proof.Machine.execProducerCloseArrival part slot s
  | .sendStall part slot req => Sys2Proof.Machine.execSendStall part slot req s
  | .hoist dstSel record dst slice bitmap => Sys2Proof.Machine.execHoist dstSel record dst slice bitmap s
  | .hoistm record dst slice sync mask => Sys2Proof.Machine.execHoistm record dst slice sync mask s
  | .hoistChunkComplete core cmd chunk => Sys2Proof.Machine.execHoistChunkComplete core cmd chunk s
  | .seal record out => Sys2Proof.Machine.execSeal record out s
  | .cwait bitmap mask word => Sys2Proof.Machine.execCwait bitmap mask word s
  | .ctest bitmap mask result word => Sys2Proof.Machine.execCtest bitmap mask result word s
  | .sluice stack block => Sys2Proof.Machine.execSluice stack block s
  | .sluiceGroupComplete stack block group => Sys2Proof.Machine.execSluiceGroupComplete stack block group s
  | .rlwait start len store => Sys2Proof.Machine.execRlwait start len store s
  | .mxloop sparse acc a b count inc cluster pair => Sys2Proof.Machine.execMxloop sparse acc a b count inc cluster pair s
  | .mxwb mode src ctl len => Sys2Proof.Machine.execMxwb mode src ctl len s
  | .mxclr cluster intKind acc => Sys2Proof.Machine.execMxclr cluster intKind acc s
  | .mxst dst ctl stride => Sys2Proof.Machine.execMxst dst ctl stride s
  | .mxld ctl off => Sys2Proof.Machine.execMxld ctl off s
  | .mxwait => Sys2Proof.Machine.execMxwait s
  | .mxstep d acc => Sys2Proof.Machine.execMxstep d acc s
  | .matrixStep core => Sys2Proof.Machine.execMatrixStep core s
  | .matrixCommandComplete core => Sys2Proof.Machine.execMatrixCommandComplete core s
  | .spload image => Sys2Proof.Machine.execSpload image s
  | .spclamp range values => Sys2Proof.Machine.execSpclamp range values s
  | .spclampFree range => Sys2Proof.Machine.execSpclampFree range s
  | .spclampSet range values => Sys2Proof.Machine.execSpclampSet range values s
  | .spsweep count beta clr => Sys2Proof.Machine.execSpsweep count beta clr s
  | .spread dst range => Sys2Proof.Machine.execSpread dst range s
  | .spreadOnes dst range clr => Sys2Proof.Machine.execSpreadOnes dst range clr s
  | .springColourUpdate die => Sys2Proof.Machine.execSpringColourUpdate die s
  | .springCommandComplete die => Sys2Proof.Machine.execSpringCommandComplete die s
  | .tspawn entry ts arg num => Sys2Proof.Machine.execTspawn entry ts arg num s
  | .tend => Sys2Proof.Machine.execTend s
  | .tqry d => Sys2Proof.Machine.execTqry d s
  | .tqryTask num d => Sys2Proof.Machine.execTqryTask num d s
  | .twaitw => Sys2Proof.Machine.execTwaitw s
  | .tkins d a b k => Sys2Proof.Machine.execTkins d a b k s
  | .tapex d a => Sys2Proof.Machine.execTapex d a s
  | .tapexTake d => Sys2Proof.Machine.execTapexTake d s
  | .tapexDone d => Sys2Proof.Machine.execTapexDone d s
  | .trap code => Sys2Proof.Machine.execTrap code s
  | .eret => Sys2Proof.Machine.execEret s
  | .srr d r => Sys2Proof.Machine.execSrr d r s
  | .srw k r => Sys2Proof.Machine.execSrw k r s
  | .lodepc k => Sys2Proof.Machine.execLodepc k s
  | .launch src dst => Sys2Proof.Machine.execLaunch src dst s
  | .cancel h r => Sys2Proof.Machine.execCancel h r s
  | .cntrd h lo hi => Sys2Proof.Machine.execCntrd h lo hi s
  | .bkpt n => Sys2Proof.Machine.execBkpt n s
  | .cycle d => Sys2Proof.Machine.execCycle d s
  | .illegal code => Sys2Proof.Machine.execIllegal code s
  | .chpush rd rs1 rs2 => Sys2Proof.Machine.execChpush rd rs1 rs2 s
  | .lexit => Sys2Proof.Machine.execLexit s
  | .lodeInstruction parcel => Sys2Proof.Machine.execLodeInstruction parcel s
  | .gangComplete gang => Sys2Proof.Machine.execGangComplete gang s
  | .dispatchRecord fn seq => Sys2Proof.Machine.execDispatchRecord fn seq s
  | .graphAdmit graph => Sys2Proof.Machine.execGraphAdmit graph s
  | .nodeDispatch graph node => Sys2Proof.Machine.execNodeDispatch graph node s
  | .gangPlace launch => Sys2Proof.Machine.execGangPlace launch s
  | .budgetExhaust slice => Sys2Proof.Machine.execBudgetExhaust slice s
  | .quantumEnd part => Sys2Proof.Machine.execQuantumEnd part s
  | .quantumEntryStart part => Sys2Proof.Machine.execQuantumEntryStart part s
  | .intakePut fn off data => Sys2Proof.Machine.execIntakePut fn off data s
  | .intakeHandle fn h => Sys2Proof.Machine.execIntakeHandle fn h s
  | .resumeSlice fn => Sys2Proof.Machine.execResumeSlice fn s
  | .cancelSlice fn => Sys2Proof.Machine.execCancelSlice fn s
  | .pondMake fn => Sys2Proof.Machine.execPondMake fn s
  | .pondRemove fn => Sys2Proof.Machine.execPondRemove fn s
  | .partitionRecordWrite part off size data => Sys2Proof.Machine.execPartitionRecordWrite part off size data s
  | .faultpond fn h => Sys2Proof.Machine.execFaultpond fn h s
  | .invalidateTranslations fn => Sys2Proof.Machine.execInvalidateTranslations fn s
  | .replayParked fn => Sys2Proof.Machine.execReplayParked fn s
  | .dirtyResync fn => Sys2Proof.Machine.execDirtyResync fn s
  | .faultRecordRetry fn => Sys2Proof.Machine.execFaultRecordRetry fn s
  | .suspend fn => Sys2Proof.Machine.execSuspend fn s
  | .resume fn => Sys2Proof.Machine.execResume fn s
  | .vfReset fn => Sys2Proof.Machine.execVfReset fn s
  | .functionLevelReset fn => Sys2Proof.Machine.execFunctionLevelReset fn s
  | .hostRegisterWrite bar fn off size data => Sys2Proof.Machine.execHostRegisterWrite bar fn off size data s
  | .hostMemoryWrite fn off data => Sys2Proof.Machine.execHostMemoryWrite fn off data s
  | .hostMemoryRead fn off len => Sys2Proof.Machine.execHostMemoryRead fn off len s
  | .remoteRequest req => Sys2Proof.Machine.execRemoteRequest req s
  | .remoteResponse id ans => Sys2Proof.Machine.execRemoteResponse id ans s
  | .portFailure port => Sys2Proof.Machine.execPortFailure port s
  | .routeTimeout id => Sys2Proof.Machine.execRouteTimeout id s
  | .coldStart env => Sys2Proof.Machine.execColdStart env s
  | .warmStart env => Sys2Proof.Machine.execWarmStart env s
  | .startTimeout => Sys2Proof.Machine.execStartTimeout s
  | .attestationQuote nonce => Sys2Proof.Machine.execAttestationQuote nonce s
  | .powerLimit cycles => Sys2Proof.Machine.execPowerLimit cycles s
  | .portTrained port => Sys2Proof.Machine.execPortTrained port s

end Sys2Proof.Machine
end

