-- ==== Sys2Proof/Machine/Events.lean ====
section
/-! DEFINITION. Machine/Events.lean: which step of the device is due when the agenda names no agent: the model's own default
order (log 1). Every step named here changes the machine, so that cycles pass once none is left. -/

namespace Sys2Proof.Machine

/-! ## Units -/

/-- Queue units (15 R261, R262). -/
def queueEvent (s : State) : Option Instr :=
  s.queues.findSome? fun q =>
    if (arriveRecords s q.part q.slot).isSome then some (.queueRecordArrival q.part q.slot)
    else if (arriveClose s q.part q.slot).isSome then some (.producerCloseArrival q.part q.slot)
    else (q.waiting.find? fun r => 2 ^ 20 ≤ r.counted).map fun r => .sendStall q.part q.slot r.id

/-- ENQs that wait on other packages (15 R262). -/
def remoteStallEvent (s : State) : Option Instr :=
  (s.link.reqs.find? fun r => (stalledRemote s r.id).isSome).map fun r => .sendStall 64 0 r.id

/-- Inlets (09 R182, R192). -/
def pondEvent (s : State) : Option Instr :=
  s.ponds.findSome? fun d =>
    if (performOp s d.part d.slot).isSome then some (.pondOperationPerform d.part d.slot)
    else if (completeDrain s d.part d.slot).isSome then some (.drainComplete d.part d.slot) else none

/-- A chunk of a copy can be asked for or copied. -/
def chunkDue (s : State) (x : EngCmd) (h : HoistCopy) (l : Layout) (k : Nat) : Bool :=
  let rs := remoteParts s x k
  !(blockedBy s x.core x.id (chunkRanges s (x.agent s) x.core h l k)) &&
    ((rs.any fun p => (engineReq s x.id p).isNone) || rs.all fun p => match engineReq s x.id p with | some r => r.answer.isSome | none => true)

/-- Hoists (12 R209). -/
def hoistEvent (s : State) : Option Instr :=
  s.cmds.findSome? fun x =>
    match x.body with
    | .hoist h =>
      (match h.layout with
      | some l => if x.paused then none else (h.todo.find? (chunkDue s x h l)).map fun k => .hoistChunkComplete x.core x.id k
      | none => none)
    | _ => none

/-- Matrix engines: a command that every core it acts on lets run (07 R141, R145, R147). -/
def matrixEvent (s : State) : Option Instr :=
  s.cmds.findSome? fun x =>
    match x.body with
    | .mx op =>
      if !mxReady s x then none
      else some (match op with | .loop _ _ _ _ _ _ _ _ _ _ _ => .matrixStep x.core | _ => .matrixCommandComplete x.core)
    | _ => none

/-- Sluices (12 R220). -/
def sluiceEvent (s : State) : Option Instr :=
  s.sluiceStacks.zipIdx.findSome? fun k => k.1.blocks.findSome? fun b =>
    if b.paused then none
    else if b.stop.isSome || b.doneGroups.length = b.groups then
      if flagBlocked s b then none else some (.sluiceGroupComplete k.2 b.id 0)
    else (leastBelow b.groups fun g => !b.doneGroups.contains g && !blockedBy s b.core b.cmd (groupRanges s b g)).map fun g =>
      .sluiceGroupComplete k.2 b.id g

/-- Spring arrays (13 R225, R230). -/
def springEvent (s : State) : Option Instr :=
  s.springs.zipIdx.findSome? fun p =>
    match p.1.queue with
    | [] => none
    | q :: _ =>
      if q.paused || springWaits s q then none
      else match q.op with | .sweep _ _ _ _ _ => some (.springColourUpdate p.2) | _ => some (.springCommandComplete p.2)

/-! ## Work -/

/-- Task-graph machines and the placing and completion of gangs (01 R6; 02 R39 to R42). -/
def workEvent (s : State) : Option Instr :=
  match s.gangs.find? fun g => (completeGang s g.id).isSome with
  | some g => some (.gangComplete g.id)
  | none =>
    match s.graphs.find? fun g => (admitToMachine s g.id).isSome with
    | some g => some (.graphAdmit g.id)
    | none =>
      match s.graphs.findSome? fun g => (g.nodes.zipIdx.find? fun n => (dispatchNode s g.id n.2).isSome).map fun n => (g.id, n.2) with
      | some n => some (.nodeDispatch n.1 n.2)
      | none => (s.launches.find? fun l => (placeGang s l.id).isSome).map fun l => .gangPlace l.id

/-- The dispatcher (02 R34, R37). -/
def dispatcherEvent (s : State) : Option Instr :=
  match s.fns.zipIdx.findSome? fun f => (f.1.intakeRecs.find? fun r => (dispatchRecord s f.2 r.seq).isSome).map fun r => (f.2, r.seq) with
  | some r => some (.dispatchRecord r.1 r.2)
  | none => (s.slices.find? fun l => (exhaustBudget s l.id).isSome).map fun l => .budgetExhaust l.id

/-- Quanta (02 R29, 18 R286). -/
def quantumEvent (s : State) : Option Instr :=
  s.parts.zipIdx.findSome? fun p =>
    if p.1.nquanta = 0 && p.1.resident.isNone then none
    else if (endQuantum s p.2).isSome then some (.quantumEnd p.2)
    else if entryDue s p.2 then some (.quantumEntryStart p.2) else none

/-- Fault and trap records that can be put now (08 R168). -/
def recordEvent (s : State) : Option Instr :=
  (s.fns.zipIdx.find? fun f => f.1.retry.any fun r => (tryRecord s f.2 r).1).map fun f => .faultRecordRetry f.2

/-! ## The default order (log 1) -/

/-- The first of the steps that are due. -/
def nextEvent (s : State) : Option Instr :=
  [queueEvent, remoteStallEvent, pondEvent, hoistEvent, matrixEvent, sluiceEvent, springEvent, workEvent, dispatcherEvent,
    quantumEvent, recordEvent].findSome? fun f => f s

/-- Which agent moves when the agenda is empty (log 1). -/
def defaultMove (s : State) : Move :=
  match nextEvent s with
  | some i => .event i
  | none =>
    match readyPort s with
    | some p => .issue p.1 p.2
    | none =>
      match readyLode s with
      | some c => .lode c
      | none => .tick 1

/-- Up to `n` cycles pass: a cycle ends only once no port and no lode core has an issue left to make in it (04 R72, R75). After
the first one nothing but a new cycle makes an issue due, so the others pass together. -/
def passCycles (s : State) (n : Nat) : State :=
  if n = 0 || issueDue s then s
  else
    let t := passTime s 1
    if n = 1 || issueDue t then t else passTime t (n - 1)

/-- The listed bytes of a core's scratchpad. -/
def scratchCells (m : Memory) (core : Nat) : List Host.Cell :=
  (m.cells.dropWhile fun c => c.1 < scratchKey core).takeWhile fun c => c.1 < scratchKey (core + 1)

/-- Waits on bitmap and sync words look again when their core's scratchpad has changed (12 R210, R213). -/
def wakeWords (s t : State) : State :=
  if t.mem = s.mem then t
  else
    let waits (g : Gang) : Bool := g.crews.any fun c => c.untied .engine != 0
    let moved (c : Nat) : Bool := scratchCells s.mem c != scratchCells t.mem c
    (((t.gangs.filter waits).map fun g => g.core).eraseDups.filter moved).foldl (fun t c => wakeCore t c .engine) t

/-- A DRAIN that ran in `s` has left its pond in `t`, by whatever way. -/
def drainLeft (s t : State) : Bool :=
  s.ponds.any fun d => d.draining && (match t.pond? d.part d.slot with | some e => !e.draining | none => true)

/-- Copies start and work that has ended is counted; held puts that waited for a DRAIN which the step, or that very counting,
has ended are offered (20 R310), and what they end is counted in turn. -/
def closeWork : Nat → State → State → State
  | 0, _, t => t
  | fuel + 1, s, t =>
    let u := settleWork 16 (startHoists t)
    if drainLeft s u then closeWork fuel u (settleAllTasks u) else u

/-- What follows from a step that took `s` to `t`, in the same step. -/
def closeStep (s t : State) : State :=
  let t := wakeWords s (dropReservations s (fillPools (wakeAllSpawners (retryRestores (closeOpens (closeWork 8 s t))))))
  markChanged s { t with cur := none }

end Sys2Proof.Machine
end

