-- ==== Sys2Proof/Machine/Setup.lean ====
section
/-! DEFINITION. Machine/Setup.lean: how `withFetchWord` places one instruction where the next step fetches it (log 40): what
a launch of a one-crew gang, or of its lode thread, would have set up, and nothing else. -/

namespace Sys2Proof.Machine

/-- Where the word is placed: byte address 0x1_0000, virtual and physical. -/
def setupAddr : Nat := 0x10000
/-- Its bit pointer, in DEV. -/
def setupPc : Dword := 0x80000

/-- The top table at byte 0x1000, one entry to the table at 0x2000, whose first leaf maps the first 1 GiB (08 R166). -/
def setupTables (m : Memory) : Memory :=
  (m.setBits (0x1000 * 8) 64 0x2001).setBits (0x2000 * 8) 64 0xF

/-- Function 0 with all of device memory as its window and that table. -/
def setupFn (f : Fn) : Fn := { f with root := 0x1000, membase := 0, memsize := 0x600000 }

/-- Partition 0 with cluster 0 and function 0, class 0 of weight 1. -/
def setupPart (p : Part) : Part := { p with clusters := 1, weight := p.weight.set 0 1, funcs := 1 }

/-- An image of one crew with 32 registers (01 R9). -/
def setupImage : Image := ⟨1, 2, false, false, false, 0, 1, 0, 0xFFFFFFFF, 0⟩

/-- The launch that the gang belongs to. -/
def setupLaunch (id : Nat) : Launch :=
  { id := id, part := 0, fn := 0, handle := 0, owner := .phase 0, slice := 0, die := 0, kernel := 0, image := setupImage, gangs := 1,
    crews := 1, regs16 := 2, tclass := 0, args := 0, regions := [], operands := [], tvec := 0xC0000, doneflag := 0xFFFFFFFFFFFFFFFF,
    doneval := 0, placed := 1, holdsSpring := false, tasks := none, pieces := [], changed := false,
    counter := ⟨1, 0, 0, 0, .running⟩, ended := false }

/-- A crew as it starts (04 R65), at the word. -/
def setupCrew : Crew :=
  { (Crew.fresh { Crew.blank with ended := false, regs16 := 2 } setupPc []) with
    trap := ⟨0, 0, 0, 0xC0000, 0, 0, 0, 0⟩ }

/-- The gang, on core 0. -/
def setupGang (id launch : Nat) (lode : Lode) (crews : List Crew) : Gang :=
  ⟨id, launch, 0, 0, 0, 0, 0, false, false, List.replicate 16 0, [], lode, crews, none⟩

/-- Everything that is common to both placements. -/
def setupBase (s : State) (w : Nat) : State :=
  { s with
    mem := (setupTables s.mem).setBits (setupAddr * 8) 32 w
    poison := []
    fns := s.fns.modify 0 setupFn
    parts := s.parts.modify 0 setupPart
    cores := s.cores.set 0 Core.reset
    launches := [setupLaunch s.nextId]
    nextId := s.nextId + 2
    cur := none }

/-- The word at the program counter of a crew that issues next. -/
def placeCrew (s : State) (w : Nat) : State :=
  { setupBase s w with
    gangs := [setupGang (s.nextId + 1) s.nextId Lode.reset [setupCrew]]
    agenda := [.issue 0 0] }

/-- The word at the program counter of a running lode thread whose turn is next. -/
def placeLode (s : State) (w : Nat) : State :=
  { setupBase s w with
    gangs := [setupGang (s.nextId + 1) s.nextId { Lode.reset with st := .running, pc := setupPc } [setupCrew]]
    lodeNodes := []
    lodeRot := s.lodeRot.set 0 (131, 0)
    agenda := [.lode 0] }

end Sys2Proof.Machine
end

