-- ==== Sys2Proof/Machine/Step.lean ====
section
/-! DEFINITION. Machine/Step.lean: one step of the machine: the agent whose move is first in the agenda acts, or the one
that the default order gives (log 1). -/

namespace Sys2Proof.Machine

/-- The end of every step: hoists that can start have started (12 R206), everything that has ended is counted (01 R8), the
ready pools are filled (02 R39), changed images and lost reservations are marked (01 R10, log 12), and no issuing context is
left. -/
def endStep (s : State) (o : Host.Outcome State Fault Refusal) : Host.Outcome State Fault Refusal :=
  match o with
  | .next t => .next (closeStep s t)
  | .fault f => .fault f
  | .refused r => .refused r

/-- Issue of a fetched word by the group that the port chose (03 R61, 04 R65). -/
def issueWord (cur : Cur) (x : Ctx) : Host.Outcome State Fault Refusal :=
  match fetch x with
  | .stop r s => finish .nop { x with st := s } r
  | .word w s =>
    match decode w with
    | .ok i => exec i { s with cur := some cur }
    | .error e => finish .nop { x with st := s } (.trap (DecodeErr.cause e) (decodeEval w { x with st := s }.c) false)

/-- A lode context issues: one of the two lode words, or one RV64IMAC instruction (04 R81). -/
def issueLode (s : State) (cur : Cur) : Host.Outcome State Fault Refusal :=
  match fetchLode s cur with
  | .word w s => exec (decodeLode w) { s with cur := some cur }
  | .stop s => .next s
  | .fault f => .fault f

/-- What an agent does when it moves. -/
def perform (s : State) (m : Move) : Host.Outcome State Fault Refusal :=
  match m with
  | .issue core port =>
    if portSpent s core port then .next s
    else
      match chooseIssue s core port with
      | (some (.crew gid ci lanes pc), s) => issueWord (.crew gid ci lanes pc) ⟨s, gid, ci, lanes, pc⟩
      | (_, s) => .next s
  | .lode cluster =>
    if lodeSpent s cluster then .next s
    else
      match chooseLode s cluster with
      | (some cur, s) => issueLode s cur
      | (none, s) => .next s
  | .event i => exec i s
  | .tick n => .next (passCycles s n)
  | .hostRead bar fn off len => .next (readBar s bar fn off len)
  | .evict core line => .next (evictOne s core line)
  | .softError word => .next (softError s word)
  | .cacheError core word => .next (cacheError s core word)

/-- One step. -/
def step (s : State) : Host.Outcome State Fault Refusal :=
  match s.agenda with
  | m :: rest => endStep s (perform { s with agenda := rest } m)
  | [] => endStep s (perform s (defaultMove s))

/-- The machine with the instruction of `nbits` bits `w` as the next one it runs (log 40): a Barael word at the program
counter of a crew that issues next, or a lode word at that of a lode thread. -/
def State.withFetchWord (s : State) (nbits w : Nat) : State :=
  match decode (BitVec.ofNat 32 w), decodeLode (BitVec.ofNat 32 w) with
  | .error _, .chpush _ _ _ => placeLode s (w % 2 ^ nbits)
  | .error _, .lexit => placeLode s (w % 2 ^ nbits)
  | _, _ => placeCrew s (w % 2 ^ nbits)

end Sys2Proof.Machine
end

