-- ==== Sys2Proof/Safety.lean ====
section
/-! DEFINITION. Safety.lean: the terms in which claims speak of a run: a crew in proper form, a group that issues, how an
instruction completes, what a result writes, and what stays as it was. -/

namespace Sys2Proof.Machine

/-! ## A group that issues -/

/-- A crew's lists have the lengths of 04 R65 to R69, R77 and 15 R255. -/
abbrev Crew.Shaped (c : Crew) : Prop :=
  c.regs.length = c.nregs ∧ c.pcs.length = 32 ∧ c.m.length = 8 ∧ c.j.length = 8 ∧ c.k.length = 16 ∧
    c.barPending.length = 8 ∧ c.barDone.length = 8

/-- `x` is the group that the step has chosen (04 R65, R70): some lanes of one crew, all READY at one address. -/
abbrev Ctx.Group (x : Ctx) : Prop :=
  x.st.cur = some (.crew x.gid x.ci x.lanes x.pc) ∧ x.st.crew? x.gid x.ci = some x.c ∧ x.c.Shaped ∧ x.lanes ≠ 0 ∧
    ∀ j, j < 32 → x.lanes.getLsbD j = true → (x.c.lane j).pc = x.pc ∧ (x.c.lane j).st = .ready

/-- The group issues `i`, and none of the checks that come before every instruction stops it (03 R61, 18 R279, 20 R311 and
R312, 04 R83). -/
abbrev Ctx.Issues (x : Ctx) (i : Instr) : Prop := x.Group ∧ before i x = none

/-- The machine with crew `c` in place of the issuing one; what an ordered launch does then follows (20 R298 to R307). -/
def Ctx.become (x : Ctx) (c : Crew) : State := afterIssue (x.st.modCrew x.gid x.ci fun _ => c) x.gid

/-! ## How an instruction completes -/

/-- LHIST and the open chain after a completed instruction; `v` is what it delivers to its latch (03 R55, R57). -/
def Ctx.history (x : Ctx) (i : Instr) (v : LatchVal) : BitVec 64 × Option Chain :=
  match nwD i with
  | none => (x.c.lhist, x.c.chain)
  | some (false, d) => (advanceHist x.c.lhist d.toNat, none)
  | some (true, _) =>
    (advanceHist x.c.lhist 127,
      some (match x.c.chain with | some h => { h with vals := v :: h.vals } | none => ⟨x.pc, x.lanes, x.c.lhist, [v]⟩))

/-- `exec` answers machine `s`, which the instruction has made of the old one, with crew `c` in place of the issuing crew, whose group's
lanes are READY at the next word; the chute has lost what the sources popped, oldest first, the latch history is as R55 says, and nothing
but the registers of this crew may have changed in it besides. -/
structure Ctx.CompletesIn (x : Ctx) (i : Instr) (v : LatchVal) (s : State) (c : Crew) : Prop where
  answer : exec i x.st = .next (afterIssue (s.modCrew x.gid x.ci fun _ => c) x.gid)
  lane : ∀ j, j < 32 → c.lane j = if x.lanes.getLsbD j then ⟨nextPc x.pc, .ready, 0⟩ else x.c.lane j
  frame : c = { x.c with
    regs := c.regs, m := c.m, k := c.k, pcs := c.pcs, tied := x.c.tied &&& ~~~x.lanes, cwaits := x.c.cwaits &&& ~~~x.lanes
    fifo := (x.c.pop i x.lanes).fifo, lhist := (x.history i v).1, chain := (x.history i v).2 }
  chute : x.c.hasTaken x.lanes = false → c.chute = x.c.chute.drop (popsOf i)
  shaped : c.Shaped

/-- The same where the instruction changes nothing but its crew. -/
abbrev Ctx.Completes (x : Ctx) (i : Instr) (v : LatchVal) (c : Crew) : Prop := x.CompletesIn i v x.st c

/-- Vector register code `n` takes `val` with tag `f` in the lanes of the group; the other live lanes keep what they held, and
so does every other register (04 R67). -/
structure Put32 (c c' : Crew) (lanes : Mask) (n : Nat) (f : Fmt) (val : Nat → Word) : Prop where
  written : ∀ j, j < 32 → lanes.getLsbD j = true → (c'.vreg n).val.lane j = val j
  kept : ∀ j, j < 32 → lanes.getLsbD j = false → (c.lane j).st ≠ .exited → (c'.vreg n).val.lane j = (c.vreg n).val.lane j
  tag : (c'.vreg n).fmt = f
  others : ∀ r, r ≠ c.wbase.toNat * 16 + n → c'.regs[r]? = c.regs[r]?

/-- The same for a pair of registers: bits [31:0] in the even one (05 R89). -/
structure Put64 (c c' : Crew) (lanes : Mask) (n : Nat) (f : Fmt) (val : Nat → Dword) : Prop where
  written : ∀ j, j < 32 → lanes.getLsbD j = true →
    (c'.vreg n).val.lane j = (val j).extractLsb' 0 32 ∧ (c'.vreg (n + 1)).val.lane j = (val j).extractLsb' 32 32
  kept : ∀ j, j < 32 → lanes.getLsbD j = false → (c.lane j).st ≠ .exited →
    (c'.vreg n).val.lane j = (c.vreg n).val.lane j ∧ (c'.vreg (n + 1)).val.lane j = (c.vreg (n + 1)).val.lane j
  tag : (c'.vreg n).fmt = f ∧ (c'.vreg (n + 1)).fmt = f
  others : ∀ r, r ≠ c.wbase.toNat * 16 + n → r ≠ c.wbase.toNat * 16 + n + 1 → c'.regs[r]? = c.regs[r]?

/-- `i` completes with a 32-bit result: into D, into nothing when D is z, or into its latch alone when NW = 1 (03 R50, R56). -/
def Ctx.Result32 (x : Ctx) (i : Instr) (d : Reg) (f : Fmt) (val : Nat → Word) : Prop :=
  ∃ v c, x.Completes i v c ∧ c.m = x.c.m ∧ c.k = x.c.k ∧
    (isNW i = true → v.fmt = f ∧ ∀ j, j < 32 → v.lo.lane j = val j) ∧
    (if isNW i = true ∨ 112 ≤ d.toNat then c.regs = x.c.regs else Put32 x.c c x.lanes d.toNat f val)

/-- The same, where a latch holds the value in the lanes of the group; what it holds for the others no instruction reads. -/
def Ctx.ResultLanes (x : Ctx) (i : Instr) (d : Reg) (f : Fmt) (val : Nat → Word) : Prop :=
  ∃ v c, x.Completes i v c ∧ c.m = x.c.m ∧ c.k = x.c.k ∧
    (isNW i = true → v.fmt = f ∧ ∀ j, j < 32 → x.lanes.getLsbD j = true → v.lo.lane j = val j) ∧
    (if isNW i = true ∨ 112 ≤ d.toNat then c.regs = x.c.regs else Put32 x.c c x.lanes d.toNat f val)

/-- `i` completes with a 64-bit result. -/
def Ctx.Result64 (x : Ctx) (i : Instr) (d : Reg) (f : Fmt) (val : Nat → Dword) : Prop :=
  ∃ v c, x.Completes i v c ∧ c.m = x.c.m ∧ c.k = x.c.k ∧
    (isNW i = true → v.fmt = f ∧ ∀ j, j < 32 → v.hi.lane j ++ v.lo.lane j = val j) ∧
    (if isNW i = true ∨ 112 ≤ d.toNat then c.regs = x.c.regs else Put64 x.c c x.lanes d.toNat f val)

/-- `i` completes with bits of mask register `m` for the lanes of the group (04 R68). -/
def Ctx.ResultM (x : Ctx) (i : Instr) (m : MReg) (val : Nat → Bool) : Prop :=
  ∃ v c, x.Completes i v c ∧ c.regs = x.c.regs ∧ c.k = x.c.k ∧
    (∀ j, j < 32 → (c.mask m.toNat).getLsbD j = if x.lanes.getLsbD j then val j else (x.c.mask m.toNat).getLsbD j) ∧
    ∀ n, n ≠ m.toNat → c.m[n]? = x.c.m[n]?

/-- `i` completes with a uniform register written. -/
def Ctx.ResultK (x : Ctx) (i : Instr) (d : KReg) (val : Dword) : Prop :=
  ∃ v c, x.Completes i v c ∧ c.regs = x.c.regs ∧ c.m = x.c.m ∧ c.k = x.c.k.set d.toNat val

/-- `i` completes and writes no register. -/
def Ctx.ResultNone (x : Ctx) (i : Instr) : Prop :=
  ∃ v c, x.Completes i v c ∧ c.regs = x.c.regs ∧ c.m = x.c.m ∧ c.k = x.c.k

/-! ## What the vector instructions compute, lane by lane -/

/-- An instruction with one vector source: D, A, the sources it accepts, and the value and tag of its 32-bit result. -/
structure OneSource where
  d : Reg
  a : Reg
  ok : Opnd → Bool
  val : Opnd → Nat → Word
  fmt : Opnd → Fmt

/-- An instruction with two vector sources, B read after A. -/
structure TwoSource where
  d : Reg
  a : Reg
  b : Reg
  ok : Opnd → Opnd → Bool
  val : Opnd → Opnd → Nat → Word
  fmt : Opnd → Opnd → Fmt

/-- An instruction with three vector sources, D read last. -/
structure ThreeSource where
  d : Reg
  a : Reg
  b : Reg
  ok : Opnd → Opnd → Opnd → Bool
  val : Opnd → Opnd → Opnd → Nat → Word
  fmt : Opnd → Opnd → Opnd → Fmt

/-- Two sources of class X and a function of their lanes. -/
def intPair (d a b : Reg) (f : Word → Word → Word) (fmt : Opnd → Opnd → Fmt) : TwoSource :=
  ⟨d, a, b, fun p q => p.isX && q.isX, fun p q j => f (p.lo.lane j) (q.lo.lane j), fmt⟩

/-- A word as a register of format `f` holds it: a chute entry may carry bits above a narrow format's (05 R89). -/
def fitted (f : Fmt) (w : Word) : Word := if fmtWidth f < 32 then container f w.toNat else w

/-- IMIN and IMAX: `takeB` says whether B is the result. The sources count as one does beside the other (03 R50, 05 R91). -/
def minMaxPair (d a b : Reg) (takeB : Bool → Word → Word → Bool) : TwoSource :=
  ⟨d, a, b, fun p q => (p.beside a q).isX && (q.beside b p).isX && sameSign (p.beside a q) (q.beside b p),
    fun p q j => fitted (minFmt (p.beside a q) (q.beside b p))
      (if takeB ((p.beside a q).signed || (q.beside b p).signed) (p.lo.lane j) (q.lo.lane j) then q.lo.lane j else p.lo.lane j),
    fun p q => minFmt (p.beside a q) (q.beside b p)⟩

/-- The exact value `i` clamped between two bounds, as a container (05 R91). -/
def clamped (lo hi i : Int) : Word := BitVec.ofInt 32 (max lo (min hi i))

/-- Integer arithmetic, logic, shifts and bit fields of two 32-bit sources (05 R91 to R93). -/
def integerTwo (i : Instr) : Option TwoSource :=
  match i with
  | .iadd d a b _ .wrap => some (intPair d a b (fun u v => u + v) mixFmt)
  | .iadd d a b _ .sat => some (intPair d a b (fun u v => clamped (-2147483648) 2147483647 (u.toInt + v.toInt)) fun _ _ => .i32)
  | .iadd d a b _ .usat => some (intPair d a b (fun u v => clamped 0 4294967295 (u.toNat + v.toNat)) fun _ _ => .n32)
  | .isub d a b _ .wrap => some (intPair d a b (fun u v => u - v) mixFmt)
  | .isub d a b _ .sat => some (intPair d a b (fun u v => clamped (-2147483648) 2147483647 (u.toInt - v.toInt)) fun _ _ => .i32)
  | .isub d a b _ .usat => some (intPair d a b (fun u v => clamped 0 4294967295 (u.toNat - v.toNat)) fun _ _ => .n32)
  | .imul d a b _ .low => some (intPair d a b (fun u v => u * v) mixFmt)
  | .imul d a b _ .hi => some (intPair d a b (fun u v => BitVec.ofInt 32 (u.toInt * v.toInt / 4294967296)) fun _ _ => .i32)
  | .imul d a b _ .hiu => some (intPair d a b (fun u v => BitVec.ofNat 32 (u.toNat * v.toNat / 4294967296)) fun _ _ => .n32)
  | .idiv d a b _ .quot =>
    some (intPair d a b (fun u v => if v = 0 then 0xFFFFFFFF else BitVec.ofInt 32 (u.toInt.tdiv v.toInt)) mixFmt)
  | .idiv d a b _ .uquot =>
    some (intPair d a b (fun u v => if v = 0 then 0xFFFFFFFF else BitVec.ofNat 32 (u.toNat / v.toNat)) mixFmt)
  | .idiv d a b _ .rem => some (intPair d a b (fun u v => if v = 0 then u else BitVec.ofInt 32 (u.toInt.tmod v.toInt)) mixFmt)
  | .idiv d a b _ .urem => some (intPair d a b (fun u v => if v = 0 then u else BitVec.ofNat 32 (u.toNat % v.toNat)) mixFmt)
  | .imin d a b _ => some (minMaxPair d a b fun signed u v => if signed then v.toInt < u.toInt else v.toNat < u.toNat)
  | .imax d a b _ => some (minMaxPair d a b fun signed u v => if signed then u.toInt < v.toInt else u.toNat < v.toNat)
  | .and d a b _ => some (intPair d a b (fun u v => u &&& v) fun _ _ => .n32)
  | .or d a b _ => some (intPair d a b (fun u v => u ||| v) fun _ _ => .n32)
  | .xor d a b _ => some (intPair d a b (fun u v => u ^^^ v) fun _ _ => .n32)
  | .andn d a b _ => some (intPair d a b (fun u v => u &&& ~~~v) fun _ _ => .n32)
  | .orn d a b _ => some (intPair d a b (fun u v => u ||| ~~~v) fun _ _ => .n32)
  | .xnor d a b _ => some (intPair d a b (fun u v => ~~~(u ^^^ v)) fun _ _ => .n32)
  | .shl d a b _ => some (intPair d a b (fun u v => if 32 ≤ v.toNat then 0 else u <<< v.toNat) fun _ _ => .n32)
  | .shr d a b _ => some (intPair d a b (fun u v => if 32 ≤ v.toNat then 0 else u >>> v.toNat) fun _ _ => .n32)
  | .sar d a b _ => some (intPair d a b (fun u v => u.sshiftRight (min v.toNat 31)) fun _ _ => .i32)
  | .rol d a b _ => some (intPair d a b (fun u v => u.rotateLeft (v.toNat % 32)) fun _ _ => .n32)
  | .ror d a b _ => some (intPair d a b (fun u v => u.rotateRight (v.toNat % 32)) fun _ _ => .n32)
  | .bfx d a b _ sg => some (intPair d a b (bfxWord sg) fun _ _ => if sg then .i32 else .n32)
  | _ => none

/-- One source of class X and a function of its lanes. -/
def intOne (d a : Reg) (f : Word → Word) (fmt : Opnd → Fmt) : OneSource := ⟨d, a, Opnd.isX, fun p j => f (p.lo.lane j), fmt⟩

/-- Counts, bit reversal, the immediate forms and MOVHI (05 R92, R96); a result of a signed source is I32 where R96 says so. -/
def integerOne (i : Instr) : Option OneSource :=
  match i with
  | .popc d a _ => some (intOne d a (fun u => BitVec.ofNat 32 (popCount 32 u.toNat)) fun _ => .n32)
  | .clz d a _ => some (intOne d a clzWord fun _ => .n32)
  | .ctz d a _ => some (intOne d a ctzWord fun _ => .n32)
  | .brev d a _ => some (intOne d a brevWord fun _ => .n32)
  | .iaddi d a n => some (intOne d a (fun u => u + n.signExtend 32) immFmt)
  | .andi d a n => some (intOne d a (fun u => u &&& n.signExtend 32) fun _ => .n32)
  | .ori d a n => some (intOne d a (fun u => u ||| n.signExtend 32) fun _ => .n32)
  | .xori d a n => some (intOne d a (fun u => u ^^^ n.signExtend 32) fun _ => .n32)
  | .shli d a n => some (intOne d a (fun u => if 32 ≤ n.toNat then 0 else u <<< n.toNat) fun _ => .n32)
  | .shri d a n => some (intOne d a (fun u => if 32 ≤ n.toNat then 0 else u >>> n.toNat) fun _ => .n32)
  | .sari d a n => some (intOne d a (fun u => u.sshiftRight (min n.toNat 31)) fun _ => .i32)
  | .movhi d n => some (intOne d d (fun u => n ++ u.extractLsb' 0 14) immFmt)
  | _ => none

/-- Moves and questions about tags with a 32-bit result (05 R95): a source of a 32-bit format for MOV and RETAG. -/
def moveOne (i : Instr) : Option OneSource :=
  match i with
  | .mov d a _ => some ⟨d, a, fun p => !p.isWide, fun p j => fitted (p.fmt.getD .n32) (p.lo.lane j), fun p => p.fmt.getD .n32⟩
  | .retag d a c _ =>
    match fmtOf c.toNat with
    | some f => if fmtWide f then none else some ⟨d, a, fun p => p.isIn classAny32, fun p j => retagWord f (p.lo.lane j), fun _ => f⟩
    | none => none
  | .shapeq d a _ => some ⟨d, a, fun _ => true, fun p _ => match p.lo with | .gen _ => 0 | .uni _ => 1 | .aff _ _ => 2, fun _ => .n32⟩
  | .fmtq d a _ => some ⟨d, a, fun _ => true, fun p _ => match p.fmt with | some f => BitVec.ofNat 32 (fmtCode f) | none => 0x1F, fun _ => .n32⟩
  | _ => none

/-- Two float sources of one class F format, z being +0 of the other's (07 R133), and an operation on their values rounded
once into that format. -/
def floatPair (d a b : Reg) (r : Rnd) (op : XVal → XVal → XVal) : TwoSource :=
  ⟨d, a, b, fun p q => (floatFmt p q).isSome,
    fun p q j =>
      let f := fltOf ((floatFmt p q).getD .f32)
      BitVec.ofNat 32 (toBin f r (op (binValue f (p.lo.lane j).toNat) (binValue f (q.lo.lane j).toNat))),
    fun p q => (floatFmt p q).getD .f32⟩

/-- Floating-point arithmetic of two sources (07 R133, R134). -/
def floatTwo (i : Instr) : Option TwoSource :=
  match i with
  | .fadd d a b _ r => some (floatPair d a b r (XVal.add r))
  | .fsub d a b _ r => some (floatPair d a b r fun u v => XVal.add r u v.negate)
  | .fmul d a b _ r => some (floatPair d a b r XVal.mul)
  | .fmin d a b _ => some (floatPair d a b .rne minX)
  | .fmax d a b _ => some (floatPair d a b .rne maxX)
  | _ => none

/-- One F32 source and a function of its value, rounded to nearest even (07 R136). -/
def trans (d a : Reg) (f : XVal → XVal) : OneSource :=
  ⟨d, a, fun p => p.isIn fun g => g == .f32, fun p j => BitVec.ofNat 32 (toBin binF32 .rne (f (binValue binF32 (p.lo.lane j).toNat))),
    fun _ => .f32⟩

/-- The container in format `t` of lane `j` of a source, converted (07 R137). -/
def convertedLane (r : Rnd) (t : Fmt) (p : Opnd) (j : Nat) : Word :=
  container t (convert r (p.fmt.getD .n32) t (if p.isWide then (p.wide j).toNat else (p.lo.lane j).toNat))

/-- A conversion to a 32-bit format, of a source of format `ok`. A 64-bit source must lie in an even register (03 R51). -/
def converted (d a : Reg) (r : Rnd) (t : Fmt) (ok : Fmt → Bool) : OneSource :=
  ⟨d, a, fun p => p.isIn ok, fun p j => convertedLane r t p j, fun _ => t⟩

/-- Transcendental functions, conversions to 32 bits and sign operations (07 R136 to R139). -/
def floatOne (i : Instr) : Option OneSource :=
  match i with
  | .frcp d a _ => some (trans d a frcpX)
  | .frsq d a _ => some (trans d a frsqX)
  | .fexp2 d a _ => some (trans d a fexp2X)
  | .flog2 d a _ => some (trans d a flog2X)
  | .ftanh d a _ => some (trans d a ftanhX)
  | .fsig d a _ => some (trans d a fsigX)
  | .fcvt d a c _ r =>
    match fmtOf c.toNat with
    | some t => if fmtWide t then none else some (converted d a r t fun f => f != .ptr)
    | none => none
  | .i2f d a _ r => some (converted d a r .f32 fun f => classX f || classW f)
  | .f2i d a u _ r => some (converted d a r (if u then .n32 else .i32) classFloat)
  | .fabs d a _ => some ⟨d, a, fun p => p.isIn classFloat, fun p j => signOp (p.fmt.getD .f32) false (p.lo.lane j), fun p => p.fmt.getD .f32⟩
  | .fneg d a _ => some ⟨d, a, fun p => p.isIn classFloat, fun p j => signOp (p.fmt.getD .f32) true (p.lo.lane j), fun p => p.fmt.getD .f32⟩
  | _ => none

/-- Instructions that also read D (05 R91, R93; 07 R133). -/
def threeSource (i : Instr) : Option ThreeSource :=
  match i with
  | .imad d a b _ =>
    some ⟨d, a, b, fun p q o => p.isX && q.isX && o.isX, fun p q o j => p.lo.lane j * q.lo.lane j + o.lo.lane j, fun p q _ => mixFmt p q⟩
  | .bfi d a b _ =>
    some ⟨d, a, b, fun p q o => p.isX && q.isX && o.isX, fun p q o j => bfiWord (o.lo.lane j) (p.lo.lane j) (q.lo.lane j), fun _ _ _ => .n32⟩
  | .ffma d a b _ r =>
    some ⟨d, a, b, fun p q o => (fmaFmt p q o).isSome,
      fun p q o j =>
        let fg := (fmaFmt p q o).getD (.f32, .f32)
        let product := XVal.mul (binValue (fltOf fg.1) (p.lo.lane j).toNat) (binValue (fltOf fg.1) (q.lo.lane j).toNat)
        BitVec.ofNat 32 (toBin (fltOf fg.2) r (product.add r (binValue (fltOf fg.2) (o.lo.lane j).toNat))),
      fun p q o => ((fmaFmt p q o).getD (.f32, .f32)).2⟩
  | _ => none

/-- An instruction with two vector sources and a 64-bit result: which sources it accepts, and the pair's value. -/
structure TwoWide where
  d : Reg
  a : Reg
  b : Reg
  /-- The registers that must be named by an even code. -/
  even : List Reg
  ok : Opnd → Opnd → Bool
  val : Opnd → Opnd → Nat → Dword
  fmt : Opnd → Opnd → Fmt

/-- Two pairs of class W and a function of their 64-bit lanes. -/
def widePair (d a b : Reg) (f : Dword → Dword → Dword) : TwoWide :=
  ⟨d, a, b, [a, b], fun p q => p.isPair a classW && q.isPair b classW, fun p q j => f (p.wide j) (q.wide j),
    fun p q => if p.signed || q.signed then .i64 else .n64⟩

/-- 64-bit arithmetic and pointer arithmetic (05 R91 FN 3; R97, R98). -/
def wideTwo (i : Instr) : Option TwoWide :=
  match i with
  | .iadd d a b _ .p64 => some (widePair d a b fun u v => u + v)
  | .isub d a b _ .p64 => some (widePair d a b fun u v => u - v)
  | .imul d a b _ .p64 => some (widePair d a b fun u v => u * v)
  | .padd d a b w =>
    some ⟨d, a, b, [a], fun p q => p.isPair a classP && q.isX,
      fun p q j => (p.wide j).extractLsb' 60 4 ++
        ((p.wide j).extractLsb' 0 60 + BitVec.ofInt 60 ((if q.signed then (q.lo.lane j).toInt else (q.lo.lane j).toNat) * widthOf w.toNat)),
      fun _ _ => .ptr⟩
  | .pdiff d a b w =>
    some ⟨d, a, b, [a, b], fun p q => p.isPair a classP && q.isPair b classP,
      fun p q j => BitVec.ofInt 64 ((((p.wide j).extractLsb' 0 60).toNat - ((q.wide j).extractLsb' 0 60).toNat : Int).tdiv (widthOf w.toNat)),
      fun _ _ => .i64⟩
  | .psetsp d a b =>
    some ⟨d, a, b, [a], fun p q => p.isPair a classP && q.isX,
      fun p q j => (q.lo.lane j).extractLsb' 0 4 ++ (p.wide j).extractLsb' 0 60, fun _ _ => .ptr⟩
  | _ => none

/-- What a lane of the group must hold besides: one space for PDIFF, a space code up to 7 or 15 for PSETSP (05 R97, R98). -/
def wideLane (i : Instr) (p q : Opnd) (j : Nat) : Bool :=
  match i with
  | .pdiff _ _ _ _ => (p.wide j).extractLsb' 60 4 == (q.wide j).extractLsb' 60 4
  | .psetsp _ _ _ => (q.lo.lane j).toNat ≤ 7 || (q.lo.lane j).toNat == 15
  | _ => true

/-! ## Values and masks without a table of their own -/

/-- A result that depends on no vector source: D, tag and container (05 R95, R96, R100, R109). -/
def constant32 (x : Ctx) (i : Instr) : Option (Reg × Fmt × Word) :=
  match i with
  | .movi d n => some (d, .i32, n.signExtend 32)
  | .mtov d m => some (d, .n32, x.c.mask m.toNat)
  | .ktov d k c =>
    match fmtOf c.toNat with
    | some f => if fmtWide f then none else some (d, f, retagWord f ((x.k k).extractLsb' 0 32))
    | none => none
  | _ => none

/-- A question about a pointer lane (05 R98): its space, or its classification. -/
def pointerQuestion (x : Ctx) (i : Instr) : Option (Reg × Reg × (Dword → Nat)) :=
  match i with
  | .pspace d a => some (d, a, fun p => (p.extractLsb' 60 4).toNat)
  | .pchk d a w =>
    some (d, a, fun p =>
      if spaceOf p = 15 then 1
      else if 8 ≤ spaceOf p then 2
      else if (match boundCheck x.st x.ag p (widthOf w.toNat) with
        | .error c => c == Cause.vaultBounds || c == Cause.scratchBounds
        | .ok _ => false) then 3
      else if addrIn p % widthOf w.toNat ≠ 0 then 4 else 0)
  | _ => none

/-- A one-source instruction with a 64-bit result (05 R95, R97; 07 R137): what it accepts, its pair and tag. -/
def wideOne (i : Instr) : Option (Reg × Reg × (Opnd → Bool) × (Opnd → Nat → Dword) × (Opnd → Fmt)) :=
  match i with
  | .mov d a _ => some (d, a, Opnd.isWide, fun p j => p.wide j, fun p => p.fmt.getD .n64)
  | .retag d a c _ =>
    match fmtOf c.toNat with
    | some f => if fmtWide f then some (d, a, fun p => p.isPair a fmtWide, fun p j => p.wide j, fun _ => f) else none
    | none => none
  | .palign d a w =>
    some (d, a, fun p => p.isPair a classP, fun p j =>
      (p.wide j).extractLsb' 60 4 ++ BitVec.ofNat 60 (widthOf w.toNat * (((p.wide j).extractLsb' 0 60).toNat / widthOf w.toNat)), fun _ => .ptr)
  | .fcvt d a c _ r =>
    match fmtOf c.toNat with
    | some t =>
      if classW t then some (d, a, fun p => p.isIn fun f => f != .ptr, fun p j =>
        BitVec.ofNat 64 (convert r (p.fmt.getD .n32) t (if p.isWide then (p.wide j).toNat else (p.lo.lane j).toNat)), fun _ => t)
      else none
    | none => none
  | _ => none

/-- The condition of ICMP and ICMPI (05 R94). -/
def intTest (c : ICond) (u v : Word) : Bool :=
  match c with
  | .eq => u == v
  | .ne => u != v
  | .lt => u.toInt < v.toInt
  | .ge => v.toInt ≤ u.toInt
  | .ltu => u.toNat < v.toNat
  | .geu => v.toNat ≤ u.toNat
  | .tst => u &&& v != 0
  | .ntst => u &&& v == 0

/-- A mask destination and the masks it is made of (05 R109). -/
def maskOnly (x : Ctx) (i : Instr) : Option (MReg × (Nat → Bool)) :=
  let bit (m : MReg) (j : Nat) : Bool := (x.c.mask m.toNat).getLsbD j
  match i with
  | .mand d a b => some (d, fun j => bit a j && bit b j)
  | .mor d a b => some (d, fun j => bit a j || bit b j)
  | .mxor d a b => some (d, fun j => bit a j != bit b j)
  | .mnot d a => some (d, fun j => !bit a j)
  | _ => none

/-- Uniform results that need no vector source (05 R99, R100, R111, R112): the k register and its value. -/
def uniformOnly (x : Ctx) (i : Instr) : Option (KReg × Dword) :=
  match i with
  | .kadd d a s => some (d, x.k a + x.ksrc s)
  | .ksub d a s => some (d, x.k a - x.ksrc s)
  | .kmul d a s => some (d, x.k a * x.ksrc s)
  | .kshl d a s => some (d, if 64 ≤ (x.ksrc s).toNat then 0 else x.k a <<< (x.ksrc s).toNat)
  | .kshr d a s => some (d, if 64 ≤ (x.ksrc s).toNat then 0 else x.k a >>> (x.ksrc s).toNat)
  | .kand d a s => some (d, x.k a &&& x.ksrc s)
  | .kor d a s => some (d, x.k a ||| x.ksrc s)
  | .kmov d a => some (d, x.k a)
  | .kmovi d n => some (d, n.signExtend 64)
  | .kpop d => some (d, (x.c.chute.headD ⟨0, .n32⟩).val)
  | .cycle d => some (d, x.st.cycle)
  | .srr d r => (sysReg x r.toNat).map fun v => (d, v.2)
  | _ => none

/-- A lane of a vector source brought into a k register (05 R100): the lowest lane of the group, or a named one. -/
def uniformLane (x : Ctx) (i : Instr) : Option (KReg × Reg × (Opnd → Dword)) :=
  let widen (p : Opnd) (v : Dword) : Dword :=
    if p.isWide then v else if p.signed then (v.extractLsb' 0 32).signExtend 64 else (v.extractLsb' 0 32).zeroExtend 64
  match i with
  | .rfal d a => some (d, a, fun p => widen p (p.wide (firstLane x.lanes)))
  | .krdlane d a n =>
    some (d, a, fun p => widen p (if (x.c.lane n.toNat).st = .exited then 0 else p.wide n.toNat))
  | _ => none

/-! ## Cross-lane results (05 R101 to R105) -/

/-- The running combination of the lanes 0 to `j` in ascending order. -/
def runningTo (op : Word → Word → Word) (v : Nat → Word) : Nat → Word
  | 0 => v 0
  | j + 1 => op (runningTo op v j) (v (j + 1))

/-- The fixed tree of REDUCE.fadd: level `l` at place `i` (05 R104). -/
def sumTree (v : Nat → Word) : Nat → Nat → Word
  | 0, i => v i
  | l + 1, i => addF32 (sumTree v l (2 * i)) (sumTree v l (2 * i + 1))

/-- The lane that lane `j` of a shuffle reads, 32 or more when there is none (05 R102). -/
def shuffledFrom (i : Instr) (j : Nat) (b : Word) : Nat :=
  match i with
  | .shfli _ _ _ _ _ => b.toNat
  | .shflu _ _ _ _ _ => if b.toNat ≤ j then j - b.toNat else 32
  | .shfld _ _ _ _ _ => j + b.toNat
  | _ => j ^^^ b.toNat

/-- Tag and lane values of a cross-lane instruction over its live members, from operands A and B; none where the operands are
of no class that it takes. -/
def crossLane (i : Instr) (a b : Opnd) (mem : Mask) : Option (Reg × Fmt × (Nat → Word)) :=
  let member (j : Nat) : Bool := j < 32 && mem.getLsbD j
  let shuffle (d : Reg) : Option (Reg × Fmt × (Nat → Word)) :=
    if a.isIn classAny32 && b.isIn classX then
      some (d, a.fmt.getD .n32, fun j =>
        let k := shuffledFrom i j (b.lo.lane j)
        fitted (a.fmt.getD .n32) (if member k then a.lo.lane k else a.lo.lane j))
    else none
  let fmtFor (k : RedKind) : Fmt := a.fmt.getD (if redClass k .f32 then .f32 else .n32)
  let value (k : RedKind) (j : Nat) : Word := if member j then a.lo.lane j else redIdent k (fmtFor k)
  match i with
  | .shfli d _ _ _ _ => shuffle d
  | .shflu d _ _ _ _ => shuffle d
  | .shfld d _ _ _ _ => shuffle d
  | .shflx d _ _ _ _ => shuffle d
  | .vote d _ kind _ _ =>
    if a.isIn classX then
      some (d, .n32, fun _ =>
        match kind with
        | .any => if (List.range 32).any fun j => member j && a.lo.lane j != 0 then 1 else 0
        | .all => if (List.range 32).all fun j => !member j || a.lo.lane j != 0 then 1 else 0
        | .ballot => maskOf fun j => member j && a.lo.lane j != 0)
    else none
  | .reduce d _ kind _ _ =>
    if redClass kind (fmtFor kind) then
      some (d, redFmt kind (fmtFor kind), fun _ => fitted (redFmt kind (fmtFor kind))
        (match kind with
        | .fadd => sumTree (value .fadd) 5 0
        | _ => runningTo (redOp kind (fmtFor kind)) (value kind) 31))
    else none
  | .scan d _ kind _ _ =>
    if redClass kind (fmtFor kind) then
      some (d, redFmt kind (fmtFor kind), fun j =>
        fitted (redFmt kind (fmtFor kind)) (runningTo (redOp kind (fmtFor kind)) (fun k => canonRed kind (value kind k)) j))
    else none
  | .redminidx d _ _ _ =>
    if a.isIn classX then
      let below (j k : Nat) : Bool := if a.signed then (a.lo.lane j).toInt ≤ (a.lo.lane k).toInt else (a.lo.lane j).toNat ≤ (a.lo.lane k).toNat
      some (d, .n32, fun _ =>
        BitVec.ofNat 32 (((List.range 32).find? fun j => member j && (List.range 32).all fun k => !member k || below j k).getD 32))
    else none
  | _ => none

/-! ## Issues that end otherwise -/

/-- `c` is the issuing crew with the group's lanes elsewhere or in another state, and `edit` done to it. -/
def Ctx.Lanes (x : Ctx) (e : PcEntry → PcEntry) (c : Crew) : Prop :=
  c.pcs.length = x.c.pcs.length ∧ ∀ j, j < 32 → c.lane j = if x.lanes.getLsbD j then e (x.c.lane j) else x.c.lane j

/-- The machine with crew `c` in place of the issuing one, after what its gang does when lanes arrive, wait or exit (04 R78 to
R80, 05 R101, 15 R255, 18 R280). -/
def Ctx.settles (x : Ctx) (c : Crew) : State := afterIssue (settle (x.st.modCrew x.gid x.ci fun _ => c) x.gid) x.gid

/-- `i` completes, having made `s` of the rest of the machine, and writes no register. -/
def Ctx.GoesOn (x : Ctx) (i : Instr) (s : State) : Prop :=
  ∃ v c, x.CompletesIn i v s c ∧ c.regs = x.c.regs ∧ c.m = x.c.m ∧ c.k = x.c.k

/-- `i` completes, having made `s` of the rest of the machine, and writes one k register. -/
def Ctx.GivesK (x : Ctx) (i : Instr) (s : State) (d : KReg) (val : Dword) : Prop :=
  ∃ v c, x.CompletesIn i v s c ∧ c.regs = x.c.regs ∧ c.m = x.c.m ∧ c.k = x.c.k.set d.toNat val

/-- The group waits at `i` for a reason, `s` being what the instruction has made of the rest of the machine and `c` of its crew; `tied`
when only its own operation ends the wait: the group then has taken what its sources popped. -/
def Ctx.WaitsIn (x : Ctx) (i : Instr) (s : State) (c : Crew) (why : Why) (tied : Bool) : Prop :=
  ∃ c', exec i x.st = .next (afterIssue (settle (s.modCrew x.gid x.ci fun _ => c') x.gid) x.gid) ∧
    x.Lanes (fun e => { e with st := .wait why, age := 0 }) c' ∧
    c' = { c with pcs := c'.pcs, tied := if tied then c.tied ||| x.lanes else c.tied
                  fifo := if tied then (c.takePops (popsOf i) x.lanes).fifo else c.fifo }

/-- The issuing crew with the entries of `c`, the group's lanes no longer tied and at no CWAIT. -/
def Ctx.gone (x : Ctx) (c : Crew) : Crew := { x.c with pcs := c.pcs, tied := x.c.tied &&& ~~~x.lanes, cwaits := x.c.cwaits &&& ~~~x.lanes }

/-! ## Memory instructions -/

/-- LD and LDS: sign, D, K, O, width code and IMM3. -/
def loadParts (i : Instr) : Option (Bool × Reg × KReg × Reg × BitVec 4 × BitVec 3) :=
  match i with
  | .ld d k o w n => some (false, d, k, o, w, n)
  | .lds d k o w n => some (true, d, k, o, w, n)
  | _ => none

/-- The atomics: operation, D, K, O, width code and IMM3 (09 R177). -/
def atomicParts (i : Instr) : Option (AtOp × Reg × KReg × Reg × BitVec 4 × BitVec 3) :=
  match i with
  | .atadd d k o w n => some (.add, d, k, o, w, n)
  | .atmin d k o w n => some (.min, d, k, o, w, n)
  | .atmax d k o w n => some (.max, d, k, o, w, n)
  | .atand d k o w n => some (.and, d, k, o, w, n)
  | .ator d k o w n => some (.or, d, k, o, w, n)
  | .atxor d k o w n => some (.xor, d, k, o, w, n)
  | .atxch d k o w n => some (.xch, d, k, o, w, n)
  | .atcas d k o w n => some (.cas, d, k, o, w, n)
  | _ => none

/-- The elements of a memory instruction of kind `k` are `es`, all in storage of the package, and pass the checks of every lane (08
R160), `s` being the machine after their translations; what a task may track and buffer is not exceeded (20 R308). -/
def Ctx.Checks (x : Ctx) (els : List (Nat × Dword)) (j : MemJob) (es : List Elem) (s : State) : Prop :=
  checkLanes x.st x.ag els j.w j.al j.kind j.hostAtomic = (.ok es, s) ∧ (∀ e ∈ es, e.isRemote = false) ∧
    taskOverflow s x.core x.mode (es.flatMap fun e => e.parts s x.ag) (j.kind != .write) (j.kind != .read) = false

/-- What a load has written to D: an extended 32-bit value, a pair, or for 128 bits two pairs (09 R173); z discards it. -/
def Loaded (c c' : Crew) (lanes : Mask) (d : Reg) (sg : Bool) (w : Nat) (v : Nat → Nat) : Prop :=
  if 112 ≤ d.toNat then c'.regs = c.regs
  else if w ≤ 32 then Put32 c c' lanes d.toNat (loadFmt sg w) fun j => extendWord sg w (v j)
  else if w = 64 then Put64 c c' lanes d.toNat (loadFmt sg 64) fun j => BitVec.ofNat 64 (v j)
  else ∃ b, Put64 c b lanes d.toNat .n64 (fun j => BitVec.ofNat 64 (v j)) ∧
    Put64 b c' lanes (d.toNat + 2) .n64 fun j => BitVec.ofNat 64 (v j / 2 ^ 64)

/-- A bit as a thread of a core sees it: in the core's data cache when that holds its line, otherwise in storage (08 R163). -/
def seenBit (s : State) (core : Nat) (key : Nat) : Bool :=
  match (if isDevKey key then (s.core core).line? (key / 512) else none) with
  | some l => l.data.getLsbD (key % 512)
  | none => (s.mem.byte (key / 8)).getLsbD (key % 8)

/-- Dirty tracking is off (08 R170). -/
def Untracked (s : State) : Prop := ∀ f ∈ s.fns, f.dirtyen = false

/-! ## Operations sent to a unit -/

/-- What an instruction that traps on purpose raises (03 R63, 05 R110): cause and EVAL. -/
def trapsOnPurpose (x : Ctx) (i : Instr) : Option (Nat × Dword) :=
  match i with
  | .trap n => some (176 + n.toNat, 0)
  | .bkpt n => some (12, n.zeroExtend 64)
  | .illegal c => some (3, decodeEval (0x7F#7 ++ c) x.c)
  | _ => none

/-- Address of the trap of lanes `m` of a crew at `pc`, and the LHIST that the handler finds: those of the head of the open chain when a
member traps (03 R58, 18 R278). -/
def Crew.trapPc (c : Crew) (m : Mask) (pc : Dword) : Dword × Bool :=
  match c.chain with
  | some h => if h.lanes &&& m = 0 then (pc, false) else (h.headPc, true)
  | none => (pc, false)

/-- `c'` is crew `c` after a trap of lanes `m` at `pc` (18 R278): the trap registers but ESCRATCH and TVEC, every latch invalid, the group at
TVEC; what it had taken of the chute is back, what it waited for is forgotten, and the members of an open chain stand at its head. -/
structure Crew.TrapsTo (c c' : Crew) (m : Mask) (pc : Dword) (cause : Nat) (eval : Dword) (engine : Bool) : Prop where
  lane : ∀ j, j < 32 → c'.lane j =
    if m.getLsbD j then ⟨c.trap.tvec, .ready, 0⟩
    else match c.chain with
      | some h => if h.lanes.getLsbD j ∧ (c.lane j).st ≠ .exited then ⟨h.headPc, if (c.lane j).st = .parked then .parked else .ready, 0⟩ else c.lane j
      | none => c.lane j
  frame : c' = { c with
    pcs := c'.pcs, lhist := 0, chain := none, eretLanes := 0
    fifo := c.fifo.map fun e => if e.2 &&& m = 0 then e else (e.1, 0)
    bounds := c.bounds.filter fun b => b.lanes &&& m == 0
    posting := c.posting.filter fun p => p.lanes &&& m == 0
    tied := (match c.chain with | some h => c.tied &&& ~~~h.lanes | none => c.tied) &&& ~~~m
    cwaits := c.cwaits &&& ~~~m
    trap := { c.trap with
      cause := BitVec.ofNat 8 cause, eval := eval, elanes := m
      epc := (c.trapPc m pc).1
      elhist := match c.chain with | some h => h.lhist | none => c.lhist
      tstat := BitVec.ofBool (c.trapPc m pc).2 ++ BitVec.ofBool engine ++ 1#2 } }

/-- The operation that a pond instruction sends to its inlet: the handle or descriptor it names, and the operation (09 R182). -/
def pondSend (x : Ctx) (i : Instr) : Option (Dword × PondOpKind) :=
  match i with
  | .pondrm h => some (x.k h, .remove)
  | .pcount d h n => some (x.k h, .pcount d n.toNat (x.k h))
  | .basin d h n => some (x.k h, .basin d n.toNat)
  | _ => none

/-- The group's lanes go on at the next word after an instruction that has made `s` of the machine, its own crew included. -/
def Ctx.EndsIn (x : Ctx) (i : Instr) (s : State) : Prop :=
  exec i x.st = .next (afterIssue (s.modCrew x.gid x.ci fun c => (c.complete i x.lanes x.pc none).release x.lanes nextPc) x.gid)

/-- The crew without what the group's lanes waited for: bounds of RLWAIT and MXWAIT, and a SLUICE's copied block. -/
def Ctx.freed (x : Ctx) : Crew := { x.c with
  bounds := x.c.bounds.filter fun b => b.lanes &&& x.lanes == 0, posting := x.c.posting.filter fun p => p.lanes &&& x.lanes == 0 }

/-- A group that waits for the commands below `x.bound`. -/
def Ctx.bounded (x : Ctx) : Crew := { x.freed with bounds := x.freed.bounds ++ [⟨x.pc, x.lanes, x.bound⟩] }

/-- HOIST and HOISTM: the destination, the cores named, K of the record, the destination, the slice and the bitmap or sync word, and
what that word's offset must be a multiple of (12 R207, R214). -/
def hoistParts (i : Instr) : Option (HoistDst × Option (BitVec 4) × KReg × KReg × KReg × KReg × Nat) :=
  match i with
  | .hoist sel r d sl y => some (sel, none, r, d, sl, y, 32)
  | .hoistm r d sl y m => if m = 0 then none else some (.scratch, some m, r, d, sl, y, 128)
  | _ => none

/-- The matrix command that an instruction queues, its operands being in order, and its ranges on each core that it acts on; `s` is the
machine once the gang holds the engine (07 R144, R148, R151 to R153). -/
def matrixOp (x : Ctx) (s : State) (i : Instr) : Option (MxOp × (Nat → List LockRange)) :=
  match i with
  | .mxloop sp acc a b cnt inc cl pair =>
    let pa := x.k a
    let pb := x.k b
    let count := ((x.k cnt).extractLsb' 0 32).toNat
    let start := ((x.k cnt).extractLsb' 32 32).toNat
    let inca := ((x.k inc).extractLsb' 0 32).toNat
    let incb := ((x.k inc).extractLsb' 32 32).toNat
    if sp ≠ 3 ∧ pair.toNat < 12 ∧ (cl = true → x.g.cluster = true ∧ sp = 0) ∧ (pa.toNat < 4 ∨ scrMult pa 256 = true) ∧
        (pb.toNat < 2 ∨ scrMult pb 256 = true) ∧ inca % 256 = 0 ∧ incb % 256 = 0 ∧ (pb.toNat < 2 → incb = 0) then
      some (.loop acc.toNat sp.toNat pa pb count start inca incb pair.toNat cl false,
        fun c => loopRanges s { x.ag with core := some c } acc.toNat sp.toNat pa pb count start inca incb pair.toNat)
    else none
  | .mxwb mode src ctl len =>
    let n := (x.k len).toNat
    let half := ((x.k ctl).extractLsb' 0 1).toNat
    let f := ((x.k ctl).extractLsb' 1 5).toNat
    if (x.k ctl).toNat < 64 ∧ weightFmt f = true ∧ 256 ≤ n ∧ n ≤ 1048576 ∧ n % 256 = 0 ∧ (x.k src = 0 ∨ scrMult (x.k src) 256 = true) then
      some (.wb mode (x.k src) half ((fmtOf f).getD .i8) n,
        fun _ => wbufRange half true :: if x.k src = 0 then [] else operandRange s x.ag (x.k src) n)
    else none
  | .mxclr cl kind acc => if cl = true ∧ x.g.cluster = false then none else some (.clr acc.toNat kind cl, fun _ => [accRange acc.toNat true])
  | .mxst dst ctl stride =>
    let c := x.k ctl
    let acc := (c.extractLsb' 0 2).toNat
    let cl := c.getLsbD 7
    let kind := (s.core x.core).mx.issuedKind.getD acc false
    let n := (x.k stride).toNat
    let side := if cl then 256 else 128
    match fmtOf (c.extractLsb' 2 5).toNat with
    | some f =>
      if c.toNat < 256 ∧ kindsAllow s x.core acc cl (fun k => storeTarget k f) = true ∧ spaceOf (x.k dst) ∈ [0, 1, 2, 3, 7] ∧ low60 (x.k dst) % fmtWidth f = 0 ∧
          n % fmtWidth f = 0 ∧ side * fmtWidth f ≤ n ∧ (cl = true → x.g.cluster = true) then
        some (.st (x.k dst) acc f cl n kind 0,
          fun c => accRange acc false :: if c = x.core then lockRange s x.ag (x.k dst) ((side - 1) * n + side * fmtWidth f) true else [])
      else none
    | none => none
  | .mxld ctl off =>
    let c := x.k ctl
    let acc := (c.extractLsb' 0 2).toNat
    let buf := (c.extractLsb' 2 2).toNat
    let cl := c.getLsbD 9
    let kind := (s.core x.core).mx.issuedKind.getD acc false
    match fmtOf (c.extractLsb' 4 5).toNat with
    | some f =>
      if c.toNat < 1024 ∧ kindsAllow s x.core acc cl (fun k => loadTarget k f) = true ∧ (x.k off).toNat % 256 = 0 ∧ (x.k off).toNat + 16384 * fmtWidth f ≤ 262144 ∧
          (cl = true → x.g.cluster = true) then
        some (.ld acc buf f cl (x.k off).toNat kind 0, fun _ => [accRange acc false, abufRange buf true])
      else none
    | none => none
  | _ => none

/-- The spring command that an instruction queues, the cause that its operands give, whether its group waits, and what becomes of the
core's data cache first (13 R231 to R234; 14 R242). -/
def springParts (x : Ctx) (i : Instr) : Option (Option (Nat × Dword) × SpOp × Bool × State) :=
  let home : State := writeBackAll x.st x.core
  match i with
  | .spload a => some (loadCause (x.k a), .load (x.k a) none, true, home)
  | .spclamp r v => some (rangeCause (x.k r), .clamp (rangeFirst (x.k r)) (rangeCount (x.k r)) (x.k v) [], true, home)
  | .spclampFree r => some (rangeCause (x.k r), .free (rangeFirst (x.k r)) (rangeCount (x.k r)), true, home)
  | .spclampSet r v => some (rangeCause (x.k r), .set (rangeFirst (x.k r)) (rangeCount (x.k r)) (x.k v) [], true, home)
  | .spsweep n b clr => some (sweepCause (x.k n) (x.k b), sweepOp (x.k n) (x.k b) clr, false, x.st)
  | .spread d r =>
    some (rangeCause (x.k r), .read (x.k d) (rangeFirst (x.k r)) (rangeCount (x.k r)) false false 0, true,
      readEnter x.st x.ag x.core (x.k d) (x.k r) false)
  | .spreadOnes d r clr =>
    some (rangeCause (x.k r), .read (x.k d) (rangeFirst (x.k r)) (rangeCount (x.k r)) true clr 0, true,
      readEnter x.st x.ag x.core (x.k d) (x.k r) true)
  | _ => none

/-- The elements of a chunk of a copy from the `done`-th on, one after another (12 R208, R209). -/
def chunkCopied (s : State) (y : EngCmd) (h : HoistCopy) (l : Layout) (k done : Nat) : Except (Dword × Nat × Nat) State :=
  ((chunkElems l h.slices k).drop done).foldlM (fun t e =>
    copyElem t (y.agent s) y.id h (h.cores y.core) l (e % l.cols) (e / l.cols) (4096 * k) (4096 * k + 4096)) s

/-- Bit `k` of storage. -/
def Memory.bitAt (m : Memory) (k : Nat) : Bool := (m.byte (k / 8)).getLsbD (k % 8)

/-- The list of a lane after TKINS: the candidate stands before the first entry that it ranks above, and the last entry leaves (17
R266, R267). -/
def listAfter (a x : Word) (l : List (Word × Word)) : List (Word × Word) :=
  match insertAt a x l with
  | some p => (l.take p ++ (a, x) :: l.drop p).take l.length
  | none => l

/-- Bit number `i` of a domain as a task has buffered it (20 R305): none when the task has written no such bit. -/
def Task.bufferedBit (t : Task) (dom : LockDom) (i : Nat) : Option Bool :=
  match t.writes.find? fun w => w.dom == dom && w.line == i / 512 with
  | some w => if w.mask.getLsbD (i % 512) then some (w.data.getLsbD (i % 512)) else none
  | none => none

/-- No task after `t` has read a line that the `n` bits from bit number `a` of a domain touch (20 R306). -/
def NoLaterReader (s : State) (launch : Nat) (t : Task) (dom : LockDom) (a n : Nat) : Prop :=
  ∀ u ∈ (unitOf s launch).tasks, tagLt t.tag u.tag = true → ∀ r ∈ u.reads, ¬(r.1 = dom ∧ a / 512 ≤ r.2 ∧ r.2 ≤ (a + n - 1) / 512)

/-- The inlet of pond `d` can perform the operation at its head (09 R182, R183, R190). -/
def InletServes (s : State) (part slot : Nat) (d : Pond) (op : PondOp) (rest : List PondOp) : Prop :=
  s.pond? part slot = some d ∧ d.ops = op :: rest ∧ d.opPaused = false ∧ d.away s = false ∧ d.paused = [] ∧ d.broken = false

/-- A cross-lane instruction of the group at the head of its lanes' arrivals reads sources that it takes: its own operands are in order (05
R101 step 1), and `(d, f, val)` is what they combine to. -/
def Ctx.CrossOwn (x : Ctx) (i : Instr) (m : MReg) (d : Reg) (f : Fmt) (val : Nat → Word) : Prop :=
  memberMask i = some m ∧ ∃ a b n n', (x.c.seenBy x.arrived).readCode 0 (crossSources i).1 = .ok (a, n) ∧
    (x.c.seenBy x.arrived).readCode n (crossSources i).2 = .ok (b, n') ∧ crossLane i a b (x.c.needed (x.c.mask m.toNat)) = some (d, f, val)

/-- Two elements of one k-pair, position `p` of row `i` and column `j`, in the blocks that a step fetches (07 R143). -/
def stepPair (a b : List Nat) (i j p : Nat) : Nat × Nat := (a.getD (2 * i + p) 0, b.getD (2 * j + p) 0)

/-- The exact product of two elements of an integer format pair (06 R125, R127). -/
def intProduct (pair : Nat) (q : Nat × Nat) : Int :=
  signedOf (fmtWidth (pairFmts pair).1) q.1 * signedOf (fmtWidth (pairFmts pair).2) q.2

/-- The words of the lode units (04 R84, R85), which `decode` does not read. -/
def lodeWord (i : Instr) : Bool :=
  match i with
  | .chpush _ _ _ => true
  | .lexit => true
  | .lodeInstruction _ => true
  | _ => false

end Sys2Proof.Machine
end

