-- ==== Sys2Proof/Certificates/Slice0/Obligations.lean ====
section
/-! DEFINITION. Certificates/Slice0/Obligations.lean: the statements for the provers. OBLIGATIONS.json lists them with the
rules of spec/ that each formalises. -/

open Sys2Proof Sys2Proof.Machine

/-! ## Vector arithmetic -/

/-- R91 to R93, R67, R133, R134: every two-source integer instruction completes with its result in each lane of the group, the tag of its
rule, and every other register and live lane as before; so does every floating-point instruction of two sources, with the exact result of each
lane, rounded once. -/
def Obligations.TwoSourceResults : Prop :=
  ∀ (x : Ctx) (i : Instr) (t : TwoSource) (p q : Opnd), integerTwo i = some t ∨ floatTwo i = some t → x.Issues i → x.read [] t.a = .ok p →
    x.read [t.a] t.b = .ok q → t.ok p q = true → x.Result32 i t.d (t.fmt p q) (t.val p q)

/-- R92, R95, R96, R136 to R139; log 89, the model's choice: counts, bit reversal, the immediate forms, MOV and RETAG of 32-bit formats, SHAPEQ and
FMTQ; transcendental functions, conversions and sign operations. A 64-bit source of a conversion lies in an even register. That SHAPEQ and FMTQ of
the odd register of a pair answer as for the register itself is the model's choice (log 89). -/
def Obligations.OneSourceResults : Prop :=
  (∀ (x : Ctx) (i : Instr) (t : OneSource) (p : Opnd), integerOne i = some t ∨ moveOne i = some t → x.Issues i → x.read [] t.a = .ok p →
    t.ok p = true → x.Result32 i t.d (t.fmt p) (t.val p)) ∧
  ∀ (x : Ctx) (i : Instr) (t : OneSource) (p : Opnd), floatOne i = some t → x.Issues i → x.read [] t.a = .ok p →
    t.ok p = true → (p.isWide = true → x.c.oddWide t.a = false) → x.Result32 i t.d (t.fmt p) (t.val p)

/-- R91, R93, R133: the instructions that read D as a third source complete with the result of the three. -/
def Obligations.ThreeSourceResults : Prop :=
  ∀ (x : Ctx) (i : Instr) (t : ThreeSource) (p q o : Opnd), threeSource i = some t → x.Issues i → x.read [] t.a = .ok p →
    x.read [t.a] t.b = .ok q → x.read [t.a, t.b] t.d = .ok o → t.ok p q o = true → x.Result32 i t.d (t.fmt p q o) (t.val p q o)

/-- R91, R95, R97, R98, R137: 64-bit arithmetic, pointer arithmetic, MOV and RETAG of pairs, PALIGN and conversions to 64 bits write a
pair. -/
def Obligations.WideResults : Prop :=
  (∀ (x : Ctx) (i : Instr) (t : TwoWide) (p q : Opnd), wideTwo i = some t → x.Issues i → x.read [] t.a = .ok p →
     x.read [t.a] t.b = .ok q → t.ok p q = true → (∀ r ∈ t.even, x.c.oddWide r = false) →
     (∀ j, j < 32 → x.lanes.getLsbD j = true → wideLane i p q j = true) → x.Result64 i t.d (t.fmt p q) (t.val p q)) ∧
  ∀ (x : Ctx) (i : Instr) (d a : Reg) (ok : Opnd → Bool) (val : Opnd → Nat → Dword) (fmt : Opnd → Fmt) (p : Opnd),
    wideOne i = some (d, a, ok, val, fmt) → x.Issues i → x.read [] a = .ok p → ok p = true →
    (p.isWide = true → x.c.oddWide a = false) → (d.toNat < 112 → d.toNat % 2 = 0) → x.Result64 i d (fmt p) (val p)

/-- R96, R98, R100, R109: results that need no vector source, KTOV of both widths, and questions about pointers. -/
def Obligations.ConstantAndPointerResults : Prop :=
  (∀ (x : Ctx) (i : Instr) (d : Reg) (f : Fmt) (w : Word), constant32 x i = some (d, f, w) → x.Issues i → x.Result32 i d f fun _ => w) ∧
  (∀ (x : Ctx) (d : Reg) (k : KReg) (c : BitVec 7) (f : Fmt), fmtOf c.toNat = some f → fmtWide f = true → x.Issues (.ktov d k c) →
    x.Result64 (.ktov d k c) d f fun _ => x.k k) ∧
  (∀ (x : Ctx) (i : Instr) (d a : Reg) (f : Dword → Nat) (p : Opnd), pointerQuestion x i = some (d, a, f) → x.Issues i →
    x.read [] a = .ok p → p.isPair a classP = true → x.c.oddWide a = false →
    x.Result32 i d .n32 fun j => BitVec.ofNat 32 (f (p.wide j)))

/-- R94, R109, R135, R68: SEL takes A where the mask is set and B elsewhere, in the common format of its sources; every instruction with a
mask destination changes the bits of the group's lanes and no others. -/
def Obligations.SelectAndMaskResults : Prop :=
  (∀ (x : Ctx) (d a b : Reg) (nw : Bool) (m : MReg) (p q : Opnd) (f : Fmt), x.Issues (.sel d a b nw m) → x.read [] a = .ok p →
    x.read [a] b = .ok q → commonFmt (p.beside a q) (q.beside b p) .n32 = some f → p.isIn classAny32 = true → q.isIn classAny32 = true →
    x.ResultLanes (.sel d a b nw m) d f fun j => fitted f (if (x.c.mask m.toNat).getLsbD j then p.lo.lane j else q.lo.lane j)) ∧
  (∀ (x : Ctx) (c : ICond) (m : MReg) (a b : Reg) (p q : Opnd), x.Issues (.icmp c m a b) → x.read [] a = .ok p → x.read [a] b = .ok q →
    p.isX = true → q.isX = true → x.ResultM (.icmp c m a b) m fun j => intTest c (p.lo.lane j) (q.lo.lane j)) ∧
  (∀ (x : Ctx) (c : ICond) (m : MReg) (a : Reg) (n : BitVec 11) (p : Opnd), x.Issues (.icmpi c m a n) → x.read [] a = .ok p → p.isX = true →
    x.ResultM (.icmpi c m a n) m fun j => intTest c (p.lo.lane j) (n.signExtend 32)) ∧
  (∀ (x : Ctx) (c : BitVec 3) (m : MReg) (a b : Reg) (p q : Opnd) (f : Fmt), x.Issues (.fcmp c m a b) → x.read [] a = .ok p →
    x.read [a] b = .ok q → floatFmt p q = some f → x.ResultM (.fcmp c m a b) m fun j =>
      fcmpHolds c.toNat (binValue (fltOf f) (p.lo.lane j).toNat) (binValue (fltOf f) (q.lo.lane j).toNat)) ∧
  (∀ (x : Ctx) (m : MReg) (a : Reg) (p : Opnd), x.Issues (.mset m a) → x.read [] a = .ok p → p.isX = true →
    x.ResultM (.mset m a) m fun j => p.lo.lane j != 0) ∧
  ∀ (x : Ctx) (i : Instr) (m : MReg) (f : Nat → Bool), maskOnly x i = some (m, f) → x.Issues i → x.ResultM i m f

/-- R99, R100, R111, R112: uniform arithmetic, moves, KPOP, SRR and CYCLE, and lanes brought into a k register. -/
def Obligations.UniformResults : Prop :=
  (∀ (x : Ctx) (i : Instr) (d : KReg) (v : Dword), uniformOnly x i = some (d, v) → x.Issues i → x.ResultK i d v) ∧
  ∀ (x : Ctx) (i : Instr) (d : KReg) (a : Reg) (f : Opnd → Dword) (p : Opnd), uniformLane x i = some (d, a, f) → x.Issues i →
    x.read [] a = .ok p → (p.isWide = true → x.c.oddWide a = false) → x.ResultK i d (f p)

/-- R101 to R105: a cross-lane instruction whose live members are all in the issuing group completes with the combination of
their values, absent lanes giving the identity. -/
def Obligations.CrossLaneResults : Prop :=
  ∀ (x : Ctx) (i : Instr) (m : MReg) (a b : Opnd) (n n' : Nat) (d : Reg) (f : Fmt) (val : Nat → Word), memberMask i = some m → x.Issues i →
    (x.c.seenBy x.lanes).readCode 0 (crossSources i).1 = .ok (a, n) → (x.c.seenBy x.lanes).readCode n (crossSources i).2 = .ok (b, n') →
    crossLane i a b (x.c.needed (x.c.mask m.toNat)) = some (d, f, val) → subMask x.lanes (x.c.mask m.toNat) = true →
    x.c.arrivedAt x.pc = [] → subMask x.lanes x.c.active = true → subMask (x.c.needed (x.c.mask m.toNat)) x.lanes = true →
    x.ResultLanes i d f val

/-- R101: a cross-lane instruction whose members arrive in several groups. A group with a lane outside the member mask traps MEMBER_SELF, and one
whose mask differs from that of the groups already there traps MEMBER_MISMATCH. While a live member is missing a group waits with WHY 2. With the
last arrival the instruction completes: every arrived lane gets the combination and goes on at the next word, what the first group has popped
leaves the chute, and the latch history advances once. -/
def Obligations.CrossLaneGroups : Prop :=
  (∀ (x : Ctx) (i : Instr) (m : MReg) (d : Reg) (f : Fmt) (val : Nat → Word), x.Issues i → x.CrossOwn i m d f val →
    let mask := x.c.mask m.toNat
    (subMask x.lanes mask = false → exec i x.st = .next (issueTrap x Cause.memberSelf 0)) ∧
    (subMask x.lanes mask = true → (∃ a ∈ x.others, a.members ≠ mask) → exec i x.st = .next (issueTrap x Cause.memberMismatch 0)) ∧
    (subMask x.lanes mask = true → (∀ a ∈ x.others, a.members = mask) → subMask (x.c.needed mask) x.arrived = false →
      x.WaitsIn i x.st { (if x.others = [] then x.c.takePops (popsOf i) x.lanes else x.c) with
        arrivals := x.c.arrivals ++ [⟨x.pc, i, mask, x.lanes, x.c.wbase, x.c.lhist⟩] } .members false)) ∧
  ∀ (x : Ctx) (i : Instr) (m : MReg) (d : Reg) (f : Fmt) (val : Nat → Word), x.Issues i → x.CrossOwn i m d f val → isNW i = false →
    x.others ≠ [] →
    let mask := x.c.mask m.toNat
    let before := arrivedLanes x.others
    (∀ a ∈ x.others, a.members = mask ∧ a.wbase = x.c.wbase ∧ a.lhist = x.c.lhist) → before &&& x.lanes = 0 → subMask x.lanes mask = true →
    x.c.needed mask = x.arrived →
    ∃ c, exec i x.st = .next (x.become c) ∧
      (∀ j, j < 32 → c.lane j = if x.lanes.getLsbD j then ⟨nextPc x.pc, .ready, 0⟩
        else if before.getLsbD j then ⟨nextPc (x.c.lane j).pc, .ready, 0⟩ else x.c.lane j) ∧
      c = { x.c with
        regs := c.regs, pcs := c.pcs, tied := x.c.tied &&& ~~~before &&& ~~~x.lanes, cwaits := x.c.cwaits &&& ~~~before &&& ~~~x.lanes
        fifo := ((x.c.joinTaken before x.lanes).pop i x.lanes).fifo, lhist := advanceHist x.c.lhist d.toNat, chain := none
        arrivals := x.c.arrivals.filter fun a => !x.others.contains a } ∧
      if 112 ≤ d.toNat then c.regs = x.c.regs else Put32 x.c c x.arrived d.toNat f val

/-! ## Control, traps and system registers -/

/-- R106, R278; log 6, the model's reading: a target keeps the space of the program counter and moves by OFF21 words; BRA sends the lanes whose mask bit
is set (clear with NEG) to it and the others to the next word; CALL sends the whole crew and leaves the return address in k15, and traps in a group
that is not all of it; BRX and RET go to a checked address. JSET keeps such a target. The fields that must be 0 and the SUB values that are no
function. That BRX and RET trap with EVAL 0 is the model's reading of R278 (log 6). -/
def Obligations.BranchResults : Prop :=
  (∀ (x : Ctx) (p : MReg) (neg : Bool) (off : BitVec 21), x.Issues (.bra p neg off) →
    ∃ c, exec (.bra p neg off) x.st = .next (x.become c) ∧
      c = x.gone c ∧
      ∀ j, j < 32 → c.lane j = if x.lanes.getLsbD j then
        ⟨if (x.c.mask p.toNat).getLsbD j = !neg then branchTarget x.pc off else nextPc x.pc, .ready, 0⟩ else x.c.lane j) ∧
  (∀ (x : Ctx) (off : BitVec 21), x.Issues (.call off) → subMask x.c.active x.lanes = true →
    ∃ c, exec (.call off) x.st = .next (x.become c) ∧
      c = { x.gone c with k := x.c.k.set 15 (nextPc x.pc) } ∧
      x.Lanes (fun _ => ⟨branchTarget x.pc off, .ready, 0⟩) c) ∧
  (∀ (x : Ctx) (i : Instr) (k : KReg), i = .brx k ∨ (i = .ret ∧ k = 15) → x.Issues i → isDev (x.k k) = true → (x.k k).toNat % 32 = 0 →
    ∃ c, exec i x.st = .next (x.become c) ∧
      c = x.gone c ∧
      x.Lanes (fun _ => ⟨x.k k, .ready, 0⟩) c) ∧
  (∀ (pc : Dword) (off : BitVec 21), spaceOf (branchTarget pc off) = spaceOf pc ∧
    (low60 (branchTarget pc off) : Int) = (low60 pc + 32 * off.toInt) % 2 ^ 60) ∧
  (∀ (x : Ctx) (j : MReg) (off : BitVec 21), x.Issues (.jset j off) → (x.c.j.getD j.toNat JReg.reset).st ≠ .await →
    ∃ c, exec (.jset j off) x.st = .next (x.become c) ∧ (c.j.getD j.toNat JReg.reset).target = branchTarget x.pc off) ∧
  (∀ (x : Ctx) (off : BitVec 21), x.Issues (.call off) → subMask x.c.active x.lanes = false →
    exec (.call off) x.st = .next (issueTrap x Cause.callDiverged 0)) ∧
  (∀ (x : Ctx) (i : Instr) (k : KReg), i = .brx k ∨ (i = .ret ∧ k = 15) → x.Issues i →
    (isDev (x.k k) = false → exec i x.st = .next (issueTrap x Cause.fetchSpace 0)) ∧
    (isDev (x.k k) = true → (x.k k).toNat % 32 ≠ 0 → exec i x.st = .next (issueTrap x Cause.misaligned 0))) ∧
  ∀ w : Word, w.extractLsb' 25 7 = 0x3D → (4 ≤ (w.extractLsb' 21 4).toNat → decode w = .error .undefFunction) ∧
    ((w.extractLsb' 21 4).toNat < 4 → w.extractLsb' 17 4 ≠ 0 → decode w = .error .reservedNonzero)

/-- R77, R78, R80, R68, R86, R54, R107, R112: JSET, and the instructions at which a group stops going on: JWAIT holds it, EXIT ends its
threads and clears their mask bits, REPACK makes it wait with its key. WINBASE moves the window and makes every latch invalid; NOP and YIELD
write no register. -/
def Obligations.JoinExitWindowResults : Prop :=
  ((∀ (x : Ctx) (j : MReg) (off : BitVec 21), x.Issues (.jset j off) → (x.c.j.getD j.toNat JReg.reset).st ≠ .await →
    ∃ c, exec (.jset j off) x.st = .next (x.become c) ∧ x.Lanes (fun _ => ⟨nextPc x.pc, .ready, 0⟩) c ∧
      c = { x.gone c with j := x.c.j.set j.toNat ⟨x.lanes, 0, branchTarget x.pc off, .set⟩ }) ∧
  (∀ (x : Ctx) (j : MReg), x.Issues (.jwait j) → (x.c.j.getD j.toNat JReg.reset).st ≠ .idle →
    subMask x.lanes (x.c.j.getD j.toNat JReg.reset).mask = true →
    ∃ c, exec (.jwait j) x.st = .next (x.settles c) ∧ x.Lanes (fun e => { e with st := .join, age := 0 }) c ∧
      c = { x.c with pcs := c.pcs, j := x.c.j.set j.toNat { x.c.j.getD j.toNat JReg.reset with
        arrived := (x.c.j.getD j.toNat JReg.reset).arrived ||| x.lanes, st := .await } }) ∧
  (∀ (x : Ctx), x.Issues .exit → ∃ c, exec .exit x.st = .next (x.settles c) ∧ x.Lanes (fun e => { e with st := .exited, age := 0 }) c ∧
    c = { x.c with pcs := c.pcs, m := x.c.m.map fun v => v &&& ~~~x.lanes }) ∧
  ∀ (x : Ctx) (d a : Reg) (p : Opnd), x.Issues (.repack d a) → x.read [] a = .ok p → p.isX = true →
    (∀ r ∈ x.c.j, r.st = .idle) →
    ∃ c, exec (.repack d a) x.st = .next (x.settles c) ∧ x.Lanes (fun e => { e with st := .wait .repack, age := 0 }) c ∧
      c = { x.c with
        pcs := c.pcs, arrivals := x.c.arrivals ++ [⟨x.pc, .repack d a, 0, x.lanes, x.c.wbase, x.c.lhist⟩]
        fifo := takeFirst x.lanes (popsOf (.repack d a)) x.c.fifo, repackLanes := x.c.repackLanes ||| x.lanes }) ∧
  (∀ (x : Ctx) (i : Instr) (b : Dword), (∃ n : BitVec 5, i = .winbase n ∧ b = n.zeroExtend 64) ∨ (∃ k, i = .winbaseK k ∧ b = x.k k) →
    x.Issues i → b.toNat < x.c.regs16 →
    ∃ c, exec i x.st = .next (x.become c) ∧ x.Lanes (fun _ => ⟨nextPc x.pc, .ready, 0⟩) c ∧
      c = { x.gone c with wbase := b.extractLsb' 0 5, lhist := 0 }) ∧
  (∀ x : Ctx, x.Issues .nop → x.ResultNone .nop) ∧
  ∀ x : Ctx, x.Issues .yield →
    ∃ c, exec .yield x.st = .next (x.become c) ∧ x.Lanes (fun _ => ⟨nextPc x.pc, .ready, 0⟩) c ∧
      c = { x.gone c with lastIssue := issueTime x.st, yielded := true }

/-- R61, R279, R311, R312, R83; log 41, the model's reading: what stops an instruction before it acts: a trap of decoding, with the word in EVAL; the
instructions that handler mode, an ordered launch or another launch forbids; in a speculative task an irrevocable operation waits until the task is
at the frontier; a chute with too few entries is waited for while the lode thread runs. That they are asked in this order is the model's reading
(log 41). -/
def Obligations.ChecksBeforeAnInstructionActs : Prop :=
  (∀ (x : Ctx) (i : Instr), x.Group → (encode i).isSome = true → lodeWord i = false →
    let traps (cause : Nat) (eval : Dword) : Prop := exec i x.st = .next (issueTrap x cause eval)
    let waits (why : Why) : Prop := ∃ c, exec i x.st = .next (x.settles c) ∧ x.Lanes (fun e => { e with st := .wait why, age := 0 }) c ∧
      c = { x.c with pcs := c.pcs }
    let word : Dword := decodeEval ((encode i).getD 0) x.c
    (∀ e, staticErr i = some e → traps (StaticErr.cause e) word) ∧
    (staticErr i = none → chainBroken i x.c x.lanes = true → traps Cause.chainIllegal word) ∧
    (staticErr i = none → chainBroken i x.c x.lanes = false → rangeBroken i x.c = true → traps Cause.regRange word) ∧
    (staticErr i = none → chainBroken i x.c x.lanes = false → rangeBroken i x.c = false →
      (x.c.inHandler = true → handlerForbids i = true → traps Cause.doubleTrap 0) ∧
      ((x.c.inHandler && handlerForbids i) = false → (if gangOrdered x.st x.gid then orderedForbids i else needsTask i) = false →
        ((∃ l t, x.mode = .spec l t) → irrevocable i x.c = true → waits .frontier) ∧
        ((∀ l t, x.mode ≠ .spec l t) → (x.c.seenBy x.arrived).chute.length < needsOf i →
          (x.g.lode.st = .running → waits .chute) ∧ (x.g.lode.st ≠ .running → traps Cause.chuteOrphan 0))))) ∧
  ∀ (x : Ctx) (i : Instr), x.Group → staticErr i = none → chainBroken i x.c x.lanes = false → rangeBroken i x.c = false →
    (x.c.inHandler && handlerForbids i) = false →
    (gangOrdered x.st x.gid = true →
      ((∃ b, i = .bar b ∨ i = .barArrive b ∨ i = .barWait b) ∨ (∃ d a, i = .repack d a) ∨ (∃ k d c n b, i = .hoist k d c n b) ∨
        (∃ k d c n b, i = .hoistm k d c n b)) → exec i x.st = .next (issueTrap x Cause.taskOutside 0)) ∧
    (gangOrdered x.st x.gid = false →
      ((∃ e t a n, i = .tspawn e t a n) ∨ i = .tend ∨ (∃ d, i = .tqry d) ∨ (∃ n d, i = .tqryTask n d) ∨ i = .twaitw ∨
        (∃ d r, i = .srr d r ∧ 0x050 ≤ r.toNat ∧ r.toNat ≤ 0x056)) → exec i x.st = .next (issueTrap x Cause.taskOutside 0))

/-- R278: taking a trap writes CAUSE, EPC, EVAL, TSTAT, ELANES and ELHIST, makes every latch invalid and sends the group to TVEC;
ESCRATCH and TVEC stay. The crew is not in handler mode, has a handler and runs no speculative task. So for the instructions that trap on
purpose, and for the operation that every trap of an instruction goes through. -/
def Obligations.TrapEntryResults : Prop :=
  (∀ (x : Ctx) (i : Instr) (cause : Nat) (eval : Dword), trapsOnPurpose x i = some (cause, eval) → x.Issues i →
    x.c.inHandler = false → x.c.trap.tvec ≠ 0xFFFFFFFFFFFFFFFF → specTask x.st x.g x.c = none →
    ∃ c, exec i x.st = .next (afterIssue (settle (x.unheld.modCrew x.gid x.ci fun _ => c) x.gid) x.gid) ∧
      x.c.TrapsTo c x.lanes x.pc cause eval false ∧
      (x.unheld.gangs = x.st.gangs ∧ x.unheld.mem = x.st.mem ∧ ((x.st.core x.core).faultBuf = [] → x.unheld = x.st))) ∧
  ∀ (s : State) (gid ci : Nat) (g : Gang) (c : Crew) (lanes : Mask) (pc : Dword) (cause : Nat) (eval : Dword) (engine : Bool),
    s.gang? gid = some g → s.crew? gid ci = some c → c.Shaped → subMask lanes c.live = true → specTask s g c = none → c.inHandler = false →
    c.trap.tvec ≠ 0xFFFFFFFFFFFFFFFF →
    ∃ c', takeTrap s gid ci lanes pc cause eval engine = s.modCrew gid ci (fun _ => c') ∧ c.TrapsTo c' lanes pc cause eval engine

/-- R279, R281: a trap in handler mode, and a trap of a crew without a handler, end the gang FAULTED with a trap record. -/
def Obligations.UnhandledTraps : Prop :=
  ∀ (x : Ctx) (i : Instr) (cause : Nat) (eval : Dword) (g : Gang) (l : Launch), trapsOnPurpose x i = some (cause, eval) → x.Issues i →
    x.st.gang? x.gid = some g → x.st.launch? g.launch = some l → specTask x.st x.g x.c = none →
    let ended (c : Crew) (cause orig : Nat) : State :=
      let s := putRecord (x.unheld.modCrew x.gid x.ci fun _ => c) l.fn (g.core % 256)
        (trapRecord eval cause orig g.core x.c.slot x.lanes (x.c.trapPc x.lanes x.pc).1 l.handle.toNat) 2
      let s := s.modLaunch g.launch fun l => { l with counter := if l.counter.st = .cancelled then l.counter else { l.counter with st := .faulted } }
      afterIssue (settle (stopGang s x.gid .faulted) x.gid) x.gid
    (x.c.inHandler = true → ∃ c, c.slot = x.c.slot ∧ c.trap = x.c.trap ∧ exec i x.st = .next (ended c 160 cause)) ∧
    (x.c.inHandler = false → x.c.trap.tvec = 0xFFFFFFFFFFFFFFFF →
      ∃ c, x.c.TrapsTo c x.lanes x.pc cause eval false ∧ exec i x.st = .next (ended c 161 cause))

/-- R280, R279; log 5, the model's choice: ERET in the handler waits for the other handler lanes; when all of them have come every one goes on at EPC
and handler mode ends, and not before; then groups that the handler held look again at what they wait for; an EPC that is no code address traps
there. That a held lane which waits for a chute, an engine, the frontier or a queue becomes READY with AGE 0 then is the model's choice (log 5). -/
def Obligations.EretResults : Prop :=
  (∀ x : Ctx, x.Issues .eret → x.c.inHandler = true → isDev x.c.trap.epc = true → x.c.trap.epc.toNat % 32 = 0 →
    ∃ c, exec .eret x.st = .next (x.settles c) ∧ x.Lanes (fun e => { e with st := .wait .members, age := 0 }) c ∧
      c = { x.c with pcs := c.pcs, eretLanes := x.c.eretLanes ||| x.lanes }) ∧
  (∀ c : Crew, c.Shaped →
    c.leaveHandler = { c with
      pcs := c.leaveHandler.pcs, tied := c.tied &&& ~~~c.handlerLanes, cwaits := c.leaveHandler.cwaits
      eretLanes := 0, trap := { c.trap with tstat := c.trap.tstat &&& 0xE } } ∧
    c.leaveHandler.inHandler = false ∧
    let again (j : Nat) : Prop := c.tied.getLsbD j = false ∧ (c.lane j).st ∈ [.wait .chute, .wait .engine, .wait .frontier, .wait .queue]
    ∀ j, j < 32 →
      (c.handlerLanes.getLsbD j = true → c.leaveHandler.lane j = ⟨c.trap.epc, .ready, 0⟩ ∧ c.leaveHandler.cwaits.getLsbD j = false) ∧
      (c.handlerLanes.getLsbD j = false → again j →
        c.leaveHandler.lane j = ⟨(c.lane j).pc, .ready, 0⟩ ∧ c.leaveHandler.cwaits.getLsbD j = false) ∧
      (c.handlerLanes.getLsbD j = false → ¬again j →
        c.leaveHandler.lane j = c.lane j ∧ c.leaveHandler.cwaits.getLsbD j = c.cwaits.getLsbD j)) ∧
  (∀ (s : State) (gid ci : Nat) (c : Crew), s.crew? gid ci = some c → c.Shaped → c.ended = false → c.inHandler = true → c.handlerLanes ≠ 0 →
    (subMask c.handlerLanes c.eretLanes = true → settleCrew s gid ci = settleCrew (s.modCrew gid ci Crew.leaveHandler) gid ci) ∧
    (subMask c.handlerLanes c.eretLanes = false → ∃ d, (settleCrew s gid ci).crew? gid ci = some d ∧ d.inHandler = true)) ∧
  ∀ x : Ctx, x.Issues .eret → x.c.inHandler = true → specTask x.st x.g x.c = none →
    let crew : Crew := { x.freed with fifo := x.c.fifo.map fun e => if e.2 &&& x.lanes = 0 then e else (e.1, 0) }
    let doubleTrap (cause : Nat) : State :=
      afterIssue (settle (unhandled (x.unheld.modCrew x.gid x.ci fun _ => crew) x.gid x.ci Cause.doubleTrap cause 0 x.lanes x.pc) x.gid) x.gid
    (isDev x.c.trap.epc = false → exec .eret x.st = .next (doubleTrap Cause.fetchSpace)) ∧
    (isDev x.c.trap.epc = true → x.c.trap.epc.toNat % 32 ≠ 0 → exec .eret x.st = .next (doubleTrap Cause.misaligned))

/-- R3, R277, R59, R82: SRW writes EPC, ESCRATCH and LHIST, lets a read-only register be written with the value it has, and starts the
lode thread through LODEPC. -/
def Obligations.SystemRegisterWrites : Prop :=
  (∀ (x : Ctx) (k : KReg), x.Issues (.srw k 0x001) → ∃ c, exec (.srw k 0x001) x.st = .next (x.become c) ∧
    x.Lanes (fun _ => ⟨nextPc x.pc, .ready, 0⟩) c ∧
    c = { x.gone c with trap := { x.c.trap with epc := x.k k } }) ∧
  (∀ (x : Ctx) (k : KReg), x.Issues (.srw k 0x006) → ∃ c, exec (.srw k 0x006) x.st = .next (x.become c) ∧
    x.Lanes (fun _ => ⟨nextPc x.pc, .ready, 0⟩) c ∧
    c = { x.gone c with trap := { x.c.trap with escratch := x.k k } }) ∧
  (∀ (x : Ctx) (k : KReg), x.Issues (.srw k 0x021) → histOk (x.k k) = true → ∃ c, exec (.srw k 0x021) x.st = .next (x.become c) ∧
    x.Lanes (fun _ => ⟨nextPc x.pc, .ready, 0⟩) c ∧
    c = { x.gone c with lhist := x.k k }) ∧
  (∀ (x : Ctx) (k : KReg) (r : BitVec 10) (v : Dword), x.Issues (.srw k r) → sysReg x r.toNat = some (.ro, v) → x.k k = v →
    x.ResultNone (.srw k r)) ∧
  ∀ (x : Ctx) (k : KReg) (i : Instr), i = .lodepc k ∨ i = .srw k 0x025 → x.Issues i → isDev (x.k k) = true → (x.k k).toNat % 16 = 0 →
    x.g.lode.st ≠ .running →
    exec i x.st = .next (afterIssue (((x.st.modGang x.gid fun g => { g with lode := ⟨.running, x.k k,
      (List.range 31).map fun n =>
        if n = 9 then (match x.launch with | some l => l.args | none => 0) else if n = 10 then BitVec.ofNat 64 x.g.index
        else if n = 11 then BitVec.ofNat 64 x.g.crews.length else if n = 12 then BitVec.ofNat 64 x.c.index else 0, none⟩ }).modCrew x.gid x.ci
      fun c => c.release x.lanes nextPc)) x.gid)

/-! ## Memory -/

/-- R173, R175, R179: loads complete with what their lanes read, extended to the container of their tag; LDK reads one element into a k
register. Loads change no byte of storage. PF completes; what it brings into the data cache changes nothing else. -/
def Obligations.LoadAndPrefetchResults : Prop :=
  ((∀ (x : Ctx) (i : Instr) (sg : Bool) (d : Reg) (k : KReg) (o : Reg) (w : BitVec 4) (n : BitVec 3) (v : Opnd) (es : List Elem) (s s' : State)
    (vals : List (Nat × Nat)), loadParts i = some (sg, d, k, o, w, n) → x.Issues i → x.read [] o = .ok v → v.isX = true →
    x.Checks (x.elems x.lanes k o v n (widthOf w.toNat)) ⟨widthOf w.toNat, .plain (widthOf w.toNat), .read, false⟩ es s →
    runLocal x.readElem es s = .ok (vals, s') →
    s'.mem = x.st.mem ∧
    ∃ l c, x.CompletesIn i l (dropHeld s' x.core x.gid x.ci x.pc x.lanes) c ∧ c.m = x.c.m ∧ c.k = x.c.k ∧
      Loaded x.c c x.lanes d sg (widthOf w.toNat) (laneVal vals)) ∧
  ∀ (x : Ctx) (d k : KReg) (o : Reg) (w : BitVec 4) (n : BitVec 3) (v : Opnd) (e : Elem) (s s' : State) (b : Nat),
    x.Issues (.ldk d k o w n) → x.read [] o = .ok v → v.isX = true →
    x.Checks (x.elems (laneMask x.low) k o v n (widthOf w.toNat)) ⟨widthOf w.toNat, .plain (widthOf w.toNat), .read, false⟩ [e] s →
    x.readElem s e = (some b, s') →
    s'.mem = x.st.mem ∧ x.GivesK (.ldk d k o w n) (dropHeld s' x.core x.gid x.ci x.pc x.lanes) d (BitVec.ofNat 64 b)) ∧
  ∀ (x : Ctx) (k : KReg) (o : Reg) (w : BitVec 4) (n : BitVec 3) (v : Opnd), x.Issues (.pf k o w n) → x.read [] o = .ok v → v.isX = true →
    ∃ s, x.GoesOn (.pf k o w n) s ∧ s.mem = x.st.mem ∧ s.gangs = x.st.gangs ∧ s.cmds = x.st.cmds ∧
      (∀ c, c ≠ x.core → s.cores[c]? = x.st.cores[c]?) ∧ ∀ key, seenBit s x.core key = seenBit x.st x.core key

/-- R174, R175: stores complete with every lane's element written in lane order; they write no register. -/
def Obligations.StoreResults : Prop :=
  (∀ (x : Ctx) (d : Reg) (k : KReg) (o : Reg) (w : BitVec 4) (n : BitVec 3) (val : Nat → Nat) (v : Opnd) (es : List Elem) (s : State),
    x.Issues (.st d k o w n) → x.storeValue d (widthOf w.toNat) = .ok val → x.read [d] o = .ok v → v.isX = true → x.mode = .plain →
    x.Checks (x.elems x.lanes k o v n (widthOf w.toNat)) ⟨widthOf w.toNat, .plain (widthOf w.toNat), .write, false⟩ es s →
    x.GoesOn (.st d k o w n) (dropHeld (es.foldl (fun s e =>
      elemWrite s x.ag x.core .plain e (val e.lane % 2 ^ widthOf w.toNat)) s) x.core x.gid x.ci x.pc x.lanes)) ∧
  ∀ (x : Ctx) (d k : KReg) (o : Reg) (w : BitVec 4) (n : BitVec 3) (v : Opnd) (e : Elem) (s : State),
    x.Issues (.stk d k o w n) → x.read [] o = .ok v → v.isX = true → x.mode = .plain →
    x.Checks (x.elems (laneMask x.low) k o v n (widthOf w.toNat)) ⟨widthOf w.toNat, .plain (widthOf w.toNat), .write, false⟩ [e] s →
    x.GoesOn (.stk d k o w n)
      (dropHeld (elemWrite s x.ag x.core .plain e ((x.k d).toNat % 2 ^ widthOf w.toNat)) x.core x.gid x.ci x.pc x.lanes)

/-- R305, R174: a store of a speculative task completes with its elements in the task's write buffer: storage and every data cache stay as they
are, exactly the bits of the element are buffered with its value, and what the task reads there afterwards is that value. -/
def Obligations.TaskStoresGoToTheWriteBuffer : Prop :=
  (∀ (x : Ctx) (launch : Nat) (t : Task) (d : Reg) (k : KReg) (o : Reg) (w : BitVec 4) (n : BitVec 3) (val : Nat → Nat) (v : Opnd)
    (es : List Elem) (s : State), x.Issues (.st d k o w n) → x.storeValue d (widthOf w.toNat) = .ok val → x.read [d] o = .ok v →
    v.isX = true → x.mode = .spec launch t →
    x.Checks (x.elems x.lanes k o v n (widthOf w.toNat)) ⟨widthOf w.toNat, .plain (widthOf w.toNat), .write, false⟩ es s →
    let u := es.foldl (fun s e => elemWrite s x.ag x.core (.spec launch t) e (val e.lane % 2 ^ widthOf w.toNat)) s
    exec (.st d k o w n) x.st = .next (afterIssue ((dropHeld u x.core x.gid x.ci x.pc x.lanes).modCrew x.gid x.ci fun c =>
      (c.complete (.st d k o w n) x.lanes x.pc none).release x.lanes nextPc) x.gid) ∧
    u.mem = x.st.mem ∧ ∀ c, (u.core c).dcache = (x.st.core c).dcache) ∧
  ∀ (s : State) (ag : Agent) (core launch lane : Nat) (t t' : Task) (ptr : Dword) (key n v a : Nat) (dom : LockDom), 0 < n →
    taskNumbered s launch t.num = some t' → t'.tag = t.tag → lockBase s ag ptr = some (dom, a) → NoLaterReader s launch t dom a n →
    let e : Elem := ⟨lane, ptr, n, [.store key n]⟩
    let u := elemWrite s ag core (.spec launch t) e v
    u.mem = s.mem ∧
    (∃ t'', taskNumbered u launch t.num = some t'' ∧ t''.reads = t'.reads ∧ t''.tag = t'.tag ∧ t''.st = t'.st ∧
      (∀ i, t''.bufferedBit dom i = if a ≤ i ∧ i < a + n then some (v.testBit (i - a)) else t'.bufferedBit dom i) ∧
      (∀ d i, d ≠ dom → t''.bufferedBit d i = t'.bufferedBit d i) ∧
      (a % 512 + n ≤ 512 → (∀ w ∈ t'.writes, ¬(w.dom = dom ∧ w.line = a / 512)) →
        t''.writes = t'.writes ++ [⟨dom, a / 512, key - a % 512, BitVec.ofNat 512 (v % 2 ^ n * 2 ^ (a % 512)),
          BitVec.ofNat 512 ((2 ^ n - 1) * 2 ^ (a % 512))⟩])) ∧
    (((unitOf s launch).tasks.map fun u => u.num).Nodup → (elemRead u ag core (.spec launch t) e).1 = some (v % 2 ^ n))

/-- R176, R177; log 33, the model's reading: atomics complete with the old value of each lane's element in D, in D's own format. What ATCAS and a
bitwise atomic of 64 bits leave in a D of a 32-bit tag, the low 32 bits, is the model's reading (log 33). -/
def Obligations.AtomicResults : Prop :=
  ∀ (x : Ctx) (i : Instr) (op : AtOp) (d : Reg) (k : KReg) (o : Reg) (w : BitVec 4) (n : BitVec 3) (p v : Opnd) (es : List Elem) (s s' : State)
    (vals : List (Nat × Nat)), atomicParts i = some (op, d, k, o, w, n) → x.Issues i → x.read [] d = .ok p → widthOf w.toNat ≤ 64 →
    atomicTag op p.fmt (widthOf w.toNat) = true → (p.isWide = true → x.c.oddWide d = false) → x.read [d] o = .ok v → v.isX = true → x.mode = .plain →
    x.Checks (x.elems x.lanes k o v n (widthOf w.toNat))
      ⟨widthOf w.toNat, .atomic (widthOf w.toNat), .atomic, hostAtomicOk op p.fmt (widthOf w.toNat)⟩ es s →
    runLocal (fun s e => elemAtomic s x.ag x.core .plain e op p.fmt (x.c.rawLane d.toNat (widthOf w.toNat) e.lane % 2 ^ widthOf w.toNat)
      (match op with
        | .cas => x.c.rawLane (d.toNat + (if widthOf w.toNat = 64 then 2 else 1)) (widthOf w.toNat) e.lane % 2 ^ widthOf w.toNat
        | _ => 0)) (bySector es) s = .ok (vals, s') →
    ∃ l c, x.CompletesIn i l (dropHeld s' x.core x.gid x.ci x.pc x.lanes) c ∧ c.m = x.c.m ∧ c.k = x.c.k ∧
      if 112 ≤ d.toNat then c.regs = x.c.regs
      else if fmtWide (x.c.vreg d.toNat).fmt then
        Put64 x.c c x.lanes d.toNat (x.c.vreg d.toNat).fmt fun j =>
          if fmtSigned (x.c.vreg d.toNat).fmt then BitVec.ofInt 64 (signedOf (widthOf w.toNat) (laneVal vals j)) else BitVec.ofNat 64 (laneVal vals j)
      else Put32 x.c c x.lanes d.toNat (x.c.vreg d.toNat).fmt fun j =>
        container (x.c.vreg d.toNat).fmt (extendWord (fmtSigned (x.c.vreg d.toNat).fmt) (widthOf w.toNat) (laneVal vals j)).toNat

/-- R177, R163: what an atomic leaves at the storage that owns its bits, from the old bits, D's lane and for ATCAS the new value; every other
bit is as before. A device element's line is not in the core's data cache, and dirty tracking is off. And what each of the eight operations makes of
the old bits: sums wrap or are rounded once for a float tag, the lesser and the greater go by D's tag, ATCAS writes only where the compare holds. -/
def Obligations.AtomicUpdatesStorage : Prop :=
  (∀ (s : State) (ag : Agent) (core lane : Nat) (ptr : Dword) (op : AtOp) (f : Option Fmt) (key n opnd new : Nat),
    s.mem.wf = true → Untracked s → (isDevKey key = true → (s.core core).line? (key / 512) = none) → 0 < n → key % 512 + n ≤ 512 →
    poisoned s key n = false →
    ∃ s', elemAtomic s ag core .plain ⟨lane, ptr, n, [.store key n]⟩ op f opnd new = (some (s.mem.bits key n), s') ∧
      ∀ k, seenBit s' core k = if key ≤ k ∧ k < key + n then
        ((atomicNew op f n (s.mem.bits key n) opnd new).getD (s.mem.bits key n)).testBit (k - key) else seenBit s core k) ∧
  (∀ (f : Option Fmt) (w old opnd new : Nat), (∀ g, f = some g → classF g = false) →
    atomicNew .add f w old opnd new = some ((old + opnd) % 2 ^ w) ∧
    ((∃ g, f = some g ∧ fmtSigned g = true) →
      (∃ r, atomicNew .min f w old opnd new = some r ∧ (r = old ∨ r = opnd) ∧ signedOf w r = min (signedOf w old) (signedOf w opnd)) ∧
      ∃ r, atomicNew .max f w old opnd new = some r ∧ (r = old ∨ r = opnd) ∧ signedOf w r = max (signedOf w old) (signedOf w opnd)) ∧
    ((∀ g, f = some g → fmtSigned g = false) →
      atomicNew .min f w old opnd new = some (min old opnd) ∧ atomicNew .max f w old opnd new = some (max old opnd))) ∧
  (∀ (g : Fmt) (b : BinFmt) (w old opnd new : Nat), classF g = true → binOf g = some b →
    atomicNew .add (some g) w old opnd new = some (toBin b .rne (XVal.add .rne (binValue b old) (binValue b opnd))) ∧
    atomicNew .min (some g) w old opnd new = some (toBin b .rne (minX (binValue b old) (binValue b opnd))) ∧
    atomicNew .max (some g) w old opnd new = some (toBin b .rne (maxX (binValue b old) (binValue b opnd)))) ∧
  ∀ (f : Option Fmt) (w old opnd new : Nat),
    (∃ r, atomicNew .and f w old opnd new = some r ∧ ∀ k, r.testBit k = (old.testBit k && opnd.testBit k)) ∧
    (∃ r, atomicNew .or f w old opnd new = some r ∧ ∀ k, r.testBit k = (old.testBit k || opnd.testBit k)) ∧
    (∃ r, atomicNew .xor f w old opnd new = some r ∧ ∀ k, r.testBit k = (old.testBit k != opnd.testBit k)) ∧
    atomicNew .xch f w old opnd new = some opnd ∧
    (old = opnd → atomicNew .cas f w old opnd new = some new) ∧ (old ≠ opnd → atomicNew .cas f w old opnd new = none)

/-- R162, R163: a store of `n` bits leaves exactly those bits changed, and reading them gives them back; a thread's loads see what its core
holds, and change nothing that it sees; a thread's store changes exactly the bits of its element, as its own core sees them. -/
def Obligations.StorageReadsAndWrites : Prop :=
  (∀ (s s' : State) (core key n v : Nat) (cached stream : Bool), (cached = true ∨ isDevKey (key + n) = false ∧ isDevKey key = false) →
    piecesRead s core cached stream [.store key n] = (some v, s') →
    (∀ j, j < n → v.testBit j = seenBit s core (key + j)) ∧ v < 2 ^ n ∧ s'.mem = s.mem ∧ ∀ k, seenBit s' core k = seenBit s core k) ∧
  (∀ (m : Memory) (a n v : Nat), m.wf = true →
    (m.setBits a n v).wf = true ∧ (m.setBits a n v).bits a n = v % 2 ^ n ∧
    ∀ b k, b + k ≤ a ∨ a + n ≤ b → (m.setBits a n v).bits b k = m.bits b k) ∧
  ∀ (s : State) (core key n v : Nat) (through : Bool), s.mem.wf = true → Untracked s → core < s.cores.length →
    ∀ k, seenBit (piecesWrite s core v true through [.store key n]) core k =
      if key ≤ k ∧ k < key + n then v.testBit (k - key) else seenBit s core k

/-! ## Ponds -/

/-- R182, R189, R191 to R195, R310; log 82, the model's reading: a pond instruction sends its operation to the pond's inlet, behind those already there,
and its group waits for it; the PUT of a speculative task is held by its task and goes on; PONDMK makes an empty pond. That the range of a DRAIN at
issue is CAPACITY records is the model's reading (log 82). -/
def Obligations.PondInstructionResults : Prop :=
  let sent (x : Ctx) (p : Pond) (kind : PondOpKind) (pops : Nat) (s : State) : State :=
    s.modPond x.part p.slot fun d => { d with ops := d.ops ++ [⟨.group x.gid x.ci x.lanes x.pc, kind, pops, x.c.wbase⟩] }
  (∀ (x : Ctx) (h region cap par : KReg) (v : Nat) (s : State), x.Issues (.pondmk h region cap par) →
    makePond x.st x.ag (x.k region) (x.k cap) (x.k par) = (.ok v, s) →
    x.GivesK (.pondmk h region cap par) s h (BitVec.ofNat 64 v) ∧
    ∃ d, s.ponds = x.st.ponds ++ [d] ∧ d.handle = v ∧ d.part = x.part ∧ d.fn = x.fn ∧ d.total = 0 ∧ (∀ n ∈ d.counts, n = 0) ∧
      d.broken = false ∧ d.ops = [] ∧ d.cap = (x.k cap).toNat) ∧
  (∀ (x : Ctx) (i : Instr) (h : Dword) (kind : PondOpKind) (p : Pond), pondSend x i = some (h, kind) → x.Issues i → h.getLsbD 63 = false →
    pondOf x.st x.part x.fn h = some p → x.WaitsIn i (sent x p kind 0 x.st) x.c .engine true) ∧
  (∀ (x : Ctx) (d h : KReg) (n : BitVec 11) (p : Pond) (c : Cursor), x.Issues (.pcount d h n) → (x.k h).getLsbD 63 = true →
    cursorOf x.st x.part x.fn (x.k h) = .ok (p, c) →
    x.WaitsIn (.pcount d h n) (sent x p (.pcount d n.toNat (x.k h)) 0 x.st) x.c .engine true) ∧
  (∀ (x : Ctx) (d : Reg) (k : KReg) (o key : Reg) (p : Pond) (r y : Opnd), x.Issues (.put d k o key) →
    pondOf x.st x.part x.fn (x.k k) = some p → x.read [] o = .ok r → x.read [o] key = .ok y → y.isX = true → x.c.recCause o p.w = none →
    p.broken = false →
    let recs := (lanesOf x.lanes).map fun i => ((y.lo.lane i).toNat % 256, x.c.recLane o r p.w i)
    match x.mode with
    | .spec launch t => x.GoesOn (.put d k o key) (modTask x.st launch t.num fun t => { t with puts := t.puts ++ [⟨x.k k, recs, x.core, x.c.slot, x.pc⟩] })
    | _ => x.WaitsIn (.put d k o key) (sent x p (.put d recs) (popsOf (.put d k o key)) x.st) x.c .engine true) ∧
  (∀ (x : Ctx) (h dst count : KReg) (p : Pond), x.Issues (.drain h dst count) → pondOf x.st x.part x.fn (x.k h) = some p →
    spaceOf (x.k dst) ∈ [0, 1, 2, 3, 7] → slotFree x.st x.core = true →
    x.WaitsIn (.drain h dst count) (sent x p (.drain (x.k dst) count x.st.nextId 0 0 0) 0
      (addCmd x.st x.core x.c.slot x.pc (.crews x.gid [x.ci]) (.drain x.part p.slot)
        (lockRange x.st x.ag (x.k dst) (max (p.cap * p.w) 1) true)).2) x.c .engine true) ∧
  (∀ (x : Ctx) (d : Reg) (k : KReg) (o : Reg) (m : MReg) (p : Pond) (c : Cursor), x.Issues (.bnext d k o m) →
    cursorOf x.st x.part x.fn (x.k k) = .ok (p, c) → x.c.recCause d p.w = none →
    x.WaitsIn (.bnext d k o m) (sent x p (.bnext d o m (x.k k)) 0 x.st) x.c .engine true) ∧
  ∀ (x : Ctx) (d : Reg) (k : KReg) (o : Reg) (p : Pond) (c : Cursor) (r y : Opnd), x.Issues (.bwrite d k o) →
    cursorOf x.st x.part x.fn (x.k k) = .ok (p, c) → x.read [] d = .ok r → x.read [d] o = .ok y → y.isX = true → x.c.recCause d p.w = none →
    x.WaitsIn (.bwrite d k o) (sent x p (.bwrite (x.k k) ((lanesOf x.lanes).map fun i => ((y.lo.lane i).toNat, x.c.recLane d r p.w i)))
      (popsOf (.bwrite d k o)) x.st) x.c .engine true

/-- R184: the basin that a record goes to is the one its key names while that is less than SLACK ahead of the emptiest, otherwise the
lowest of the emptiest; the record is written at the position COUNT of it, and COUNT and TOTAL count it; so no basin is ever more than the larger
of SLACK and 1 ahead of another, and the largest holds at most what the rule says. -/
def Obligations.PondBalanceRule : Prop :=
  (∀ (d : Pond) (key : Nat), 0 < d.basins → d.counts.length = d.basins →
    d.choose key < d.basins ∧
    let home := key % 256 * d.basins / 256
    ((∃ k, k < d.basins ∧ d.counts.getD home 0 < d.counts.getD k 0 + d.slack ∧ ∀ j, j < d.basins → d.counts.getD k 0 ≤ d.counts.getD j 0) →
      d.choose key = home) ∧
    ((∀ k, k < d.basins → (∀ j, j < d.basins → d.counts.getD k 0 ≤ d.counts.getD j 0) → d.counts.getD k 0 + d.slack ≤ d.counts.getD home 0) →
      (∀ j, j < d.basins → d.counts.getD (d.choose key) 0 ≤ d.counts.getD j 0) ∧
      ∀ j, j < d.choose key → d.counts.getD (d.choose key) 0 < d.counts.getD j 0)) ∧
  (∀ (s : State) (part slot key bits : Nat) (who : Origin) (d : Pond), s.pond? part slot = some d →
    ∃ t, placeRecord s part slot key bits who =
        writePlaced t part slot (d.recAddr (d.choose key) (d.counts.getD (d.choose key) 0)) d.w bits who ∧
      t.pond? part slot = some { d with counts := d.counts.modify (d.choose key) (· + 1), total := d.total + 1 } ∧ t.mem = s.mem) ∧
  ∀ (d : Pond), 0 < d.basins → d.counts.length = d.basins → (∀ a ∈ d.counts, ∀ b ∈ d.counts, a ≤ b + max d.slack 1) →
    (∀ key, ∀ a ∈ d.counts.modify (d.choose key) (· + 1), ∀ b ∈ d.counts.modify (d.choose key) (· + 1), a ≤ b + max d.slack 1) ∧
    ∀ a ∈ d.counts, (1 ≤ d.slack → a ≤ d.counts.sum / d.basins + d.slack) ∧
      (d.slack = 0 → a ≤ (d.counts.sum + d.basins - 1) / d.basins)

/-- R182 to R184, R190 to R192: the inlet performs the operation at the head of its order. A PUT to z that fits places every record and its
group goes on; a PUT into a full pond traps POND_FULL; a PUT with a register gives each lane 0 when its record was placed and 1 when it was not; a PCOUNT of all basins and a DRAIN that has copied everything answer the number
of records, and the DRAIN empties the pond. -/
def Obligations.PondStepResults : Prop :=
  (∀ (s : State) (part slot : Nat) (d : Pond) (op : PondOp) (rest : List PondOp) (recs : List (Nat × Nat)),
    s.pond? part slot = some d → d.ops = op :: rest → op.kind = .put 120 recs → d.opPaused = false → d.away s = false → d.broken = false →
    (d.total + recs.length ≤ d.cap →
      ∃ t p, exec (.pondOperationPerform part slot) s = .next (opDone t op fun _ r => r) ∧ t.pond? part slot = some p ∧
        p.total = d.total + recs.length ∧ (opTask s op = none → p.ops = rest ∧ t.gangs = s.gangs)) ∧
    (d.cap < d.total + recs.length →
      exec (.pondOperationPerform part slot) s = .next (opTrap (s.modPond part slot fun d => { d with ops := rest }) op Cause.pondFull 0 false))) ∧
  (∀ (s : State) (part slot gid ci : Nat) (lanes : Mask) (pc : Dword) (d : Pond) (op : PondOp) (rest : List PondOp) (dst : Reg)
    (recs : List (Nat × Nat)), s.pond? part slot = some d → d.ops = op :: rest → op.src = .group gid ci lanes pc → op.kind = .put dst recs →
    dst ≠ 120 → d.opPaused = false → d.away s = false → d.broken = false → d.total ≤ d.cap →
    ∃ t p, exec (.pondOperationPerform part slot) s = .next (opDone t op fun live r => r.write dst live (.ofLanes fun i =>
        if (lanesOf lanes).findIdx (fun k => k == i) < d.cap - d.total then 0 else 1)) ∧
      t.pond? part slot = some p ∧ p.total = d.total + min recs.length (d.cap - d.total)) ∧
  (∀ (s : State) (part slot : Nat) (d : Pond) (op : PondOp) (rest : List PondOp) (k : KReg) (desc : Dword),
    s.pond? part slot = some d → d.ops = op :: rest → op.kind = .pcount k 0x7FF desc → desc.getLsbD 63 = false → d.opPaused = false →
    d.away s = false → d.broken = false → d.paused = [] →
    exec (.pondOperationPerform part slot) s =
      .next (opDone (opAcquire (s.modPond part slot fun d => { d with ops := rest }) op) op fun _ r => r.setK k (BitVec.ofNat 64 d.total))) ∧
  ∀ (s : State) (part slot : Nat) (d : Pond) (op : PondOp) (rest : List PondOp) (dst : Dword) (k : KReg) (cmd b p n : Nat) (y : EngCmd),
    s.pond? part slot = some d → d.ops = op :: rest → op.kind = .drain dst k cmd b p n → d.broken = false → d.paused = [] →
    nextRecord d.counts (d.basins + 1) b p = none → s.cmd? cmd = some y → y.paused = false → blockedBy s y.core cmd [] = false →
    ∃ t e, exec (.drainComplete part slot) s = .next (settleAllTasks (opDone (opAcquire (startHoists (endCmd t cmd)) op) op fun _ r =>
        r.setK k (BitVec.ofNat 64 d.total))) ∧
      t.pond? part slot = some e ∧ e.total = 0 ∧ (∀ n ∈ e.counts, n = 0) ∧ e.cursors = [] ∧ e.ops = rest ∧ t.cmds = s.cmds

/-- R181, R182, R189, R192 to R195; logs 6 and 82, the model's reading: what the inlet does with BASIN, BNEXT, BWRITE and PONDRM at the head of its
order, and with one record of a DRAIN. BASIN opens a cursor with MARK = COUNT and NEXT = 0 in place of the gang's cursor on that basin, or traps
POND_BASIN or CURSOR_LIMIT; BNEXT hands the live lanes consecutive records below the mark, the record's position, and a mask bit that says so; BWRITE
writes its records in lane order, or traps CURSOR_RANGE; PONDRM frees the slot with the next generation, and PUTs behind it trap POND_HANDLE; a DRAIN
copies the next record in basin order bit for bit. A checked read or write of an inlet reaches exactly the record's bits. That the traps have EVAL 0 is the
model's reading (log 6), and so is a DRAIN's range of TOTAL records once it has begun (log 82). -/
def Obligations.PondCursorSteps : Prop :=
  (∀ (s : State) (part slot gid ci : Nat) (lanes : Mask) (pc : Dword) (d : Pond) (op : PondOp) (rest : List PondOp) (k : KReg) (n : Nat),
    InletServes s part slot d op rest → op.kind = .basin k n → op.src = .group gid ci lanes pc →
    let kept := d.cursors.filter fun e => !(e.gang == gid && e.basin == n)
    (d.basins ≤ n → exec (.pondOperationPerform part slot) s =
      .next (opTrap (s.modPond part slot fun d => { d with ops := rest }) op Cause.pondBasin 0 false)) ∧
    (n < d.basins → (∀ k, k < 64 → ∃ e ∈ kept, e.slot = k) → exec (.pondOperationPerform part slot) s =
      .next (opTrap (s.modPond part slot fun d => { d with ops := rest }) op Cause.cursorLimit 0 false)) ∧
    (n < d.basins → (∃ k, k < 64 ∧ ∀ e ∈ kept, e.slot ≠ k) →
      ∃ (t : State) (e : Pond) (cur : Cursor), exec (.pondOperationPerform part slot) s = .next (opDone (opAcquire t op) op fun _ r => r.setK k (e.descriptor cur)) ∧
        t.pond? part slot = some e ∧ e = { d with ops := rest, cursors := kept ++ [cur], cursorGens := e.cursorGens } ∧
        cur.basin = n ∧ cur.mark = d.counts.getD n 0 ∧ cur.next = 0 ∧ cur.gang = gid ∧ cur.slot < 64 ∧ (∀ e ∈ kept, e.slot ≠ cur.slot) ∧
        t.gangs = s.gangs ∧ t.mem = s.mem)) ∧
  (∀ (s : State) (op : PondOp) (gid ci : Nat) (lanes : Mask) (pc : Dword) (c : Crew) (k : KReg) (v : Dword), op.src = .group gid ci lanes pc →
    s.crew? gid ci = some c → c.inHandler = false → c.Shaped →
    ∃ c', opDone s op (fun _ r => r.setK k v) = afterIssue (settle (s.modCrew gid ci fun _ => c') gid) gid ∧
      c'.k = c.k.set k.toNat v ∧ c'.regs = c.regs ∧ c'.m = c.m ∧
      ∀ j, j < 32 → c'.lane j = if lanes.getLsbD j ∧ (c.lane j).st ≠ .exited then ⟨nextPc (c.lane j).pc, .ready, 0⟩ else c.lane j) ∧
  (∀ (s : State) (part slot gid ci : Nat) (lanes : Mask) (pc : Dword) (d p : Pond) (op : PondOp) (rest : List PondOp) (r o : Reg) (m : MReg)
    (desc : Dword) (cur : Cursor) (c : Crew) (vs : List Nat), InletServes s part slot d op rest → op.kind = .bnext r o m desc →
    op.src = .group gid ci lanes pc → cursorOf s d.part d.fn desc = .ok (p, cur) → s.crew? gid ci = some c → c.inHandler = false → c.Shaped →
    m ≠ 0 → r.toNat + recRegs d.w ≤ 112 → (o = 120 ∨ o.toNat < r.toNat ∨ r.toNat + recRegs d.w ≤ o.toNat ∧ o.toNat < 112) →
    op.wbase.toNat * 16 + 112 ≤ c.regs.length →
    let live := lanes &&& c.live
    let place (j : Nat) : Nat := (lanesOf live).findIdx fun k => k == j
    let n := min (lanesOf live).length (cur.mark - cur.next)
    readRecords s d cur.basin ((List.range n).map fun k => cur.next + k) = .ok vs →
    ∃ (t : State) (e : Pond) (c' : Crew), exec (.pondOperationPerform part slot) s = .next (afterIssue (settle (t.modCrew gid ci fun _ => c') gid) gid) ∧
      t.gangs = s.gangs ∧ t.pond? part slot = some e ∧
      e = { d with ops := rest, cursors := d.cursors.map fun (e : Cursor) => if e.slot == cur.slot then { e with next := e.next + n } else e } ∧
      let reg (x : Crew) (q : Nat) : VReg := Crew.vreg { x with wbase := op.wbase } q
      c'.k = c.k ∧
      ∀ j, j < 32 → c'.lane j = (if live.getLsbD j then ⟨nextPc (c.lane j).pc, .ready, 0⟩ else c.lane j) ∧
        (∀ q, q < recRegs d.w → (reg c' (r.toNat + q)).val.lane j =
          if live.getLsbD j ∧ place j < n then BitVec.ofNat 32 (vs.getD (place j) 0 / 2 ^ (32 * q)) else (reg c (r.toNat + q)).val.lane j) ∧
        (o ≠ 120 → (reg c' o.toNat).val.lane j =
          if live.getLsbD j ∧ place j < n then BitVec.ofNat 32 (cur.next + place j) else (reg c o.toNat).val.lane j) ∧
        (c'.mask m.toNat).getLsbD j = if lanes.getLsbD j then live.getLsbD j && decide (place j < n) else (c.mask m.toNat).getLsbD j) ∧
  (∀ (s : State) (d : Pond) (b q v : Nat) (qs vs : List Nat), readRecords s d b [] = .ok [] ∧
    (engineRead s d.agent (ptrAdd d.base (b * basinExtent d.w d.basins d.slack d.cap + q * d.w)) d.w .free = .ok v →
      readRecords s d b qs = .ok vs → readRecords s d b (q :: qs) = .ok (v :: vs))) ∧
  (∀ (s u : State) (part slot : Nat) (d p : Pond) (op : PondOp) (rest : List PondOp) (desc : Dword) (recs : List (Nat × Nat)) (cur : Cursor),
    InletServes s part slot d op rest → op.kind = .bwrite desc recs → cursorOf s d.part d.fn desc = .ok (p, cur) →
    ((∃ r ∈ recs, cur.mark ≤ r.1) → exec (.pondOperationPerform part slot) s =
      .next (opTrap (s.modPond part slot fun d => { d with ops := rest }) op Cause.cursorRange 0 false)) ∧
    ((∀ r ∈ recs, r.1 < cur.mark) → writeRecs d (opTask s op) cur.basin recs s = (u, none) →
      exec (.pondOperationPerform part slot) s = .next (opDone (u.modPond part slot fun d => { d with ops := d.ops.drop 1 }) op fun _ r => r))) ∧
  (∀ (s t : State) (d : Pond) (w : Option (Nat × Task)) (b q v : Nat) (recs : List (Nat × Nat)), writeRecs d w b [] s = (s, none) ∧
    (engineWrite s d.agent (d.recAddr b q) d.w v .free = .ok t →
      writeRecs d w b ((q, v) :: recs) s = writeRecs d w b recs (abortSpan t w d.agent (d.recAddr b q) d.w))) ∧
  (∀ (s : State) (part slot gid ci : Nat) (lanes : Mask) (pc : Dword) (d : Pond) (op : PondOp) (rest : List PondOp),
    InletServes s part slot d op rest → op.kind = .remove → op.src = .group gid ci lanes pc → (∀ o ∈ rest, ∃ r l, o.kind = .put r l) →
    ∃ t, exec (.pondOperationPerform part slot) s =
        .next (rest.foldl (fun s o => opTrap s o Cause.pondHandle 0 false) (opDone t op fun _ r => r)) ∧
      t.pond? part slot = none ∧ pondGen t part slot = (d.gen + 1) % 2 ^ 20 ∧ t.gangs = s.gangs ∧ t.mem = s.mem) ∧
  (∀ (s t : State) (part slot : Nat) (d : Pond) (op : PondOp) (rest : List PondOp) (dst : Dword) (k : KReg) (cmd b q n b' q' v : Nat) (x : EngCmd),
    InletServes s part slot d op rest → op.kind = .drain dst k cmd b q n → s.cmd? cmd = some x → x.paused = false →
    nextRecord d.counts (d.basins + 1) b q = some (b', q') →
    let rs := lockRange s (x.agent s) dst (max (d.total * d.w) 1) true
    let u := s.modCore x.core fun r => { r with locks := r.locks.map fun e => if e.cmd == cmd then { e with ranges := rs, order := rs } else e }
    let tgt := ptrAdd dst (n * d.w)
    blockedBy s x.core cmd rs = false → engineRead u d.agent (d.recAddr b' q') d.w .free = .ok v →
    engineWrite u (x.agent u) tgt d.w v .free = .ok t →
    exec (.pondOperationPerform part slot) s = .next ((abortFor t x.owner (x.agent u) tgt d.w).modPond part slot fun d => { d with
      ops := ⟨op.src, .drain dst k cmd b' (q' + 1) (n + 1), op.pops, op.wbase⟩ :: d.ops.drop 1 })) ∧
  (∀ (counts : List Nat) (fuel b q b' q' : Nat), nextRecord counts fuel b q = some (b', q') →
    q' < counts.getD b' 0 ∧ (b' = b ∧ q' = q ∨ b < b' ∧ q' = 0 ∧ counts.getD b 0 ≤ q ∧ ∀ c, b < c → c < b' → counts.getD c 0 = 0)) ∧
  ∀ (s t : State) (ag : Agent) (ptr : Dword) (n v key : Nat) (al : Align), s.mem.wf = true → Untracked s → 0 < n →
    ((access s ag ptr n al .read false).1 = .ok [.store key n] → poisoned s key n = false →
      engineRead s ag ptr n al = .ok (s.mem.bits key n)) ∧
    ((access s ag ptr n al .write false).1 = .ok [.store key n] → engineWrite s ag ptr n v al = .ok t →
      ∀ k, t.mem.bitAt k = if key ≤ k ∧ k < key + n then v.testBit (k - key) else s.mem.bitAt k)

/-! ## Acquire, release, barriers and gang registers -/

/-- R252 to R254, R263; log 100, the model's reading: FENCE above crew scope writes back and drops every line of the core's data cache; ACQ and REL act
on the bits that the launch binds to their object; at crew scope all three only go on. A FENCE, and a REL of bits that a queue's buffer meets, waits
while records that the group's threads have sent are on their way (R263), and a REL of bits of another package's memory while its gang's records to
that package are (R253). That an ACQ drops also what other launches of the function bind to the object is the model's reading of R241 (log 100). -/
def Obligations.AcquireReleaseResults : Prop :=
  (∀ (x : Ctx) (sc : Scope), x.Issues (.fence sc) →
    (x.sending = false → x.GoesOn (.fence sc) (if sc = .crew then x.st else flushCache x.st x.core)) ∧
    (x.sending = true → x.WaitsIn (.fence sc) x.st x.c .queue false) ∧
    (sc ≠ .crew → x.core < x.st.cores.length → ((flushCache x.st x.core).core x.core).dcache = [])) ∧
  ∀ (x : Ctx) (o : KReg) (sc : Scope) (l : Launch), spaceCause (x.k o) = none → (x.k o).toNat % 64 = 0 → x.launch = some l →
    (x.Issues (.acq o sc) → x.GoesOn (.acq o sc) (if sc = .crew then x.st else acquireBits x.st x.core (acquiredBits x.st x.core l (x.k o)))) ∧
    (x.Issues (.rel o sc) →
      (x.sendingTo l (x.k o) = false →
        x.GoesOn (.rel o sc) (if sc = .crew then x.st else releaseBits x.st x.core (boundBits x.st x.core l (x.k o)))) ∧
      (x.sendingTo l (x.k o) = true → x.WaitsIn (.rel o sc) x.st x.c .queue false))

/-- R255 to R257: BAR and BAR.arrive make the group's threads PENDING at the barrier, BAR and BAR.wait make them wait there; an episode
completes exactly when every live thread of the gang is PENDING, and every PENDING thread becomes DONE. GSR copies a gang register to every lane;
GSW records the lowest lane's value, which the end of the cycle puts in place, the highest crew slot last. -/
def Obligations.GangSynchronisationResults : Prop :=
  let arrive (c : Crew) (b : Nat) (l : Mask) : Crew := { c with
    barPending := c.barPending.set b (c.barPending.getD b 0 ||| l), barDone := c.barDone.set b (c.barDone.getD b 0 &&& ~~~l) }
  ((∀ (x : Ctx) (b : BitVec 3), x.Issues (.bar b) → x.c.barPending.getD b.toNat 0 &&& x.lanes = 0 →
    x.WaitsIn (.bar b) x.st { arrive x.c b.toNat x.lanes with barWaits := x.c.barWaits ++ [⟨b.toNat, x.lanes, true⟩] } .barrier false) ∧
  (∀ (x : Ctx) (b : BitVec 3), x.Issues (.barArrive b) → x.c.barPending.getD b.toNat 0 &&& x.lanes = 0 →
    exec (.barArrive b) x.st = .next (afterIssue ((settle (x.st.modCrew x.gid x.ci fun _ => arrive x.c b.toNat x.lanes) x.gid).modCrew x.gid x.ci
      fun c => (c.complete (.barArrive b) x.lanes x.pc none).release x.lanes nextPc) x.gid)) ∧
  (∀ (x : Ctx) (b : BitVec 3), x.Issues (.barWait b) →
    subMask x.lanes (x.c.barPending.getD b.toNat 0 ||| x.c.barDone.getD b.toNat 0) = true →
    x.WaitsIn (.barWait b) x.st { x.c with barWaits := x.c.barWaits ++ [⟨b.toNat, x.lanes, false⟩] } .barrier false) ∧
  ∀ (g : Gang) (b : Nat), (∃ c ∈ g.crews, c.ended = false ∧ c.live ≠ 0) →
    ((∀ c ∈ g.crews, c.ended = false → subMask c.live (c.barPending.getD b 0) = true) →
      barEpisode g b = { g with crews := g.crews.map fun c =>
        { c with barDone := c.barDone.set b (c.barDone.getD b 0 ||| c.barPending.getD b 0), barPending := c.barPending.set b 0 } }) ∧
    ((∃ c ∈ g.crews, c.ended = false ∧ subMask c.live (c.barPending.getD b 0) = false) → barEpisode g b = g)) ∧
  (∀ (x : Ctx) (d : Reg) (g : KReg), x.Issues (.gsr d g) → x.Result32 (.gsr d g) d .n32 fun _ => x.g.g.getD g.toNat 0) ∧
  (∀ (x : Ctx) (g : KReg) (a : Reg) (p : Opnd), x.Issues (.gsw g a) → x.read [] a = .ok p → p.isIn classAny32 = true →
    exec (.gsw g a) x.st = .next (afterIssue ((x.st.modGang x.gid fun w =>
      { w with gWrites := w.gWrites ++ [⟨g.toNat, x.c.slot, p.lo.lane (firstLane x.lanes)⟩] }).modCrew x.gid x.ci
      fun c => (c.complete (.gsw g a) x.lanes x.pc none).release x.lanes nextPc) x.gid)) ∧
  ∀ (g : Gang) (k : Nat) (w : GWrite), k < g.g.length → w ∈ g.gWrites → w.reg = k → (∀ v ∈ g.gWrites, v.reg = k → v = w ∨ v.slot < w.slot) →
    (applyGWrites g).g.getD k 0 = w.val ∧ (applyGWrites g).gWrites = []

/-! ## Queues -/

/-- R258 to R261: QOPEN.make makes an empty queue in the lowest free slot and registers its crew as first consumer; QOPEN.cons and
QOPEN.prod register a crew at a queue that has room for it; QCLOSE takes away what the crew has registered under the handle. -/
def Obligations.QueueOpenResults : Prop :=
  (∀ (x : Ctx) (h b p : KReg) (k : Nat), x.Issues (.qopenMake h b p) → queueParamsBad x.st x.ag (x.k b) (x.k p) = false →
    x.c.qregs.length < 8 → x.c.regsBusy = false → queuesOf x.st x.part < 1024 → leastBelow 1024 (fun k => (x.st.queue? x.part k).isNone) = some k →
    ∃ c q, exec (.qopenMake h b p) x.st = .next (afterIssue (State.modCrew { x.st with
        queues := x.st.queues ++ [q], queueGens := setGen x.st.queueGens x.part k q.gen } x.gid x.ci fun _ => c) x.gid) ∧
      x.Lanes (fun _ => ⟨nextPc x.pc, .ready, 0⟩) c ∧
      c = { x.gone c with k := x.c.k.set h.toNat (queueHandle x.st k q.gen), qregs := x.c.qregs ++ [⟨queueHandle x.st k q.gen, false, 0⟩] } ∧
      q.slot = k ∧ q.part = x.part ∧ q.buf = x.k b ∧ q.slots = bitsAt (x.k p).toNat 0 17 ∧ q.free = q.slots ∧ q.order = [] ∧ q.closed = [] ∧
      q.consumers = 1) ∧
  (∀ (x : Ctx) (h : KReg) (q : Queue), x.Issues (.qopenCons h) → queueOf x.st x.part (x.k h) = some q → (x.c.qreg? (x.k h) false) = none →
    x.c.qregs.length < 8 → x.c.regsBusy = false → q.consumers < 32 →
    ∃ c, exec (.qopenCons h) x.st = .next (afterIssue ((x.st.modQueue x.part q.slot fun q => { q with consumers := q.consumers + 1 }).modCrew
        x.gid x.ci fun _ => c) x.gid) ∧
      x.Lanes (fun _ => ⟨nextPc x.pc, .ready, 0⟩) c ∧ c = { x.gone c with qregs := x.c.qregs ++ [⟨x.k h, false, 0⟩] }) ∧
  (∀ (x : Ctx) (h : KReg) (q : Queue), x.Issues (.qopenProd h) → queueOf x.st x.part (x.k h) = some q → (x.c.qreg? (x.k h) true) = none →
    x.c.qregs.length < 8 → x.c.regsBusy = false → q.closed.length < q.producers →
    ∃ c, exec (.qopenProd h) x.st = .next (afterIssue ((x.st.modQueue x.part q.slot fun q => { q with closed := q.closed ++ [false] }).modCrew
        x.gid x.ci fun _ => c) x.gid) ∧
      x.Lanes (fun _ => ⟨nextPc x.pc, .ready, 0⟩) c ∧ c = { x.gone c with qregs := x.c.qregs ++ [⟨x.k h, true, q.closed.length⟩] }) ∧
  ∀ (x : Ctx) (h : KReg), x.Issues (.qclose h) → (x.c.qregs.filter fun r => r.handle == x.k h) ≠ [] →
    exec (.qclose h) x.st = .next (afterIssue (((x.c.qregs.filter fun r => r.handle == x.k h).foldl (fun s r => closeReg s x.part r)
      (x.st.modCrew x.gid x.ci fun c => { c with qregs := c.qregs.filter fun r => !(r.handle == x.k h) })).modCrew x.gid x.ci
      fun c => (c.complete (.qclose h) x.lanes x.pc none).release x.lanes nextPc) x.gid)

/-- R262, R264: an ENQ whose records fit is granted at once, and with D = z goes on; a DEQ hands out the oldest records and frees their
slots. -/
def Obligations.QueueTransferResults : Prop :=
  (∀ (x : Ctx) (d : Reg) (k : KReg) (o : Reg) (nb : Bool) (n : BitVec 4) (recs : List (List Word)) (q : Queue) (r : QReg),
    x.Issues (.enq d k o nb n) → x.enqRecords d o nb n.toNat = .ok recs → x.c.goneAt x.pc x.lanes = false →
    queueOf x.st x.part (x.k k) = some q → x.c.qreg? (x.k k) true = some r → q.waiting = [] → recs.length ≤ q.free →
    let req : QReq := ⟨x.st.nextId, x.gid, x.ci, x.lanes, x.pc, r.index, d, x.c.wbase, recs, 0, none, [(x.ci, x.lanes)]⟩
    let s : State := State.modQueue { x.st with nextId := x.st.nextId + 1 } x.part q.slot fun q =>
      { q with free := q.free - recs.length, transit := q.transit ++ [.recs req (d != 120)] }
    if d = 120 then x.GoesOn (.enq d k o nb n) s else x.WaitsIn (.enq d k o nb n) s x.c .queue true) ∧
  ∀ (x : Ctx) (d : Reg) (k : KReg) (o : Reg) (nb : Bool) (n : BitVec 4) (q : Queue) (vs : List Nat), x.Issues (.deq d k o nb n) →
    deqCause d o n.toNat = none → queueOf x.st x.part (x.k k) = some q → (x.c.qreg? (x.k k) false).isSome = true →
    (nb = true ∨ q.order ≠ [] ∨ q.atEnd = true) → readSlots x.st q (q.order.take (lanesOf x.lanes).length) = .ok vs →
    exec (.deq d k o nb n) x.st = .next (afterIssue ((grantAll ((x.st.modQueue x.part q.slot fun q =>
        { q with order := q.order.drop (lanesOf x.lanes).length, free := q.free + (q.order.take (lanesOf x.lanes).length).length }).modCrew x.gid x.ci fun c =>
          c.deliver d o n.toNat x.lanes vs (if q.closed.length = q.producers ∧ (∀ b ∈ q.closed, b = true) ∧ q.order = [] then 2 else 1)) x.part q.slot).modCrew x.gid x.ci
      fun c => (c.complete (.deq d k o nb n) x.lanes x.pc none).release x.lanes nextPc) x.gid)

/-- R261, R262; log 39, the model's choice: records and closes take effect in the order in which they were sent; a reservation that has waited 2^20
cycles traps SEND_STALL and is withdrawn. That a producer on another node gets its answer, with data 0, in the same step is the model's choice (log
39). -/
def Obligations.QueueStepResults : Prop :=
  (∀ (s : State) (part slot : Nat) (q : Queue) (r : QReq) (ack : Bool) (rest : List QTransit) (t : State), s.queue? part slot = some q →
    q.transit = .recs r ack :: rest →
    fillQueue (s.modQueue part slot fun q => { q with transit := rest }) part slot r.producer r.recs = some t →
    (∃ u, exec (.queueRecordArrival part slot) s = .next (wakeGangs u (fun g => gangPart u g == part) .queue) ∧
      u = match r.node with
        | some n => { t with link := { t.link with lateAnswers := (n.1, n.2, .data 0) :: t.link.lateAnswers } }
        | none => if ack then finishEnq t r (some 0) else t) ∧
    ∃ q', t.queue? part slot = some q' ∧ q'.transit = rest ∧ q'.order.length = q.order.length + r.recs.length ∧ q.order <+: q'.order) ∧
  (∀ (s : State) (part slot : Nat) (q : Queue) (p : Nat) (rest : List QTransit), s.queue? part slot = some q → q.transit = .close p :: rest →
    ∃ t q', exec (.producerCloseArrival part slot) s = .next (wakeGangs t (fun g => gangPart t g == part) .queue) ∧
      t.queue? part slot = some q' ∧ q' = { q with transit := rest, closed := q.closed.set p true } ∧ t.gangs = s.gangs) ∧
  ∀ (s : State) (part slot req : Nat) (r : QReq), stalled s part slot req = some r →
    exec (.sendStall part slot req) s = .next (afterIssue (settle (eventTrap (withdraw s fun q => q.id == req)
      r.gang r.crew r.lanes r.pc Cause.sendStall 0 false) r.gang) r.gang)

/-! ## Hoists, completion words, sluices -/

/-- R205 to R208, R214; log 49, the model's reading: the first crew of a gang to arrive at a copy adds a command with its place in the order; a later
one that names the same operands adds its slice. In both cases the crew's count of arrivals advances and the group goes on. That HOIST and HOISTM
share one count of arrivals is the model's reading (log 49). -/
def Obligations.HoistResults : Prop :=
  let arrived (x : Ctx) (s : State) : State := settle (startHoists (s.modCrew x.gid x.ci fun c => { c with hoists := c.hoists + 1 })) x.gid
  let slice (x : Ctx) (sl : KReg) : Nat × Nat × Nat := (x.ci, ((x.k sl).extractLsb' 0 32).toNat, ((x.k sl).extractLsb' 32 32).toNat)
  (∀ (x : Ctx) (i : Instr) (sel : HoistDst) (mask : Option (BitVec 4)) (r d sl y : KReg) (n : Nat), hoistParts i = some (sel, mask, r, d, sl, y, n) →
    x.Issues i → hoistParamBad sel (x.k r) (x.k d) (x.k y) n = false → x.copy? = none → slotFree x.st x.core = true →
    (sel = .scratch ∨ (x.st.core x.core).mx.holder = none ∨ (x.st.core x.core).mx.holder = some x.gid) →
    ∃ s, x.EndsIn i (arrived x s) ∧ s.gangs = x.st.gangs ∧
      s.cmds = x.st.cmds ++ [⟨x.st.nextId, x.core, x.c.slot, x.pc, .crews x.gid [x.ci],
        .hoist ⟨x.c.hoists, sel, mask, x.k r, x.k d, x.k y, [slice x sl], [x.ci], false, none, [], []⟩, false⟩]) ∧
  ∀ (x : Ctx) (i : Instr) (sel : HoistDst) (mask : Option (BitVec 4)) (r d sl y : KReg) (n : Nat) (cmd : EngCmd) (h : HoistCopy) (cs : List Nat),
    hoistParts i = some (sel, mask, r, d, sl, y, n) → x.Issues i → hoistParamBad sel (x.k r) (x.k d) (x.k y) n = false →
    x.copy? = some (cmd, h) → x.st.cmd? cmd.id = some cmd → cmd.owner = .crews x.gid cs →
    h.dstSel = sel → h.mask = mask → h.record = x.k r → h.dst = x.k d → h.sync = x.k y →
    ∃ s, x.EndsIn i (arrived x s) ∧ s.gangs = x.st.gangs ∧
      s.cmd? cmd.id = some { cmd with
        owner := .crews x.gid (cs ++ [x.ci])
        body := .hoist { h with slices := h.slices ++ [slice x sl], arrived := h.arrived ++ [x.ci] } }

/-- R208, R209, R212: a chunk of a started copy whose turn has come is copied and finished; each element is copied bit for bit to where its
row and column lie in the destination; a sync word takes the bytes of a chunk, its count starting again at TARGET with GEN advanced. -/
def Obligations.HoistChunkResults : Prop :=
  (∀ (s t : State) (core cmd k : Nat) (y : EngCmd) (h : HoistCopy) (l : Layout), s.cmd? cmd = some y → y.core = core → y.body = .hoist h →
    h.layout = some l → y.paused = false → k ∈ h.todo → blockedBy s core y.id (chunkRanges s (y.agent s) core h l k) = false →
    remoteParts s y k = [] → holdLost s y h = false →
    chunkCopied s y h l k (match h.part.find? fun p => p.1 == k with | some p => p.2 | none => 0) = .ok t →
    exec (.hoistChunkComplete core cmd k) s =
      .next (settleOwner (startHoists (dropEngineReads (finishChunk t (y.agent s) y h l k) fun c => c == y.id)) y.owner)) ∧
  (∀ (s : State) (ag : Agent) (cmd core : Nat) (h : HoistCopy) (l : Layout) (i0 p lo hi v key : Nat), s.mem.wf = true →
    sourceRead s ag cmd (l.elem i0 p) l.w = .ok v → hoistDest s ag h core ((p * l.cols + i0) * l.w) l.w = .ok key →
    ∃ t, copyElem s ag cmd h [core] l i0 p lo hi = .ok t ∧
      ∀ j, t.mem.bitAt j =
        let b := (p * l.cols + i0) * l.w
        if key + (max b lo - b) ≤ j ∧ j < key + (min (b + l.w) hi - b) then v.testBit (j - key) else s.mem.bitAt j) ∧
  ∀ (target count gen top a : Nat), 0 < target → target < 2 ^ 32 → count < 2 ^ 32 → gen < 2 ^ 32 → top < 2 ^ 32 →
    syncAdd (target + count * 2 ^ 32 + gen * 2 ^ 64 + top * 2 ^ 96) a =
      target + (count + a) % target * 2 ^ 32 + (gen + (count + a) / target) % 2 ^ 32 * 2 ^ 64 + top * 2 ^ 96

/-- R210 to R213, R202, R215: waits and tests on completion words. CWAIT goes on when every bit of its mask is set and CTEST reads those
bits; SWARM arms a sync word and gives its GEN, which SWAIT waits to see changed; RLWAIT goes on when no earlier command holds its range; SEAL
writes the record's CRC into it. -/
def Obligations.CompletionWordResults : Prop :=
  (∀ (x : Ctx) (b m : KReg) (w : BitVec 5) (key : Nat), x.Issues (.cwait b m w) → x.c.due = [] → scrMult (x.k b) 32 = true →
    (x.k m).toNat < 2 ^ 32 → boundCheck x.st x.ag (ptrAdd (x.k b) (32 * w.toNat)) 32 = .ok (some key) → poisoned x.st key 32 = false →
    (x.st.mem.bits key 32 &&& (x.k m).toNat = (x.k m).toNat → x.GoesOn (.cwait b m w) x.st) ∧
    (x.st.mem.bits key 32 &&& (x.k m).toNat ≠ (x.k m).toNat →
      x.WaitsIn (.cwait b m w) x.st { x.c with cwaits := x.c.cwaits ||| x.lanes } .engine false)) ∧
  (∀ (x : Ctx) (b m d : KReg) (w : BitVec 5) (key : Nat), x.Issues (.ctest b m d w) → scrMult (x.k b) 32 = true → (x.k m).toNat < 2 ^ 32 →
    boundCheck x.st x.ag (ptrAdd (x.k b) (32 * w.toNat)) 32 = .ok (some key) → poisoned x.st key 32 = false →
    x.ResultK (.ctest b m d w) d (BitVec.ofNat 64 (x.st.mem.bits key 32 &&& (x.k m).toNat))) ∧
  (∀ (x : Ctx) (y t g : KReg) (key : Nat), x.Issues (.swarm y t g) → scrMult (x.k y) 128 = true → (x.k t).toNat < 2 ^ 32 →
    boundCheck x.st x.ag (x.k y) 128 = .ok (some key) → poisoned x.st (key + 64) 64 = false →
    x.GivesK (.swarm y t g) (storeBits x.st key 64 (x.k t).toNat) g (BitVec.ofNat 64 (x.st.mem.bits (key + 64) 32))) ∧
  (∀ (x : Ctx) (y g : KReg) (key : Nat), x.Issues (.swait y g) → x.c.due = [] → scrMult (x.k y) 128 = true →
    boundCheck x.st x.ag (x.k y) 128 = .ok (some key) → poisoned x.st (key + 64) 64 = false →
    (x.st.mem.bits (key + 64) 32 ≠ (x.k g).toNat % 2 ^ 32 → x.GoesOn (.swait y g) x.st) ∧
    (x.st.mem.bits (key + 64) 32 = (x.k g).toNat % 2 ^ 32 → x.WaitsIn (.swait y g) x.st x.c .engine false)) ∧
  (∀ (x : Ctx) (p n : KReg) (st : Bool), x.Issues (.rlwait p n st) → x.c.due = [] → spaceCause (x.k p) = none → 0 < (x.k n).toNat →
    (x.k n).toNat < 2 ^ 48 →
    ((∀ r ∈ lockRange x.st x.ag (x.k p) (x.k n).toNat st, rangeHeld x.st x.core x.bound st r = false) →
      x.EndsIn (.rlwait p n st) (x.st.modCrew x.gid x.ci fun _ => x.freed)) ∧
    ((∃ r ∈ lockRange x.st x.ag (x.k p) (x.k n).toNat st, rangeHeld x.st x.core x.bound st r = true) →
      x.WaitsIn (.rlwait p n st) x.st x.bounded .engine false)) ∧
  ∀ (x : Ctx) (p d : KReg) (e f : Elem) (s t u : State) (v : Nat), x.Issues (.seal p d) → spaceCause (x.k p) = none →
    recordSpace (x.k p) = true → checkLanes x.st x.ag [(x.low, x.k p)] 512 (.mult 512) .write false = (.ok [e], s) →
    elemRead s x.ag x.core x.mode { e with n := 448, pieces := takePieces 448 e.pieces } = (some v, t) →
    checkLanes t x.ag [(x.low, ptrAdd (x.k p) 448)] 64 (.plain 64) .write false = (.ok [f], u) →
    x.EndsIn (.seal p d) ((elemWrite u x.ag x.core x.mode f (sealOf v).toNat).modCrew x.gid x.ci fun c =>
      { c with k := c.k.set d.toNat (sealOf v) })

/-- R216 to R222, R203, R168: SLUICE posts a checked block at the end of its stack's queue and goes on, or waits with what it has copied while the
queue is full; a group of a block whose elements are in order is performed from where it was paused, and after the last group the flag is written
and the block leaves the queue. -/
def Obligations.SluiceResults : Prop :=
  let held (x : Ctx) : Option Posting := x.c.posting.find? fun q => q.pc == x.pc && q.lanes &&& x.lanes != 0
  let posted (x : Ctx) (stack : BitVec 3) (p : KReg) (bits : Nat) (t : State) (srcs : List Dword) : Prop :=
    stack.toNat < t.sluiceStacks.length →
    ((t.stack stack.toNat).blocks.length < 64 →
      ∃ u, x.EndsIn (.sluice stack p) u ∧ u.gangs = (t.modCrew x.gid x.ci fun _ => x.freed).gangs ∧
        (u.stack stack.toNat).blocks = (t.stack stack.toNat).blocks ++
          [parseBlock bits t.nextId (t.nextId + 1) x.core (.crews x.gid [x.ci]) x.fn x.part srcs]) ∧
    (64 ≤ (t.stack stack.toNat).blocks.length →
      x.WaitsIn (.sluice stack p) t { x.freed with posting := x.freed.posting ++ [⟨x.pc, x.lanes, bits, srcs⟩] } .engine false)
  (∀ (x : Ctx) (stack : BitVec 3) (p : KReg) (bits : Nat) (s t : State) (srcs : List Dword), x.Issues (.sluice stack p) →
    slotFree x.st x.core = true → held x = none → isDev (x.k p) = true → low60 (x.k p) % 512 = 0 →
    (∀ f, x.ownRead (writeBackAll x.st x.core) (x.k p) 512 512 (.mult 512) .read f = f s bits) →
    blockBad s x.fn stack.toNat bits = false →
    (∀ f, x.readSources (BitVec.ofNat 64 (bitsAt bits 128 64)) (blockSources bits) 0 [] s f = f t srcs) →
    sourcesBad (parseBlock bits 0 0 0 (.crews 0 []) 0 0 srcs) = false → posted x stack p bits t srcs) ∧
  (∀ (x : Ctx) (stack : BitVec 3) (p : KReg) (q : Posting), x.Issues (.sluice stack p) → slotFree x.st x.core = true → held x = some q →
    posted x stack p q.bits x.st q.srcs) ∧
  ∀ (s t : State) (stack block g : Nat) (b : Block), ((s.stack stack).blocks.find? fun b => b.id == block) = some b → b.paused = false →
    b.stop = none → b.doneGroups.length < b.groups → g < b.groups → g ∉ b.doneGroups → blockedBy s b.core b.cmd (groupRanges s b g) = false →
    let done := match b.begun.find? fun q => q.1 == g with | some q => q.2 | none => 0
    ((((List.range (min 512 (b.count - 512 * g))).map (512 * g + ·)).drop done).foldlM (fun u i => sluiceOne u b stack i) s) = .ok t →
    let b' : Block := { b with doneGroups := b.doneGroups ++ [g], begun := b.begun.filter fun q => q.1 != g }
    let v := modBlock t stack b.id fun _ => b'
    (b.doneGroups.length + 1 < b.groups → exec (.sluiceGroupComplete stack block g) s = .next (settleOwner v b.owner)) ∧
    (b.doneGroups.length + 1 = b.groups → blockedBy v b.core b.cmd (lockRange v b.agent b.flag 64 true) = false →
      ∀ u, engineWrite v b.agent b.flag 64 b.flagval.toNat (.plain 64) = .ok u →
        exec (.sluiceGroupComplete stack block g) s = .next (settleOwner (endBlock (abortFor u b.owner b.agent b.flag 64) stack b' none) b.owner))

/-- R128, R130, R220: what the sluice does with one element whose bits lie in its stack: all sources are read first; COPY stores the source, SUM the
sum in the block's order rounded once per addition, or modulo 2^32 for I32; SUMX adds every source exactly to the element's slot, cleared first with
ZERO, and stores its readout with READ. Exactly the destination element's bits change. The sum of a slot does not depend on the order of what is
added. -/
def Obligations.SluiceElements : Prop :=
  (∀ (s : State) (b : Block) (stack i dkey : Nat) (key : Nat → Nat), s.mem.wf = true → Untracked s → stack < s.sluiceStacks.length →
    (∀ p ∈ b.sources.zipIdx, sluiceElem s b stack (ptrAdd p.1 (i * b.w)) .read = .ok [.store (key p.2) b.w]) →
    (b.stores = true → sluiceElem s b stack (ptrAdd b.dest (i * b.w)) .write = .ok [.store dkey b.w]) →
    let xs := (List.range b.sources.length).map fun j => s.mem.bits (key j) b.w
    let n := ((s.fn b.fn).windows.getD stack (0, 0)).1 + b.slotBase + i
    let slot := xs.foldl (fun t x => slotAdd t (valueOf b.fmt x)) (if b.zero then 0 else (s.stack stack).slot n)
    let wide := xs.map fun x => BitVec.ofNat 32 (toBin binF32 .rne (valueOf b.fmt x))
    ∃ u, sluiceOne s b stack i = .ok (if b.stores then abortFor u b.owner b.agent (ptrAdd b.dest (i * b.w)) b.w else u) ∧
      u.gangs = s.gangs ∧
      (∀ v, (b.op = 2 → v = xs.headD 0) ∧ (b.op = 0 → b.fmt = .i32 → v = xs.sum % 2 ^ 32) ∧
          (b.op = 0 → b.fmt ≠ .i32 → v = convert .rne .f32 b.fmt (if b.seqOrder then seqSum wide else treeSum 5 wide).toNat) ∧
          (b.op ≠ 0 → b.op ≠ 2 → v = convertX .rne (slotValue slot) b.fmt) →
        ∀ k, u.mem.bitAt k = if b.stores = true ∧ dkey ≤ k ∧ k < dkey + b.w then v.testBit (k - dkey) else s.mem.bitAt k) ∧
      ((b.op = 0 ∨ b.op = 2) → u.sluiceStacks = s.sluiceStacks) ∧
      (b.op ≠ 0 → b.op ≠ 2 → (∀ m, (u.stack stack).slot m = if m = n then slot else (s.stack stack).slot m) ∧
        ∀ k, k ≠ stack → u.stack k = s.stack k)) ∧
  (∀ (n : Nat) (a b c d e : Word) (l : List Word), treeSum 0 [a] = a ∧ treeSum (n + 1) l = treeSum n (pairUp l) ∧
    pairUp (a :: b :: l) = addF32 a b :: pairUp l ∧ pairUp [a] = [a] ∧ pairUp [] = [] ∧
    treeSum 5 [a, b, c, d, e] = addF32 (addF32 (addF32 a b) (addF32 c d)) e ∧ treeSum 5 [a, b, c] = addF32 (addF32 a b) c ∧
    seqSum (a :: l) = l.foldl addF32 a) ∧
  (∀ (t : BitVec 320) (neg : Bool) (a d : Nat), 0 < d → a * 2 ^ 149 % d = 0 →
    let u := slotAdd t (.fin neg a d)
    u.extractLsb' 312 8 = t.extractLsb' 312 8 ∧
    ((u.extractLsb' 0 312).toNat : Int) = ((t.extractLsb' 0 312).toNat + (if neg then -1 else 1) * (a * 2 ^ 149 / d : Nat)) % 2 ^ 312) ∧
  (∀ (t : BitVec 320) (k : Nat), k < 320 → (slotAdd t .nan).getLsbD k = (t.getLsbD k || k == 312) ∧
    (slotAdd t (.inf false)).getLsbD k = (t.getLsbD k || k == 313) ∧ (slotAdd t (.inf true)).getLsbD k = (t.getLsbD k || k == 314)) ∧
  ∀ (t : BitVec 320) (l m : List XVal), l.Perm m → l.foldl slotAdd t = m.foldl slotAdd t

/-! ## The matrix engine -/

/-- R140, R141, R144, R148, R151 to R155; logs 84 and 51, the model's reading: a matrix instruction with operands in order queues its command behind
those of the core and goes on, or waits with nothing claimed while a core has no free slot; MXWAIT waits for the crew's earlier commands; MXSTEP reads the step count and the state of an accumulator's last
loop. That a cluster command takes an entry and a slot on all four cores, with the other cores' scratchpad ranges in the issuing entry, is the
model's reading of R141 and R147 (log 84), and so is that a command behind an unreported stop has no effect and goes on, a loop
counting as its accumulator's last one, and idle (log 51). That no engine is claimed while a slot is waited for, after the issue checks, is DEDUCED (log 53). -/
def Obligations.MatrixInstructionResults : Prop :=
  (∀ (x : Ctx) (i : Instr) (s : State) (op : MxOp) (rs : Nat → List LockRange), x.Issues i → claimEngine x.st x.core x.gid = some s →
    matrixOp x s i = some (op, rs) → x.core < x.st.cores.length →
    let others := (enginesOf x.core op.cluster).filter fun c => c != x.core
    (x.c.mxStops = [] → (∀ c ∈ enginesOf x.core op.cluster, slotFree x.st c = true ∧ c < x.st.cores.length) →
      ∃ t, x.EndsIn i t ∧ t.gangs = x.st.gangs ∧
        t.cmds = x.st.cmds ++ [⟨x.st.nextId, x.core, x.c.slot, x.pc, .crews x.gid [x.ci], .mx op, false⟩] ∧
        (∀ c ∈ enginesOf x.core op.cluster, ∃ own, (t.core c).locks = (x.st.core c).locks ++ [⟨x.st.nextId, false, own, own⟩] ∧
          own = rs c ++ if c = x.core then (others.flatMap rs).filter fun r => r.dom == .scr else []) ∧
        (t.core x.core).mx.holder = some x.gid) ∧
    (x.c.mxStops = [] → (∃ c ∈ enginesOf x.core op.cluster, slotFree x.st c = false) → x.WaitsIn i x.st x.c .engine false) ∧
    (x.c.mxStops ≠ [] → ∃ t, x.EndsIn i t ∧ t.cmds = x.st.cmds ∧ t.gangs = x.st.gangs ∧
      ∀ (acc sparse : Nat) (a b : Dword) (count start inca incb pair : Nat) (cluster began : Bool),
        op = .loop acc sparse a b count start inca incb pair cluster began →
        ∀ c ∈ enginesOf x.core cluster, c < x.st.cores.length → acc < (s.core c).mx.lastLoop.length →
          ((t.core c).mx.lastLoop.getD acc (0, .busy)).2 = .idle)) ∧
  (∀ (x : Ctx) (s : State), x.Issues .mxwait → claimEngine x.st x.core x.gid = some s →
    ((∀ y ∈ x.st.cmds, y.id < x.bound → y.mxOf x.gid x.ci = false) → ((∀ d ∈ x.c.mxStops, x.bound ≤ d.cmd) ∨ x.c.inHandler = true) →
      x.EndsIn .mxwait (s.modCrew x.gid x.ci fun _ => x.freed)) ∧
    ((∃ y ∈ x.st.cmds, y.id < x.bound ∧ y.mxOf x.gid x.ci = true) →
      x.WaitsIn .mxwait s x.bounded .engine false)) ∧
  ∀ (x : Ctx) (d : KReg) (acc : BitVec 2) (s : State), x.Issues (.mxstep d acc) → claimEngine x.st x.core x.gid = some s →
    x.GivesK (.mxstep d acc) s d (BitVec.ofNat 64 ((accOf s x.core acc.toNat).step % 2 ^ 32 +
      2 ^ 32 * match ((s.core x.core).mx.lastLoop.getD acc.toNat (0, .idle)).2 with | .idle => 0 | .busy => 1 | .stopped => 2))

/-- R125, R127, R145, R148, R151 to R153: a step of an integer loop at the head of a core's queue adds its products to every element and counts one
step, or ends the loop; MXCLR (R151), MXWB (R148), MXST and MXLD at the head have their effect. Stated for one engine and MXWB of source 0;
ClusterMatrixSteps states four engines, a copied image and the chains of a float format. -/
def Obligations.MatrixStepResults : Prop :=
  (∀ (s : State) (core acc sparse : Nat) (x : EngCmd) (a b : Dword) (count start inca incb pair : Nat) (va vb : List Nat),
    mxHead s core = some (x, .loop acc sparse a b count start inca incb pair false true) → x.paused = false →
    blockedBy s core x.id (cmdRanges s core x.id) = false →
    stepFetch s (x.engineAgent s core) core sparse a b count inca incb pair (accOf s core acc).step = .go va vb →
    let t := modAcc s core acc fun c => { c.addStep pair va vb with step := (accOf s core acc).step + 1 }
    (∀ n, stepFetch t (x.engineAgent t core) core sparse a b count inca incb pair ((accOf s core acc).step + 1) ≠ .done n) →
    exec (.matrixStep core) s = .next t) ∧
  (∀ (s : State) (core acc sparse : Nat) (x : EngCmd) (a b : Dword) (count start inca incb pair n : Nat),
    mxHead s core = some (x, .loop acc sparse a b count start inca incb pair false true) → x.paused = false →
    blockedBy s core x.id (cmdRanges s core x.id) = false →
    stepFetch s (x.engineAgent s core) core sparse a b count inca incb pair (accOf s core acc).step = .done n →
    exec (.matrixStep core) s = .next (doneMx (modAcc s core acc fun c => { c with step := n }) x)) ∧
  (∀ (ps : List (Int × Int)) (chain : List (Nat × Word)) (k : Nat), chain.Pairwise (fun p q => p.1 < q.1) → k < ps.length →
    chainAt (addChain chainI 0 ps chain) k = chainAt chain k + BitVec.ofInt 32 ((ps.getD k (0, 0)).1 * (ps.getD k (0, 0)).2)) ∧
  ∀ (s : State) (core : Nat) (x : EngCmd) (op : MxOp), mxHead s core = some (x, op) → x.paused = false →
    blockedBy s core x.id (cmdRanges s core x.id) = false →
    (∀ acc k, op = .clr acc k false →
      exec (.matrixCommandComplete core) s = .next (doneMx (modAcc s core acc fun _ => ⟨[], [], k, 0⟩) x)) ∧
    (∀ mode half f n, op = .wb mode 0 half f n →
      exec (.matrixCommandComplete core) s = .next (doneMx (modMx s core fun m => { m with halves := m.halves.set half ⟨mode, f, n⟩ }) x)) ∧
    (∀ dst acc f stride kind t, op = .st dst acc f false stride kind 0 → (accOf s core acc).intKind = kind →
      storeElems x [core] dst acc f stride 16384 0 s = (t, none) → exec (.matrixCommandComplete core) s = .next (doneMx t x)) ∧
    ∀ acc buf f off kind, op = .ld acc buf f false off kind 0 → (accOf s core acc).intKind = kind → s.mem.wf = true →
      ∃ m, exec (.matrixCommandComplete core) s = .next (doneMx { s with mem := m } x) ∧
        ∀ i j, i < 128 → j < 128 →
          m.bits (abufKey core buf * 8 + off + j / 2 * (256 * fmtWidth f) + (2 * i + j % 2) * fmtWidth f) (fmtWidth f) =
            (accOf s core acc).deliver f (128 * i + j) % 2 ^ fmtWidth f

/-- R127: the chains of an integer format pair: each step adds one product to each element's even chain and one to its odd chain, modulo 2^32; the
delivered value is the sum of the two modulo 2^32, and the exact dot product when that lies within the I32 range, whatever the partial sums. -/
def Obligations.IntegerMatrixChains : Prop :=
  ((List.range 12).filter pairInt).map pairFmts = [(.i8, .i8), (.i8, .i4), (.i4, .i4), (.i8, .i3), (.i8, .i6)] ∧
  (∀ (c : Acc) (pair : Nat) (a b : List Nat), pairInt pair = true → a.length = 256 → b.length = 256 →
    c.even.Pairwise (fun p q => p.1 < q.1) → c.odd.Pairwise (fun p q => p.1 < q.1) →
    (c.addStep pair a b).intKind = c.intKind ∧
    (c.addStep pair a b).even.Pairwise (fun p q => p.1 < q.1) ∧ (c.addStep pair a b).odd.Pairwise (fun p q => p.1 < q.1) ∧
    ∀ i j, i < 128 → j < 128 →
      chainAt (c.addStep pair a b).even (128 * i + j) = chainAt c.even (128 * i + j) + BitVec.ofInt 32 (intProduct pair (stepPair a b i j 0)) ∧
      chainAt (c.addStep pair a b).odd (128 * i + j) = chainAt c.odd (128 * i + j) + BitVec.ofInt 32 (intProduct pair (stepPair a b i j 1))) ∧
  (∀ (c : Acc) (k : Nat), c.intKind = true → c.deliver .i32 k = (chainAt c.even k + chainAt c.odd k).toNat) ∧
  ∀ (pair : Nat) (steps : List (List Nat × List Nat)) (i j : Nat), pairInt pair = true → (∀ t ∈ steps, t.1.length = 256 ∧ t.2.length = 256) →
    i < 128 → j < 128 →
    let c := steps.foldl (fun c t => c.addStep pair t.1 t.2) (⟨[], [], true, 0⟩ : Acc)
    let dot : Int := (steps.map fun t => intProduct pair (stepPair t.1 t.2 i j 0) + intProduct pair (stepPair t.1 t.2 i j 1)).sum
    c.deliver .i32 (128 * i + j) = (BitVec.ofInt 32 dot).toNat ∧
    (-2 ^ 31 ≤ dot → dot < 2 ^ 31 → signedOf 32 (c.deliver .i32 (128 * i + j)) = dot)

/-- R126, R147, R148, R151, R152: cluster commands act on the four engines of a cluster: MXCLR clears the accumulator of each, a step of a loop adds
each engine's own products and advances the one STEP, a stop of the lowest engine stops all four, an end ends all. A float step rounds once for each
chain and the two chains are added at delivery alone. MXWB copies its image into the half and describes it; MXST stores element (i, j) of engine e at its row
and column of the result. -/
def Obligations.ClusterMatrixSteps : Prop :=
  (∀ (s : State) (core acc : Nat) (x : EngCmd) (k : Bool), mxHead s core = some (x, .clr acc k true) → mxReady s x = true →
    ∃ t, exec (.matrixCommandComplete core) s = .next (doneMx t x) ∧ t.mem = s.mem ∧ t.gangs = s.gangs ∧
      ∀ c a, c < s.cores.length → acc < (s.core c).mx.accs.length →
        accOf t c a = if c ∈ enginesOf x.core true ∧ a = acc then ⟨[], [], k, 0⟩ else accOf s c a) ∧
  (∀ (s : State) (core acc sparse : Nat) (x : EngCmd) (a b : Dword) (count start inca incb pair : Nat),
    mxHead s core = some (x, .loop acc sparse a b count start inca incb pair true true) → mxReady s x = true →
    let es := enginesOf x.core true
    let n := (accOf s x.core acc).step
    let fetch (t : State) (c k : Nat) : StepFetch := stepFetch t (x.engineAgent t c) c sparse a b count inca incb pair k
    (∀ c cause st, c ∈ es → fetch s c n = .stop cause st → (∀ e ∈ es, e < c → ∀ u v, fetch s e n ≠ .stop u v) →
      exec (.matrixStep core) s = .next (stopMx (setStep s es acc st) x (.loop acc sparse a b count start inca incb pair true true) cause st)) ∧
    ((∀ e ∈ es, ∀ u v, fetch s e n ≠ .stop u v) → ∀ c m, c ∈ es → fetch s c n = .done m → (∀ e ∈ es, e < c → ∀ u, fetch s e n ≠ .done u) →
      exec (.matrixStep core) s = .next (doneMx (setStep s es acc m) x)) ∧
    ((∀ c ∈ es, ∃ va vb, fetch s c n = .go va vb) →
      ∃ t, t.mem = s.mem ∧ t.gangs = s.gangs ∧
        (∀ c va vb, c ∈ es → c < s.cores.length → acc < (s.core c).mx.accs.length → fetch s c n = .go va vb →
          accOf t c acc = { (accOf s c acc).addStep pair va vb with step := n + 1 }) ∧
        ((∀ c ∈ es, ∀ m, fetch t c (n + 1) ≠ .done m) → exec (.matrixStep core) s = .next t) ∧
        ((∀ c ∈ es, ∀ u v, fetch t c (n + 1) ≠ .stop u v) → ∀ c m, c ∈ es → fetch t c (n + 1) = .done m →
          (∀ e ∈ es, e < c → ∀ u, fetch t e (n + 1) ≠ .done u) → exec (.matrixStep core) s = .next (doneMx (setStep t es acc m) x)))) ∧
  (∀ (s : State) (es : List Nat) (acc m c a : Nat), c < s.cores.length → acc < (s.core c).mx.accs.length →
    accOf (setStep s es acc m) c a = if c ∈ es ∧ a = acc then { accOf s c a with step := m } else accOf s c a) ∧
  (∀ (c : Acc) (pair : Nat) (a b : List Nat) (i j : Nat), pairInt pair = false → a.length = 256 → b.length = 256 →
    c.even.Pairwise (fun p q => p.1 < q.1) → c.odd.Pairwise (fun p q => p.1 < q.1) → i < 128 → j < 128 →
    let next (w : Word) (q : Nat × Nat) : Word := BitVec.ofNat 32 (toBin binF32 .rne
      (XVal.add .rne (binValue binF32 w.toNat) (XVal.mul (valueOf (pairFmts pair).1 q.1) (valueOf (pairFmts pair).2 q.2))))
    chainAt (c.addStep pair a b).even (128 * i + j) = next (chainAt c.even (128 * i + j)) (stepPair a b i j 0) ∧
    chainAt (c.addStep pair a b).odd (128 * i + j) = next (chainAt c.odd (128 * i + j)) (stepPair a b i j 1)) ∧
  (∀ (c : Acc) (f : Fmt) (k : Nat), c.intKind = false → c.deliver f k = convert .rne .f32 f (BitVec.ofNat 32 (toBin binF32 .rne
    (XVal.add .rne (binValue binF32 (chainAt c.even k).toNat) (binValue binF32 (chainAt c.odd k).toNat)))).toNat) ∧
  (∀ (s : State) (core : Nat) (x : EngCmd) (mode : WMode) (src : Dword) (half n : Nat) (f : Fmt), mxHead s core = some (x, .wb mode src half f n) →
    mxReady s x = true → src ≠ 0 → s.mem.wf = true → x.core < s.cores.length →
    (∀ v, operandRead s (x.agent s) src 0 n = .ok v → 0 < n →
      ∃ t, exec (.matrixCommandComplete core) s = .next (doneMx t x) ∧
        (t.core x.core).mx.halves = (s.core x.core).mx.halves.set half ⟨mode, f, n⟩ ∧
        ∀ k, t.mem.bitAt k = if wbufKey x.core half * 8 ≤ k ∧ k < wbufKey x.core half * 8 + n then v.testBit (k - wbufKey x.core half * 8)
          else s.mem.bitAt k) ∧
    (∀ c, operandRead s (x.agent s) src 0 n = .error c →
      exec (.matrixCommandComplete core) s = .next (stopMx s x (.wb mode src half f n) c 0))) ∧
  ∀ (x : EngCmd) (es : List Nat) (dst : Dword) (acc stride fuel e i j : Nat) (f : Fmt) (s t : State), es.length = 1 ∨ es.length = 4 → e < es.length →
    i < 128 → j < 128 →
    let row := i + if es.length = 1 then 0 else 128 * (e / 2)
    let col := j + if es.length = 1 then 0 else 128 * (e % 2)
    let p := ptrAdd dst (row * stride + col * fmtWidth f)
    engineWrite s (x.agent s) p (fmtWidth f) ((accOf s (es.getD e x.core) acc).deliver f (128 * i + j)) (.plain (fmtWidth f)) = .ok t →
    storeElems x es dst acc f stride (fuel + 1) (16384 * e + 128 * i + j) s =
      storeElems x es dst acc f stride fuel (16384 * e + 128 * i + j + 1) (abortFor t x.owner (x.agent s) p (fmtWidth f)) ∧
    storeElems x es dst acc f stride 0 (16384 * e + 128 * i + j) s = (s, none)

/-! ## The spring array -/

/-- R224, R225, R231 to R234: a spring instruction of a launch that holds the array, with operands in order, adds its command to the array's
queue; all but SPSWEEP wait for it. -/
def Obligations.SpringInstructionResults : Prop :=
  ∀ (x : Ctx) (i : Instr) (op : SpOp) (waits : Bool) (s : State) (l : Launch), x.Issues i → springParts x i = some (none, op, waits, s) →
    x.launch = some l → springHeld x.st (x.core / 64) l = true → springFull x.st (x.core / 64) = false → x.core / 64 < x.st.springs.length →
    ∃ t, t.springs = x.st.springs.modify (x.core / 64) (fun p => { p with
        queue := p.queue ++ [⟨x.st.nextId, .crews x.gid [x.ci], x.core, if waits then x.lanes else 0, op, false⟩] }) ∧
      t.gangs = x.st.gangs ∧ if waits then x.WaitsIn i t x.c .engine true else x.GoesOn i t

/-- R228 to R233: one colour of a sweep gives every unclamped variable of it a new state from the states before it; clamping, freeing, setting
and loading act on exactly their range, and the group that waited goes on. -/
def Obligations.SpringStepResults : Prop :=
  (∀ (s : State) (die left c : Nat) (q : SpCmd) (rest : List SpCmd) (beta : Option (BitVec 8)) (clr : Bool), die < s.springs.length →
    (s.spring die).queue = q :: rest → q.op = .sweep left beta clr true c → (s.spring die).entropy = false → c + 1 < (s.spring die).colours →
    0 < left → springWaits s q = false →
    ∃ t, exec (.springColourUpdate die) s = .next t ∧
      (∀ (v : Nat) (y : SpVar), (s.spring die).vars[v]? = some y → (t.spring die).vars[v]? = some (if y.colour = c ∧ y.cl = false then
        { y with s := seededDraw (s.spring die).seed (s.spring die).sweepno v c <
          updateP y (s.spring die).beta fun i => match (s.spring die).vars[i]? with | some z => z.s | none => false }
        else y)) ∧
      (t.spring die).queue = { q with op := .sweep left beta clr true (c + 1) } :: rest ∧ (t.spring die).sweepno = (s.spring die).sweepno ∧
      t.mem = s.mem ∧ t.gangs = s.gangs) ∧
  (∀ (s : State) (die first count : Nat) (q : SpCmd) (rest : List SpCmd), die < s.springs.length → (s.spring die).queue = q :: rest →
    q.paused = false → springWaits s q = false → first + count ≤ (s.spring die).nvar →
    let inRange (v : Nat) : Bool := first ≤ v && v < first + count
    let becomes (f : Nat → SpVar → SpVar) : Prop :=
      ∃ t, exec (.springCommandComplete die) s = .next (springDone t die q) ∧ t.gangs = s.gangs ∧ t.mem = s.mem ∧
        ∀ v, (t.spring die).vars[v]? = ((s.spring die).vars[v]?).map fun y => if inRange v then f (v - first) y else y
    (q.op = .free first count → becomes fun _ y => { y with cl := false }) ∧
    (∀ values taken vs, springPtr values = none → readValues s (q.agent s) values (count - taken.length) taken = .ok vs →
      (q.op = .clamp first count values taken → becomes fun i y => { y with s := vs.getD i false, cl := true }) ∧
      (q.op = .set first count values taken → becomes fun i y => { y with s := vs.getD i false })) ∧
    ∀ dst ones clr pos n t, q.op = .read dst first count ones clr pos → destCause dst ones = none →
      writeVars q.owner (q.agent s) dst ones (((s.spring die).vars.drop (first + pos)).take (count - pos)) pos s = (n, t, none) →
      let u := if ones && clr then modVars t die (first + pos) (n - pos) fun _ y => { y with ones := 0 } else t
      exec (.springCommandComplete die) s =
        .next (springDone (leaveRanges u q.core (q.agent s).fn (lockRange u (q.agent s) dst (count * if ones then 16 else 1) true)) die q)) ∧
  (∀ (o : CmdOwner) (ag : Agent) (dst : Dword) (ones : Bool) (y : SpVar) (ys : List SpVar) (pos : Nat) (s t : State),
    engineWrite s ag (ptrAdd dst (pos * if ones then 16 else 1)) (if ones then 16 else 1) (if ones then y.ones else if y.s then 1 else 0) .free = .ok t →
    writeVars o ag dst ones (y :: ys) pos s =
      writeVars o ag dst ones ys (pos + 1) (abortFor t o ag (ptrAdd dst (pos * if ones then 16 else 1)) (if ones then 16 else 1))) ∧
  ∀ (s : State) (die : Nat) (q : SpCmd) (rest : List SpCmd) (image : Dword) (taken : Option (Nat × List SpVar)) (n : Spring), die < s.springs.length →
    (s.spring die).queue = q :: rest → q.paused = false → springWaits s q = false → q.op = .load image taken →
    readImage s (q.agent s) image taken = .ok n →
    exec (.springCommandComplete die) s =
      .next (springDone (s.modSpring die fun p => { n with holder := p.holder, queue := p.queue }) die q)

/-- R229, R230, R233; log 20, a free value: a colour of a sweep in either mode, the last colour among them: the states come from those before the
colour, in entropy mode by a fresh draw for every update; after the last colour every variable's ONES counts its state up to 65,535, SWEEPNO
advances, and the next sweep begins or the command leaves the queue. A sweep that begins sets BETA and clears ONES as SPSWEEP asked. The draws of entropy
mode are free values (log 20). -/
def Obligations.SpringSweepEnd : Prop :=
  (∀ (s : State) (die left c : Nat) (q : SpCmd) (rest : List SpCmd) (beta : Option (BitVec 8)) (clr : Bool), die < s.springs.length →
    (s.spring die).queue = q :: rest → q.op = .sweep left beta clr true c → 0 < left → springWaits s q = false →
    let sp := s.spring die
    let drawn (v : Nat) : Nat := ((sp.vars.take v).filter fun y => y.colour == c && !y.cl).length
    let draw (v : Nat) : Nat := if sp.entropy then (Config.entropyDraw (s.freeCtr + drawn v)).toNat else seededDraw sp.seed sp.sweepno v c
    let new (v : Nat) (y : SpVar) : Bool := if y.colour = c ∧ y.cl = false then
      decide (draw v < updateP y sp.beta fun i => match sp.vars[i]? with | some z => z.s | none => false) else y.s
    ∃ t, t.mem = s.mem ∧ t.gangs = s.gangs ∧ t.freeCtr = s.freeCtr + (if sp.entropy then drawn sp.vars.length else 0) ∧
      (t.spring die).vars.length = sp.vars.length ∧ (t.spring die).beta = sp.beta ∧ (t.spring die).holder = sp.holder ∧
      (c + 1 < sp.colours → exec (.springColourUpdate die) s = .next t ∧
        (∀ (v : Nat) (y : SpVar), sp.vars[v]? = some y → (t.spring die).vars[v]? = some { y with s := new v y }) ∧
        (t.spring die).sweepno = sp.sweepno ∧ (t.spring die).queue = { q with op := .sweep left beta clr true (c + 1) } :: rest) ∧
      (sp.colours ≤ c + 1 →
        exec (.springColourUpdate die) s = .next (if left = 1 then settleOwner (leaveArray t die q) q.owner else t) ∧
        (∀ (v : Nat) (y : SpVar), sp.vars[v]? = some y → (t.spring die).vars[v]? =
          some { y with s := new v y, ones := min (y.ones + if new v y then 1 else 0) 65535 }) ∧
        (t.spring die).sweepno = (sp.sweepno + 1) % 2 ^ 64 ∧
        (t.spring die).queue = if left = 1 then rest else { q with op := .sweep (left - 1) beta clr true 0 } :: rest)) ∧
  ∀ (s : State) (die left c : Nat) (q : SpCmd) (rest : List SpCmd) (beta : Option (BitVec 8)) (clr : Bool), die < s.springs.length →
    (s.spring die).queue = q :: rest → q.op = .sweep left beta clr false c →
    exec (.springColourUpdate die) s = if springWaits s q then .next s else
      exec (.springColourUpdate die) (s.modSpring die fun p => { p with
        queue := { q with op := .sweep left beta clr true c } :: rest, beta := beta.getD p.beta
        vars := if clr then p.vars.map fun y => { y with ones := 0 } else p.vars })

/-! ## Tasks, routing, launches -/

/-- R318 to R321, R303: TSPAWN adds a child with a place free and gives its number; TQRY reads the crew's own task and TQRY.task another's
state; TEND ends the group's threads as EXIT does; TWAITW of a task at the frontier goes on. -/
def Obligations.TaskInstructionResults : Prop :=
  (∀ (x : Ctx) (e ts arg num : KReg) (own : Task) (p : Option Nat), x.Issues (.tspawn e ts arg num) → x.task = some own → isDev (x.k e) = true →
    (x.k e).toNat % 32 = 0 → (own.tag.headD (0, 0)).1 ≤ (x.k ts).toNat → own.children < 65536 →
    placeFor x.st x.g.launch x.fn x.core = some p →
    ∃ s t, x.GivesK (.tspawn e ts arg num) s num (t.num.zeroExtend 64) ∧ t ∈ (unitOf s x.g.launch).tasks ∧ t.num = (unitOf x.st x.g.launch).nextNum ∧
      t.tag = ((x.k ts).toNat, own.children) :: own.tag ∧ t.parent = some own.num ∧ t.entry = x.k e ∧ t.arg = x.k arg ∧ t.core = p ∧ t.st = .queued ∧
      (unitOf s x.g.launch).nextNum = (unitOf x.st x.g.launch).nextNum + 1 ∧ s.gangs = x.st.gangs ∧ s.mem = x.st.mem) ∧
  (∀ (x : Ctx) (d : KReg) (t : Task), x.Issues (.tqry d) → x.task = some t →
    x.ResultK (.tqry d) d (BitVec.ofNat 64 ((if t.front then 1 else 0) + t.reads.length % 512 * 2 + t.children * 2 ^ 16))) ∧
  (∀ (x : Ctx) (n d : KReg), x.Issues (.tqryTask n d) →
    x.ResultK (.tqryTask n d) d (match (unitOf x.st x.g.launch).tasks.find? fun t => t.num.toNat == (x.k n).toNat with
      | some t => (match t.st with | .queued => 0 | .running => 1 | .finished => 2)
      | none => 3)) ∧
  (∀ x : Ctx, x.Issues .tend → ∃ c, exec .tend x.st = .next (x.settles c) ∧ x.Lanes (fun e => { e with st := .exited, age := 0 }) c ∧
    c = { x.c with pcs := c.pcs, m := x.c.m.map fun v => v &&& ~~~x.lanes }) ∧
  ∀ x : Ctx, x.Issues .twaitw → x.ResultNone .twaitw

/-- R300, R303, R306, R307, R310: how tasks get on. What the frontier task has buffered goes to storage bit by bit under its masks; a task that becomes the
frontier task with nothing held against it keeps no buffer and no tracked line, and its crew looks again at what it waits for; a FINISHED frontier
task commits and leaves the unit, and the earliest record of the area takes its place in the slice (R301); a write aborts the later tasks that have read its line; an abort leaves storage alone, puts its tasks back to QUEUED with
nothing kept, discards what they spawned, and reaches every later reader of what they wrote; the crew of an aborted task stops and holds none. -/
def Obligations.TaskProgress : Prop :=
  (∀ (s : State) (core : Nat) (w : TaskLine), s.mem.wf = true → Untracked s →
    (drainLine s core w).gangs = s.gangs ∧ (drainLine s core w).launches = s.launches ∧
    ∀ k, (drainLine s core w).mem.bitAt k =
      if w.key ≤ k ∧ k < w.key + 512 ∧ w.mask.getLsbD (k - w.key) = true then w.data.getLsbD (k - w.key) else s.mem.bitAt k) ∧
  (∀ (s : State) (launch : Nat) (l : Launch) (t : Task), s.launch? launch = some l → taskNumbered s launch t.num = some t → t.puts = [] →
    t.deferred = none →
    let v := becomeFrontier s launch t
    v.mem = (t.writes.foldl (fun s w => drainLine s (t.core.getD 0) w) s).mem ∧
    taskNumbered v launch t.num = some { t with front := true, writes := [], reads := [] } ∧
    v.gangs = match runnerOf s launch t.num with
      | some (gid, ci) => (s.modCrew gid ci fun c => (c.forget (c.untied .frontier)).wake .frontier).gangs
      | none => s.gangs) ∧
  (∀ (s : State) (launch fuel : Nat) (l : Launch) (t : Task), s.launch? launch = some l → frontierOf s launch = some t →
    taskNumbered s launch t.num = some t →
    let commit (s : State) : State := modUnit s launch fun u => { u with tasks := u.tasks.filter fun x => x.num != t.num, commits := u.commits + 1 }
    (t.front = true → t.st = .finished → advanceTasks (fuel + 1) s launch = advanceTasks fuel (fillSlices (commit s) launch) launch) ∧
    (t.front = false → t.st = .finished → t.puts = [] → t.deferred = none →
      advanceTasks (fuel + 1) s launch = advanceTasks fuel (fillSlices (commit (becomeFrontier s launch t)) launch) launch)) ∧
  (∀ (s : State) (launch : Nat) (w : Task) (lines : List (LockDom × Nat)),
    let reader (t : Task) : Bool := tagLt w.tag t.tag && t.reads.any fun r => lines.contains r
    ((∀ t ∈ (unitOf s launch).tasks, reader t = false) → abortReaders s launch w lines = s) ∧
    ((∃ t ∈ (unitOf s launch).tasks, reader t = true) →
      abortReaders s launch w lines = abortTasks s launch (((unitOf s launch).tasks.filter reader).map fun t => t.num))) ∧
  (∀ (s : State) (launch : Nat) (ns : List (BitVec 32)),
    let ts := (unitOf s launch).tasks
    ∃ all gone : List (BitVec 32), (∀ n ∈ ns, n ∈ all) ∧ (∀ n ∈ all, n ∈ ns ∨ ∃ t ∈ ts, t.num = n ∧ t.reads ≠ []) ∧
      (∀ t ∈ ts, ∀ p, t.parent = some p → p ∈ all ∨ p ∈ gone → t.num ∈ gone) ∧
      (∀ a ∈ ts, ∀ t ∈ ts, a.num ∈ all → abortReaches ts a t = true → t.num ∈ all ∨ t.num ∈ gone) ∧
      (abortTasks s launch ns).mem = s.mem ∧ (∀ c, ((abortTasks s launch ns).core c).dcache = (s.core c).dcache) ∧
      (unitOf (abortTasks s launch ns) launch).tasks = (ts.filter fun t => decide (t.num ∉ gone)).map fun t =>
        if t.num ∈ all then { t with st := .queued, children := 0, reads := [], writes := [], puts := [], deferred := none } else t) ∧
  ∀ (s : State) (launch gid ci : Nat) (n : BitVec 32) (c : Crew), runnerOf s launch n = some (gid, ci) → s.crew? gid ci = some c → c.Shaped →
    ∃ c', (stopRunner s launch n).crew? gid ci = some c' ∧ c'.task = none ∧ ∀ j, j < 32 → (c'.lane j).st = .exited

/-- R168: a load or store of a group whose elements meet a replayable fault, and no other, parks its lanes: the instruction writes no register and no
storage (a load of sectors of RMT may first write back what its own core's data cache holds of them), and a fault record names the first such element and the lanes. A hoist chunk that meets one pauses its command with the elements that it has done,
with a fault record, and a paused command does nothing. -/
def Obligations.ReplayableFaults : Prop :=
  let parks (x : Ctx) (i : Instr) (lanes : Mask) (p : Dword) (cause kind : Nat) (kept : Prop) : Prop :=
    ∃ t c, exec i x.st = .next (putRecord t x.fn (x.core % 256) (faultRecord p cause kind false false x.core x.c.slot lanes x.pc) 1) ∧
      (kept → t.mem = x.st.mem) ∧ t.crew? x.gid x.ci = some c ∧ x.Lanes (fun e => { e with st := .parked, age := 0 }) c ∧ c = { x.c with pcs := c.pcs }
  (∀ (x : Ctx) (i : Instr) (sg : Bool) (d : Reg) (k : KReg) (o : Reg) (w : BitVec 4) (n : BitVec 3) (v : Opnd) (lanes : Mask) (p : Dword) (cause : Nat),
    loadParts i = some (sg, d, k, o, w, n) → x.Issues i → x.read [] o = .ok v → v.isX = true → x.mode = .plain → x.c.chainHolds x.lanes = false →
    (checkLanes x.st x.ag (x.elems x.lanes k o v n (widthOf w.toNat)) (widthOf w.toNat) (.plain (widthOf w.toNat)) .read false).1 = .park lanes p cause →
    parks x i lanes p cause 0 ((∀ q ∈ sectorList (x.elems x.lanes k o v n (widthOf w.toNat)) (widthOf w.toNat), spaceOf (BitVec.ofNat 64 (q * 256)) ≠ 5) ∨
      ∀ l ∈ (x.st.core x.core).dcache, l.dirty = 0)) ∧
  (∀ (x : Ctx) (d : Reg) (k : KReg) (o : Reg) (w : BitVec 4) (n : BitVec 3) (val : Nat → Nat) (v : Opnd) (lanes : Mask) (p : Dword) (cause : Nat),
    x.Issues (.st d k o w n) → x.storeValue d (widthOf w.toNat) = .ok val → x.read [d] o = .ok v → v.isX = true → x.mode = .plain →
    x.c.chainHolds x.lanes = false →
    (checkLanes x.st x.ag (x.elems x.lanes k o v n (widthOf w.toNat)) (widthOf w.toNat) (.plain (widthOf w.toNat)) .write false).1 = .park lanes p cause →
    parks x (.st d k o w n) lanes p cause 1 True) ∧
  (∀ (s t : State) (core cmd k j kind cause : Nat) (y : EngCmd) (h : HoistCopy) (l : Layout) (p : Dword), s.cmd? cmd = some y → y.core = core →
    y.body = .hoist h → h.layout = some l → y.paused = false → k ∈ h.todo → blockedBy s core y.id (chunkRanges s (y.agent s) core h l k) = false →
    remoteParts s y k = [] → holdLost s y h = false →
    let done := match h.part.find? fun p => p.1 == k with | some p => p.2 | none => 0
    copyElems (y.agent s) y h l k done ((chunkElems l h.slices k).drop done) s = (t, some (j, p, cause, kind)) → replayable cause = true →
    exec (.hoistChunkComplete core cmd k) s = .next (settleOwner
      (pauseCmd (modHoist t y.id fun h => { h with part := (k, j) :: h.part.filter fun p => p.1 != k }) y p cause kind) y.owner)) ∧
  (∀ (s : State) (y z : EngCmd) (p : Dword) (cause kind : Nat), s.cmd? y.id = some z →
    ∃ t fn, pauseCmd s y p cause kind = putRecord t fn (y.core % 256) (faultRecord p cause kind true false y.core y.slot 0 y.pc) 1 ∧
      t.mem = s.mem ∧ t.gangs = s.gangs ∧ t.cmd? y.id = some { z with paused := true }) ∧
  ∀ (s : State) (core cmd k : Nat) (y : EngCmd), s.cmd? cmd = some y → y.core = core → y.paused = true → remoteParts s y k = [] →
    exec (.hoistChunkComplete core cmd k) s = .next (settleOwner s y.owner)

/-- R266, R267, R269 to R271: TKINS inserts a candidate into each lane's sorted list; TAPEX takes each lane's entry apart; TAPEX.take
gives an interpreter gang the oldest tape node of its core, and TAPEX.done ends the node. -/
def Obligations.RoutingResults : Prop :=
  (∀ (x : Ctx) (d a b : Reg) (k : BitVec 3) (p q : Opnd), x.Issues (.tkins d a b k) → x.read [] a = .ok p → x.read [a] b = .ok q →
    p.isIn (fun f => f == .f32) = true → q.isX = true →
    (∀ i, i ≤ k.toNat → (x.c.vreg (d.toNat + 2 * i)).fmt = .f32 ∧ classX (x.c.vreg (d.toNat + 2 * i + 1)).fmt = true) →
    let entries (c : Crew) (j : Nat) : List (Word × Word) :=
      (List.range (k.toNat + 1)).map fun i => ((c.vreg (d.toNat + 2 * i)).val.lane j, (c.vreg (d.toNat + 2 * i + 1)).val.lane j)
    ∃ v c, x.Completes (.tkins d a b k) v c ∧ c.m = x.c.m ∧ c.k = x.c.k ∧
      (∀ j, j < 32 → x.lanes.getLsbD j = true → entries c j = listAfter (p.lo.lane j) (q.lo.lane j) (entries x.c j)) ∧
      (∀ j, j < 32 → x.lanes.getLsbD j = false → (x.c.lane j).st ≠ .exited → entries c j = entries x.c j) ∧
      ∀ r, (r < x.c.wbase.toNat * 16 + d.toNat ∨ x.c.wbase.toNat * 16 + d.toNat + 2 * k.toNat + 2 ≤ r) → c.regs[r]? = x.c.regs[r]?) ∧
  (∀ (x : Ctx) (d a : Reg), x.Issues (.tapex d a) → x.c.tapeTags a = true →
    (∀ j, j < 32 → x.lanes.getLsbD j = true → tapeBad (x.c.tapeEntry a j) = false) →
    ∃ v c, x.Completes (.tapex d a) v c ∧ c.m = x.c.m ∧ c.k = x.c.k ∧
      (∀ j n, j < 32 → n < 10 → x.lanes.getLsbD j = true →
        (c.vreg (d.toNat + n)).val.lane j = BitVec.ofNat 32 ((tapeFields (x.c.tapeEntry a j)).getD n 0) ∧ (c.vreg (d.toNat + n)).fmt = .n32) ∧
      ∀ r, (r < x.c.wbase.toNat * 16 + d.toNat ∨ x.c.wbase.toNat * 16 + d.toNat + 10 ≤ r) → c.regs[r]? = x.c.regs[r]?) ∧
  (∀ (x : Ctx) (d : Reg), x.Issues (.tapexTake d) → x.c.tape = none →
    ((x.st.core x.core).interp = none ∨ (x.st.core x.core).interp = some x.gid) → x.core < x.st.cores.length →
    (∀ (gr n : Nat) (rest : List (Nat × Nat)), (x.st.core x.core).tapes = (gr, n) :: rest →
      ∃ (s : State) (c : Crew), exec (.tapexTake d) x.st = .next (afterIssue (s.modCrew x.gid x.ci fun _ => c) x.gid) ∧ x.Lanes (fun _ => ⟨nextPc x.pc, .ready, 0⟩) c ∧
        c = { x.gone c with tape := some (gr, n), regs := c.regs } ∧
        (if 112 ≤ d.toNat then c.regs = x.c.regs else Put64 x.c c x.lanes d.toNat .ptr fun _ => nodeBody x.st gr n) ∧
        (s.core x.core).tapes = rest ∧ (s.core x.core).interp = some x.gid ∧ s.gangs = x.st.gangs) ∧
    ((x.st.core x.core).tapes = [] →
      x.WaitsIn (.tapexTake d) (x.st.modCore x.core fun r => { r with interp := some x.gid }) x.c .engine false)) ∧
  ∀ (x : Ctx) (d : Reg) (gr n : Nat), x.Issues (.tapexDone d) → x.c.due = [] → x.c.tape = some (gr, n) →
    (engineBusy x.st x.gid = true → x.WaitsIn (.tapexDone d) x.st x.c .engine false) ∧
    (engineBusy x.st x.gid = false → sendBusy x.st x.gid = true → x.WaitsIn (.tapexDone d) x.st x.c .queue false) ∧
    (engineBusy x.st x.gid = false → sendBusy x.st x.gid = false →
      ∃ c, exec (.tapexDone d) x.st = .next (afterIssue (((writeBackAll x.st x.core).modGraph gr fun g => { g with nodes := g.nodes.modify n fun y =>
          { y with st := .over (if graphCancelled x.st gr then .cancelled else .done) } }).modCrew x.gid x.ci fun _ => c) x.gid) ∧
        x.Lanes (fun _ => ⟨nextPc x.pc, .ready, 0⟩) c ∧ c = { x.gone c with tape := none, regs := c.regs } ∧
        if 112 ≤ d.toNat then c.regs = x.c.regs
        else Put32 x.c c x.lanes d.toNat .n32 fun _ => if graphCancelled x.st gr then 1 else 0)

/-- R43, R45, R47, R112: LAUNCH admits a checked launch to the phase and gives its handle, or the reason why not; CANCEL reports what it
found; CNTRD reads a counter into two registers. -/
def Obligations.LaunchCancelResults : Prop :=
  (∀ (x : Ctx) (p d : KReg), x.Issues (.launch p d) → x.sending = true → x.WaitsIn (.launch p d) x.st x.c .queue false) ∧
  (∀ (x : Ctx) (p d : KReg) (own : Launch), x.Issues (.launch p d) → x.sending = false → x.launch = some own →
    let s := writeBackAll x.st x.core
    let phase := phaseOf s own
    let check := checkLaunch s x.fn x.part (x.core / 64) own.slice (.phase phase) (x.k p) [] true
    let refused (r : Nat) : Prop := x.GivesK (.launch p d) s d (BitVec.ofNat 64 (0xFFFFFFFF + r * 2 ^ 32))
    (∀ l, check = .ok l → (∀ q, s.phase? phase = some q → q.counter.st ≠ .cancelled ∧ q.counter.total < 16777215) →
      ∃ t h, x.GivesK (.launch p d) t d (h.zeroExtend 64) ∧ t.gangs = x.st.gangs ∧
        t.launches = x.st.launches ++ [{ l with id := x.st.nextId, handle := h }]) ∧
    (readRecord s x.fn x.part (x.k p) 512 512 = none → refused Reason.badPointer) ∧
    ∀ v, readRecord s x.fn x.part (x.k p) 512 512 = some v →
      (∀ r, check = .error r → phaseReasonsFor s phase = [] → refused r) ∧
      ∀ q, s.phase? phase = some q → q.counter.st = .cancelled →
        (∀ r, check = .error r → r < Reason.cancelled → q.counter.total < 16777215 → refused r) ∧
        (((∃ l, check = .ok l) ∨ ∃ r, check = .error r ∧ Reason.cancelled ≤ r) → q.counter.total < 16777215 → refused Reason.cancelled)) ∧
  (∀ (x : Ctx) (h d : KReg), x.Issues (.cancel h d) →
    (2 ^ 32 ≤ (x.k h).toNat → x.ResultK (.cancel h d) d 3) ∧
    ((x.k h).toNat < 2 ^ 32 →
      match instanceOf x.st x.part ((x.k h).extractLsb' 0 32) with
      | none => x.ResultK (.cancel h d) d 3
      | some (lv, id, c, ended) =>
        if c.st = .cancelled then x.ResultK (.cancel h d) d 2
        else if ended = true then x.ResultK (.cancel h d) d 1
        else x.EndsIn (.cancel h d) (((match lv with
          | .launch => cancelLaunch x.st id
          | .graph => cancelGraph x.st id
          | .phase => cancelPhase x.st id
          | .slice => cancelSlice x.st id)).modCrew x.gid x.ci fun c => { c with k := c.k.set d.toNat 0 }))) ∧
  ∀ (x : Ctx) (h lo hi : KReg), x.Issues (.cntrd h lo hi) → lo ≠ hi →
    let v := if (x.k h).toNat < 2 ^ 32 then
        (match instanceOf x.st x.part ((x.k h).extractLsb' 0 32) with | some (_, _, c, _) => Counter.bits c | none => 2 ^ 128 - 1)
      else 2 ^ 128 - 1
    ∃ w c, x.CompletesIn (.cntrd h lo hi) w (flushCache x.st x.core) c ∧ c.regs = x.c.regs ∧ c.m = x.c.m ∧
      c.k = (x.c.k.set lo.toNat (BitVec.ofNat 64 (v % 2 ^ 64))).set hi.toNat (BitVec.ofNat 64 (v / 2 ^ 64))

/-! ## Lode threads -/

/-- R81, R82, R84, R85; logs 13 and 14, from outside the spec: CHPUSH adds an entry to a crew's chute and reads the places left; LEXIT ends the context;
RV64IMAC computation writes its register, a taken branch goes to its target, and a word that is no instruction ends the context FAULTED. R81 only
names RV64IMAC: what its instructions compute is presumed from the RISC-V manual (log 13), and the record of a word that is none is the model's
reading (log 14). -/
def Obligations.LodeResults : Prop :=
  (∀ (s : State) (g : Nat) (w : Gang) (c : Crew) (rd rs1 rs2 : BitVec 5) (f : Fmt), s.cur = some (.lode g) → s.gang? g = some w →
    (w.lode.reg rs2.toNat).toNat < 2 ^ 10 → fmtOf ((w.lode.reg rs2.toNat).extractLsb' 5 5).toNat = some f →
    s.crew? g ((w.lode.reg rs2.toNat).extractLsb' 0 5).toNat = some c → c.ended = false → c.fifo.length < 64 →
    ∃ t c', exec (.chpush rd rs1 rs2) s = .next (modLode t (.lode g) fun q =>
        { (q.setReg rd.toNat (BitVec.ofNat 64 (63 - c.fifo.length))) with pc := q.pc + 32 }) ∧
      t.crew? g c.index = some c' ∧ c'.chute = c.chute ++ [⟨w.lode.reg rs1.toNat, f⟩] ∧ c'.regs = c.regs ∧ c'.k = c.k) ∧
  (∀ (s : State) (g : Nat) (w : Gang), s.cur = some (.lode g) → s.gang? g = some w →
    let t := s.modGang g fun g => { g with lode := { g.lode with st := .exited, resv := none } }
    exec .lexit s = .next (orphanGang t g) ∧
    ((∀ c ∈ w.crews, c.ended = true ∨ ∀ j, j < 32 → (c.lane j).st ≠ .wait .chute) → orphanGang t g = afterIssue (settle t g) g)) ∧
  (∀ (s : State) (c : Cur) (l : Lode) (parcel : Word) (f : RvAlu) (w : Bool) (rd a b : Nat), s.cur = some c → lodeOf s c = some l →
    rvDecode parcel = some (.op f w rd a b) →
    exec (.lodeInstruction parcel) s = .next (modLode s c fun q =>
      { (q.setReg rd (rvCompute f w (l.reg a) (l.reg b))) with pc := q.pc + BitVec.ofNat 64 (rvLength parcel) })) ∧
  (∀ (s : State) (c : Cur) (l : Lode) (parcel : Word) (f : RvCond) (a b : Nat) (off : Dword), s.cur = some c → lodeOf s c = some l →
    rvDecode parcel = some (.branch f a b off) → rvHolds f (l.reg a) (l.reg b) = true → (l.pc + off).toNat % 16 = 0 →
    exec (.lodeInstruction parcel) s = .next (modLode s c fun q => { q with pc := l.pc + off })) ∧
  ∀ (s : State) (c : Cur) (l : Lode) (parcel : Word), s.cur = some c → lodeOf s c = some l → rvDecode parcel = none →
    exec (.lodeInstruction parcel) s = .next (lodeFault s c l.pc 3)

/-! ## The device's own steps -/

/-- R34 to R37, R45, R29, R286: the dispatcher refuses and admits records, sets aside a slice whose budget is used up, resumes and cancels slices;
a quantum ends when its LENGTH is over and the next entry starts. -/
def Obligations.DispatcherSteps : Prop :=
  (∀ (s : State) (fn seq part : Nat) (r : IntakeRec) (d : Pond), partOfFn s fn = some part →
    ((s.fn fn).intakeRecs.find? fun r => r.seq == seq) = some r → intakePond s fn part = some d → d.broken = false → d.away s = false →
    d.paused = [] → d.draining = false →
    (∀ rs, jobFate s part (parseJob r.bits) = .refuse rs → (Reason.badKind ∈ rs ∨ Reason.jobEnded ∈ rs) →
      exec (.dispatchRecord fn seq) s = .next (refuseRecord (removeRecord s d r) fn part (parseJob r.bits) ((minBy id rs).getD 0))) ∧
    (jobFate s part (parseJob r.bits) = .eligible → fnResident s fn = true → comesFirst s fn part r (parseJob r.bits) = true →
      runningSlice s fn = none → ∀ gs, readPhase s fn part (parseJob r.bits).phases = ([], gs) →
      exec (.dispatchRecord fn seq) s = .next (admitSlice (removeRecord s d r) fn part seq (parseJob r.bits) gs))) ∧
  (∀ (s : State) (id : Nat) (l : Slice), s.slice? id = some l → sliceRuns s id = true → l.budget ≤ l.used → l.counter.stopped = false →
    ∃ t l', exec (.budgetExhaust id) s = .next (arbitrate t l.fn) ∧ (l.fn, 0) ∈ t.msix ∧ t.slice? id = some l' ∧
      l' = { l with running := false, counter := { l.counter with st := .suspended } }) ∧
  (∀ (s : State) (fn part : Nat) (l : Slice), partOfFn s fn = some part → sliceOf s part (s.fn fn).ctlHandle = some l →
    l.counter.st = .suspended → (s.fn fn).addBudget ≠ 0 → present s fn = true →
    ∃ t l', exec (.resumeSlice fn) s = .next (arbitrate (writeStatus t l' 0) l.fn) ∧ t = s.modSlice l.id (fun _ => l') ∧
      l' = { l with budget := l.used + (s.fn fn).addBudget.toNat, counter := { l.counter with st := .running } }) ∧
  (∀ (s : State) (fn part id : Nat) (c : Counter), partOfFn s fn = some part → instanceOf s part (s.fn fn).ctlHandle = some (.slice, id, c, false) →
    c.st ≠ .cancelled → present s fn = true → exec (.cancelSlice fn) s = .next (cancelSlice s id)) ∧
  (∀ (s : State) (part fn : Nat), (s.part part).resident = some fn → (s.part part).entryEnd ≤ s.cycle.toNat →
    exec (.quantumEnd part) s = .next (settleWork 8 (preempt s fn part))) ∧
  ∀ (s : State) (part fn len : Nat), (s.part part).resident = none → 0 < (s.part part).nquanta →
    (s.part part).quantum.getD (s.part part).rot (0, 0) = (fn, len) →
    ∃ t, exec (.quantumEntryStart part) s = .next (settleWork 8 (serveEntry t fn part len)) ∧
      t = s.modPart part fun p => { p with rot := ((s.part part).rot + 1) % (s.part part).nquanta }

/-- R39 to R42, R6, R12: graphs enter their machine, nodes leave the ready pool in its order, gangs are placed with their crews as a launch starts them, and
a gang whose crews have all ended is counted. -/
def Obligations.PlacementSteps : Prop :=
  (∀ (s : State) (id : Nat) (g : Graph), s.graph? id = some g → g.admitted = false → g.ended = false → g.counter.stopped = false →
    (s.graphs.filter fun h => h.die == g.die && h.admitted && !h.ended).length < 1024 →
    exec (.graphAdmit id) s = .next (settleWork 8 (s.modGraph id fun g => { g with admitted := true }))) ∧
  (∀ (s t : State) (gr n q : Nat) (g : Graph) (x : Node), s.graph? gr = some g → g.nodes[n]? = some x → poolSeq s g x = some q →
    (∀ h ∈ s.graphs, h.die = g.die → ∀ p ∈ h.nodes.zipIdx, p.1.ty = x.ty → ∀ r, poolSeq s h p.1 = some r →
      (r < q ∨ r = q ∧ (h.handle.toNat < g.handle.toNat ∨ h.id = g.id ∧ p.2 < n)) → serveNode s h p.2 p.1 = none) →
    serveNode s g n x = some t → exec (.nodeDispatch gr n) s = .next (settleWork 8 t)) ∧
  (∀ (s s' : State) (id core sbase : Nat) (l : Launch) (buffer : Option Nat), s.launch? id = some l → l.ended = false → l.counter.stopped = false →
    l.placed < l.gangs → sliceRuns s l.slice = true → takeArray s l = some s' → chooseCore s' l = some core →
    fitAt s' l.part l.need core = some (buffer, sbase) → l.image.ordered = false →
    ∃ t g, exec (.gangPlace id) s = .next t ∧ t.gangs = s'.gangs ++ [g] ∧ g.launch = l.id ∧ g.index = l.placed ∧ g.core = core ∧ g.sbase = sbase ∧
      g.crews.length = l.crews ∧
      ∀ c ∈ g.crews, c.ended = false ∧ c.k = [l.args, BitVec.ofNat 64 l.placed, BitVec.ofNat 64 c.index] ++ List.replicate 13 0 ∧
        ∀ j, j < 32 → c.lane j = ⟨ptrAdd l.kernel (512 + 32 * l.image.entry), .ready, 0⟩) ∧
  ∀ (s : State) (gid : Nat) (g : Gang) (l : Launch), s.gang? gid = some g → (∀ c ∈ g.crews, c.ended = true) → gangBusy s gid = false →
    g.ending = none → s.launch? g.launch = some l →
    ∃ t l', exec (.gangComplete gid) s = .next (settleWork 8 t) ∧ t.gang? gid = none ∧ t.launch? g.launch = some l' ∧
      l'.counter = { l.counter with done := l.counter.done + 1 }

/-- R31 to R33, R165, R168 to R170, R322, R323; logs 44, 65 and 96, the model's reading and choices: a host write to an intake window puts a record at
the intake pond's inlet; handles of intake and fault ponds are checked as they are written; ponds are made and removed; translations are dropped,
dirty bits cleared, parked groups made ready and records tried again; partition records and roots are written; device memory is written and read
within a function's reach. That the records of the second BAR take writes before READY and read BUSY 0 is log 44, that a write of a partition record
starts the rotation at entry 0 is log 65, and that the put area reads zero is the model's choice (log 96). -/
def Obligations.HostSteps : Prop :=
  (∀ (s : State) (fn off part : Nat) (data : List Byte) (d : Pond), partOfFn s fn = some part → intakePond s fn part = some d → off % 64 = 0 →
    off < 0x1000 → data.length = 64 → present s fn = true →
    exec (.intakePut fn off data) s =
      .next (s.modPond d.part d.slot fun d => { d with ops := d.ops ++ [⟨.host fn, .windowPut (4 * (off / 64)) (natOfBytes data), 0, 0⟩] })) ∧
  (∀ (s : State) (fn part : Nat) (h : Word) (d : Pond), partOfFn s fn = some part → present s fn = true → s.mgmt.stage ≠ 8 →
    (pondOf s part fn (h.zeroExtend 64) = some d → d.w = 512 → (∀ n ∈ d.counts, n = 0) → (s.fn fn).intake ≠ h →
      exec (.intakeHandle fn h) s = .next (s.modFn fn fun f => { f with intake := h, intakeRecs := [] })) ∧
    (pondOf s part fn (h.zeroExtend 64) = none →
      exec (.intakeHandle fn h) s = .next (s.modFn fn fun f => { f with intake := 0xFFFFFFFF, intakeRecs := [] })) ∧
    (pondOf s part fn (h.zeroExtend 64) = some d → d.w = 256 → exec (.faultpond fn h) s = .next (s.modFn fn fun f => { f with faultpond := h })) ∧
    (pondOf s part fn (h.zeroExtend 64) = none → exec (.faultpond fn h) s = .next (s.modFn fn fun f => { f with faultpond := 0xFFFFFFFF }))) ∧
  (∀ (s t : State) (fn part v : Nat), partOfFn s fn = some part → fn < s.fns.length → s.mgmt.stage ≠ 8 → pondBusy s fn = false → (s.fn fn).pondPending = [] →
    makePond s ⟨fn, part, none, 0, 0, false, false⟩ (s.fn fn).pondRegion (s.fn fn).pondCap (s.fn fn).pondParams = (.ok v, t) →
    exec (.pondMake fn) s = .next (t.modFn fn fun f => { f with pondHandle := BitVec.ofNat 32 v, pondResult := 0 })) ∧
  (∀ (s : State) (fn part : Nat) (d : Pond), partOfFn s fn = some part → fn < s.fns.length → s.mgmt.stage ≠ 8 → pondBusy s fn = false → (s.fn fn).pondPending = [] →
    pondOf s part fn ((s.fn fn).pondHandle.zeroExtend 64) = some d →
    exec (.pondRemove fn) s = .next (s.modPond d.part d.slot fun d => { d with ops := d.ops ++ [⟨.host fn, .remove, 0, 0⟩] })) ∧
  (∀ (s : State) (fn op : Nat) (i : Instr), i = .pondMake fn ∧ op = 1 ∨ i = .pondRemove fn ∧ op = 2 → s.mgmt.stage ≠ 8 → pondBusy s fn = true →
    exec i s = .next (s.modFn fn fun f => { f with pondPending := f.pondPending ++ [op] })) ∧
  (∀ (s : State) (fn : Nat), s.mgmt.stage ≠ 8 → ∃ t, exec (.invalidateTranslations fn) s = .next t ∧ t = { s with cores := t.cores } ∧
    t.cores = s.cores.map fun r => { r with tlb := r.tlb.filter fun e => e.fn != fn }) ∧
  (∀ (s : State) (fn : Nat), s.mgmt.stage ≠ 8 → ∃ t, exec (.dirtyResync fn) s = .next t ∧ t = { s with cores := t.cores } ∧
    ∀ r ∈ t.cores, ∀ e ∈ r.tlb, e.fn = fn → e.dirtySet = []) ∧
  (∀ (s : State) (fn : Nat), (∀ d ∈ s.ponds, d.fn ≠ fn) → (s.fn fn).pausedDisp = [] → s.mgmt.stage ≠ 8 →
    ∃ t, exec (.replayParked fn) s = .next (startHoists t) ∧ t.gangs = s.gangs.map fun g => if (fnSel s fn).gang g then g.unpark else g) ∧
  (∀ (g : Gang) (i : Nat) (c : Crew), g.crews[i]? = some c → c.Shaped → ∃ c', g.unpark.crews[i]? = some c' ∧
    ∀ j, j < 32 → c'.lane j = if c.ended = false ∧ (c.lane j).st = .parked then ⟨(c.lane j).pc, .ready, 0⟩ else c.lane j) ∧
  (∀ (s t : State) (fn : Nat) (r : PondRec), (s.fn fn).retry = [r] → tryRecord (s.modFn fn fun f => { f with retry := [] }) fn r = (true, t) →
    exec (.faultRecordRetry fn) s = .next t) ∧
  (∀ (s : State) (part : Nat) (v : Dword), part < 64 → s.mgmt.stage ≠ 8 → (s.part part).resident = none → partIdle s part = true →
    partOk s part { s.part part with clusters := v } = true → partOfBits (s.part part) (partBits (s.part part)) = s.part part →
    exec (.partitionRecordWrite part 0 8 v) s = .next (s.modPart part fun q => { q with clusters := v, rot := 0, resident := none })) ∧
  (∀ (s : State) (f : Nat) (v : Dword), f < 65 → s.mgmt.stage ≠ 8 → (s.fn f).membase < 2 ^ 24 → (s.fn f).memsize < 2 ^ 24 →
    exec (.hostRegisterWrite 2 0 (0x10000 + 0x100 * f) 8 v) s = .next (s.modFn f fun g => { g with root := v })) ∧
  (∀ (s : State) (fn base reach off : Nat) (data : List Byte), present s fn = true → barReach s fn = (base, reach) → off + data.length ≤ reach →
    s.mem.wf = true → Untracked s →
    ∃ t, exec (.hostMemoryWrite fn off data) s = .next t ∧ t = { s with mem := t.mem, poison := t.poison, written := t.written } ∧
      ∀ k, t.mem.byte k = if base + off ≤ k ∧ k < base + off + data.length then data.getD (k - (base + off)) 0 else s.mem.byte k) ∧
  (∀ (s : State) (f : Nat), f < 65 → s.mgmt.stage ≠ 8 →
    natOfBytes (barRead s 2 0 (0x10000 + 0x100 * f) 8) = (s.fn f).root.toNat ∧
    ∀ off len, off + len ≤ 0x1000 → barRead s 1 f off len = List.replicate len 0) ∧
  ∀ (s : State) (fn base reach off len : Nat), present s fn = true → barReach s fn = (base, reach) → s.mem.wf = true →
    ∃ t, exec (.hostMemoryRead fn off len) s = .next t ∧ t = { s with link := { s.link with hostRead := t.link.hostRead } } ∧
      t.link.hostRead.length = len ∧ ∀ j, j < len → t.link.hostRead.getD j 0 = if off + j < reach then s.mem.byte (base + off + j) else 0

/-- R285, R286, R295; logs 64 and 24, the model's reading and choice: suspending a function pre-empts it where it is resident and leaves CTXSTATE
SUSPENDED; resuming gives the state its saved context has; a function's reset clears its registers, context and records, and one of a number above
64 changes nothing. That a reset is one step and never shows RESETTING is the model's reading (log 64), and the mail record that it leaves is the
model's choice (log 24). -/
def Obligations.FunctionControl : Prop :=
  (∀ (s : State) (fn : Nat), s.mgmt.stage ≠ 8 →
    (residentIn s fn = none → exec (.suspend fn) s = .next (settleWork 8 (s.modFn fn fun f => { f with ctxstate := .suspended }))) ∧
    ∀ p, residentIn s fn = some p →
      exec (.suspend fn) s = .next (settleWork 8 ((preempt s fn p).modFn fn fun f => { f with ctxstate := .suspended }))) ∧
  (∀ (s : State) (fn : Nat), (s.fn fn).ctxstate = .suspended → s.mgmt.stage ≠ 8 →
    exec (.resume fn) s = .next (s.modFn fn fun f => { f with ctxstate := if f.saved = none then .empty else .saved })) ∧
  (∀ (s : State) (i : Instr) (fn : Nat), i = .vfReset fn ∨ i = .functionLevelReset fn ∧ 1 ≤ fn ∧ fn ≤ 64 → s.mgmt.stage ≠ 8 →
    ∃ t, exec i s = .next t ∧ (t.fn fn).root = 0 ∧ (t.fn fn).rroot = 0 ∧ (t.fn fn).dirtyen = false ∧ (t.fn fn).faultpond = 0xFFFFFFFF ∧
      (t.fn fn).intake = 0xFFFFFFFF ∧ (t.fn fn).drops = 0 ∧ (t.fn fn).ctxstate = .empty ∧ (t.fn fn).saved = none ∧ (t.fn fn).intakeRecs = [] ∧
      (t.fn fn).retry = [] ∧ t.mgmt.mailRecs ≠ []) ∧
  ∀ (s : State) (fn : Nat), 64 < fn → exec (.functionLevelReset fn) s = .next s

/-- R325, R326, R287: a read that another package sends is answered with the bits or refused; an answer that is wanted is kept and
delivered; a port that trains or fails changes its own bit; a route that times out refuses its request, and completes in every state. -/
def Obligations.LinkSteps : Prop :=
  (∀ (s : State) (q : RemoteReq), q.op = .read → (∀ p ∈ (q.addr, q.width) :: q.more, inAlias p.1 = false) →
    let pieces := (q.addr, q.width) :: q.more
    exec (.remoteRequest q) s = .next { s with link := { s.link with
      lastAnswer := some (if (acceptsElem s q.node pieces).isNone then .refused
        else if pieces.any fun p => poisoned s p.1 p.2 then .uncorrectable
        else .data (placedRead s (placed 0 pieces))) } }) ∧
  (∀ (s : State) (pos : Nat) (p : Nat × Nat) (ps : List (Nat × Nat)), placedRead s (placed pos []) = 0 ∧
    placedRead s (placed pos (p :: ps)) = s.mem.bits p.1 p.2 * 2 ^ pos + placedRead s (placed (pos + p.2) ps)) ∧
  (∀ (s : State) (id : Nat) (a : RemoteAns) (r : LinkReq), r ∈ s.link.reqs → r.id = id → r.answer = none → wanted s r = true →
    ∃ t, exec (.remoteResponse id a) s = .next (closeOpens (deliverAnswers t)) ∧ { r with answer := some (r.take a) } ∈ t.link.reqs ∧ t.mem = s.mem ∧
      ((∀ q ∈ s.link.reqs, q.id = id → q.posted = false) → t.gangs = s.gangs)) ∧
  (∀ (s : State) (p : Nat) (up : Bool) (i : Instr), p < 18 → i = (if up then .portTrained p else .portFailure p) →
    ∃ t, exec i s = .next t ∧ t = { s with link := { s.link with portup := t.link.portup } } ∧
      ∀ j, j < 18 → t.link.portup.getLsbD j = if j = p then up else s.link.portup.getLsbD j) ∧
  ∀ (s : State) (id : Nat), (∃ t, exec (.routeTimeout id) s = .next t) ∧
    ((∃ r ∈ s.link.reqs, r.id = id ∧ r.node.isSome = true ∧ r.answer = none) →
      exec (.routeTimeout id) s = exec (.remoteResponse id .refused) s) ∧
    ((∀ r ∈ s.link.reqs, r.id = id → r.node = none ∨ r.answer ≠ none) → exec (.routeTimeout id) s = .next s)

/-- R327 to R333; logs 67, 97 and 22, the model's reading and choice: a start that succeeds reaches READY with nothing running, keeps device memory when
HBM training is skipped, and counts its epoch; a warm start whose images are not those that the last cold start verified fails; one that fails leaves its reason; a start that takes too long fails; quotes cover the log; idle
cycles pass as others do. That a start is one step with the outside's decisions as an argument is log 67, the reasons for versions and PLIMIT are
log 97, and the digest and signatures of a quote are functions of Config (log 22). -/
def Obligations.StartSteps : Prop :=
  (∀ (s : State) (env : StartEnv) (warm : Bool) (i : Instr), i = (if warm then .warmStart env else .coldStart env) →
    startFail s env warm = none → s.mgmt.fails < 6 → s.mem.wf = true →
    ∃ t, exec i s = .next t ∧ t.mgmt.stage = 7 ∧ t.mgmt.fails = 0 ∧ t.mgmt.warm = warm ∧ t.mgmt.slot = (3 ≤ s.mgmt.fails && s.mgmt.fails ≤ 5) ∧
      t.mgmt.epoch = (if warm then s.mgmt.epoch else (s.mgmt.epoch + 1) % 2 ^ 32) ∧ t.link.node = env.node ∧
      t.mgmt.imageHashes = (if warm then s.mgmt.imageHashes else env.images.map fun i => i.2) ∧ t.mgmt.plimit = env.plimit ∧ 600 ≤ t.mgmt.plimit ∧ t.mgmt.plimit ≤ 1800 ∧
      t.mgmt.minsvn = max s.mgmt.minsvn env.minsvn ∧ t.gangs = [] ∧ t.launches = [] ∧
      t.slices = [] ∧ t.ponds = [] ∧ t.queues = [] ∧ t.cmds = [] ∧ (∀ f ∈ t.fns, f.ctxstate = .empty) ∧
      (warm = true → env.hbmRetained = true → s.mgmt.trained = some s.mgmt.epoch → ∀ k, k < deviceBytes → t.mem.byte k = s.mem.byte k)) ∧
  (∀ (s : State) (env : StartEnv) (warm : Bool) (i : Instr) (k r : Nat), i = (if warm then .warmStart env else .coldStart env) →
    startFail s env warm = some (k, r) → r ≠ 7 → r ≠ 8 → s.mgmt.fails < 6 →
    ∃ t, exec i s = .next t ∧ t.mgmt.stage = 15 ∧ t.mgmt.reason = r ∧ t.mgmt.fails = s.mgmt.fails + 1 ∧ t.gangs = []) ∧
  (∀ (s : State) (env : StartEnv), env.failAt = none → s.mgmt.fails < 6 → (env.images.map fun i => i.2) ≠ s.mgmt.imageHashes →
    ∃ t, exec (.warmStart env) s = .next t ∧ t.mgmt.stage = 15 ∧ t.mgmt.reason = 2) ∧
  (∀ s : State, 1 ≤ s.mgmt.stage → s.mgmt.stage ≤ 6 →
    exec .startTimeout s = .next (State.signal { s with mgmt := { s.mgmt with stage := 15, reason := 7 } } 0 3)) ∧
  (∀ (s : State) (nonce : List Byte), s.mgmt.mbox = 0xFFFFFFFF → exec (.attestationQuote nonce) s = .next s) ∧
  (∀ (s : State) (nonce : List Byte), s.mgmt.mbox ≠ 0xFFFFFFFF → ∃ t q, exec (.attestationQuote nonce) s = .next t ∧ t.mgmt.quote = some q ∧
    t = { s with mgmt := { s.mgmt with quote := some q } } ∧ q = quoteOf s.mgmt.attlog nonce) ∧
  (∀ (s : State) (i : Instr), s.mgmt.stage = 8 →
    ((∃ fn h, i = .faultpond fn h) ∨ (∃ fn, i = .pondMake fn ∨ i = .pondRemove fn ∨ i = .invalidateTranslations fn ∨ i = .dirtyResync fn ∨
      i = .replayParked fn ∨ i = .suspend fn ∨ i = .resume fn ∨ i = .vfReset fn)) → exec i s = .next s) ∧
  ∀ (s : State) (n : Nat), ∃ t, exec (.powerLimit n) s = .next (deliverAnswers t) ∧ t.cycle = s.cycle + BitVec.ofNat 64 n ∧ t.mem = s.mem ∧
    t.slices = s.slices.map fun l => if l.running && !l.ended && fnResident s l.fn then { l with used := l.used + n } else l

/-! ## Encodings, steps, the machine as a whole -/

/-- R48, R49, R51, R60: words written out from the encoding tables decode to what they stand for. -/
def Obligations.DecodedWords : Prop :=
  decode 0x7A000000 = .ok .nop ∧ decode 0x7A200000 = .ok .exit ∧ decode 0x70E00003 = .ok (.bra 3 true 3) ∧ decode 0x7200000A = .ok (.call 10) ∧
  decode 0x7E0C0820 = .ok (.mand 3 1 2) ∧ decode 0xC3E04502 = .ok (.enq 120 1 10 false 2) ∧ decode 0xD8024687 = .ok (.mxloop 0 0 1 2 3 4 false 7) ∧
  decode 0xDA2ACE00 = .ok (.mxwb .s24 5 6 7) ∧ decode 0xF0501843 = .ok (.tkins 20 3 4 3) ∧ decode 0xF2A08000 = .ok (.tapex 40 16) ∧
  decode 0xCA02468F = .ok (.hoistm 1 2 3 4 15) ∧ decodeLode 0x00B5028B = .chpush 5 10 11 ∧ decodeLode 0x0000100B = .lexit ∧
  decode 0 = .error .zeroWord ∧ decode 0xFFFFFFFF = .error .onesWord ∧ decode 0x56000000 = .error .undefMajor ∧
  decode 0x1A000003 = .error .undefFunction ∧ decode 0x7A000001 = .error .reservedNonzero

/-- R48 to R51, R60, R61: every word that decodes is the encoding of what it decodes to, and every instruction word decodes to its instruction: no
operand bit is dropped. SRW of register 0x025 is the LODEPC instruction's word, and of the all-ones word no instruction is made. -/
def Obligations.DecodeAndEncodeAgree : Prop :=
  (∀ (w : Word) (i : Instr), decode w = .ok i → encode i = some w) ∧
  (∀ (w : Word) (i : Instr), encode i = some w → lodeWord i = false → (∀ k, i ≠ .srw k 0x025) → i ≠ .illegal 0x1FFFFFF → decode w = .ok i) ∧
  (∀ k : KReg, encode (.srw k 0x025) = encode (.lodepc k)) ∧
  (∀ w : Word, encode (decodeLode w) = some w) ∧
  ∀ rd rs1 rs2 w, encode (.chpush rd rs1 rs2) = some w → decodeLode w = .chpush rd rs1 rs2

/-- R61, R62, R65, R70, R343: a step at a port executes the instruction that the word at the chosen group's address decodes to, and then only
what every step ends with; a word that decodes to none raises the cause of its check. The word is what storage holds at the address. -/
def Obligations.StepRunsTheDecodedInstruction : Prop :=
  (∀ (s s₁ s₂ : State) (rest : List Move) (core port gid ci : Nat) (lanes : Mask) (pc : Dword) (w : Word), s.agenda = .issue core port :: rest →
    portSpent { s with agenda := rest } core port = false →
    chooseIssue { s with agenda := rest } core port = (some (.crew gid ci lanes pc), s₁) → fetch ⟨s₁, gid, ci, lanes, pc⟩ = .word w s₂ →
    (∀ i t, decode w = .ok i → exec i { s₂ with cur := some (.crew gid ci lanes pc) } = .next t → step s = .next (closeStep s t)) ∧
    (∀ i f, decode w = .ok i → exec i { s₂ with cur := some (.crew gid ci lanes pc) } = .fault f → step s = .fault f) ∧
    ∀ e, decode w = .error e → ∃ t, step s = .next (closeStep s t) ∧
      t = issueTrap ⟨s₂, gid, ci, lanes, pc⟩ (match e with | .zeroWord => 0 | .onesWord => 1 | .undefMajor => 2 | .undefFunction => 4 | .reservedNonzero => 5)
        (decodeEval w (Ctx.c ⟨s₂, gid, ci, lanes, pc⟩))) ∧
  (∀ (x : Ctx) (s : State) (key : Nat), isDev x.pc = true → access x.st x.ag x.pc 32 (.plain 32) .fetch false = (.ok [.store key 32], s) →
    elemLocked s x.ag x.pc 32 false = false → pieceAbsent (.store key 32) = false → piecesPoisoned s [.store key 32] = false →
    fetchChanged s [.store key 32] = false → fetch x = .word (BitVec.ofNat 32 (s.mem.bits key 32)) s) ∧
  ∀ (s s₁ s₂ : State) (rest : List Move) (cluster : Nat) (c : Cur) (w : Word) (t : State), s.agenda = .lode cluster :: rest →
    lodeSpent { s with agenda := rest } cluster = false → chooseLode { s with agenda := rest } cluster = (some c, s₁) →
    fetchLode s₁ c = .word w s₂ → exec (decodeLode w) { s₂ with cur := some c } = .next t → step s = .next (closeStep s t)

/-- Log 2, R162: every step keeps the storage in its canonical form. The form is the model's own; that a store changes exactly its bits rests on it. -/
def Obligations.EveryStepKeepsTheMemoryForm : Prop := ∀ s t : State, s.mem.wf = true → step s = .next t → t.mem.wf = true

/-- R28, R32, R33, R165, R285, R302, R325, R331; log 10, the model's choice: the machine right after reset, with nothing running, at the values that the
spec gives. That the springs hold NVAR 0 and one colour, and that the data caches, the translations and the lock tables are empty, is the model's
choice (log 10). -/
def Obligations.ResetState : Prop :=
  State.reset.mem.wf = true ∧ State.reset.cycle = 0 ∧ State.reset.gangs = [] ∧ State.reset.ponds = [] ∧ State.reset.queues = [] ∧
  State.reset.launches = [] ∧ State.reset.mgmt.stage = 0 ∧ State.reset.cores.length = 256 ∧ State.reset.fns.length = 65 ∧ State.reset.parts.length = 64 ∧
  (∀ f ∈ State.reset.fns, f.root = 0 ∧ f.faultpond = 0xFFFFFFFF ∧ f.intake = 0xFFFFFFFF ∧ f.drops = 0 ∧ f.pondHandle = 0xFFFFFFFF ∧
    f.ctxstate = .empty ∧ f.tqsize = 0 ∧ f.accept = 0 ∧ f.saved = none) ∧
  (∀ p ∈ State.reset.parts, p.clusters = 0 ∧ p.nquanta = 0 ∧ p.funcs = 0) ∧
  (∀ c ∈ State.reset.cores, c.mx.holder = none ∧ c.dcache = [] ∧ c.tlb = [] ∧ c.locks = []) ∧
  ∀ p ∈ State.reset.springs, p.holder = none ∧ p.nvar = 0 ∧ p.colours = 1
end

