-- ==== Sys2Proof/Laws/State.lean ====
section
/-! SUPPORT. Laws/State.lean: what each update of a part of the machine does to each field, by `rfl`, so that no later proof
unfolds a record update. -/

namespace Sys2Proof.Machine

/-! ## `modCore` -/
@[simp] theorem modCore_mem (s : State) (c : Nat) (f : Core → Core) : (s.modCore c f).mem = s.mem := rfl
@[simp] theorem modCore_poison (s : State) (c : Nat) (f : Core → Core) : (s.modCore c f).poison = s.poison := rfl
@[simp] theorem modCore_written (s : State) (c : Nat) (f : Core → Core) : (s.modCore c f).written = s.written := rfl
@[simp] theorem modCore_cycle (s : State) (c : Nat) (f : Core → Core) : (s.modCore c f).cycle = s.cycle := rfl
@[simp] theorem modCore_agenda (s : State) (c : Nat) (f : Core → Core) : (s.modCore c f).agenda = s.agenda := rfl
@[simp] theorem modCore_freeCtr (s : State) (c : Nat) (f : Core → Core) : (s.modCore c f).freeCtr = s.freeCtr := rfl
@[simp] theorem modCore_cur (s : State) (c : Nat) (f : Core → Core) : (s.modCore c f).cur = s.cur := rfl
@[simp] theorem modCore_nextId (s : State) (c : Nat) (f : Core → Core) : (s.modCore c f).nextId = s.nextId := rfl
@[simp] theorem modCore_fns (s : State) (c : Nat) (f : Core → Core) : (s.modCore c f).fns = s.fns := rfl
@[simp] theorem modCore_parts (s : State) (c : Nat) (f : Core → Core) : (s.modCore c f).parts = s.parts := rfl
@[simp] theorem modCore_ponds (s : State) (c : Nat) (f : Core → Core) : (s.modCore c f).ponds = s.ponds := rfl
@[simp] theorem modCore_pondGens (s : State) (c : Nat) (f : Core → Core) : (s.modCore c f).pondGens = s.pondGens := rfl
@[simp] theorem modCore_queues (s : State) (c : Nat) (f : Core → Core) : (s.modCore c f).queues = s.queues := rfl
@[simp] theorem modCore_queueGens (s : State) (c : Nat) (f : Core → Core) : (s.modCore c f).queueGens = s.queueGens := rfl
@[simp] theorem modCore_cores (s : State) (c : Nat) (f : Core → Core) : (s.modCore c f).cores = s.cores.modify c f := rfl
@[simp] theorem modCore_gangs (s : State) (c : Nat) (f : Core → Core) : (s.modCore c f).gangs = s.gangs := rfl
@[simp] theorem modCore_cmds (s : State) (c : Nat) (f : Core → Core) : (s.modCore c f).cmds = s.cmds := rfl
@[simp] theorem modCore_lodeRot (s : State) (c : Nat) (f : Core → Core) : (s.modCore c f).lodeRot = s.lodeRot := rfl
@[simp] theorem modCore_lodeNodes (s : State) (c : Nat) (f : Core → Core) : (s.modCore c f).lodeNodes = s.lodeNodes := rfl
@[simp] theorem modCore_launches (s : State) (c : Nat) (f : Core → Core) : (s.modCore c f).launches = s.launches := rfl
@[simp] theorem modCore_graphs (s : State) (c : Nat) (f : Core → Core) : (s.modCore c f).graphs = s.graphs := rfl
@[simp] theorem modCore_phases (s : State) (c : Nat) (f : Core → Core) : (s.modCore c f).phases = s.phases := rfl
@[simp] theorem modCore_slices (s : State) (c : Nat) (f : Core → Core) : (s.modCore c f).slices = s.slices := rfl
@[simp] theorem modCore_jobs (s : State) (c : Nat) (f : Core → Core) : (s.modCore c f).jobs = s.jobs := rfl
@[simp] theorem modCore_springs (s : State) (c : Nat) (f : Core → Core) : (s.modCore c f).springs = s.springs := rfl
@[simp] theorem modCore_sluiceStacks (s : State) (c : Nat) (f : Core → Core) : (s.modCore c f).sluiceStacks = s.sluiceStacks := rfl
@[simp] theorem modCore_link (s : State) (c : Nat) (f : Core → Core) : (s.modCore c f).link = s.link := rfl
@[simp] theorem modCore_mgmt (s : State) (c : Nat) (f : Core → Core) : (s.modCore c f).mgmt = s.mgmt := rfl
@[simp] theorem modCore_msix (s : State) (c : Nat) (f : Core → Core) : (s.modCore c f).msix = s.msix := rfl

/-! ## `modFn` -/
@[simp] theorem modFn_mem (s : State) (i : Nat) (f : Fn → Fn) : (s.modFn i f).mem = s.mem := rfl
@[simp] theorem modFn_poison (s : State) (i : Nat) (f : Fn → Fn) : (s.modFn i f).poison = s.poison := rfl
@[simp] theorem modFn_written (s : State) (i : Nat) (f : Fn → Fn) : (s.modFn i f).written = s.written := rfl
@[simp] theorem modFn_cycle (s : State) (i : Nat) (f : Fn → Fn) : (s.modFn i f).cycle = s.cycle := rfl
@[simp] theorem modFn_agenda (s : State) (i : Nat) (f : Fn → Fn) : (s.modFn i f).agenda = s.agenda := rfl
@[simp] theorem modFn_freeCtr (s : State) (i : Nat) (f : Fn → Fn) : (s.modFn i f).freeCtr = s.freeCtr := rfl
@[simp] theorem modFn_cur (s : State) (i : Nat) (f : Fn → Fn) : (s.modFn i f).cur = s.cur := rfl
@[simp] theorem modFn_nextId (s : State) (i : Nat) (f : Fn → Fn) : (s.modFn i f).nextId = s.nextId := rfl
@[simp] theorem modFn_fns (s : State) (i : Nat) (f : Fn → Fn) : (s.modFn i f).fns = s.fns.modify i f := rfl
@[simp] theorem modFn_parts (s : State) (i : Nat) (f : Fn → Fn) : (s.modFn i f).parts = s.parts := rfl
@[simp] theorem modFn_ponds (s : State) (i : Nat) (f : Fn → Fn) : (s.modFn i f).ponds = s.ponds := rfl
@[simp] theorem modFn_pondGens (s : State) (i : Nat) (f : Fn → Fn) : (s.modFn i f).pondGens = s.pondGens := rfl
@[simp] theorem modFn_queues (s : State) (i : Nat) (f : Fn → Fn) : (s.modFn i f).queues = s.queues := rfl
@[simp] theorem modFn_queueGens (s : State) (i : Nat) (f : Fn → Fn) : (s.modFn i f).queueGens = s.queueGens := rfl
@[simp] theorem modFn_cores (s : State) (i : Nat) (f : Fn → Fn) : (s.modFn i f).cores = s.cores := rfl
@[simp] theorem modFn_gangs (s : State) (i : Nat) (f : Fn → Fn) : (s.modFn i f).gangs = s.gangs := rfl
@[simp] theorem modFn_cmds (s : State) (i : Nat) (f : Fn → Fn) : (s.modFn i f).cmds = s.cmds := rfl
@[simp] theorem modFn_lodeRot (s : State) (i : Nat) (f : Fn → Fn) : (s.modFn i f).lodeRot = s.lodeRot := rfl
@[simp] theorem modFn_lodeNodes (s : State) (i : Nat) (f : Fn → Fn) : (s.modFn i f).lodeNodes = s.lodeNodes := rfl
@[simp] theorem modFn_launches (s : State) (i : Nat) (f : Fn → Fn) : (s.modFn i f).launches = s.launches := rfl
@[simp] theorem modFn_graphs (s : State) (i : Nat) (f : Fn → Fn) : (s.modFn i f).graphs = s.graphs := rfl
@[simp] theorem modFn_phases (s : State) (i : Nat) (f : Fn → Fn) : (s.modFn i f).phases = s.phases := rfl
@[simp] theorem modFn_slices (s : State) (i : Nat) (f : Fn → Fn) : (s.modFn i f).slices = s.slices := rfl
@[simp] theorem modFn_jobs (s : State) (i : Nat) (f : Fn → Fn) : (s.modFn i f).jobs = s.jobs := rfl
@[simp] theorem modFn_springs (s : State) (i : Nat) (f : Fn → Fn) : (s.modFn i f).springs = s.springs := rfl
@[simp] theorem modFn_sluiceStacks (s : State) (i : Nat) (f : Fn → Fn) : (s.modFn i f).sluiceStacks = s.sluiceStacks := rfl
@[simp] theorem modFn_link (s : State) (i : Nat) (f : Fn → Fn) : (s.modFn i f).link = s.link := rfl
@[simp] theorem modFn_mgmt (s : State) (i : Nat) (f : Fn → Fn) : (s.modFn i f).mgmt = s.mgmt := rfl
@[simp] theorem modFn_msix (s : State) (i : Nat) (f : Fn → Fn) : (s.modFn i f).msix = s.msix := rfl

/-! ## `modPart` -/
@[simp] theorem modPart_mem (s : State) (p : Nat) (f : Part → Part) : (s.modPart p f).mem = s.mem := rfl
@[simp] theorem modPart_poison (s : State) (p : Nat) (f : Part → Part) : (s.modPart p f).poison = s.poison := rfl
@[simp] theorem modPart_written (s : State) (p : Nat) (f : Part → Part) : (s.modPart p f).written = s.written := rfl
@[simp] theorem modPart_cycle (s : State) (p : Nat) (f : Part → Part) : (s.modPart p f).cycle = s.cycle := rfl
@[simp] theorem modPart_agenda (s : State) (p : Nat) (f : Part → Part) : (s.modPart p f).agenda = s.agenda := rfl
@[simp] theorem modPart_freeCtr (s : State) (p : Nat) (f : Part → Part) : (s.modPart p f).freeCtr = s.freeCtr := rfl
@[simp] theorem modPart_cur (s : State) (p : Nat) (f : Part → Part) : (s.modPart p f).cur = s.cur := rfl
@[simp] theorem modPart_nextId (s : State) (p : Nat) (f : Part → Part) : (s.modPart p f).nextId = s.nextId := rfl
@[simp] theorem modPart_fns (s : State) (p : Nat) (f : Part → Part) : (s.modPart p f).fns = s.fns := rfl
@[simp] theorem modPart_parts (s : State) (p : Nat) (f : Part → Part) : (s.modPart p f).parts = s.parts.modify p f := rfl
@[simp] theorem modPart_ponds (s : State) (p : Nat) (f : Part → Part) : (s.modPart p f).ponds = s.ponds := rfl
@[simp] theorem modPart_pondGens (s : State) (p : Nat) (f : Part → Part) : (s.modPart p f).pondGens = s.pondGens := rfl
@[simp] theorem modPart_queues (s : State) (p : Nat) (f : Part → Part) : (s.modPart p f).queues = s.queues := rfl
@[simp] theorem modPart_queueGens (s : State) (p : Nat) (f : Part → Part) : (s.modPart p f).queueGens = s.queueGens := rfl
@[simp] theorem modPart_cores (s : State) (p : Nat) (f : Part → Part) : (s.modPart p f).cores = s.cores := rfl
@[simp] theorem modPart_gangs (s : State) (p : Nat) (f : Part → Part) : (s.modPart p f).gangs = s.gangs := rfl
@[simp] theorem modPart_cmds (s : State) (p : Nat) (f : Part → Part) : (s.modPart p f).cmds = s.cmds := rfl
@[simp] theorem modPart_lodeRot (s : State) (p : Nat) (f : Part → Part) : (s.modPart p f).lodeRot = s.lodeRot := rfl
@[simp] theorem modPart_lodeNodes (s : State) (p : Nat) (f : Part → Part) : (s.modPart p f).lodeNodes = s.lodeNodes := rfl
@[simp] theorem modPart_launches (s : State) (p : Nat) (f : Part → Part) : (s.modPart p f).launches = s.launches := rfl
@[simp] theorem modPart_graphs (s : State) (p : Nat) (f : Part → Part) : (s.modPart p f).graphs = s.graphs := rfl
@[simp] theorem modPart_phases (s : State) (p : Nat) (f : Part → Part) : (s.modPart p f).phases = s.phases := rfl
@[simp] theorem modPart_slices (s : State) (p : Nat) (f : Part → Part) : (s.modPart p f).slices = s.slices := rfl
@[simp] theorem modPart_jobs (s : State) (p : Nat) (f : Part → Part) : (s.modPart p f).jobs = s.jobs := rfl
@[simp] theorem modPart_springs (s : State) (p : Nat) (f : Part → Part) : (s.modPart p f).springs = s.springs := rfl
@[simp] theorem modPart_sluiceStacks (s : State) (p : Nat) (f : Part → Part) : (s.modPart p f).sluiceStacks = s.sluiceStacks := rfl
@[simp] theorem modPart_link (s : State) (p : Nat) (f : Part → Part) : (s.modPart p f).link = s.link := rfl
@[simp] theorem modPart_mgmt (s : State) (p : Nat) (f : Part → Part) : (s.modPart p f).mgmt = s.mgmt := rfl
@[simp] theorem modPart_msix (s : State) (p : Nat) (f : Part → Part) : (s.modPart p f).msix = s.msix := rfl

/-! ## `modSpring` -/
@[simp] theorem modSpring_mem (s : State) (d : Nat) (f : Spring → Spring) : (s.modSpring d f).mem = s.mem := rfl
@[simp] theorem modSpring_poison (s : State) (d : Nat) (f : Spring → Spring) : (s.modSpring d f).poison = s.poison := rfl
@[simp] theorem modSpring_written (s : State) (d : Nat) (f : Spring → Spring) : (s.modSpring d f).written = s.written := rfl
@[simp] theorem modSpring_cycle (s : State) (d : Nat) (f : Spring → Spring) : (s.modSpring d f).cycle = s.cycle := rfl
@[simp] theorem modSpring_agenda (s : State) (d : Nat) (f : Spring → Spring) : (s.modSpring d f).agenda = s.agenda := rfl
@[simp] theorem modSpring_freeCtr (s : State) (d : Nat) (f : Spring → Spring) : (s.modSpring d f).freeCtr = s.freeCtr := rfl
@[simp] theorem modSpring_cur (s : State) (d : Nat) (f : Spring → Spring) : (s.modSpring d f).cur = s.cur := rfl
@[simp] theorem modSpring_nextId (s : State) (d : Nat) (f : Spring → Spring) : (s.modSpring d f).nextId = s.nextId := rfl
@[simp] theorem modSpring_fns (s : State) (d : Nat) (f : Spring → Spring) : (s.modSpring d f).fns = s.fns := rfl
@[simp] theorem modSpring_parts (s : State) (d : Nat) (f : Spring → Spring) : (s.modSpring d f).parts = s.parts := rfl
@[simp] theorem modSpring_ponds (s : State) (d : Nat) (f : Spring → Spring) : (s.modSpring d f).ponds = s.ponds := rfl
@[simp] theorem modSpring_pondGens (s : State) (d : Nat) (f : Spring → Spring) : (s.modSpring d f).pondGens = s.pondGens := rfl
@[simp] theorem modSpring_queues (s : State) (d : Nat) (f : Spring → Spring) : (s.modSpring d f).queues = s.queues := rfl
@[simp] theorem modSpring_queueGens (s : State) (d : Nat) (f : Spring → Spring) : (s.modSpring d f).queueGens = s.queueGens := rfl
@[simp] theorem modSpring_cores (s : State) (d : Nat) (f : Spring → Spring) : (s.modSpring d f).cores = s.cores := rfl
@[simp] theorem modSpring_gangs (s : State) (d : Nat) (f : Spring → Spring) : (s.modSpring d f).gangs = s.gangs := rfl
@[simp] theorem modSpring_cmds (s : State) (d : Nat) (f : Spring → Spring) : (s.modSpring d f).cmds = s.cmds := rfl
@[simp] theorem modSpring_lodeRot (s : State) (d : Nat) (f : Spring → Spring) : (s.modSpring d f).lodeRot = s.lodeRot := rfl
@[simp] theorem modSpring_lodeNodes (s : State) (d : Nat) (f : Spring → Spring) : (s.modSpring d f).lodeNodes = s.lodeNodes := rfl
@[simp] theorem modSpring_launches (s : State) (d : Nat) (f : Spring → Spring) : (s.modSpring d f).launches = s.launches := rfl
@[simp] theorem modSpring_graphs (s : State) (d : Nat) (f : Spring → Spring) : (s.modSpring d f).graphs = s.graphs := rfl
@[simp] theorem modSpring_phases (s : State) (d : Nat) (f : Spring → Spring) : (s.modSpring d f).phases = s.phases := rfl
@[simp] theorem modSpring_slices (s : State) (d : Nat) (f : Spring → Spring) : (s.modSpring d f).slices = s.slices := rfl
@[simp] theorem modSpring_jobs (s : State) (d : Nat) (f : Spring → Spring) : (s.modSpring d f).jobs = s.jobs := rfl
@[simp] theorem modSpring_springs (s : State) (d : Nat) (f : Spring → Spring) : (s.modSpring d f).springs = s.springs.modify d f := rfl
@[simp] theorem modSpring_sluiceStacks (s : State) (d : Nat) (f : Spring → Spring) : (s.modSpring d f).sluiceStacks = s.sluiceStacks := rfl
@[simp] theorem modSpring_link (s : State) (d : Nat) (f : Spring → Spring) : (s.modSpring d f).link = s.link := rfl
@[simp] theorem modSpring_mgmt (s : State) (d : Nat) (f : Spring → Spring) : (s.modSpring d f).mgmt = s.mgmt := rfl
@[simp] theorem modSpring_msix (s : State) (d : Nat) (f : Spring → Spring) : (s.modSpring d f).msix = s.msix := rfl

/-! ## `modStack` -/
@[simp] theorem modStack_mem (s : State) (k : Nat) (f : Stack → Stack) : (s.modStack k f).mem = s.mem := rfl
@[simp] theorem modStack_poison (s : State) (k : Nat) (f : Stack → Stack) : (s.modStack k f).poison = s.poison := rfl
@[simp] theorem modStack_written (s : State) (k : Nat) (f : Stack → Stack) : (s.modStack k f).written = s.written := rfl
@[simp] theorem modStack_cycle (s : State) (k : Nat) (f : Stack → Stack) : (s.modStack k f).cycle = s.cycle := rfl
@[simp] theorem modStack_agenda (s : State) (k : Nat) (f : Stack → Stack) : (s.modStack k f).agenda = s.agenda := rfl
@[simp] theorem modStack_freeCtr (s : State) (k : Nat) (f : Stack → Stack) : (s.modStack k f).freeCtr = s.freeCtr := rfl
@[simp] theorem modStack_cur (s : State) (k : Nat) (f : Stack → Stack) : (s.modStack k f).cur = s.cur := rfl
@[simp] theorem modStack_nextId (s : State) (k : Nat) (f : Stack → Stack) : (s.modStack k f).nextId = s.nextId := rfl
@[simp] theorem modStack_fns (s : State) (k : Nat) (f : Stack → Stack) : (s.modStack k f).fns = s.fns := rfl
@[simp] theorem modStack_parts (s : State) (k : Nat) (f : Stack → Stack) : (s.modStack k f).parts = s.parts := rfl
@[simp] theorem modStack_ponds (s : State) (k : Nat) (f : Stack → Stack) : (s.modStack k f).ponds = s.ponds := rfl
@[simp] theorem modStack_pondGens (s : State) (k : Nat) (f : Stack → Stack) : (s.modStack k f).pondGens = s.pondGens := rfl
@[simp] theorem modStack_queues (s : State) (k : Nat) (f : Stack → Stack) : (s.modStack k f).queues = s.queues := rfl
@[simp] theorem modStack_queueGens (s : State) (k : Nat) (f : Stack → Stack) : (s.modStack k f).queueGens = s.queueGens := rfl
@[simp] theorem modStack_cores (s : State) (k : Nat) (f : Stack → Stack) : (s.modStack k f).cores = s.cores := rfl
@[simp] theorem modStack_gangs (s : State) (k : Nat) (f : Stack → Stack) : (s.modStack k f).gangs = s.gangs := rfl
@[simp] theorem modStack_cmds (s : State) (k : Nat) (f : Stack → Stack) : (s.modStack k f).cmds = s.cmds := rfl
@[simp] theorem modStack_lodeRot (s : State) (k : Nat) (f : Stack → Stack) : (s.modStack k f).lodeRot = s.lodeRot := rfl
@[simp] theorem modStack_lodeNodes (s : State) (k : Nat) (f : Stack → Stack) : (s.modStack k f).lodeNodes = s.lodeNodes := rfl
@[simp] theorem modStack_launches (s : State) (k : Nat) (f : Stack → Stack) : (s.modStack k f).launches = s.launches := rfl
@[simp] theorem modStack_graphs (s : State) (k : Nat) (f : Stack → Stack) : (s.modStack k f).graphs = s.graphs := rfl
@[simp] theorem modStack_phases (s : State) (k : Nat) (f : Stack → Stack) : (s.modStack k f).phases = s.phases := rfl
@[simp] theorem modStack_slices (s : State) (k : Nat) (f : Stack → Stack) : (s.modStack k f).slices = s.slices := rfl
@[simp] theorem modStack_jobs (s : State) (k : Nat) (f : Stack → Stack) : (s.modStack k f).jobs = s.jobs := rfl
@[simp] theorem modStack_springs (s : State) (k : Nat) (f : Stack → Stack) : (s.modStack k f).springs = s.springs := rfl
@[simp] theorem modStack_sluiceStacks (s : State) (k : Nat) (f : Stack → Stack) : (s.modStack k f).sluiceStacks = s.sluiceStacks.modify k f := rfl
@[simp] theorem modStack_link (s : State) (k : Nat) (f : Stack → Stack) : (s.modStack k f).link = s.link := rfl
@[simp] theorem modStack_mgmt (s : State) (k : Nat) (f : Stack → Stack) : (s.modStack k f).mgmt = s.mgmt := rfl
@[simp] theorem modStack_msix (s : State) (k : Nat) (f : Stack → Stack) : (s.modStack k f).msix = s.msix := rfl

/-! ## `modGang` -/
@[simp] theorem modGang_mem (s : State) (i : Nat) (f : Gang → Gang) : (s.modGang i f).mem = s.mem := rfl
@[simp] theorem modGang_poison (s : State) (i : Nat) (f : Gang → Gang) : (s.modGang i f).poison = s.poison := rfl
@[simp] theorem modGang_written (s : State) (i : Nat) (f : Gang → Gang) : (s.modGang i f).written = s.written := rfl
@[simp] theorem modGang_cycle (s : State) (i : Nat) (f : Gang → Gang) : (s.modGang i f).cycle = s.cycle := rfl
@[simp] theorem modGang_agenda (s : State) (i : Nat) (f : Gang → Gang) : (s.modGang i f).agenda = s.agenda := rfl
@[simp] theorem modGang_freeCtr (s : State) (i : Nat) (f : Gang → Gang) : (s.modGang i f).freeCtr = s.freeCtr := rfl
@[simp] theorem modGang_cur (s : State) (i : Nat) (f : Gang → Gang) : (s.modGang i f).cur = s.cur := rfl
@[simp] theorem modGang_nextId (s : State) (i : Nat) (f : Gang → Gang) : (s.modGang i f).nextId = s.nextId := rfl
@[simp] theorem modGang_fns (s : State) (i : Nat) (f : Gang → Gang) : (s.modGang i f).fns = s.fns := rfl
@[simp] theorem modGang_parts (s : State) (i : Nat) (f : Gang → Gang) : (s.modGang i f).parts = s.parts := rfl
@[simp] theorem modGang_ponds (s : State) (i : Nat) (f : Gang → Gang) : (s.modGang i f).ponds = s.ponds := rfl
@[simp] theorem modGang_pondGens (s : State) (i : Nat) (f : Gang → Gang) : (s.modGang i f).pondGens = s.pondGens := rfl
@[simp] theorem modGang_queues (s : State) (i : Nat) (f : Gang → Gang) : (s.modGang i f).queues = s.queues := rfl
@[simp] theorem modGang_queueGens (s : State) (i : Nat) (f : Gang → Gang) : (s.modGang i f).queueGens = s.queueGens := rfl
@[simp] theorem modGang_cores (s : State) (i : Nat) (f : Gang → Gang) : (s.modGang i f).cores = s.cores := rfl
@[simp] theorem modGang_gangs (s : State) (i : Nat) (f : Gang → Gang) : (s.modGang i f).gangs = replaceFirst (fun g => g.id == i) f s.gangs := rfl
@[simp] theorem modGang_cmds (s : State) (i : Nat) (f : Gang → Gang) : (s.modGang i f).cmds = s.cmds := rfl
@[simp] theorem modGang_lodeRot (s : State) (i : Nat) (f : Gang → Gang) : (s.modGang i f).lodeRot = s.lodeRot := rfl
@[simp] theorem modGang_lodeNodes (s : State) (i : Nat) (f : Gang → Gang) : (s.modGang i f).lodeNodes = s.lodeNodes := rfl
@[simp] theorem modGang_launches (s : State) (i : Nat) (f : Gang → Gang) : (s.modGang i f).launches = s.launches := rfl
@[simp] theorem modGang_graphs (s : State) (i : Nat) (f : Gang → Gang) : (s.modGang i f).graphs = s.graphs := rfl
@[simp] theorem modGang_phases (s : State) (i : Nat) (f : Gang → Gang) : (s.modGang i f).phases = s.phases := rfl
@[simp] theorem modGang_slices (s : State) (i : Nat) (f : Gang → Gang) : (s.modGang i f).slices = s.slices := rfl
@[simp] theorem modGang_jobs (s : State) (i : Nat) (f : Gang → Gang) : (s.modGang i f).jobs = s.jobs := rfl
@[simp] theorem modGang_springs (s : State) (i : Nat) (f : Gang → Gang) : (s.modGang i f).springs = s.springs := rfl
@[simp] theorem modGang_sluiceStacks (s : State) (i : Nat) (f : Gang → Gang) : (s.modGang i f).sluiceStacks = s.sluiceStacks := rfl
@[simp] theorem modGang_link (s : State) (i : Nat) (f : Gang → Gang) : (s.modGang i f).link = s.link := rfl
@[simp] theorem modGang_mgmt (s : State) (i : Nat) (f : Gang → Gang) : (s.modGang i f).mgmt = s.mgmt := rfl
@[simp] theorem modGang_msix (s : State) (i : Nat) (f : Gang → Gang) : (s.modGang i f).msix = s.msix := rfl

/-! ## `modCrew` -/
@[simp] theorem modCrew_mem (s : State) (g i : Nat) (f : Crew → Crew) : (s.modCrew g i f).mem = s.mem := rfl
@[simp] theorem modCrew_poison (s : State) (g i : Nat) (f : Crew → Crew) : (s.modCrew g i f).poison = s.poison := rfl
@[simp] theorem modCrew_written (s : State) (g i : Nat) (f : Crew → Crew) : (s.modCrew g i f).written = s.written := rfl
@[simp] theorem modCrew_cycle (s : State) (g i : Nat) (f : Crew → Crew) : (s.modCrew g i f).cycle = s.cycle := rfl
@[simp] theorem modCrew_agenda (s : State) (g i : Nat) (f : Crew → Crew) : (s.modCrew g i f).agenda = s.agenda := rfl
@[simp] theorem modCrew_freeCtr (s : State) (g i : Nat) (f : Crew → Crew) : (s.modCrew g i f).freeCtr = s.freeCtr := rfl
@[simp] theorem modCrew_cur (s : State) (g i : Nat) (f : Crew → Crew) : (s.modCrew g i f).cur = s.cur := rfl
@[simp] theorem modCrew_nextId (s : State) (g i : Nat) (f : Crew → Crew) : (s.modCrew g i f).nextId = s.nextId := rfl
@[simp] theorem modCrew_fns (s : State) (g i : Nat) (f : Crew → Crew) : (s.modCrew g i f).fns = s.fns := rfl
@[simp] theorem modCrew_parts (s : State) (g i : Nat) (f : Crew → Crew) : (s.modCrew g i f).parts = s.parts := rfl
@[simp] theorem modCrew_ponds (s : State) (g i : Nat) (f : Crew → Crew) : (s.modCrew g i f).ponds = s.ponds := rfl
@[simp] theorem modCrew_pondGens (s : State) (g i : Nat) (f : Crew → Crew) : (s.modCrew g i f).pondGens = s.pondGens := rfl
@[simp] theorem modCrew_queues (s : State) (g i : Nat) (f : Crew → Crew) : (s.modCrew g i f).queues = s.queues := rfl
@[simp] theorem modCrew_queueGens (s : State) (g i : Nat) (f : Crew → Crew) : (s.modCrew g i f).queueGens = s.queueGens := rfl
@[simp] theorem modCrew_cores (s : State) (g i : Nat) (f : Crew → Crew) : (s.modCrew g i f).cores = s.cores := rfl
@[simp] theorem modCrew_gangs (s : State) (g i : Nat) (f : Crew → Crew) : (s.modCrew g i f).gangs = replaceFirst (fun x => x.id == g) (fun x => x.modCrew i f) s.gangs := rfl
@[simp] theorem modCrew_cmds (s : State) (g i : Nat) (f : Crew → Crew) : (s.modCrew g i f).cmds = s.cmds := rfl
@[simp] theorem modCrew_lodeRot (s : State) (g i : Nat) (f : Crew → Crew) : (s.modCrew g i f).lodeRot = s.lodeRot := rfl
@[simp] theorem modCrew_lodeNodes (s : State) (g i : Nat) (f : Crew → Crew) : (s.modCrew g i f).lodeNodes = s.lodeNodes := rfl
@[simp] theorem modCrew_launches (s : State) (g i : Nat) (f : Crew → Crew) : (s.modCrew g i f).launches = s.launches := rfl
@[simp] theorem modCrew_graphs (s : State) (g i : Nat) (f : Crew → Crew) : (s.modCrew g i f).graphs = s.graphs := rfl
@[simp] theorem modCrew_phases (s : State) (g i : Nat) (f : Crew → Crew) : (s.modCrew g i f).phases = s.phases := rfl
@[simp] theorem modCrew_slices (s : State) (g i : Nat) (f : Crew → Crew) : (s.modCrew g i f).slices = s.slices := rfl
@[simp] theorem modCrew_jobs (s : State) (g i : Nat) (f : Crew → Crew) : (s.modCrew g i f).jobs = s.jobs := rfl
@[simp] theorem modCrew_springs (s : State) (g i : Nat) (f : Crew → Crew) : (s.modCrew g i f).springs = s.springs := rfl
@[simp] theorem modCrew_sluiceStacks (s : State) (g i : Nat) (f : Crew → Crew) : (s.modCrew g i f).sluiceStacks = s.sluiceStacks := rfl
@[simp] theorem modCrew_link (s : State) (g i : Nat) (f : Crew → Crew) : (s.modCrew g i f).link = s.link := rfl
@[simp] theorem modCrew_mgmt (s : State) (g i : Nat) (f : Crew → Crew) : (s.modCrew g i f).mgmt = s.mgmt := rfl
@[simp] theorem modCrew_msix (s : State) (g i : Nat) (f : Crew → Crew) : (s.modCrew g i f).msix = s.msix := rfl

/-! ## `modLaunch` -/
@[simp] theorem modLaunch_mem (s : State) (i : Nat) (f : Launch → Launch) : (s.modLaunch i f).mem = s.mem := rfl
@[simp] theorem modLaunch_poison (s : State) (i : Nat) (f : Launch → Launch) : (s.modLaunch i f).poison = s.poison := rfl
@[simp] theorem modLaunch_written (s : State) (i : Nat) (f : Launch → Launch) : (s.modLaunch i f).written = s.written := rfl
@[simp] theorem modLaunch_cycle (s : State) (i : Nat) (f : Launch → Launch) : (s.modLaunch i f).cycle = s.cycle := rfl
@[simp] theorem modLaunch_agenda (s : State) (i : Nat) (f : Launch → Launch) : (s.modLaunch i f).agenda = s.agenda := rfl
@[simp] theorem modLaunch_freeCtr (s : State) (i : Nat) (f : Launch → Launch) : (s.modLaunch i f).freeCtr = s.freeCtr := rfl
@[simp] theorem modLaunch_cur (s : State) (i : Nat) (f : Launch → Launch) : (s.modLaunch i f).cur = s.cur := rfl
@[simp] theorem modLaunch_nextId (s : State) (i : Nat) (f : Launch → Launch) : (s.modLaunch i f).nextId = s.nextId := rfl
@[simp] theorem modLaunch_fns (s : State) (i : Nat) (f : Launch → Launch) : (s.modLaunch i f).fns = s.fns := rfl
@[simp] theorem modLaunch_parts (s : State) (i : Nat) (f : Launch → Launch) : (s.modLaunch i f).parts = s.parts := rfl
@[simp] theorem modLaunch_ponds (s : State) (i : Nat) (f : Launch → Launch) : (s.modLaunch i f).ponds = s.ponds := rfl
@[simp] theorem modLaunch_pondGens (s : State) (i : Nat) (f : Launch → Launch) : (s.modLaunch i f).pondGens = s.pondGens := rfl
@[simp] theorem modLaunch_queues (s : State) (i : Nat) (f : Launch → Launch) : (s.modLaunch i f).queues = s.queues := rfl
@[simp] theorem modLaunch_queueGens (s : State) (i : Nat) (f : Launch → Launch) : (s.modLaunch i f).queueGens = s.queueGens := rfl
@[simp] theorem modLaunch_cores (s : State) (i : Nat) (f : Launch → Launch) : (s.modLaunch i f).cores = s.cores := rfl
@[simp] theorem modLaunch_gangs (s : State) (i : Nat) (f : Launch → Launch) : (s.modLaunch i f).gangs = s.gangs := rfl
@[simp] theorem modLaunch_cmds (s : State) (i : Nat) (f : Launch → Launch) : (s.modLaunch i f).cmds = s.cmds := rfl
@[simp] theorem modLaunch_lodeRot (s : State) (i : Nat) (f : Launch → Launch) : (s.modLaunch i f).lodeRot = s.lodeRot := rfl
@[simp] theorem modLaunch_lodeNodes (s : State) (i : Nat) (f : Launch → Launch) : (s.modLaunch i f).lodeNodes = s.lodeNodes := rfl
@[simp] theorem modLaunch_launches (s : State) (i : Nat) (f : Launch → Launch) : (s.modLaunch i f).launches = replaceFirst (fun l => l.id == i) f s.launches := rfl
@[simp] theorem modLaunch_graphs (s : State) (i : Nat) (f : Launch → Launch) : (s.modLaunch i f).graphs = s.graphs := rfl
@[simp] theorem modLaunch_phases (s : State) (i : Nat) (f : Launch → Launch) : (s.modLaunch i f).phases = s.phases := rfl
@[simp] theorem modLaunch_slices (s : State) (i : Nat) (f : Launch → Launch) : (s.modLaunch i f).slices = s.slices := rfl
@[simp] theorem modLaunch_jobs (s : State) (i : Nat) (f : Launch → Launch) : (s.modLaunch i f).jobs = s.jobs := rfl
@[simp] theorem modLaunch_springs (s : State) (i : Nat) (f : Launch → Launch) : (s.modLaunch i f).springs = s.springs := rfl
@[simp] theorem modLaunch_sluiceStacks (s : State) (i : Nat) (f : Launch → Launch) : (s.modLaunch i f).sluiceStacks = s.sluiceStacks := rfl
@[simp] theorem modLaunch_link (s : State) (i : Nat) (f : Launch → Launch) : (s.modLaunch i f).link = s.link := rfl
@[simp] theorem modLaunch_mgmt (s : State) (i : Nat) (f : Launch → Launch) : (s.modLaunch i f).mgmt = s.mgmt := rfl
@[simp] theorem modLaunch_msix (s : State) (i : Nat) (f : Launch → Launch) : (s.modLaunch i f).msix = s.msix := rfl

/-! ## `modGraph` -/
@[simp] theorem modGraph_mem (s : State) (i : Nat) (f : Graph → Graph) : (s.modGraph i f).mem = s.mem := rfl
@[simp] theorem modGraph_poison (s : State) (i : Nat) (f : Graph → Graph) : (s.modGraph i f).poison = s.poison := rfl
@[simp] theorem modGraph_written (s : State) (i : Nat) (f : Graph → Graph) : (s.modGraph i f).written = s.written := rfl
@[simp] theorem modGraph_cycle (s : State) (i : Nat) (f : Graph → Graph) : (s.modGraph i f).cycle = s.cycle := rfl
@[simp] theorem modGraph_agenda (s : State) (i : Nat) (f : Graph → Graph) : (s.modGraph i f).agenda = s.agenda := rfl
@[simp] theorem modGraph_freeCtr (s : State) (i : Nat) (f : Graph → Graph) : (s.modGraph i f).freeCtr = s.freeCtr := rfl
@[simp] theorem modGraph_cur (s : State) (i : Nat) (f : Graph → Graph) : (s.modGraph i f).cur = s.cur := rfl
@[simp] theorem modGraph_nextId (s : State) (i : Nat) (f : Graph → Graph) : (s.modGraph i f).nextId = s.nextId := rfl
@[simp] theorem modGraph_fns (s : State) (i : Nat) (f : Graph → Graph) : (s.modGraph i f).fns = s.fns := rfl
@[simp] theorem modGraph_parts (s : State) (i : Nat) (f : Graph → Graph) : (s.modGraph i f).parts = s.parts := rfl
@[simp] theorem modGraph_ponds (s : State) (i : Nat) (f : Graph → Graph) : (s.modGraph i f).ponds = s.ponds := rfl
@[simp] theorem modGraph_pondGens (s : State) (i : Nat) (f : Graph → Graph) : (s.modGraph i f).pondGens = s.pondGens := rfl
@[simp] theorem modGraph_queues (s : State) (i : Nat) (f : Graph → Graph) : (s.modGraph i f).queues = s.queues := rfl
@[simp] theorem modGraph_queueGens (s : State) (i : Nat) (f : Graph → Graph) : (s.modGraph i f).queueGens = s.queueGens := rfl
@[simp] theorem modGraph_cores (s : State) (i : Nat) (f : Graph → Graph) : (s.modGraph i f).cores = s.cores := rfl
@[simp] theorem modGraph_gangs (s : State) (i : Nat) (f : Graph → Graph) : (s.modGraph i f).gangs = s.gangs := rfl
@[simp] theorem modGraph_cmds (s : State) (i : Nat) (f : Graph → Graph) : (s.modGraph i f).cmds = s.cmds := rfl
@[simp] theorem modGraph_lodeRot (s : State) (i : Nat) (f : Graph → Graph) : (s.modGraph i f).lodeRot = s.lodeRot := rfl
@[simp] theorem modGraph_lodeNodes (s : State) (i : Nat) (f : Graph → Graph) : (s.modGraph i f).lodeNodes = s.lodeNodes := rfl
@[simp] theorem modGraph_launches (s : State) (i : Nat) (f : Graph → Graph) : (s.modGraph i f).launches = s.launches := rfl
@[simp] theorem modGraph_graphs (s : State) (i : Nat) (f : Graph → Graph) : (s.modGraph i f).graphs = replaceFirst (fun l => l.id == i) f s.graphs := rfl
@[simp] theorem modGraph_phases (s : State) (i : Nat) (f : Graph → Graph) : (s.modGraph i f).phases = s.phases := rfl
@[simp] theorem modGraph_slices (s : State) (i : Nat) (f : Graph → Graph) : (s.modGraph i f).slices = s.slices := rfl
@[simp] theorem modGraph_jobs (s : State) (i : Nat) (f : Graph → Graph) : (s.modGraph i f).jobs = s.jobs := rfl
@[simp] theorem modGraph_springs (s : State) (i : Nat) (f : Graph → Graph) : (s.modGraph i f).springs = s.springs := rfl
@[simp] theorem modGraph_sluiceStacks (s : State) (i : Nat) (f : Graph → Graph) : (s.modGraph i f).sluiceStacks = s.sluiceStacks := rfl
@[simp] theorem modGraph_link (s : State) (i : Nat) (f : Graph → Graph) : (s.modGraph i f).link = s.link := rfl
@[simp] theorem modGraph_mgmt (s : State) (i : Nat) (f : Graph → Graph) : (s.modGraph i f).mgmt = s.mgmt := rfl
@[simp] theorem modGraph_msix (s : State) (i : Nat) (f : Graph → Graph) : (s.modGraph i f).msix = s.msix := rfl

/-! ## `modPhase` -/
@[simp] theorem modPhase_mem (s : State) (i : Nat) (f : Phase → Phase) : (s.modPhase i f).mem = s.mem := rfl
@[simp] theorem modPhase_poison (s : State) (i : Nat) (f : Phase → Phase) : (s.modPhase i f).poison = s.poison := rfl
@[simp] theorem modPhase_written (s : State) (i : Nat) (f : Phase → Phase) : (s.modPhase i f).written = s.written := rfl
@[simp] theorem modPhase_cycle (s : State) (i : Nat) (f : Phase → Phase) : (s.modPhase i f).cycle = s.cycle := rfl
@[simp] theorem modPhase_agenda (s : State) (i : Nat) (f : Phase → Phase) : (s.modPhase i f).agenda = s.agenda := rfl
@[simp] theorem modPhase_freeCtr (s : State) (i : Nat) (f : Phase → Phase) : (s.modPhase i f).freeCtr = s.freeCtr := rfl
@[simp] theorem modPhase_cur (s : State) (i : Nat) (f : Phase → Phase) : (s.modPhase i f).cur = s.cur := rfl
@[simp] theorem modPhase_nextId (s : State) (i : Nat) (f : Phase → Phase) : (s.modPhase i f).nextId = s.nextId := rfl
@[simp] theorem modPhase_fns (s : State) (i : Nat) (f : Phase → Phase) : (s.modPhase i f).fns = s.fns := rfl
@[simp] theorem modPhase_parts (s : State) (i : Nat) (f : Phase → Phase) : (s.modPhase i f).parts = s.parts := rfl
@[simp] theorem modPhase_ponds (s : State) (i : Nat) (f : Phase → Phase) : (s.modPhase i f).ponds = s.ponds := rfl
@[simp] theorem modPhase_pondGens (s : State) (i : Nat) (f : Phase → Phase) : (s.modPhase i f).pondGens = s.pondGens := rfl
@[simp] theorem modPhase_queues (s : State) (i : Nat) (f : Phase → Phase) : (s.modPhase i f).queues = s.queues := rfl
@[simp] theorem modPhase_queueGens (s : State) (i : Nat) (f : Phase → Phase) : (s.modPhase i f).queueGens = s.queueGens := rfl
@[simp] theorem modPhase_cores (s : State) (i : Nat) (f : Phase → Phase) : (s.modPhase i f).cores = s.cores := rfl
@[simp] theorem modPhase_gangs (s : State) (i : Nat) (f : Phase → Phase) : (s.modPhase i f).gangs = s.gangs := rfl
@[simp] theorem modPhase_cmds (s : State) (i : Nat) (f : Phase → Phase) : (s.modPhase i f).cmds = s.cmds := rfl
@[simp] theorem modPhase_lodeRot (s : State) (i : Nat) (f : Phase → Phase) : (s.modPhase i f).lodeRot = s.lodeRot := rfl
@[simp] theorem modPhase_lodeNodes (s : State) (i : Nat) (f : Phase → Phase) : (s.modPhase i f).lodeNodes = s.lodeNodes := rfl
@[simp] theorem modPhase_launches (s : State) (i : Nat) (f : Phase → Phase) : (s.modPhase i f).launches = s.launches := rfl
@[simp] theorem modPhase_graphs (s : State) (i : Nat) (f : Phase → Phase) : (s.modPhase i f).graphs = s.graphs := rfl
@[simp] theorem modPhase_phases (s : State) (i : Nat) (f : Phase → Phase) : (s.modPhase i f).phases = replaceFirst (fun l => l.id == i) f s.phases := rfl
@[simp] theorem modPhase_slices (s : State) (i : Nat) (f : Phase → Phase) : (s.modPhase i f).slices = s.slices := rfl
@[simp] theorem modPhase_jobs (s : State) (i : Nat) (f : Phase → Phase) : (s.modPhase i f).jobs = s.jobs := rfl
@[simp] theorem modPhase_springs (s : State) (i : Nat) (f : Phase → Phase) : (s.modPhase i f).springs = s.springs := rfl
@[simp] theorem modPhase_sluiceStacks (s : State) (i : Nat) (f : Phase → Phase) : (s.modPhase i f).sluiceStacks = s.sluiceStacks := rfl
@[simp] theorem modPhase_link (s : State) (i : Nat) (f : Phase → Phase) : (s.modPhase i f).link = s.link := rfl
@[simp] theorem modPhase_mgmt (s : State) (i : Nat) (f : Phase → Phase) : (s.modPhase i f).mgmt = s.mgmt := rfl
@[simp] theorem modPhase_msix (s : State) (i : Nat) (f : Phase → Phase) : (s.modPhase i f).msix = s.msix := rfl

/-! ## `modSlice` -/
@[simp] theorem modSlice_mem (s : State) (i : Nat) (f : Slice → Slice) : (s.modSlice i f).mem = s.mem := rfl
@[simp] theorem modSlice_poison (s : State) (i : Nat) (f : Slice → Slice) : (s.modSlice i f).poison = s.poison := rfl
@[simp] theorem modSlice_written (s : State) (i : Nat) (f : Slice → Slice) : (s.modSlice i f).written = s.written := rfl
@[simp] theorem modSlice_cycle (s : State) (i : Nat) (f : Slice → Slice) : (s.modSlice i f).cycle = s.cycle := rfl
@[simp] theorem modSlice_agenda (s : State) (i : Nat) (f : Slice → Slice) : (s.modSlice i f).agenda = s.agenda := rfl
@[simp] theorem modSlice_freeCtr (s : State) (i : Nat) (f : Slice → Slice) : (s.modSlice i f).freeCtr = s.freeCtr := rfl
@[simp] theorem modSlice_cur (s : State) (i : Nat) (f : Slice → Slice) : (s.modSlice i f).cur = s.cur := rfl
@[simp] theorem modSlice_nextId (s : State) (i : Nat) (f : Slice → Slice) : (s.modSlice i f).nextId = s.nextId := rfl
@[simp] theorem modSlice_fns (s : State) (i : Nat) (f : Slice → Slice) : (s.modSlice i f).fns = s.fns := rfl
@[simp] theorem modSlice_parts (s : State) (i : Nat) (f : Slice → Slice) : (s.modSlice i f).parts = s.parts := rfl
@[simp] theorem modSlice_ponds (s : State) (i : Nat) (f : Slice → Slice) : (s.modSlice i f).ponds = s.ponds := rfl
@[simp] theorem modSlice_pondGens (s : State) (i : Nat) (f : Slice → Slice) : (s.modSlice i f).pondGens = s.pondGens := rfl
@[simp] theorem modSlice_queues (s : State) (i : Nat) (f : Slice → Slice) : (s.modSlice i f).queues = s.queues := rfl
@[simp] theorem modSlice_queueGens (s : State) (i : Nat) (f : Slice → Slice) : (s.modSlice i f).queueGens = s.queueGens := rfl
@[simp] theorem modSlice_cores (s : State) (i : Nat) (f : Slice → Slice) : (s.modSlice i f).cores = s.cores := rfl
@[simp] theorem modSlice_gangs (s : State) (i : Nat) (f : Slice → Slice) : (s.modSlice i f).gangs = s.gangs := rfl
@[simp] theorem modSlice_cmds (s : State) (i : Nat) (f : Slice → Slice) : (s.modSlice i f).cmds = s.cmds := rfl
@[simp] theorem modSlice_lodeRot (s : State) (i : Nat) (f : Slice → Slice) : (s.modSlice i f).lodeRot = s.lodeRot := rfl
@[simp] theorem modSlice_lodeNodes (s : State) (i : Nat) (f : Slice → Slice) : (s.modSlice i f).lodeNodes = s.lodeNodes := rfl
@[simp] theorem modSlice_launches (s : State) (i : Nat) (f : Slice → Slice) : (s.modSlice i f).launches = s.launches := rfl
@[simp] theorem modSlice_graphs (s : State) (i : Nat) (f : Slice → Slice) : (s.modSlice i f).graphs = s.graphs := rfl
@[simp] theorem modSlice_phases (s : State) (i : Nat) (f : Slice → Slice) : (s.modSlice i f).phases = s.phases := rfl
@[simp] theorem modSlice_slices (s : State) (i : Nat) (f : Slice → Slice) : (s.modSlice i f).slices = replaceFirst (fun l => l.id == i) f s.slices := rfl
@[simp] theorem modSlice_jobs (s : State) (i : Nat) (f : Slice → Slice) : (s.modSlice i f).jobs = s.jobs := rfl
@[simp] theorem modSlice_springs (s : State) (i : Nat) (f : Slice → Slice) : (s.modSlice i f).springs = s.springs := rfl
@[simp] theorem modSlice_sluiceStacks (s : State) (i : Nat) (f : Slice → Slice) : (s.modSlice i f).sluiceStacks = s.sluiceStacks := rfl
@[simp] theorem modSlice_link (s : State) (i : Nat) (f : Slice → Slice) : (s.modSlice i f).link = s.link := rfl
@[simp] theorem modSlice_mgmt (s : State) (i : Nat) (f : Slice → Slice) : (s.modSlice i f).mgmt = s.mgmt := rfl
@[simp] theorem modSlice_msix (s : State) (i : Nat) (f : Slice → Slice) : (s.modSlice i f).msix = s.msix := rfl

/-! ## `modPond` -/
@[simp] theorem modPond_mem (s : State) (p k : Nat) (f : Pond → Pond) : (s.modPond p k f).mem = s.mem := rfl
@[simp] theorem modPond_poison (s : State) (p k : Nat) (f : Pond → Pond) : (s.modPond p k f).poison = s.poison := rfl
@[simp] theorem modPond_written (s : State) (p k : Nat) (f : Pond → Pond) : (s.modPond p k f).written = s.written := rfl
@[simp] theorem modPond_cycle (s : State) (p k : Nat) (f : Pond → Pond) : (s.modPond p k f).cycle = s.cycle := rfl
@[simp] theorem modPond_agenda (s : State) (p k : Nat) (f : Pond → Pond) : (s.modPond p k f).agenda = s.agenda := rfl
@[simp] theorem modPond_freeCtr (s : State) (p k : Nat) (f : Pond → Pond) : (s.modPond p k f).freeCtr = s.freeCtr := rfl
@[simp] theorem modPond_cur (s : State) (p k : Nat) (f : Pond → Pond) : (s.modPond p k f).cur = s.cur := rfl
@[simp] theorem modPond_nextId (s : State) (p k : Nat) (f : Pond → Pond) : (s.modPond p k f).nextId = s.nextId := rfl
@[simp] theorem modPond_fns (s : State) (p k : Nat) (f : Pond → Pond) : (s.modPond p k f).fns = s.fns := rfl
@[simp] theorem modPond_parts (s : State) (p k : Nat) (f : Pond → Pond) : (s.modPond p k f).parts = s.parts := rfl
@[simp] theorem modPond_ponds (s : State) (p k : Nat) (f : Pond → Pond) : (s.modPond p k f).ponds = replaceFirst (fun x => x.part == p && x.slot == k) f s.ponds := rfl
@[simp] theorem modPond_pondGens (s : State) (p k : Nat) (f : Pond → Pond) : (s.modPond p k f).pondGens = s.pondGens := rfl
@[simp] theorem modPond_queues (s : State) (p k : Nat) (f : Pond → Pond) : (s.modPond p k f).queues = s.queues := rfl
@[simp] theorem modPond_queueGens (s : State) (p k : Nat) (f : Pond → Pond) : (s.modPond p k f).queueGens = s.queueGens := rfl
@[simp] theorem modPond_cores (s : State) (p k : Nat) (f : Pond → Pond) : (s.modPond p k f).cores = s.cores := rfl
@[simp] theorem modPond_gangs (s : State) (p k : Nat) (f : Pond → Pond) : (s.modPond p k f).gangs = s.gangs := rfl
@[simp] theorem modPond_cmds (s : State) (p k : Nat) (f : Pond → Pond) : (s.modPond p k f).cmds = s.cmds := rfl
@[simp] theorem modPond_lodeRot (s : State) (p k : Nat) (f : Pond → Pond) : (s.modPond p k f).lodeRot = s.lodeRot := rfl
@[simp] theorem modPond_lodeNodes (s : State) (p k : Nat) (f : Pond → Pond) : (s.modPond p k f).lodeNodes = s.lodeNodes := rfl
@[simp] theorem modPond_launches (s : State) (p k : Nat) (f : Pond → Pond) : (s.modPond p k f).launches = s.launches := rfl
@[simp] theorem modPond_graphs (s : State) (p k : Nat) (f : Pond → Pond) : (s.modPond p k f).graphs = s.graphs := rfl
@[simp] theorem modPond_phases (s : State) (p k : Nat) (f : Pond → Pond) : (s.modPond p k f).phases = s.phases := rfl
@[simp] theorem modPond_slices (s : State) (p k : Nat) (f : Pond → Pond) : (s.modPond p k f).slices = s.slices := rfl
@[simp] theorem modPond_jobs (s : State) (p k : Nat) (f : Pond → Pond) : (s.modPond p k f).jobs = s.jobs := rfl
@[simp] theorem modPond_springs (s : State) (p k : Nat) (f : Pond → Pond) : (s.modPond p k f).springs = s.springs := rfl
@[simp] theorem modPond_sluiceStacks (s : State) (p k : Nat) (f : Pond → Pond) : (s.modPond p k f).sluiceStacks = s.sluiceStacks := rfl
@[simp] theorem modPond_link (s : State) (p k : Nat) (f : Pond → Pond) : (s.modPond p k f).link = s.link := rfl
@[simp] theorem modPond_mgmt (s : State) (p k : Nat) (f : Pond → Pond) : (s.modPond p k f).mgmt = s.mgmt := rfl
@[simp] theorem modPond_msix (s : State) (p k : Nat) (f : Pond → Pond) : (s.modPond p k f).msix = s.msix := rfl

/-! ## `modQueue` -/
@[simp] theorem modQueue_mem (s : State) (p k : Nat) (f : Queue → Queue) : (s.modQueue p k f).mem = s.mem := rfl
@[simp] theorem modQueue_poison (s : State) (p k : Nat) (f : Queue → Queue) : (s.modQueue p k f).poison = s.poison := rfl
@[simp] theorem modQueue_written (s : State) (p k : Nat) (f : Queue → Queue) : (s.modQueue p k f).written = s.written := rfl
@[simp] theorem modQueue_cycle (s : State) (p k : Nat) (f : Queue → Queue) : (s.modQueue p k f).cycle = s.cycle := rfl
@[simp] theorem modQueue_agenda (s : State) (p k : Nat) (f : Queue → Queue) : (s.modQueue p k f).agenda = s.agenda := rfl
@[simp] theorem modQueue_freeCtr (s : State) (p k : Nat) (f : Queue → Queue) : (s.modQueue p k f).freeCtr = s.freeCtr := rfl
@[simp] theorem modQueue_cur (s : State) (p k : Nat) (f : Queue → Queue) : (s.modQueue p k f).cur = s.cur := rfl
@[simp] theorem modQueue_nextId (s : State) (p k : Nat) (f : Queue → Queue) : (s.modQueue p k f).nextId = s.nextId := rfl
@[simp] theorem modQueue_fns (s : State) (p k : Nat) (f : Queue → Queue) : (s.modQueue p k f).fns = s.fns := rfl
@[simp] theorem modQueue_parts (s : State) (p k : Nat) (f : Queue → Queue) : (s.modQueue p k f).parts = s.parts := rfl
@[simp] theorem modQueue_ponds (s : State) (p k : Nat) (f : Queue → Queue) : (s.modQueue p k f).ponds = s.ponds := rfl
@[simp] theorem modQueue_pondGens (s : State) (p k : Nat) (f : Queue → Queue) : (s.modQueue p k f).pondGens = s.pondGens := rfl
@[simp] theorem modQueue_queues (s : State) (p k : Nat) (f : Queue → Queue) : (s.modQueue p k f).queues = replaceFirst (fun x => x.part == p && x.slot == k) f s.queues := rfl
@[simp] theorem modQueue_queueGens (s : State) (p k : Nat) (f : Queue → Queue) : (s.modQueue p k f).queueGens = s.queueGens := rfl
@[simp] theorem modQueue_cores (s : State) (p k : Nat) (f : Queue → Queue) : (s.modQueue p k f).cores = s.cores := rfl
@[simp] theorem modQueue_gangs (s : State) (p k : Nat) (f : Queue → Queue) : (s.modQueue p k f).gangs = s.gangs := rfl
@[simp] theorem modQueue_cmds (s : State) (p k : Nat) (f : Queue → Queue) : (s.modQueue p k f).cmds = s.cmds := rfl
@[simp] theorem modQueue_lodeRot (s : State) (p k : Nat) (f : Queue → Queue) : (s.modQueue p k f).lodeRot = s.lodeRot := rfl
@[simp] theorem modQueue_lodeNodes (s : State) (p k : Nat) (f : Queue → Queue) : (s.modQueue p k f).lodeNodes = s.lodeNodes := rfl
@[simp] theorem modQueue_launches (s : State) (p k : Nat) (f : Queue → Queue) : (s.modQueue p k f).launches = s.launches := rfl
@[simp] theorem modQueue_graphs (s : State) (p k : Nat) (f : Queue → Queue) : (s.modQueue p k f).graphs = s.graphs := rfl
@[simp] theorem modQueue_phases (s : State) (p k : Nat) (f : Queue → Queue) : (s.modQueue p k f).phases = s.phases := rfl
@[simp] theorem modQueue_slices (s : State) (p k : Nat) (f : Queue → Queue) : (s.modQueue p k f).slices = s.slices := rfl
@[simp] theorem modQueue_jobs (s : State) (p k : Nat) (f : Queue → Queue) : (s.modQueue p k f).jobs = s.jobs := rfl
@[simp] theorem modQueue_springs (s : State) (p k : Nat) (f : Queue → Queue) : (s.modQueue p k f).springs = s.springs := rfl
@[simp] theorem modQueue_sluiceStacks (s : State) (p k : Nat) (f : Queue → Queue) : (s.modQueue p k f).sluiceStacks = s.sluiceStacks := rfl
@[simp] theorem modQueue_link (s : State) (p k : Nat) (f : Queue → Queue) : (s.modQueue p k f).link = s.link := rfl
@[simp] theorem modQueue_mgmt (s : State) (p k : Nat) (f : Queue → Queue) : (s.modQueue p k f).mgmt = s.mgmt := rfl
@[simp] theorem modQueue_msix (s : State) (p k : Nat) (f : Queue → Queue) : (s.modQueue p k f).msix = s.msix := rfl

/-! ## `modCmd` -/
@[simp] theorem modCmd_mem (s : State) (i : Nat) (f : EngCmd → EngCmd) : (s.modCmd i f).mem = s.mem := rfl
@[simp] theorem modCmd_poison (s : State) (i : Nat) (f : EngCmd → EngCmd) : (s.modCmd i f).poison = s.poison := rfl
@[simp] theorem modCmd_written (s : State) (i : Nat) (f : EngCmd → EngCmd) : (s.modCmd i f).written = s.written := rfl
@[simp] theorem modCmd_cycle (s : State) (i : Nat) (f : EngCmd → EngCmd) : (s.modCmd i f).cycle = s.cycle := rfl
@[simp] theorem modCmd_agenda (s : State) (i : Nat) (f : EngCmd → EngCmd) : (s.modCmd i f).agenda = s.agenda := rfl
@[simp] theorem modCmd_freeCtr (s : State) (i : Nat) (f : EngCmd → EngCmd) : (s.modCmd i f).freeCtr = s.freeCtr := rfl
@[simp] theorem modCmd_cur (s : State) (i : Nat) (f : EngCmd → EngCmd) : (s.modCmd i f).cur = s.cur := rfl
@[simp] theorem modCmd_nextId (s : State) (i : Nat) (f : EngCmd → EngCmd) : (s.modCmd i f).nextId = s.nextId := rfl
@[simp] theorem modCmd_fns (s : State) (i : Nat) (f : EngCmd → EngCmd) : (s.modCmd i f).fns = s.fns := rfl
@[simp] theorem modCmd_parts (s : State) (i : Nat) (f : EngCmd → EngCmd) : (s.modCmd i f).parts = s.parts := rfl
@[simp] theorem modCmd_ponds (s : State) (i : Nat) (f : EngCmd → EngCmd) : (s.modCmd i f).ponds = s.ponds := rfl
@[simp] theorem modCmd_pondGens (s : State) (i : Nat) (f : EngCmd → EngCmd) : (s.modCmd i f).pondGens = s.pondGens := rfl
@[simp] theorem modCmd_queues (s : State) (i : Nat) (f : EngCmd → EngCmd) : (s.modCmd i f).queues = s.queues := rfl
@[simp] theorem modCmd_queueGens (s : State) (i : Nat) (f : EngCmd → EngCmd) : (s.modCmd i f).queueGens = s.queueGens := rfl
@[simp] theorem modCmd_cores (s : State) (i : Nat) (f : EngCmd → EngCmd) : (s.modCmd i f).cores = s.cores := rfl
@[simp] theorem modCmd_gangs (s : State) (i : Nat) (f : EngCmd → EngCmd) : (s.modCmd i f).gangs = s.gangs := rfl
@[simp] theorem modCmd_cmds (s : State) (i : Nat) (f : EngCmd → EngCmd) : (s.modCmd i f).cmds = replaceFirst (fun x => x.id == i) f s.cmds := rfl
@[simp] theorem modCmd_lodeRot (s : State) (i : Nat) (f : EngCmd → EngCmd) : (s.modCmd i f).lodeRot = s.lodeRot := rfl
@[simp] theorem modCmd_lodeNodes (s : State) (i : Nat) (f : EngCmd → EngCmd) : (s.modCmd i f).lodeNodes = s.lodeNodes := rfl
@[simp] theorem modCmd_launches (s : State) (i : Nat) (f : EngCmd → EngCmd) : (s.modCmd i f).launches = s.launches := rfl
@[simp] theorem modCmd_graphs (s : State) (i : Nat) (f : EngCmd → EngCmd) : (s.modCmd i f).graphs = s.graphs := rfl
@[simp] theorem modCmd_phases (s : State) (i : Nat) (f : EngCmd → EngCmd) : (s.modCmd i f).phases = s.phases := rfl
@[simp] theorem modCmd_slices (s : State) (i : Nat) (f : EngCmd → EngCmd) : (s.modCmd i f).slices = s.slices := rfl
@[simp] theorem modCmd_jobs (s : State) (i : Nat) (f : EngCmd → EngCmd) : (s.modCmd i f).jobs = s.jobs := rfl
@[simp] theorem modCmd_springs (s : State) (i : Nat) (f : EngCmd → EngCmd) : (s.modCmd i f).springs = s.springs := rfl
@[simp] theorem modCmd_sluiceStacks (s : State) (i : Nat) (f : EngCmd → EngCmd) : (s.modCmd i f).sluiceStacks = s.sluiceStacks := rfl
@[simp] theorem modCmd_link (s : State) (i : Nat) (f : EngCmd → EngCmd) : (s.modCmd i f).link = s.link := rfl
@[simp] theorem modCmd_mgmt (s : State) (i : Nat) (f : EngCmd → EngCmd) : (s.modCmd i f).mgmt = s.mgmt := rfl
@[simp] theorem modCmd_msix (s : State) (i : Nat) (f : EngCmd → EngCmd) : (s.modCmd i f).msix = s.msix := rfl

/-! ## `signal` -/
@[simp] theorem signal_mem (s : State) (f v : Nat) : (s.signal f v).mem = s.mem := rfl
@[simp] theorem signal_poison (s : State) (f v : Nat) : (s.signal f v).poison = s.poison := rfl
@[simp] theorem signal_written (s : State) (f v : Nat) : (s.signal f v).written = s.written := rfl
@[simp] theorem signal_cycle (s : State) (f v : Nat) : (s.signal f v).cycle = s.cycle := rfl
@[simp] theorem signal_agenda (s : State) (f v : Nat) : (s.signal f v).agenda = s.agenda := rfl
@[simp] theorem signal_freeCtr (s : State) (f v : Nat) : (s.signal f v).freeCtr = s.freeCtr := rfl
@[simp] theorem signal_cur (s : State) (f v : Nat) : (s.signal f v).cur = s.cur := rfl
@[simp] theorem signal_nextId (s : State) (f v : Nat) : (s.signal f v).nextId = s.nextId := rfl
@[simp] theorem signal_fns (s : State) (f v : Nat) : (s.signal f v).fns = s.fns := rfl
@[simp] theorem signal_parts (s : State) (f v : Nat) : (s.signal f v).parts = s.parts := rfl
@[simp] theorem signal_ponds (s : State) (f v : Nat) : (s.signal f v).ponds = s.ponds := rfl
@[simp] theorem signal_pondGens (s : State) (f v : Nat) : (s.signal f v).pondGens = s.pondGens := rfl
@[simp] theorem signal_queues (s : State) (f v : Nat) : (s.signal f v).queues = s.queues := rfl
@[simp] theorem signal_queueGens (s : State) (f v : Nat) : (s.signal f v).queueGens = s.queueGens := rfl
@[simp] theorem signal_cores (s : State) (f v : Nat) : (s.signal f v).cores = s.cores := rfl
@[simp] theorem signal_gangs (s : State) (f v : Nat) : (s.signal f v).gangs = s.gangs := rfl
@[simp] theorem signal_cmds (s : State) (f v : Nat) : (s.signal f v).cmds = s.cmds := rfl
@[simp] theorem signal_lodeRot (s : State) (f v : Nat) : (s.signal f v).lodeRot = s.lodeRot := rfl
@[simp] theorem signal_lodeNodes (s : State) (f v : Nat) : (s.signal f v).lodeNodes = s.lodeNodes := rfl
@[simp] theorem signal_launches (s : State) (f v : Nat) : (s.signal f v).launches = s.launches := rfl
@[simp] theorem signal_graphs (s : State) (f v : Nat) : (s.signal f v).graphs = s.graphs := rfl
@[simp] theorem signal_phases (s : State) (f v : Nat) : (s.signal f v).phases = s.phases := rfl
@[simp] theorem signal_slices (s : State) (f v : Nat) : (s.signal f v).slices = s.slices := rfl
@[simp] theorem signal_jobs (s : State) (f v : Nat) : (s.signal f v).jobs = s.jobs := rfl
@[simp] theorem signal_springs (s : State) (f v : Nat) : (s.signal f v).springs = s.springs := rfl
@[simp] theorem signal_sluiceStacks (s : State) (f v : Nat) : (s.signal f v).sluiceStacks = s.sluiceStacks := rfl
@[simp] theorem signal_link (s : State) (f v : Nat) : (s.signal f v).link = s.link := rfl
@[simp] theorem signal_mgmt (s : State) (f v : Nat) : (s.signal f v).mgmt = s.mgmt := rfl
@[simp] theorem signal_msix (s : State) (f v : Nat) : (s.signal f v).msix = (f, v) :: s.msix := rfl

/-! ## `fresh` -/
@[simp] theorem fresh_mem (s : State) : s.fresh.2.mem = s.mem := rfl
@[simp] theorem fresh_poison (s : State) : s.fresh.2.poison = s.poison := rfl
@[simp] theorem fresh_written (s : State) : s.fresh.2.written = s.written := rfl
@[simp] theorem fresh_cycle (s : State) : s.fresh.2.cycle = s.cycle := rfl
@[simp] theorem fresh_agenda (s : State) : s.fresh.2.agenda = s.agenda := rfl
@[simp] theorem fresh_freeCtr (s : State) : s.fresh.2.freeCtr = s.freeCtr := rfl
@[simp] theorem fresh_cur (s : State) : s.fresh.2.cur = s.cur := rfl
@[simp] theorem fresh_nextId (s : State) : s.fresh.2.nextId = s.nextId + 1 := rfl
@[simp] theorem fresh_fns (s : State) : s.fresh.2.fns = s.fns := rfl
@[simp] theorem fresh_parts (s : State) : s.fresh.2.parts = s.parts := rfl
@[simp] theorem fresh_ponds (s : State) : s.fresh.2.ponds = s.ponds := rfl
@[simp] theorem fresh_pondGens (s : State) : s.fresh.2.pondGens = s.pondGens := rfl
@[simp] theorem fresh_queues (s : State) : s.fresh.2.queues = s.queues := rfl
@[simp] theorem fresh_queueGens (s : State) : s.fresh.2.queueGens = s.queueGens := rfl
@[simp] theorem fresh_cores (s : State) : s.fresh.2.cores = s.cores := rfl
@[simp] theorem fresh_gangs (s : State) : s.fresh.2.gangs = s.gangs := rfl
@[simp] theorem fresh_cmds (s : State) : s.fresh.2.cmds = s.cmds := rfl
@[simp] theorem fresh_lodeRot (s : State) : s.fresh.2.lodeRot = s.lodeRot := rfl
@[simp] theorem fresh_lodeNodes (s : State) : s.fresh.2.lodeNodes = s.lodeNodes := rfl
@[simp] theorem fresh_launches (s : State) : s.fresh.2.launches = s.launches := rfl
@[simp] theorem fresh_graphs (s : State) : s.fresh.2.graphs = s.graphs := rfl
@[simp] theorem fresh_phases (s : State) : s.fresh.2.phases = s.phases := rfl
@[simp] theorem fresh_slices (s : State) : s.fresh.2.slices = s.slices := rfl
@[simp] theorem fresh_jobs (s : State) : s.fresh.2.jobs = s.jobs := rfl
@[simp] theorem fresh_springs (s : State) : s.fresh.2.springs = s.springs := rfl
@[simp] theorem fresh_sluiceStacks (s : State) : s.fresh.2.sluiceStacks = s.sluiceStacks := rfl
@[simp] theorem fresh_link (s : State) : s.fresh.2.link = s.link := rfl
@[simp] theorem fresh_mgmt (s : State) : s.fresh.2.mgmt = s.mgmt := rfl
@[simp] theorem fresh_msix (s : State) : s.fresh.2.msix = s.msix := rfl
@[simp] theorem fresh_fst (s : State) : s.fresh.1 = s.nextId := rfl

end Sys2Proof.Machine
end

