-- ==== Sys2Proof/Laws/Lookup.lean ====
section
/-! SUPPORT. Laws/Lookup.lean: finding a numbered part after one has been replaced, masks of lanes, and what `Crew.release`
does. -/

namespace Sys2Proof.Machine

/-! ## Lists of numbered parts -/

theorem find_replaceFirst_self {α : Type} (p : α → Bool) (f : α → α) (l : List α) (h : ∀ a, p a = true → p (f a) = true) :
    (replaceFirst p f l).find? p = (l.find? p).map f := by
  induction l with
  | nil => rfl
  | cons a l ih =>
    by_cases ha : p a
    · simp [replaceFirst, ha, h a ha]
    · simp [replaceFirst, ha, ih]

theorem replaceFirst_congr {α : Type} (p : α → Bool) (f g : α → α) (l : List α) (a : α) (ha : l.find? p = some a)
    (h : f a = g a) : replaceFirst p f l = replaceFirst p g l := by
  induction l with
  | nil => rfl
  | cons b l ih =>
    by_cases hb : p b
    · simp only [List.find?_cons_of_pos hb, Option.some.injEq] at ha
      subst ha
      simp [replaceFirst, hb, h]
    · rw [List.find?_cons_of_neg hb] at ha
      simp [replaceFirst, hb, ih ha]

theorem replaceFirst_twice {α : Type} (p : α → Bool) (f g : α → α) (l : List α) (h : ∀ a, p a = true → p (f a) = true) :
    replaceFirst p g (replaceFirst p f l) = replaceFirst p (fun a => g (f a)) l := by
  induction l with
  | nil => rfl
  | cons a l ih =>
    by_cases ha : p a
    · simp [replaceFirst, ha, h a ha]
    · simp [replaceFirst, ha, ih]

/-- The crew that a crew update leaves, when the update keeps its number. -/
theorem crew_modCrew_self (s : State) (gid ci : Nat) (f : Crew → Crew) (hf : ∀ c, (f c).index = c.index) :
    (s.modCrew gid ci f).crew? gid ci = (s.crew? gid ci).map f := by
  simp only [State.crew?, State.gang?, modCrew_gangs]
  have e := find_replaceFirst_self (fun g : Gang => g.id == gid) (fun x => x.modCrew ci f) s.gangs (fun g hg => hg)
  rw [e]
  cases h : s.gangs.find? fun g => g.id == gid with
  | none => rfl
  | some g =>
    simp only [Option.map_some, Option.bind_some, Gang.crew?, Gang.modCrew]
    exact find_replaceFirst_self _ _ _ (fun c hc => by simpa [hf c] using hc)

/-- A crew update depends on what it makes of that crew alone. -/
theorem modCrew_congr (s : State) (gid ci : Nat) (f g : Crew → Crew) (c : Crew) (hc : s.crew? gid ci = some c) (h : f c = g c) :
    s.modCrew gid ci f = s.modCrew gid ci g := by
  simp only [State.crew?, State.gang?, Option.bind_eq_some_iff] at hc
  obtain ⟨gg, hg, hc⟩ := hc
  simp only [State.modCrew, State.modGang]
  rw [replaceFirst_congr _ _ _ _ gg hg]
  simp only [Gang.modCrew]
  rw [replaceFirst_congr _ f g _ c hc h]

/-- Two updates of one crew are one. -/
theorem modCrew_twice (s : State) (gid ci : Nat) (f g : Crew → Crew) (hf : ∀ c, (f c).index = c.index) :
    (s.modCrew gid ci f).modCrew gid ci g = s.modCrew gid ci fun c => g (f c) := by
  simp only [State.modCrew, State.modGang]
  have e := replaceFirst_twice (fun g : Gang => g.id == gid) (fun x => x.modCrew ci f) (fun x => x.modCrew ci g) s.gangs
    (fun g hg => hg)
  rw [e]
  congr 2
  funext x
  simp only [Gang.modCrew]
  rw [replaceFirst_twice _ _ _ _ (fun a ha => by simpa [hf a] using ha)]

/-! ## Masks of lanes -/

theorem foldl_pow (p : Nat → Bool) (n acc : Nat) : (List.range n).foldl (fun acc i => if p i then acc + 2 ^ i else acc) acc =
    acc + (List.range n).foldl (fun acc i => if p i then acc + 2 ^ i else acc) 0 := by
  induction n with
  | zero => simp
  | succ n ih =>
    rw [List.range_succ, List.foldl_append, List.foldl_append, ih]
    simp only [List.foldl_cons, List.foldl_nil]
    split <;> omega

theorem maskSum_lt (p : Nat → Bool) (n : Nat) : (List.range n).foldl (fun acc i => if p i then acc + 2 ^ i else acc) 0 < 2 ^ n := by
  induction n with
  | zero => simp
  | succ n ih =>
    rw [List.range_succ, List.foldl_append]
    simp only [List.foldl_cons, List.foldl_nil]
    have : 2 ^ (n + 1) = 2 ^ n + 2 ^ n := by omega
    split <;> omega

theorem maskSum_bit (p : Nat → Bool) (n i : Nat) (h : i < n) :
    ((List.range n).foldl (fun acc i => if p i then acc + 2 ^ i else acc) 0).testBit i = p i := by
  induction n with
  | zero => omega
  | succ n ih =>
    rw [List.range_succ, List.foldl_append]
    simp only [List.foldl_cons, List.foldl_nil]
    have lt := maskSum_lt p n
    by_cases hi : i = n
    · subst hi
      by_cases hp : p i
      · rw [if_pos hp, Nat.add_comm, Nat.testBit_two_pow_add_eq, Nat.testBit_lt_two_pow lt]; simp [hp]
      · rw [if_neg hp, Nat.testBit_lt_two_pow lt]; simp [hp]
    · have hin : i < n := by omega
      split
      · rw [Nat.add_comm, Nat.testBit_two_pow_add_gt hin, ih hin]
      · exact ih hin

/-- Bit `i` of a mask made lane by lane. -/
theorem maskOf_bit (p : Nat → Bool) (i : Nat) (h : i < 32) : (maskOf p).getLsbD i = p i := by
  have lt := maskSum_lt p 32
  simp only [maskOf, BitVec.getLsbD, BitVec.toNat_ofNat, Nat.mod_eq_of_lt lt]
  exact maskSum_bit p 32 i h

theorem maskOf_high (p : Nat → Bool) (i : Nat) (h : 32 ≤ i) : (maskOf p).getLsbD i = false := BitVec.getLsbD_of_ge _ _ h

/-- A mask lies within another when each of its lanes does. -/
theorem subMask_iff (a b : Mask) : subMask a b = true ↔ ∀ i < 32, a.getLsbD i = true → b.getLsbD i = true := by
  simp only [subMask, beq_iff_eq]
  constructor
  · intro h i hi ha
    have := congrArg (fun m : Mask => m.getLsbD i) h
    simp only [BitVec.getLsbD_and, ha, BitVec.getLsbD_not, hi, decide_true, Bool.true_and] at this
    simpa using this
  · intro h
    apply BitVec.eq_of_getLsbD_eq
    intro i hi
    by_cases ha : a.getLsbD i
    · simp [ha, h i hi ha, hi]
    · simp [ha]

theorem live_bit (c : Crew) (i : Nat) (h : i < 32) : c.live.getLsbD i = ((c.lane i).st != .exited) := by
  rw [Crew.live, maskOf_bit _ _ h]; rfl

/-! ## Lanes of a crew -/

theorem lane_modLanes (c : Crew) (m : Mask) (f : PcEntry → PcEntry) (i : Nat) (h : i < c.pcs.length) :
    (c.modLanes m f).lane i = if m.getLsbD i then f (c.lane i) else c.lane i := by
  simp only [Crew.modLanes, Crew.lane, List.getD_eq_getElem?_getD, List.getElem?_mapIdx, List.getElem?_eq_getElem h, Option.map_some,
    Option.getD_some]

@[simp] theorem modLanes_length (c : Crew) (m : Mask) (f : PcEntry → PcEntry) : (c.modLanes m f).pcs.length = c.pcs.length := by
  simp [Crew.modLanes]

theorem lane_release (c : Crew) (m : Mask) (f : Dword → Dword) (i : Nat) (h : i < c.pcs.length) (h' : i < 32) :
    (c.release m f).lane i =
      if m.getLsbD i ∧ (c.lane i).st ≠ .exited then ⟨f (c.lane i).pc, .ready, 0⟩ else c.lane i := by
  have e : (c.release m f).lane i = (c.modLanes (m &&& c.live) fun e => { e with pc := f e.pc, st := .ready, age := 0 }).lane i := rfl
  rw [e, lane_modLanes _ _ _ _ h, BitVec.getLsbD_and, live_bit c i h']
  by_cases hm : m.getLsbD i <;> by_cases hs : (c.lane i).st = .exited <;> simp [hm, hs]

@[simp] theorem release_length (c : Crew) (m : Mask) (f : Dword → Dword) : (c.release m f).pcs.length = c.pcs.length := by
  simp [Crew.release]

/-- `release` changes the entries, TIED and the lanes at a CWAIT alone. -/
theorem release_frame (c : Crew) (m : Mask) (f : Dword → Dword) :
    c.release m f = { c with pcs := (c.release m f).pcs, tied := c.tied &&& ~~~m, cwaits := c.cwaits &&& ~~~m } := rfl

section
variable (c : Crew) (m : Mask) (f : Dword → Dword)

@[simp] theorem release_index : (c.release m f).index = c.index := rfl
@[simp] theorem release_slot : (c.release m f).slot = c.slot := rfl
@[simp] theorem release_ended : (c.release m f).ended = c.ended := rfl
@[simp] theorem release_regs16 : (c.release m f).regs16 = c.regs16 := rfl
@[simp] theorem release_wbase : (c.release m f).wbase = c.wbase := rfl
@[simp] theorem release_regs : (c.release m f).regs = c.regs := rfl
@[simp] theorem release_m : (c.release m f).m = c.m := rfl
@[simp] theorem release_j : (c.release m f).j = c.j := rfl
@[simp] theorem release_k : (c.release m f).k = c.k := rfl
@[simp] theorem release_fifo : (c.release m f).fifo = c.fifo := rfl
@[simp] theorem release_lhist : (c.release m f).lhist = c.lhist := rfl
@[simp] theorem release_chain : (c.release m f).chain = c.chain := rfl
@[simp] theorem release_trap : (c.release m f).trap = c.trap := rfl
@[simp] theorem release_bounds : (c.release m f).bounds = c.bounds := rfl
@[simp] theorem release_qregs : (c.release m f).qregs = c.qregs := rfl
@[simp] theorem release_task : (c.release m f).task = c.task := rfl
@[simp] theorem release_tape : (c.release m f).tape = c.tape := rfl

end

end Sys2Proof.Machine
end

