-- ==== Sys2Proof/Laws/Issue.lean ====
section
/-! SUPPORT. Laws/Issue.lean: how an instruction word that a group issues completes, waits or traps, once for all of them. -/

namespace Sys2Proof.Machine

/-- An issued instruction that no earlier check stops ends as its own body says. -/
theorem issue_of_issues (x : Ctx) (i : Instr) (body : Ctx → Res) (h : x.Issues i) : issue i x.st body = finish i x (body x) := by
  obtain ⟨⟨hc, -⟩, hb⟩ := h
  have e : (⟨x.st, x.gid, x.ci, x.lanes, x.pc⟩ : Ctx) = x := rfl
  simp only [issue, hc, e, hb]

/-- An update of the issuing crew is one that puts a crew in its place. -/
theorem upd_eq (x : Ctx) (f : Crew → Crew) (h : x.Group) : x.upd f = x.st.modCrew x.gid x.ci fun _ => f x.c :=
  modCrew_congr _ _ _ _ _ x.c h.2.1 rfl

/-! ## What an instruction's completion does to its crew -/

/-- The entries that can still be popped, once the first `n` are gone. -/
theorem dropFirst_chute (l : List (ChuteEntry × Mask)) : ∀ n,
    (dropFirst n l).filterMap (fun e => if e.2 = 0 then some e.1 else none) =
      (l.filterMap fun e => if e.2 = 0 then some e.1 else none).drop n := by
  induction l with
  | nil => intro n; cases n <;> simp [dropFirst]
  | cons e l ih =>
    intro n
    cases n with
    | zero => simp [dropFirst]
    | succ n =>
      by_cases h : e.2 = 0
      · simpa [dropFirst, h] using ih n
      · have g : (if e.2 = 0 then some e.1 else none) = none := if_neg h
        rw [dropFirst, if_neg h]
        simp only [List.filterMap_cons, g]
        exact ih (n + 1)

/-- A completed instruction takes its pops from the front of the chute, when its lanes have taken none before. -/
theorem spend_chute (c : Crew) (n : Nat) (m : Mask) (h : c.hasTaken m = false) : (c.spend n m).chute = c.chute.drop n := by
  simp only [Crew.chute, Crew.spend, h, Bool.false_eq_true, if_false]
  exact dropFirst_chute c.fifo n

theorem pop_chute (c : Crew) (i : Instr) (m : Mask) (h : c.hasTaken m = false) : (c.pop i m).chute = c.chute.drop (popsOf i) := by
  unfold Crew.pop
  split
  · rename_i e; rw [e, List.drop_zero]
  · exact spend_chute c _ m h

theorem pop_frame (c : Crew) (i : Instr) (m : Mask) : c.pop i m = { c with fifo := (c.pop i m).fifo } := by
  unfold Crew.pop; split <;> rfl

/-- `Crew.complete` changes the chute, LHIST and the chain alone. -/
theorem complete_frame (c : Crew) (i : Instr) (l : Mask) (pc : Dword) (v : Option LatchVal) :
    c.complete i l pc v = { c with
      fifo := (c.pop i l).fifo, lhist := (c.complete i l pc v).lhist, chain := (c.complete i l pc v).chain } := by
  unfold Crew.complete
  rw [pop_frame]
  split <;> rfl

/-- What `Crew.complete` makes of LHIST and of the chain. -/
theorem complete_eq (x : Ctx) (i : Instr) (c : Crew) (latch : Option LatchVal) (hc : c.lhist = x.c.lhist) (hh : c.chain = x.c.chain) :
    c.complete i x.lanes x.pc latch = { c with
      fifo := (c.pop i x.lanes).fifo
      lhist := (x.history i (latch.getD ⟨.uni 0, .uni 0, .n32⟩)).1
      chain := (x.history i (latch.getD ⟨.uni 0, .uni 0, .n32⟩)).2 } := by
  have hc' : (c.pop i x.lanes).lhist = x.c.lhist := by rw [pop_frame]; exact hc
  have hh' : (c.pop i x.lanes).chain = x.c.chain := by rw [pop_frame]; exact hh
  simp only [Crew.complete, Ctx.history, hc', hh']
  rw [pop_frame]
  cases nwD i with
  | none => rw [← hc, ← hh]
  | some p =>
    obtain ⟨b, d⟩ := p
    cases b
    · rfl
    · cases x.c.chain <;> rfl

section
variable (c : Crew) (i : Instr) (l : Mask) (pc : Dword) (v : Option LatchVal)

@[simp] theorem complete_pcs : (c.complete i l pc v).pcs = c.pcs := by rw [complete_frame]
@[simp] theorem complete_regs : (c.complete i l pc v).regs = c.regs := by rw [complete_frame]
@[simp] theorem complete_m : (c.complete i l pc v).m = c.m := by rw [complete_frame]
@[simp] theorem complete_k : (c.complete i l pc v).k = c.k := by rw [complete_frame]
@[simp] theorem complete_wbase : (c.complete i l pc v).wbase = c.wbase := by rw [complete_frame]
@[simp] theorem complete_index : (c.complete i l pc v).index = c.index := by rw [complete_frame]
@[simp] theorem complete_tied : (c.complete i l pc v).tied = c.tied := by rw [complete_frame]
@[simp] theorem complete_cwaits : (c.complete i l pc v).cwaits = c.cwaits := by rw [complete_frame]
@[simp] theorem complete_bounds : (c.complete i l pc v).bounds = c.bounds := by rw [complete_frame]

end

/-- An instruction whose body makes `s` of the rest of the machine, writes registers of its crew and goes on completes. -/
theorem completesIn_of (x : Ctx) (i : Instr) (body : Ctx → Res) (s : State) (f : Crew → Crew) (latch : Option LatchVal)
    (hx : x.Issues i) (he : exec i x.st = issue i x.st body) (hsc : s.crew? x.gid x.ci = some x.c)
    (hb : body x = .next (s.modCrew x.gid x.ci f) latch) (hidx : ∀ c, (f c).index = c.index)
    (hf : f x.c = { x.c with regs := (f x.c).regs, m := (f x.c).m, k := (f x.c).k })
    (hs : (f x.c).regs.length = x.c.regs.length ∧ (f x.c).m.length = x.c.m.length ∧ (f x.c).k.length = x.c.k.length) :
    x.CompletesIn i (latch.getD ⟨.uni 0, .uni 0, .n32⟩) s (((f x.c).complete i x.lanes x.pc latch).release x.lanes nextPc) := by
  obtain ⟨⟨hcur, hcrew, hshape, hne, hlane⟩, hbef⟩ := hx
  have hx : x.Issues i := ⟨⟨hcur, hcrew, hshape, hne, hlane⟩, hbef⟩
  obtain ⟨hr, hp, hm, hj, hk, hbp, hbd⟩ := hshape
  have hl : (f x.c).lhist = x.c.lhist := by rw [hf]
  have hh : (f x.c).chain = x.c.chain := by rw [hf]
  have hpcs : (f x.c).pcs = x.c.pcs := by rw [hf]
  have same : ((f x.c).pop i x.lanes).fifo = (x.c.pop i x.lanes).fifo := by rw [hf]; unfold Crew.pop; split <;> rfl
  have ce := complete_eq x i (f x.c) latch hl hh
  refine ⟨?_, ?_, ?_, ?_, ?_⟩
  · rw [he, issue_of_issues x i body hx, hb]
    simp only [finish]
    rw [modCrew_twice _ _ _ _ _ hidx]
    rw [modCrew_congr s x.gid x.ci (fun c => ((f c).complete i x.lanes x.pc latch).release x.lanes nextPc)
      (fun _ => ((f x.c).complete i x.lanes x.pc latch).release x.lanes nextPc) x.c hsc rfl]
  · intro j hj'
    rw [ce, lane_release _ _ _ _ (by simpa [hpcs] using (by omega : j < x.c.pcs.length)) hj']
    have e : (Crew.lane { f x.c with
        fifo := ((f x.c).pop i x.lanes).fifo
        lhist := (x.history i (latch.getD ⟨.uni 0, .uni 0, .n32⟩)).1
        chain := (x.history i (latch.getD ⟨.uni 0, .uni 0, .n32⟩)).2 } j) = x.c.lane j := by
      simp only [Crew.lane, hpcs]
    rw [e]
    by_cases hb' : x.lanes.getLsbD j
    · obtain ⟨h1, h2⟩ := hlane j hj' hb'
      simp [hb', h1, h2]
    · simp [hb']
  · rw [ce]
    conv => lhs; rw [release_frame]
    rw [same, hf]
    rfl
  · intro hno
    have e := pop_chute x.c i x.lanes hno
    rw [← e, ce]
    simp only [Crew.chute, release_fifo, same]
  · rw [ce]
    refine ⟨?_, ?_, ?_, ?_, ?_, ?_, ?_⟩
    · simp only [release_regs]; rw [hs.1, hr, hf]; rfl
    · simpa [hpcs] using hp
    · simp only [release_m]; rw [hs.2.1, hm]
    · rw [hf]; exact hj
    · simp only [release_k]; rw [hs.2.2, hk]
    · rw [hf]; exact hbp
    · rw [hf]; exact hbd

/-- The same where nothing but the crew changes. -/
theorem completes_of (x : Ctx) (i : Instr) (body : Ctx → Res) (f : Crew → Crew) (latch : Option LatchVal)
    (hx : x.Issues i) (he : exec i x.st = issue i x.st body) (hb : body x = .next (x.upd f) latch)
    (hidx : ∀ c, (f c).index = c.index) (hf : f x.c = { x.c with regs := (f x.c).regs, m := (f x.c).m, k := (f x.c).k })
    (hs : (f x.c).regs.length = x.c.regs.length ∧ (f x.c).m.length = x.c.m.length ∧ (f x.c).k.length = x.c.k.length) :
    x.Completes i (latch.getD ⟨.uni 0, .uni 0, .n32⟩) (((f x.c).complete i x.lanes x.pc latch).release x.lanes nextPc) :=
  completesIn_of x i body x.st f latch hx he hx.1.2.1 hb hidx hf hs

/-- An instruction whose body goes on with its own crew included in what it makes of the machine. -/
theorem endsIn_of (x : Ctx) (i : Instr) (body : Ctx → Res) (s : State) (hx : x.Issues i) (he : exec i x.st = issue i x.st body)
    (hb : body x = .next s none) : x.EndsIn i s := by
  unfold Ctx.EndsIn
  rw [he, issue_of_issues x i body hx, hb]
  rfl

/-- A group waits at its instruction. -/
theorem waitsIn_of (x : Ctx) (i : Instr) (body : Ctx → Res) (s : State) (f : Crew → Crew) (why : Why) (tied : Bool) (hx : x.Issues i)
    (he : exec i x.st = issue i x.st body) (hsc : s.crew? x.gid x.ci = some x.c) (hb : body x = .wait (s.modCrew x.gid x.ci f) why tied)
    (hidx : ∀ c, (f c).index = c.index) (hp : (f x.c).pcs = x.c.pcs) : x.WaitsIn i s (f x.c) why tied := by
  refine ⟨(if tied then (f x.c).tie i x.lanes else f x.c).stall x.lanes (.wait why), ?_, ⟨?_, ?_⟩, ?_⟩
  · rw [he, issue_of_issues x i body hx, hb]
    simp only [finish]
    rw [modCrew_twice _ _ _ _ _ hidx]
    exact congrArg (fun s => Host.Outcome.next (afterIssue (settle s x.gid) x.gid)) (modCrew_congr _ _ _ _ _ x.c hsc rfl)
  · cases tied <;> simp [Crew.stall, Crew.tie, Crew.takePops, hp]
  · intro j hj
    have e := lane_modLanes (f x.c) x.lanes (fun e => { e with st := LaneState.wait why, age := 0 }) j (by rw [hp, hx.1.2.2.1.2.1]; exact hj)
    have same : (f x.c).lane j = x.c.lane j := by simp only [Crew.lane, hp]
    rw [same] at e
    cases tied <;> exact e
  · cases tied <;> rfl

/-- An instruction that an earlier check stops ends as that check says. -/
theorem issue_of_before (x : Ctx) (i : Instr) (body : Ctx → Res) (r : Res) (h : x.Group) (hb : before i x = some r) :
    issue i x.st body = finish i x r := by
  obtain ⟨hc, -⟩ := h
  have e : (⟨x.st, x.gid, x.ci, x.lanes, x.pc⟩ : Ctx) = x := rfl
  simp only [issue, hc, e, hb]

/-- An instruction whose body traps enters the trap. -/
theorem issueTrap_of (x : Ctx) (i : Instr) (body : Ctx → Res) (cause : Nat) (eval : Dword) (h : x.Issues i)
    (he : exec i x.st = issue i x.st body) (hb : body x = .trap cause eval false) : exec i x.st = .next (issueTrap x cause eval) := by
  rw [he, issue_of_issues x i body h, hb]
  rfl

end Sys2Proof.Machine
end

