-- ==== Sys2Proof/Laws/Memory.lean ====
section
/-! SUPPORT. Laws/Memory.lean: every operation over memory keeps its canonical form, and what a byte reads as after each. -/

namespace Sys2Proof.Machine

/-! ## The canonical form as a property of lists -/

/-- Keys rise and no entry is what an unlisted byte reads as. -/
theorem cellsWf_iff (u : Nat → Byte) (l : List Host.Cell) :
    cellsWf u l = true ↔ l.Pairwise (fun x y => x.1 < y.1) ∧ ∀ c ∈ l, c.2 ≠ u c.1 := by
  induction l with
  | nil => simp [cellsWf]
  | cons x xs ih =>
    obtain ⟨k, b⟩ := x
    cases xs with
    | nil => simp [cellsWf]
    | cons y ys =>
      obtain ⟨k', b'⟩ := y
      simp only [cellsWf, Bool.and_eq_true, ih, bne_iff_ne, decide_eq_true_eq]
      constructor
      · rintro ⟨⟨hb, hk⟩, hp, ha⟩
        refine ⟨List.pairwise_cons.2 ⟨?_, hp⟩, ?_⟩
        · intro z hz
          rcases List.mem_cons.1 hz with rfl | hz
          · exact hk
          · exact Nat.lt_trans hk ((List.pairwise_cons.1 hp).1 z hz)
        · intro c hc
          rcases List.mem_cons.1 hc with rfl | hc
          · exact hb
          · exact ha c hc
      · rintro ⟨hp, ha⟩
        have h := List.pairwise_cons.1 hp
        exact ⟨⟨ha _ List.mem_cons_self, h.1 _ List.mem_cons_self⟩, h.2, fun c hc => ha c (List.mem_cons_of_mem _ hc)⟩

theorem Memory.wf_iff (m : Memory) :
    m.wf = true ↔ m.cells.Pairwise (fun x y => x.1 < y.1) ∧ ∀ c ∈ m.cells, c.2 ≠ unlisted m.gen c.1 := cellsWf_iff _ m.cells

theorem listCells_key (u : Nat → Byte) (bs : List Byte) (a : Nat) : ∀ c ∈ listCells u a bs, a ≤ c.1 ∧ c.1 < a + bs.length := by
  induction bs generalizing a with
  | nil => simp [listCells]
  | cons b bs ih =>
    intro c hc
    have step : c ∈ listCells u (a + 1) bs → a ≤ c.1 ∧ c.1 < a + (b :: bs).length := by
      intro h; have := ih (a + 1) c h; simp only [List.length_cons]; omega
    simp only [listCells] at hc
    split at hc
    · exact step hc
    · rcases List.mem_cons.1 hc with rfl | hc
      · simp
      · exact step hc

theorem listCells_wf (u : Nat → Byte) (bs : List Byte) (a : Nat) :
    (listCells u a bs).Pairwise (fun x y => x.1 < y.1) ∧ ∀ c ∈ listCells u a bs, c.2 ≠ u c.1 := by
  induction bs generalizing a with
  | nil => simp [listCells]
  | cons b bs ih =>
    simp only [listCells]
    split
    · exact ih (a + 1)
    · rename_i hb
      refine ⟨List.pairwise_cons.2 ⟨?_, (ih (a + 1)).1⟩, ?_⟩
      · intro c hc; have := (listCells_key u bs (a + 1) c hc).1; omega
      · intro c hc
        rcases List.mem_cons.1 hc with rfl | hc
        · exact hb
        · exact (ih (a + 1)).2 c hc

theorem takeWhile_key (a : Nat) (l : List Host.Cell) : ∀ c ∈ l.takeWhile (fun c => c.1 < a), c.1 < a := by
  intro c hc
  induction l with
  | nil => simp at hc
  | cons x xs ih =>
    rw [List.takeWhile_cons] at hc
    split at hc
    · rename_i hx
      rcases List.mem_cons.1 hc with rfl | hc
      · exact of_decide_eq_true hx
      · exact ih hc
    · simp at hc

theorem dropWhile_key (a : Nat) (l : List Host.Cell) (h : l.Pairwise fun x y => x.1 < y.1) :
    ∀ c ∈ l.dropWhile (fun c => c.1 < a), a ≤ c.1 := by
  induction l with
  | nil => simp
  | cons x xs ih =>
    intro c hc
    rw [List.dropWhile_cons] at hc
    split at hc
    · exact ih (List.pairwise_cons.1 h).2 c hc
    · rename_i hx
      have hx : a ≤ x.1 := by simpa using hx
      rcases List.mem_cons.1 hc with rfl | hc
      · exact hx
      · exact Nat.le_trans hx (Nat.le_of_lt ((List.pairwise_cons.1 h).1 c hc))

/-- Three parts of rising keys make one. -/
theorem wf_three {l k r : List Host.Cell} {a b : Nat} (hab : a ≤ b)
    (hl : l.Pairwise fun x y => x.1 < y.1) (hk : k.Pairwise fun x y => x.1 < y.1) (hr : r.Pairwise fun x y => x.1 < y.1)
    (bl : ∀ c ∈ l, c.1 < a) (bk : ∀ c ∈ k, a ≤ c.1 ∧ c.1 < b) (br : ∀ c ∈ r, b ≤ c.1) :
    (l ++ k ++ r).Pairwise fun x y => x.1 < y.1 := by
  rw [List.pairwise_append, List.pairwise_append]
  refine ⟨⟨hl, hk, fun x hx y hy => ?_⟩, hr, fun x hx y hy => ?_⟩
  · have := bl x hx; have := bk y hy; omega
  · have := br y hy
    rcases List.mem_append.1 hx with hx | hx
    · have := bl x hx; omega
    · have := bk x hx; omega

/-! ## Every memory operation keeps the form -/

theorem Memory.setBytes_wf (m : Memory) (a : Nat) (bs : List Byte) (h : m.wf = true) : (m.setBytes a bs).wf = true := by
  rw [Memory.wf_iff] at h ⊢
  obtain ⟨hp, hv⟩ := h
  have sub1 : (m.cells.takeWhile fun c => c.1 < a).Sublist m.cells := List.takeWhile_sublist _
  have sub2 : (m.cells.dropWhile fun c => c.1 < a + bs.length).Sublist m.cells := List.dropWhile_sublist _
  refine ⟨wf_three (a := a) (b := a + bs.length) (by omega) (hp.sublist sub1) (listCells_wf _ bs a).1 (hp.sublist sub2)
    (takeWhile_key a _) (listCells_key _ bs a) (dropWhile_key _ _ hp), ?_⟩
  intro c hc
  simp only [Memory.setBytes, List.mem_append] at hc
  rcases hc with (hc | hc) | hc
  · exact hv c (sub1.subset hc)
  · exact (listCells_wf _ bs a).2 c hc
  · exact hv c (sub2.subset hc)

theorem Memory.setMasked_wf (m : Memory) (a n v mask : Nat) (h : m.wf = true) : (m.setMasked a n v mask).wf = true :=
  Memory.setBytes_wf _ _ _ h

theorem Memory.setBits_wf (m : Memory) (a n v : Nat) (h : m.wf = true) : (m.setBits a n v).wf = true :=
  Memory.setMasked_wf _ _ _ _ _ h

/-- Dropping entries keeps the form. -/
theorem Memory.filter_wf (m : Memory) (p : Host.Cell → Bool) (h : m.wf = true) : ({ m with cells := m.cells.filter p } : Memory).wf = true := by
  rw [Memory.wf_iff] at h ⊢
  exact ⟨h.1.sublist List.filter_sublist, fun c hc => h.2 c (List.filter_sublist.subset hc)⟩

theorem clearCells_wf (m : Memory) (a n : Nat) (h : m.wf = true) : (clearCells m a n).wf = true := by
  rw [Memory.wf_iff] at h ⊢
  obtain ⟨hp, hv⟩ := h
  have sub1 : (m.cells.takeWhile fun c => c.1 < a).Sublist m.cells := List.takeWhile_sublist _
  have sub2 : (m.cells.dropWhile fun c => c.1 < a + n).Sublist m.cells := List.dropWhile_sublist _
  refine ⟨?_, ?_⟩
  · have := wf_three (l := m.cells.takeWhile fun c => c.1 < a) (k := []) (r := m.cells.dropWhile fun c => c.1 < a + n)
      (a := a) (b := a + n) (by omega) (hp.sublist sub1) List.Pairwise.nil (hp.sublist sub2) (takeWhile_key a _) (by simp)
      (dropWhile_key _ _ hp)
    simpa [clearCells] using this
  · intro c hc
    simp only [clearCells, List.mem_append] at hc
    rcases hc with hc | hc
    · exact hv c (sub1.subset hc)
    · exact hv c (sub2.subset hc)

/-- A fold of operations that keep the form keeps it. -/
theorem foldl_wf {α : Type} (f : Memory → α → Memory) (hf : ∀ m x, m.wf = true → (f m x).wf = true) (l : List α) (m : Memory)
    (h : m.wf = true) : (l.foldl f m).wf = true := by
  induction l generalizing m with
  | nil => exact h
  | cons x xs ih => exact ih _ (hf m x h)

theorem putCells_wf (m : Memory) (a n : Nat) (cs : List (Nat × Byte)) (h : m.wf = true) : (putCells m a n cs).wf = true := by
  refine foldl_wf _ (fun m c hm => ?_) cs _ (clearCells_wf m a n h)
  split
  · exact Memory.setBytes_wf _ _ _ hm
  · exact hm

/-- A machine after reset lists nothing. -/
theorem reset_mem_wf : State.reset.mem.wf = true := rfl

/-! ## A mark of a store or of an error changes nothing else -/

@[simp] theorem noteStore_mem (s : State) (key n : Nat) : (noteStore s key n).mem = s.mem := rfl
@[simp] theorem noteStore_gangs (s : State) (key n : Nat) : (noteStore s key n).gangs = s.gangs := rfl
@[simp] theorem noteStore_cores (s : State) (key n : Nat) : (noteStore s key n).cores = s.cores := rfl
@[simp] theorem noteStore_fns (s : State) (key n : Nat) : (noteStore s key n).fns = s.fns := rfl
@[simp] theorem noteStore_written (s : State) (key n : Nat) : (noteStore s key n).written = (key, n) :: s.written := rfl
@[simp] theorem poisonWord_mem (s : State) (w : Nat) : (poisonWord s w).mem = s.mem := rfl
@[simp] theorem poisonWord_gangs (s : State) (w : Nat) : (poisonWord s w).gangs = s.gangs := rfl
@[simp] theorem poisonWord_cores (s : State) (w : Nat) : (poisonWord s w).cores = s.cores := rfl

/-- Marking words of a line leaves the storage alone. -/
theorem foldl_poisonWord_mem (f : Nat → Nat) (l : List Nat) (s : State) : (l.foldl (fun s i => poisonWord s (f i)) s).mem = s.mem := by
  induction l generalizing s with
  | nil => rfl
  | cons a l ih => exact ih _

/-- A line that leaves with words that cannot be corrected changes no storage. -/
@[simp] theorem keepBad_mem (s : State) (x : CacheLine) : (keepBad s x).mem = s.mem := by
  unfold keepBad
  split
  · rfl
  · exact foldl_poisonWord_mem _ _ s

/-! ## Reading bytes -/

/-- No entry of a list has the key. -/
theorem find_key_none {l : List Host.Cell} {k : Nat} (h : ∀ c ∈ l, c.1 ≠ k) : l.find? (fun c => c.1 == k) = none :=
  List.find?_eq_none.2 fun c hc => by simpa using h c hc

/-- Reading one byte finds the entry of its key. -/
theorem find_append_none {l r : List Host.Cell} {k : Nat} (h : ∀ c ∈ l, c.1 ≠ k) :
    (l ++ r).find? (fun c => c.1 == k) = r.find? fun c => c.1 == k := by
  rw [List.find?_append, find_key_none h]; rfl

theorem find_listCells (u : Nat → Byte) (bs : List Byte) (a k : Nat) :
    ((listCells u a bs).find? fun c => c.1 == k).map (·.2) =
      if a ≤ k ∧ k < a + bs.length ∧ bs.getD (k - a) (u k) ≠ u k then some (bs.getD (k - a) (u k)) else none := by
  induction bs generalizing a with
  | nil => simp [listCells]
  | cons b bs ih =>
    by_cases hk : k = a
    · subst hk
      by_cases hb : b = u k
      · simp only [listCells, if_pos hb, ih]
        rw [if_neg fun h => absurd h.1 (by omega), if_neg fun h => h.2.2 (by simp [hb])]
      · simp [listCells, hb]
    · have e : (b :: bs).getD (k - a) (u k) = if a < k then bs.getD (k - (a + 1)) (u k) else b := by
        by_cases h : a < k
        · rw [if_pos h, show k - a = (k - (a + 1)) + 1 by omega]; simp
        · rw [if_neg h, show k - a = 0 by omega]; simp
      have c : (a ≤ k ∧ k < a + (b :: bs).length ∧ (b :: bs).getD (k - a) (u k) ≠ u k) ↔
          (a + 1 ≤ k ∧ k < a + 1 + bs.length ∧ bs.getD (k - (a + 1)) (u k) ≠ u k) := by
        rw [e]; simp only [List.length_cons]
        constructor
        · rintro ⟨h1, h2, h3⟩
          rw [if_pos (by omega : a < k)] at h3
          exact ⟨by omega, by omega, h3⟩
        · rintro ⟨h1, h2, h3⟩
          rw [if_pos (by omega : a < k)]
          exact ⟨by omega, by omega, h3⟩
      have body : ((listCells u (a + 1) bs).find? fun c => c.1 == k).map (·.2) =
          if a ≤ k ∧ k < a + (b :: bs).length ∧ (b :: bs).getD (k - a) (u k) ≠ u k then
            some ((b :: bs).getD (k - a) (u k)) else none := by
        rw [ih]
        by_cases h : a + 1 ≤ k ∧ k < a + 1 + bs.length ∧ bs.getD (k - (a + 1)) (u k) ≠ u k
        · rw [if_pos h, if_pos (c.2 h), e, if_pos (by omega : a < k)]
        · rw [if_neg h, if_neg (fun h' => h (c.1 h'))]
      simp only [listCells]
      split
      · exact body
      · rw [List.find?_cons_of_neg (by simpa using fun h => hk h.symm)]
        exact body

/-- The byte at `k` after a store of `bs` at `a`. -/
theorem Memory.byte_setBytes (m : Memory) (a : Nat) (bs : List Byte) (k : Nat) (h : m.wf = true) :
    (m.setBytes a bs).byte k = if a ≤ k ∧ k < a + bs.length then bs.getD (k - a) (unlisted m.gen k) else m.byte k := by
  obtain ⟨hp, hv⟩ := (Memory.wf_iff m).1 h
  have split3 (l k' r : List Host.Cell) (hl : ∀ c ∈ l, c.1 < a) (hk' : ∀ c ∈ k', a ≤ c.1 ∧ c.1 < a + bs.length)
      (hr : ∀ c ∈ r, a + bs.length ≤ c.1) (j : Nat) : (l ++ k' ++ r).find? (fun c => c.1 == j) =
        if j < a then l.find? (fun c => c.1 == j) else if j < a + bs.length then k'.find? (fun c => c.1 == j)
        else r.find? fun c => c.1 == j := by
    rw [List.append_assoc]
    by_cases h1 : j < a
    · rw [if_pos h1, List.find?_append, List.find?_append,
        find_key_none (l := k') (fun c hc => by have := hk' c hc; omega),
        find_key_none (l := r) (fun c hc => by have := hr c hc; omega)]
      simp
    · rw [if_neg h1, find_append_none (fun c hc => by have := hl c hc; omega)]
      by_cases h2 : j < a + bs.length
      · rw [if_pos h2, List.find?_append, find_key_none (l := r) (fun c hc => by have := hr c hc; omega)]
        simp
      · rw [if_neg h2, find_append_none (fun c hc => by have := hk' c hc; omega)]
  have new := split3 (m.cells.takeWhile fun c => c.1 < a) (listCells (unlisted m.gen) a bs) (m.cells.dropWhile fun c => c.1 < a + bs.length)
    (takeWhile_key a _) (listCells_key _ bs a) (dropWhile_key _ _ hp) k
  have old : m.cells.find? (fun c => c.1 == k) = if k < a then (m.cells.takeWhile fun c => c.1 < a).find? (fun c => c.1 == k)
      else if k < a + bs.length then ((m.cells.dropWhile fun c => c.1 < a).takeWhile fun c => c.1 < a + bs.length).find? (fun c => c.1 == k)
      else (m.cells.dropWhile fun c => c.1 < a + bs.length).find? fun c => c.1 == k := by
    have e1 : m.cells = (m.cells.takeWhile fun c => c.1 < a) ++ ((m.cells.dropWhile fun c => c.1 < a).takeWhile fun c => c.1 < a + bs.length)
        ++ (m.cells.dropWhile fun c => c.1 < a + bs.length) := by
      have e2 : (m.cells.dropWhile fun c => c.1 < a + bs.length) =
          (m.cells.dropWhile fun c => c.1 < a).dropWhile fun c => c.1 < a + bs.length := by
        generalize m.cells = l
        induction l with
        | nil => rfl
        | cons x xs ih =>
          by_cases hx : x.1 < a
          · rw [List.dropWhile_cons_of_pos (by simp; omega), List.dropWhile_cons_of_pos (by simpa using hx), ih]
          · rw [List.dropWhile_cons_of_neg (l := xs) (p := fun c => decide (c.1 < a)) (by simpa using hx)]
      rw [e2, List.append_assoc, List.takeWhile_append_dropWhile, List.takeWhile_append_dropWhile]
    conv => lhs; rw [e1]
    refine split3 _ _ _ (takeWhile_key a _) (fun c hc => ⟨?_, takeWhile_key _ _ c hc⟩) (dropWhile_key _ _ hp) k
    exact dropWhile_key a _ hp c ((List.takeWhile_sublist _).subset hc)
  by_cases h1 : k < a
  · rw [if_neg (by omega)]
    simp only [Memory.byte, Memory.setBytes, new, old, if_pos h1]
  · by_cases h2 : k < a + bs.length
    · rw [if_pos ⟨by omega, h2⟩]
      simp only [Memory.byte, Memory.setBytes, new, if_neg h1, if_pos h2, find_listCells]
      by_cases h3 : bs.getD (k - a) (unlisted m.gen k) = unlisted m.gen k
      · rw [if_neg (by simp only [h3]; simp), h3]; rfl
      · rw [if_pos ⟨by omega, h2, h3⟩]; rfl
    · rw [if_neg (by omega)]
      simp only [Memory.byte, Memory.setBytes, new, old, if_neg h1, if_neg h2]

end Sys2Proof.Machine
end

