-- ==== Sys2Proof/Laws/Results.lean ====
section
/-! SUPPORT. Laws/Results.lean: what writing a result does to the registers of a crew (04 R66, R67), and the forms in which an
instruction completes, from what its body answers. -/

namespace Sys2Proof.Machine

/-! ## Values -/

theorem ofLanes_lane (f : Nat → Word) (j : Nat) (h : j < 32) : (VVal.ofLanes f).lane j = f j := by
  simp [VVal.ofLanes, VVal.lane, h]

theorem mergeLanes_lane (m : Mask) (old new : VVal) (j : Nat) (h : j < 32) :
    (mergeLanes m old new).lane j = if m.getLsbD j then new.lane j else old.lane j := ofLanes_lane _ _ h

theorem map1_lane (f : Word → Word) (a : VVal) (j : Nat) (h : j < 32) : (a.map1 f).lane j = f (a.lane j) := by
  cases a <;> simp only [VVal.map1] <;> first | rfl | exact ofLanes_lane _ _ h

theorem map2_lane (f : Word → Word → Word) (a b : VVal) (j : Nat) (h : j < 32) : (VVal.map2 f a b).lane j = f (a.lane j) (b.lane j) := by
  cases a <;> cases b <;> simp only [VVal.map2] <;> first | rfl | exact ofLanes_lane _ _ h

theorem map3_lane (f : Word → Word → Word → Word) (a b d : VVal) (j : Nat) (h : j < 32) :
    (VVal.map3 f a b d).lane j = f (a.lane j) (b.lane j) (d.lane j) := by
  cases a <;> cases b <;> cases d <;> simp only [VVal.map3] <;> first | rfl | exact ofLanes_lane _ _ h

theorem low_append (h l : Word) : (h ++ l).extractLsb' 0 32 = l := by
  apply BitVec.eq_of_getLsbD_eq; intro i hi
  rw [BitVec.getLsbD_extractLsb', BitVec.getLsbD_append]; simp [hi]

theorem high_append (h l : Word) : (h ++ l).extractLsb' 32 32 = h := by
  apply BitVec.eq_of_getLsbD_eq; intro i hi
  rw [BitVec.getLsbD_extractLsb', BitVec.getLsbD_append]; simp [hi]

/-! ## Writing a register -/

theorem vreg_congr {c c' : Crew} (h : c.regs = c'.regs) (w : c.wbase = c'.wbase) (n : Nat) : c.vreg n = c'.vreg n := by
  simp only [Crew.vreg, h, w]

theorem Put32.congr {c a b : Crew} {lanes : Mask} {n : Nat} {f : Fmt} {val : Nat → Word} (p : Put32 c a lanes n f val)
    (h : b.regs = a.regs) (w : b.wbase = a.wbase) : Put32 c b lanes n f val := by
  refine ⟨fun j hj hl => ?_, fun j hj hl hs => ?_, ?_, fun r hr => ?_⟩
  · rw [vreg_congr h w]; exact p.written j hj hl
  · rw [vreg_congr h w]; exact p.kept j hj hl hs
  · rw [vreg_congr h w]; exact p.tag
  · rw [h]; exact p.others r hr

theorem Put64.congr {c a b : Crew} {lanes : Mask} {n : Nat} {f : Fmt} {val : Nat → Dword} (p : Put64 c a lanes n f val)
    (h : b.regs = a.regs) (w : b.wbase = a.wbase) : Put64 c b lanes n f val := by
  refine ⟨fun j hj hl => ?_, fun j hj hl hs => ?_, ?_, fun r h1 h2 => ?_⟩
  · rw [vreg_congr h w, vreg_congr h w]; exact p.written j hj hl
  · rw [vreg_congr h w, vreg_congr h w]; exact p.kept j hj hl hs
  · rw [vreg_congr h w, vreg_congr h w]; exact p.tag
  · rw [h]; exact p.others r h1 h2

theorem full_written (c : Crew) (lanes : Mask) (h : c.isFull lanes = true) (j : Nat) (hj : j < 32) (hs : (c.lane j).st ≠ .exited) :
    lanes.getLsbD j = true :=
  (subMask_iff _ _).1 h j hj (by rw [live_bit c j hj]; simpa using hs)

/-- One register written: the lanes of the group, the rest, the tag, and every other register. -/
theorem putReg_put32 (c : Crew) (n : Nat) (lanes : Mask) (v : VVal) (f : Fmt) (h : c.wbase.toNat * 16 + n < c.regs.length) :
    Put32 c (c.putReg n lanes v f) lanes n f v.lane := by
  have get : (c.putReg n lanes v f).vreg n =
      ⟨if c.isFull lanes && v.shape != 0 then v else mergeLanes lanes (c.vreg n).val v, f⟩ := by
    simp [Crew.putReg, Crew.vreg, h]
  refine ⟨?_, ?_, by rw [get], ?_⟩
  · intro j hj hl
    rw [get]
    split
    · rfl
    · simp [mergeLanes_lane _ _ _ _ hj, hl]
  · intro j hj hl hs
    rw [get]
    split
    · rename_i hfull
      rw [Bool.and_eq_true] at hfull
      rw [full_written c lanes hfull.1 j hj hs] at hl
      exact absurd hl (by simp)
    · simp [mergeLanes_lane _ _ _ _ hj, hl]
  · intro r hr
    simp [Crew.putReg, Ne.symm hr]

theorem putReg_frame (c : Crew) (n : Nat) (lanes : Mask) (v : VVal) (f : Fmt) :
    c.putReg n lanes v f = { c with regs := (c.putReg n lanes v f).regs } := rfl

@[simp] theorem putReg_length (c : Crew) (n : Nat) (lanes : Mask) (v : VVal) (f : Fmt) :
    (c.putReg n lanes v f).regs.length = c.regs.length := by simp [Crew.putReg]

theorem write32_frame (c : Crew) (d : Reg) (lanes : Mask) (v : VVal) (f : Fmt) :
    c.write32 d lanes v f = { c with regs := (c.write32 d lanes v f).regs } := by
  simp only [Crew.write32]; split <;> rfl

@[simp] theorem write32_length (c : Crew) (d : Reg) (lanes : Mask) (v : VVal) (f : Fmt) :
    (c.write32 d lanes v f).regs.length = c.regs.length := by
  simp only [Crew.write32]; split <;> simp

theorem write64_frame (c : Crew) (d : Reg) (lanes : Mask) (lo hi : VVal) (f : Fmt) :
    c.write64 d lanes lo hi f = { c with regs := (c.write64 d lanes lo hi f).regs } := by
  simp only [Crew.write64]; split <;> rfl

@[simp] theorem write64_length (c : Crew) (d : Reg) (lanes : Mask) (lo hi : VVal) (f : Fmt) :
    (c.write64 d lanes lo hi f).regs.length = c.regs.length := by
  simp only [Crew.write64]; split <;> simp

theorem writeFmt_frame (c : Crew) (d : Reg) (lanes : Mask) (lo hi : VVal) (f : Fmt) :
    c.writeFmt d lanes lo hi f = { c with regs := (c.writeFmt d lanes lo hi f).regs } := by
  simp only [Crew.writeFmt]; split
  · exact write64_frame _ _ _ _ _ _
  · exact write32_frame _ _ _ _ _

@[simp] theorem writeFmt_length (c : Crew) (d : Reg) (lanes : Mask) (lo hi : VVal) (f : Fmt) :
    (c.writeFmt d lanes lo hi f).regs.length = c.regs.length := by
  simp only [Crew.writeFmt]; split <;> simp

/-- A pair written. -/
theorem write64_put64 (c : Crew) (d : Reg) (lanes : Mask) (lo hi : VVal) (f : Fmt) (hd : d.toNat < 112)
    (h : c.wbase.toNat * 16 + d.toNat + 1 < c.regs.length) :
    Put64 c (c.write64 d lanes lo hi f) lanes d.toNat f fun j => hi.lane j ++ lo.lane j := by
  have shape (u : Bool) (v : VVal) (j : Nat) (hj : j < 32) : (if u then v else VVal.ofLanes v.lane).lane j = v.lane j := by
    cases u
    · exact ofLanes_lane _ _ hj
    · rfl
  simp only [Crew.write64, if_neg (by omega : ¬ 112 ≤ d.toNat)]
  generalize hl : (if lo.shape == 1 && hi.shape == 1 then lo else VVal.ofLanes lo.lane) = l
  generalize hh : (if lo.shape == 1 && hi.shape == 1 then hi else VVal.ofLanes hi.lane) = u
  have el (j : Nat) (hj : j < 32) : l.lane j = lo.lane j := by rw [← hl]; exact shape _ _ _ hj
  have eh (j : Nat) (hj : j < 32) : u.lane j = hi.lane j := by rw [← hh]; exact shape _ _ _ hj
  have a := putReg_put32 c d.toNat lanes l f (by omega)
  have b := putReg_put32 (c.putReg d.toNat lanes l f) (d.toNat + 1) lanes u f (by
    rw [putReg_length]; show c.wbase.toNat * 16 + (d.toNat + 1) < _; omega)
  have same : ((c.putReg d.toNat lanes l f).putReg (d.toNat + 1) lanes u f).vreg d.toNat = (c.putReg d.toNat lanes l f).vreg d.toNat := by
    have := b.others (c.wbase.toNat * 16 + d.toNat) (by show _ ≠ c.wbase.toNat * 16 + (d.toNat + 1); omega)
    simp only [Crew.vreg, List.getD_eq_getElem?_getD]
    rw [show ((c.putReg d.toNat lanes l f).putReg (d.toNat + 1) lanes u f).wbase = c.wbase from rfl, this]; rfl
  have old : (c.putReg d.toNat lanes l f).vreg (d.toNat + 1) = c.vreg (d.toNat + 1) := by
    have := a.others (c.wbase.toNat * 16 + (d.toNat + 1)) (by omega)
    simp only [Crew.vreg, List.getD_eq_getElem?_getD]
    rw [show (c.putReg d.toNat lanes l f).wbase = c.wbase from rfl, this]
  refine ⟨?_, ?_, ?_, ?_⟩
  · intro j hj hlane
    rw [same, a.written j hj hlane, b.written j hj hlane, el j hj, eh j hj]
    exact ⟨(low_append _ _).symm, (high_append _ _).symm⟩
  · intro j hj hlane hs
    rw [same, a.kept j hj hlane hs, b.kept j hj hlane hs, old]
    exact ⟨rfl, rfl⟩
  · exact ⟨by rw [same]; exact a.tag, b.tag⟩
  · intro r h1 h2
    rw [b.others r (by show _ ≠ c.wbase.toNat * 16 + (d.toNat + 1); omega), a.others r h1]

/-! ## Shapes (04 R67) -/

theorem linear_add (u v : VVal) (j : Nat) (h : j < 32) : (VVal.linear (· + ·) u v).lane j = u.lane j + v.lane j := by
  cases u <;> cases v <;> simp only [VVal.linear] <;> first | exact map2_lane _ _ _ _ h | (simp only [VVal.lane]; grind)

theorem linear_sub (u v : VVal) (j : Nat) (h : j < 32) : (VVal.linear (· - ·) u v).lane j = u.lane j - v.lane j := by
  cases u <;> cases v <;> simp only [VVal.linear] <;> first | exact map2_lane _ _ _ _ h | (simp only [VVal.lane]; grind)

theorem scaled_mul (u v : VVal) (j : Nat) (h : j < 32) : (VVal.scaled (· * ·) u v).lane j = u.lane j * v.lane j := by
  cases u <;> cases v <;> simp only [VVal.scaled] <;> first | exact map2_lane _ _ _ _ h | (simp only [VVal.lane]; grind)

/-- A left shift multiplies by a power of two, or by 0. -/
theorem shlWord_mul (a b : Word) : shlWord a b = a * (if 32 ≤ b.toNat then 0 else 1#32 <<< b.toNat) := by
  simp only [shlWord]; split
  · simp
  · rw [BitVec.shiftLeft_eq_mul_twoPow, ← BitVec.twoPow_eq]

theorem shifted_shl (u v : VVal) (j : Nat) (h : j < 32) : (VVal.shifted shlWord u v).lane j = shlWord (u.lane j) (v.lane j) := by
  cases u <;> cases v <;> simp only [VVal.shifted] <;>
    first | exact map2_lane _ _ _ _ h | (simp only [VVal.lane, shlWord_mul]; grind)

/-! ## Reading sources -/

theorem with1_ok (x : Ctx) (a : Reg) (p : Opnd) (f : Opnd → Res) (h : x.read [] a = .ok p) : x.with1 a f = f p := by
  simp [Ctx.with1, h]

theorem with2_ok (x : Ctx) (a b : Reg) (p q : Opnd) (f : Opnd → Opnd → Res) (h : x.read [] a = .ok p) (h' : x.read [a] b = .ok q) :
    x.with2 a b f = f p q := by simp [Ctx.with2, h, h']

theorem with3_ok (x : Ctx) (a b d : Reg) (p q o : Opnd) (f : Opnd → Opnd → Opnd → Res) (h : x.read [] a = .ok p)
    (h' : x.read [a] b = .ok q) (h'' : x.read [a, b] d = .ok o) : x.with3 a b d f = f p q o := by simp [Ctx.with3, h, h', h'']

/-! ## What the earlier checks have established -/

theorem before_static (i : Instr) (x : Ctx) (h : before i x = none) : staticErr i = none := by
  unfold before at h
  cases hs : staticErr i with
  | none => rfl
  | some e => rw [hs] at h; simp at h

theorem before_chain (i : Instr) (x : Ctx) (h : before i x = none) : chainBroken i x.c x.lanes = false := by
  have hs := before_static i x h
  unfold before at h
  simp only [hs] at h
  cases hc : chainBroken i x.c x.lanes with
  | false => rfl
  | true => rw [hc] at h; simp at h

/-- Every vector register that an instruction names lies in the crew's allocation (03 R53). -/
theorem before_range (i : Instr) (x : Ctx) (h : before i x = none) (u : Use) (hu : u ∈ uses i) (n : Nat) (hn : n ∈ u.codes) :
    x.c.wbase.toNat * 16 + n < x.c.nregs := by
  have hs := before_static i x h
  have hc := before_chain i x h
  have hr : rangeBroken i x.c = false := by
    unfold before at h
    simp only [hs, hc] at h
    cases hr : rangeBroken i x.c with
    | false => rfl
    | true => rw [hr] at h; simp at h
  by_cases hge : x.c.nregs ≤ x.c.wbase.toNat * 16 + n
  · have : rangeBroken i x.c = true := by
      simp only [rangeBroken, List.any_eq_true]
      exact ⟨u, hu, n, hn, by simpa [Crew.outside] using hge⟩
    rw [hr] at this
    exact absurd this (by simp)
  · omega

theorem dst_code (d : Reg) (h : d.toNat < 112) : d.toNat ∈ (Use.dst d).codes := by
  simp only [Use.codes, if_pos h]
  exact List.mem_map.2 ⟨0, by simp, by simp⟩

theorem dst2_code (d : Reg) (h : d.toNat < 112) : d.toNat + 1 ∈ (Use.dst2 d).codes := by
  simp only [Use.codes, if_pos h]
  exact List.mem_map.2 ⟨1, by simp, rfl⟩

/-! ## Forms of completion -/

/-- `writeFmt` leaves every field but the registers. -/
theorem writeFmt_fields (c : Crew) (d : Reg) (lanes : Mask) (lo hi : VVal) (f : Fmt) :
    (c.writeFmt d lanes lo hi f).m = c.m ∧ (c.writeFmt d lanes lo hi f).k = c.k ∧ (c.writeFmt d lanes lo hi f).wbase = c.wbase ∧
      (c.writeFmt d lanes lo hi f).index = c.index := by
  rw [writeFmt_frame]; exact ⟨rfl, rfl, rfl, rfl⟩

/-- Updating the issuing crew by nothing changes nothing. -/
theorem upd_id (x : Ctx) : x.upd id = x.st := by
  have rid {α : Type} (p : α → Bool) (l : List α) : replaceFirst p id l = l := by
    induction l with
    | nil => rfl
    | cons a l ih => simp [replaceFirst, ih]
  have e : (fun g : Gang => g.modCrew x.ci id) = id := by
    funext g; simp only [Gang.modCrew, rid]; rfl
  simp only [Ctx.upd, State.modCrew, State.modGang, e, rid]

/-- A result put in D, of either width: what completes, and which registers it leaves. -/
theorem put_completes (x : Ctx) (i : Instr) (body : Ctx → Res) (d : Reg) (nw : Bool) (v hi : VVal) (f : Fmt)
    (hx : x.Issues i) (he : exec i x.st = issue i x.st body) (hb : body x = x.put d nw v hi f) :
    ∃ c, x.Completes i ⟨v, hi, f⟩ c ∧ c.m = x.c.m ∧ c.k = x.c.k ∧ c.wbase = x.c.wbase ∧
      c.regs = if nw then x.c.regs else (x.c.writeFmt d x.lanes v hi f).regs := by
  have w := writeFmt_fields x.c d x.lanes v hi f
  cases nw with
  | true =>
    exact ⟨_, completes_of x i body id (some ⟨v, hi, f⟩) hx he
      (by rw [hb, upd_id x]; rfl) (fun _ => rfl) rfl ⟨rfl, rfl, rfl⟩, by simp, by simp, by simp, by simp⟩
  | false =>
    refine ⟨_, completes_of x i body (fun c => c.writeFmt d x.lanes v hi f) (some ⟨v, hi, f⟩) hx he hb
      (fun c => (writeFmt_fields _ _ _ _ _ _).2.2.2) ?_ ⟨by simp, by rw [w.1], by rw [w.2.1]⟩, ?_, ?_, ?_, ?_⟩
    · rw [w.1, w.2.1]; exact writeFmt_frame _ _ _ _ _ _
    · simpa using w.1
    · simpa using w.2.1
    · simpa using w.2.2.1
    · simp

/-- The same for an instruction that is not chainable. -/
theorem out_completes (x : Ctx) (i : Instr) (body : Ctx → Res) (d : Reg) (v hi : VVal) (f : Fmt)
    (hx : x.Issues i) (he : exec i x.st = issue i x.st body) (hb : body x = x.out d v hi f) :
    ∃ w c, x.Completes i w c ∧ c.m = x.c.m ∧ c.k = x.c.k ∧ c.wbase = x.c.wbase ∧
      c.regs = (x.c.writeFmt d x.lanes v hi f).regs := by
  have w := writeFmt_fields x.c d x.lanes v hi f
  refine ⟨_, _, completes_of x i body (fun c => c.writeFmt d x.lanes v hi f) none hx he hb
    (fun c => (writeFmt_fields _ _ _ _ _ _).2.2.2) ?_ ⟨by simp, by rw [w.1], by rw [w.2.1]⟩, ?_, ?_, ?_, ?_⟩
  · rw [w.1, w.2.1]; exact writeFmt_frame _ _ _ _ _ _
  · simpa using w.1
  · simpa using w.2.1
  · simpa using w.2.2.1
  · simp

/-- A 32-bit result written to D, as `Put32` says. -/
theorem regs_put32 (x : Ctx) (i : Instr) (d : Reg) (v hi : VVal) (f : Fmt) (hx : x.Issues i) (hu : .dst d ∈ uses i)
    (hf : fmtWide f = false) (hd : ¬ 112 ≤ d.toNat) (c : Crew) (hr : c.regs = (x.c.writeFmt d x.lanes v hi f).regs)
    (hw : c.wbase = x.c.wbase) : Put32 x.c c x.lanes d.toNat f v.lane := by
  have inr := before_range i x hx.2 _ hu _ (dst_code d (by omega))
  have len := hx.1.2.2.1.1
  have p := putReg_put32 x.c d.toNat x.lanes v f (by omega)
  have e : x.c.writeFmt d x.lanes v hi f = x.c.putReg d.toNat x.lanes v f := by simp [Crew.writeFmt, hf, Crew.write32, hd]
  exact p.congr (by rw [hr, e]) hw

theorem regs_put64 (x : Ctx) (i : Instr) (d : Reg) (v hi : VVal) (f : Fmt) (hx : x.Issues i)
    (hu : d.toNat < 112 → x.c.wbase.toNat * 16 + d.toNat + 1 < x.c.nregs)
    (hf : fmtWide f = true) (hd : ¬ 112 ≤ d.toNat) (c : Crew) (hr : c.regs = (x.c.writeFmt d x.lanes v hi f).regs)
    (hw : c.wbase = x.c.wbase) : Put64 x.c c x.lanes d.toNat f fun j => hi.lane j ++ v.lane j := by
  have inr := hu (by omega)
  have len := hx.1.2.2.1.1
  have p := write64_put64 x.c d x.lanes v hi f (by omega) (by omega)
  have e : x.c.writeFmt d x.lanes v hi f = x.c.write64 d x.lanes v hi f := by simp [Crew.writeFmt, hf]
  exact p.congr (by rw [hr, e]) (by rw [hw, write64_frame])

theorem writeFmt_z (c : Crew) (d : Reg) (lanes : Mask) (lo hi : VVal) (f : Fmt) (h : 112 ≤ d.toNat) :
    (c.writeFmt d lanes lo hi f).regs = c.regs := by
  simp only [Crew.writeFmt, Crew.write64, Crew.write32, if_pos h, ite_self]

theorem Put32.val {c c' : Crew} {lanes : Mask} {n : Nat} {f : Fmt} {a b : Nat → Word} (p : Put32 c c' lanes n f a)
    (h : ∀ j, j < 32 → a j = b j) : Put32 c c' lanes n f b :=
  ⟨fun j hj hl => by rw [p.written j hj hl, h j hj], p.kept, p.tag, p.others⟩

theorem Put64.val {c c' : Crew} {lanes : Mask} {n : Nat} {f : Fmt} {a b : Nat → Dword} (p : Put64 c c' lanes n f a)
    (h : ∀ j, j < 32 → a j = b j) : Put64 c c' lanes n f b :=
  ⟨fun j hj hl => by rw [← h j hj]; exact p.written j hj hl, p.kept, p.tag, p.others⟩

/-- A 32-bit result of a chainable instruction. -/
theorem result32_put (x : Ctx) (i : Instr) (body : Ctx → Res) (d : Reg) (nw : Bool) (v hi : VVal) (f : Fmt) (val : Nat → Word)
    (hx : x.Issues i) (he : exec i x.st = issue i x.st body) (hb : body x = x.put d nw v hi f) (hnw : isNW i = nw)
    (hu : .dst d ∈ uses i) (hf : fmtWide f = false) (hv : ∀ j, j < 32 → v.lane j = val j) : x.Result32 i d f val := by
  obtain ⟨c, h, hm, hk, hw, hr⟩ := put_completes x i body d nw v hi f hx he hb
  refine ⟨_, c, h, hm, hk, fun _ => ⟨rfl, hv⟩, ?_⟩
  split
  · rename_i hz
    cases nw
    · rw [hr]; exact writeFmt_z _ _ _ _ _ _ (by simpa [hnw] using hz)
    · exact hr
  · rename_i hz
    rw [hnw, not_or] at hz
    exact (regs_put32 x i d v hi f hx hu hf hz.2 c (by simpa [hz.1] using hr) hw).val hv

/-- A 32-bit result of an instruction that is not chainable. -/
theorem result32_out (x : Ctx) (i : Instr) (body : Ctx → Res) (d : Reg) (v hi : VVal) (f : Fmt) (val : Nat → Word)
    (hx : x.Issues i) (he : exec i x.st = issue i x.st body) (hb : body x = x.out d v hi f) (hnw : isNW i = false)
    (hu : .dst d ∈ uses i) (hf : fmtWide f = false) (hv : ∀ j, j < 32 → v.lane j = val j) : x.Result32 i d f val := by
  obtain ⟨w, c, h, hm, hk, hw, hr⟩ := out_completes x i body d v hi f hx he hb
  refine ⟨w, c, h, hm, hk, fun hn => absurd hn (by simp [hnw]), ?_⟩
  simp only [hnw, Bool.false_eq_true, false_or]
  split
  · rename_i hz; rw [hr]; exact writeFmt_z _ _ _ _ _ _ hz
  · rename_i hz; exact (regs_put32 x i d v hi f hx hu hf hz c hr hw).val hv

/-- A 64-bit result of a chainable instruction. -/
theorem result64_put (x : Ctx) (i : Instr) (body : Ctx → Res) (d : Reg) (nw : Bool) (v hi : VVal) (f : Fmt) (val : Nat → Dword)
    (hx : x.Issues i) (he : exec i x.st = issue i x.st body) (hb : body x = x.put d nw v hi f) (hnw : isNW i = nw)
    (hu : d.toNat < 112 → x.c.wbase.toNat * 16 + d.toNat + 1 < x.c.nregs) (hf : fmtWide f = true)
    (hv : ∀ j, j < 32 → hi.lane j ++ v.lane j = val j) : x.Result64 i d f val := by
  obtain ⟨c, h, hm, hk, hw, hr⟩ := put_completes x i body d nw v hi f hx he hb
  refine ⟨_, c, h, hm, hk, fun _ => ⟨rfl, hv⟩, ?_⟩
  split
  · rename_i hz
    cases nw
    · rw [hr]; exact writeFmt_z _ _ _ _ _ _ (by simpa [hnw] using hz)
    · exact hr
  · rename_i hz
    rw [hnw, not_or] at hz
    exact (regs_put64 x i d v hi f hx hu hf hz.2 c (by simpa [hz.1] using hr) hw).val hv

/-- A 64-bit result of an instruction that is not chainable. -/
theorem result64_out (x : Ctx) (i : Instr) (body : Ctx → Res) (d : Reg) (v hi : VVal) (f : Fmt) (val : Nat → Dword)
    (hx : x.Issues i) (he : exec i x.st = issue i x.st body) (hb : body x = x.out d v hi f) (hnw : isNW i = false)
    (hu : d.toNat < 112 → x.c.wbase.toNat * 16 + d.toNat + 1 < x.c.nregs) (hf : fmtWide f = true)
    (hv : ∀ j, j < 32 → hi.lane j ++ v.lane j = val j) : x.Result64 i d f val := by
  obtain ⟨w, c, h, hm, hk, hw, hr⟩ := out_completes x i body d v hi f hx he hb
  refine ⟨w, c, h, hm, hk, fun hn => absurd hn (by simp [hnw]), ?_⟩
  simp only [hnw, Bool.false_eq_true, false_or]
  split
  · rename_i hz; rw [hr]; exact writeFmt_z _ _ _ _ _ _ hz
  · rename_i hz; exact (regs_put64 x i d v hi f hx hu hf hz c hr hw).val hv

/-- A mask result. -/
theorem resultM_of (x : Ctx) (i : Instr) (body : Ctx → Res) (m : MReg) (v : Mask) (hx : x.Issues i)
    (he : exec i x.st = issue i x.st body) (hb : body x = x.setM m v) (hm : m ≠ 0) : x.ResultM i m fun j => v.getLsbD j := by
  have len := hx.1.2.2.1.2.2.1
  have e (c : Crew) : c.setMask m x.lanes v = { c with m := c.m.set m.toNat (((c.m.getD m.toNat 0) &&& ~~~x.lanes) ||| (v &&& x.lanes)) } := by
    simp only [Crew.setMask, if_neg hm]
  have h0 : m.toNat ≠ 0 := fun h => hm (BitVec.eq_of_toNat_eq (by simpa using h))
  have lt : m.toNat < x.c.m.length := by have := m.isLt; omega
  have h := completes_of x i body (fun c => c.setMask m x.lanes v) none hx he hb (fun c => by rw [e]) (by rw [e]) ⟨by rw [e], by rw [e]; simp, by rw [e]⟩
  refine ⟨_, _, h, by simp [e], by simp [e], fun j hj => ?_, fun n hn => ?_⟩
  · simp only [Crew.mask, if_neg h0, release_m, complete_m, e, List.getD_eq_getElem?_getD, List.getElem?_set_self lt, Option.getD_some,
      BitVec.getLsbD_or, BitVec.getLsbD_and, BitVec.getLsbD_not]
    by_cases hl : x.lanes.getLsbD j <;> simp only [hl, hj, decide_true, Bool.not_true, Bool.not_false, Bool.and_true, Bool.and_false,
      Bool.false_or, Bool.or_false, if_true, Bool.false_eq_true, if_false]
  · simp [e, Ne.symm hn]

/-- A uniform result. -/
theorem resultK_of (x : Ctx) (i : Instr) (body : Ctx → Res) (d : KReg) (v : Dword) (hx : x.Issues i)
    (he : exec i x.st = issue i x.st body) (hb : body x = x.setK d v) : x.ResultK i d v := by
  have h := completes_of x i body (fun c => c.setK d v) none hx he hb (fun _ => rfl) rfl ⟨rfl, rfl, by simp [Crew.setK]⟩
  exact ⟨_, _, h, by simp [Crew.setK], by simp [Crew.setK], by simp [Crew.setK]⟩

/-- No register written. -/
theorem resultNone_of (x : Ctx) (i : Instr) (body : Ctx → Res) (hx : x.Issues i)
    (he : exec i x.st = issue i x.st body) (hb : body x = .next x.st none) : x.ResultNone i := by
  have h := completes_of x i body id none hx he (by rw [hb, upd_id x]) (fun _ => rfl) rfl ⟨rfl, rfl, rfl⟩
  exact ⟨_, _, h, by simp, by simp, by simp⟩

end Sys2Proof.Machine
end

