-- ==== Sys2Proof/Tests/Slice0.lean ====
section
/-! SUPPORT. Tests/Slice0.lean: words written out from the encoding tables, ill-formed instructions, single steps worked out by
hand, and for every obligation with hypotheses a machine and operands that meet them. -/

set_option Elab.async false

open Sys2Proof Sys2Proof.Machine

namespace Sys2Proof.Tests

/-! ## Small machines -/

/-- One crew of 32 lanes on core 0, about to issue at `setupPc`. -/
def base : State := placeCrew State.reset 0x7A000000

/-- The context in which all lanes of that crew issue, in a machine `s` with the same gang. -/
def here (s : State) (lanes : Mask) : Ctx := ⟨{ s with cur := some (.crew 2 0 lanes setupPc) }, 2, 0, lanes, setupPc⟩

/-- The same with the crew changed. -/
def on (f : Crew → Crew) : Ctx := here (base.modCrew 2 0 f) 0xFFFFFFFF

/-- The crew with registers 0 to 31 of one format, holding `v`. -/
def filled (f : Fmt) (v : Word) (c : Crew) : Crew := { c with regs := List.replicate 32 ⟨.uni v, f⟩ }

/-- The crew with a k register set. -/
def withK (n : Nat) (v : Dword) (c : Crew) : Crew := { c with k := c.k.set n v }

/-- A computation answers exactly `a`. -/
def gives {ε α : Type} [DecidableEq α] (e : Except ε α) (a : α) : Bool :=
  match e with
  | .ok b => decide (b = a)
  | .error _ => false

/-- The first four parts of a statement, which are decidable together, and what follows them. -/
theorem four {a b c d r : Prop} (h : a ∧ b ∧ c ∧ d) (k : r) : a ∧ b ∧ c ∧ d ∧ r := ⟨h.1, h.2.1, h.2.2.1, h.2.2.2, k⟩

theorem gives_eq {ε α : Type} [DecidableEq α] {e : Except ε α} {a : α} (h : gives e a = true) : e = .ok a := by
  cases e with
  | ok b => simpa [gives] using h
  | error _ => cases h

/-- A computation answers something for which `p` holds. -/
def answers {ε α : Type} (e : Except ε α) (p : α → Bool) : Bool :=
  match e with
  | .ok b => p b
  | .error _ => false

theorem answers_eq {ε α : Type} {e : Except ε α} {p : α → Bool} (h : answers e p = true) : ∃ a, e = .ok a ∧ p a = true := by
  cases e with
  | ok b => exact ⟨b, rfl, h⟩
  | error _ => cases h

/-- A computation answers exactly error `e`. -/
def refuses {ε α : Type} [DecidableEq ε] (r : Except ε α) (e : ε) : Bool :=
  match r with
  | .ok _ => false
  | .error f => decide (f = e)

theorem refuses_eq {ε α : Type} [DecidableEq ε] {r : Except ε α} {e : ε} (h : refuses r e = true) : r = .error e := by
  cases r with
  | ok _ => cases h
  | error f => simpa [refuses] using h

/-- A source of one format with value `v` in every lane. -/
def same (f : Fmt) (v : Word) : Opnd := ⟨.uni v, .uni (if fmtWide f then v else 0), some f⟩

/-- The elements of a memory instruction pass `Ctx.Checks`, and `p` holds of them. -/
def checked (x : Ctx) (els : List (Nat × Dword)) (j : MemJob) (p : List Elem → State → Bool) : Bool :=
  match checkLanes x.st x.ag els j.w j.al j.kind j.hostAtomic with
  | (.ok es, s) =>
    (es.all fun e => !e.isRemote) && !taskOverflow s x.core x.mode (es.flatMap fun e => e.parts s x.ag) (j.kind != .write) (j.kind != .read) && p es s
  | _ => false

theorem checked_eq {x : Ctx} {els : List (Nat × Dword)} {j : MemJob} {p : List Elem → State → Bool} (h : checked x els j p = true) :
    ∃ es s, x.Checks els j es s ∧ p es s = true := by
  unfold checked at h
  split at h
  · next es s he =>
    simp only [Bool.and_eq_true, List.all_eq_true, Bool.not_eq_true'] at h
    exact ⟨es, s, ⟨he, h.1.1, h.1.2⟩, h.2⟩
  · cases h

/-- Its task. -/
def firstTask (front : Bool) : Task := ⟨1, [(5, 0)], none, 0x4000, 0, .running, some 0, 1, 0, [], [], [], none, front⟩

/-- The machine of `base` as an ordered launch, whose one crew runs task 1. -/
def ordered (front : Bool) : State :=
  { (base.modCrew 2 0 fun c => { c with task := some 1 }).modCore 0 (fun r => { r with taskLaunch := some 1 }) with
    launches := base.launches.map fun l => { l with
      image := { l.image with ordered := true }
      tasks := some ⟨[firstTask front], 2, 0⟩ } }

/-- A computation with a machine beside its answer. -/
theorem gives_pair {ε α : Type} [DecidableEq α] {r : Except ε α × State} {a : α} (h : gives r.1 a = true) : r = (.ok a, r.2) :=
  Prod.ext (gives_eq h) rfl

/-- An empty pond of function 0 with two basins; its handle is 0. -/
def pond : Pond := ⟨0, 0, 0, 0, 0x100000, 256, 2, 1, 64, false, 0, [0, 0], [], List.replicate 64 0, false, [], [], false⟩

/-- `base` with that pond, edited. -/
def pondState (f : Pond → Pond) : State := { base with ponds := [f pond] }

/-- The pond with an open cursor. -/
def withCursor (d : Pond) : Pond := { d with cursors := [⟨3, 1, 0, 0, 2, 0⟩] }

/-- The descriptor of that cursor. -/
def cursorDesc : Dword := Pond.descriptor pond ⟨3, 1, 0, 0, 2, 0⟩

/-- The pond with one operation of the crew at its inlet. -/
def withOp (k : PondOpKind) (d : Pond) : Pond := { d with ops := [⟨.group 2 0 1 setupPc, k, 0, 0⟩] }

/-- A queue of partition 0 with one producer registered; its handle is 0 on node 0. -/
def queue : Queue := ⟨0, 0, 0, 0, 0x100000, 4, 2, false, 4, [], [false], 1, [], [], [], []⟩

/-- The machine with that queue, edited, and the crew, edited. -/
def queueState (f : Queue → Queue) (g : Crew → Crew) : State := { base.modCrew 2 0 g with queues := [f queue] }

/-- A request of the crew to send one record of one word. -/
def request : QReq := ⟨7, 2, 0, 1, setupPc, 0, 120, 0, [[5]], 2 ^ 20, none, [(0, 1)]⟩

/-- `base` with 4096 bytes of scratchpad for the gang. -/
def scr : State := base.modGang 2 fun g => { g with scratch := 4096 }

/-- k1 a record in DEV, k2 and k4 in SCR, k3 a slice of one row, k5 and k6 small. -/
def hoistRegs (c : Crew) : Crew :=
  withK 1 0x100000 (withK 2 0x3000000000000000 (withK 3 0x100000000 (withK 4 0x3000000000001000 (withK 5 64 (withK 6 0 c)))))

/-- The issuing context with those registers and scratchpad. -/
def hoister : Ctx := here (scr.modCrew 2 0 hoistRegs) 0xFFFFFFFF

/-- One row of eight I32 elements at 0x100000. -/
def row : Layout := ⟨1, .i32, 0x100000, [8, 0, 0, 0, 0], [32, 0, 0, 0, 0]⟩

/-- A copy of that row, at which crew 1 has arrived. -/
def copy (started : Bool) : HoistCopy :=
  ⟨0, .scratch, none, 0x100000, 0x3000000000000000, 0x3000000000001000, [(0, 0, 1)], [1], started, if started then some row else none,
    if started then [0] else [], []⟩

/-- Its command. -/
def copyCmd (started : Bool) : EngCmd := ⟨5, 0, 0, 0, .crews 2 [1], .hoist (copy started), false⟩

theorem snd_none {α β : Type} {r : α × Option β} (h : r.2.isNone = true) : r = (r.1, none) := Prod.ext rfl (by simpa using h)

/-- A matrix command of the crew on core 0. -/
def mxCmd (op : MxOp) : EngCmd := ⟨5, 0, 0, 0, .crews 2 [0], .mx op, false⟩

/-- The machine with that command queued. -/
def mxState (op : MxOp) : State :=
  { modMx scr 0 (fun m => { m with halves := m.halves.set 0 ⟨.dense, .i8, 8192⟩ }) with cmds := [mxCmd op] }

/-- A spring command of the crew. -/
def spCmd (op : SpOp) : SpCmd := ⟨5, .crews 2 [0], 0, 1, op, false⟩

/-- The machine whose launch holds the array of die 0, with two variables of two colours, one command queued. -/
def spState (op : SpOp) : State :=
  { base with
    springs := base.springs.set 0 ⟨some (.launch 1), 2, 2, false, 16, 77, [⟨5, 0, [(1, 3)], false, false, 0⟩, ⟨5, 1, [(0, 3)], true, false, 0⟩], 0, [spCmd op]⟩
    mem := base.mem.setBits 0x100000 512 (1 + 0x110000 * 2 ^ 128) }

/-- A sluice block that copies one element, and its parameter block. -/
def blockBits : Nat := 0x700000000001300000000000000120000000000000011000000000000000000010000000000000002

/-- That block as it is queued. -/
def copyBlock (count : Nat) : Block := { parseBlock blockBits 4 5 0 (.crews 2 [0]) 0 0 [0x140000] with count := count }

/-- The machine with the parameter block and its source list in memory, and the block queued on stack 0. -/
def sluiceState (count : Nat) : State :=
  { base with
    mem := (base.mem.setBits 0x100000 512 blockBits).setBits 0x110000 64 0x140000
    cmds := [⟨5, 0, 0, 0, .crews 2 [0], .sluice 0 4, false⟩]
    sluiceStacks := base.sluiceStacks.set 0 ⟨[copyBlock count], []⟩ }

/-- `base` with a launch record at 0x100000 whose image header is at 0x200000. -/
def launching : State := { base with mem := (base.mem.setBits 0x100000 512 0x10000000000200000).setBits 0x200000 512 0xFFFFFFFF000000000000000100000000000201014B524E4C }

/-- A context that issues in a machine, with a k register set. -/
def hereK (s : State) (n : Nat) (v : Dword) : Ctx := here (s.modCrew 2 0 (withK n v)) 0xFFFFFFFF

/-- A crew with the address of that record. -/
def launcher : Ctx := hereK launching 3 0x100000

/-- A node of an interpreted graph, dispatched as a tape. -/
def tapeNode : Node := ⟨5, [], 0x140000, [], .dispatched, some 0⟩

/-- A graph with one node. -/
def graph (n : Node) : Graph :=
  ⟨9, 0, 0, 0x40000001, 0, 0, 0, 0x100000, 0x110000, false, [n], false, ⟨1, 0, 0, 0, .running⟩, false⟩

/-- A slice of function 0. -/
def slice (st : CState) (budget used : Nat) : Slice :=
  ⟨3, 0, 0, 0xC0000000, 0, 0, true, 7, 0, budget, used, 0, 0, 0x150000, 0, 0, true, 0, ⟨1, 0, 0, 0, st⟩, false⟩
theorem test_decode_integer :
  decode 0x025534B9 = .ok (.iadd 21 38 75 true .sat) ∧ decode 0x045534BA = .ok (.isub 21 38 75 true .usat) ∧
  decode 0x065534B9 = .ok (.imul 21 38 75 true .hi) ∧ decode 0x085534B8 = .ok (.imad 21 38 75 true) ∧
  decode 0x0A5534BA = .ok (.idiv 21 38 75 true .rem) ∧ decode 0x0C5534B8 = .ok (.imin 21 38 75 true) ∧
  decode 0x0E5534B8 = .ok (.imax 21 38 75 true) :=
  by and_intros <;> rfl

theorem test_decode_logic :
  decode 0x105534B8 = .ok (.and 21 38 75 true) ∧ decode 0x105534B9 = .ok (.or 21 38 75 true) ∧ decode 0x105534BA = .ok (.xor 21 38 75 true) ∧
  decode 0x105534BB = .ok (.andn 21 38 75 true) ∧ decode 0x105534BC = .ok (.orn 21 38 75 true) ∧ decode 0x105534BD = .ok (.xnor 21 38 75 true) ∧
  decode 0x125534B8 = .ok (.shl 21 38 75 true) ∧ decode 0x125534B9 = .ok (.shr 21 38 75 true) ∧ decode 0x125534BA = .ok (.sar 21 38 75 true) ∧
  decode 0x125534BB = .ok (.rol 21 38 75 true) ∧ decode 0x125534BC = .ok (.ror 21 38 75 true) :=
  by and_intros <;> rfl

theorem test_decode_bits :
  decode 0x14553008 = .ok (.popc 21 38 true) ∧ decode 0x14553009 = .ok (.clz 21 38 true) ∧ decode 0x1455300A = .ok (.ctz 21 38 true) ∧
  decode 0x1455300B = .ok (.brev 21 38 true) ∧ decode 0x165534B9 = .ok (.bfx 21 38 75 true true) ∧ decode 0x185534B8 = .ok (.bfi 21 38 75 true) :=
  by and_intros <;> rfl

theorem test_decode_select :
  decode 0x1A4D34B0 = .ok (.icmp .lt 3 38 75) ∧ decode 0x1C5534BE = .ok (.sel 21 38 75 true 6) ∧ decode 0x1E553008 = .ok (.mov 21 38 true) ∧
  decode 0x1E5530B9 = .ok (.retag 21 38 11 true) ∧ decode 0x1E55300A = .ok (.shapeq 21 38 true) ∧ decode 0x1E55300B = .ok (.fmtq 21 38 true) :=
  by and_intros <;> rfl

theorem test_decode_immediate :
  decode 0x20553407 = .ok (.iaddi 21 38 1031) ∧ decode 0x22553407 = .ok (.andi 21 38 1031) ∧ decode 0x24553407 = .ok (.ori 21 38 1031) ∧
  decode 0x26553407 = .ok (.xori 21 38 1031) ∧ decode 0x2855302B = .ok (.shli 21 38 43) ∧ decode 0x2855322B = .ok (.shri 21 38 43) ∧
  decode 0x2855342B = .ok (.sari 21 38 43) ∧ decode 0x2AAD3407 = .ok (.icmpi .geu 3 38 1031) ∧ decode 0x2C560007 = .ok (.movi 21 131079) ∧
  decode 0x2E560007 = .ok (.movhi 21 131079) :=
  by and_intros <;> rfl

theorem test_decode_pointer :
  decode 0x305534B5 = .ok (.padd 21 38 75 5) ∧ decode 0x325534B5 = .ok (.pdiff 21 38 75 5) ∧ decode 0x34553005 = .ok (.palign 21 38 5) ∧
  decode 0x36553000 = .ok (.pspace 21 38) ∧ decode 0x365534B1 = .ok (.psetsp 21 38 75) ∧ decode 0x36553072 = .ok (.pchk 21 38 7) :=
  by and_intros <;> rfl

theorem test_decode_uniform :
  decode 0x3804B600 = .ok (.kadd 2 5 (.reg 11)) ∧ decode 0x3824B600 = .ok (.ksub 2 5 (.reg 11)) ∧ decode 0x3844B600 = .ok (.kmul 2 5 (.reg 11)) ∧
  decode 0x3864B600 = .ok (.kshl 2 5 (.reg 11)) ∧ decode 0x3884A036 = .ok (.kshr 2 5 (.imm 22)) ∧ decode 0x38A4A036 = .ok (.kand 2 5 (.imm 22)) ∧
  decode 0x38C4A036 = .ok (.kor 2 5 (.imm 22)) ∧ decode 0x38E4A000 = .ok (.kmov 2 5) ∧ decode 0x3A0A0007 = .ok (.kmovi 2 131079) :=
  by and_intros <;> rfl

theorem test_decode_lanes :
  decode 0x3C093000 = .ok (.rfal 2 38) ∧ decode 0x3C5448B1 = .ok (.ktov 21 9 11) ∧ decode 0x3C080002 = .ok (.kpop 2) ∧
  decode 0x3C093133 = .ok (.krdlane 2 38 19) ∧ decode 0x3E000013 = .ok (.winbase 19) ∧ decode 0x3E000409 = .ok (.winbaseK 9) :=
  by and_intros <;> rfl

theorem test_decode_float :
  decode 0x405534BA = .ok (.fadd 21 38 75 true .rup) ∧ decode 0x425534BA = .ok (.fsub 21 38 75 true .rup) ∧
  decode 0x445534BA = .ok (.fmul 21 38 75 true .rup) ∧ decode 0x465534BA = .ok (.ffma 21 38 75 true .rup) ∧
  decode 0x485534B8 = .ok (.fmin 21 38 75 true) ∧ decode 0x485534B9 = .ok (.fmax 21 38 75 true) ∧ decode 0x4A8D34B0 = .ok (.fcmp 4 3 38 75) :=
  by and_intros <;> rfl

theorem test_decode_transcendental :
  decode 0x4C553008 = .ok (.frcp 21 38 true) ∧ decode 0x4C553009 = .ok (.frsq 21 38 true) ∧ decode 0x4C55300A = .ok (.fexp2 21 38 true) ∧
  decode 0x4C55300B = .ok (.flog2 21 38 true) ∧ decode 0x4C55300C = .ok (.ftanh 21 38 true) ∧ decode 0x4C55300D = .ok (.fsig 21 38 true) ∧
  decode 0x50553008 = .ok (.fabs 21 38 true) ∧ decode 0x50553009 = .ok (.fneg 21 38 true) :=
  by and_intros <;> rfl

theorem test_decode_convert :
  decode 0x4E5530BB = .ok (.fcvt 21 38 11 true .rdn) ∧ decode 0x52553009 = .ok (.i2f 21 38 true .rtz) ∧
  decode 0x5255301E = .ok (.f2i 21 38 true true .rup) :=
  by and_intros <;> rfl

theorem test_decode_crossLane :
  decode 0x605534BB = .ok (.shfli 21 38 75 true 3) ∧ decode 0x625534BB = .ok (.shflu 21 38 75 true 3) ∧
  decode 0x645534BB = .ok (.shfld 21 38 75 true 3) ∧ decode 0x665534BB = .ok (.shflx 21 38 75 true 3) ∧
  decode 0x6855302B = .ok (.vote 21 38 .ballot true 3) ∧ decode 0x6A55306B = .ok (.reduce 21 38 .fadd true 3) ∧
  decode 0x6C55300B = .ok (.redminidx 21 38 true 3) ∧ decode 0x6E55305B = .ok (.scan 21 38 .xor true 3) :=
  by and_intros <;> rfl

theorem test_decode_branch :
  decode 0x70F00003 = .ok (.bra 3 true 1048579) ∧ decode 0x72100003 = .ok (.call 1048579) ∧ decode 0x74120000 = .ok (.brx 9) ∧
  decode 0x7740000C = .ok (.jset 5 12) ∧ decode 0x79400000 = .ok (.jwait 5) ∧ decode 0x7A000000 = .ok .nop ∧ decode 0x7A200000 = .ok .exit ∧
  decode 0x7A400000 = .ok .yield ∧ decode 0x7A600000 = .ok .ret ∧ decode 0x7C553000 = .ok (.repack 21 38) :=
  by and_intros <;> rfl

theorem test_decode_mask :
  decode 0x7E082830 = .ok (.mand 2 5 3) ∧ decode 0x7E082831 = .ok (.mor 2 5 3) ∧ decode 0x7E082832 = .ok (.mxor 2 5 3) ∧
  decode 0x7E082803 = .ok (.mnot 2 5) ∧ decode 0x7E093004 = .ok (.mset 2 38) ∧ decode 0x7E542805 = .ok (.mtov 21 5) :=
  by and_intros <;> rfl

theorem test_decode_memory :
  decode 0x8056722E = .ok (.ld 21 9 100 5 6) ∧ decode 0x8256722E = .ok (.lds 21 9 100 5 6) ∧ decode 0x8456722E = .ok (.st 21 9 100 5 6) ∧
  decode 0x860A722E = .ok (.ldk 2 9 100 5 6) ∧ decode 0x880A722E = .ok (.stk 2 9 100 5 6) ∧ decode 0x9BE2722E = .ok (.pf 9 100 5 6) :=
  by and_intros <;> rfl

theorem test_decode_atomic :
  decode 0x8A56722E = .ok (.atadd 21 9 100 5 6) ∧ decode 0x8C56722E = .ok (.atmin 21 9 100 5 6) ∧ decode 0x8E56722E = .ok (.atmax 21 9 100 5 6) ∧
  decode 0x9056722E = .ok (.atand 21 9 100 5 6) ∧ decode 0x9256722E = .ok (.ator 21 9 100 5 6) ∧ decode 0x9456722E = .ok (.atxor 21 9 100 5 6) ∧
  decode 0x9656722E = .ok (.atxch 21 9 100 5 6) ∧ decode 0x9856722E = .ok (.atcas 21 9 100 5 6) :=
  by and_intros <;> rfl

theorem test_decode_pond :
  decode 0xA004B7A0 = .ok (.pondmk 2 5 11 13) ∧ decode 0xA2040000 = .ok (.pondrm 2) ∧ decode 0xA456724D = .ok (.put 21 9 100 77) ∧
  decode 0xA6082C07 = .ok (.pcount 2 5 1031) ∧ decode 0xA804B600 = .ok (.drain 2 5 11) ∧ decode 0xAA082C07 = .ok (.basin 2 5 1031) ∧
  decode 0xAC567203 = .ok (.bnext 21 9 100 3) ∧ decode 0xAE567200 = .ok (.bwrite 21 9 100) :=
  by and_intros <;> rfl

theorem test_decode_sync :
  decode 0xB0040005 = .ok (.acq 2 .pkg) ∧ decode 0xB2040003 = .ok (.rel 2 .cluster) ∧ decode 0xB4000006 = .ok (.fence .sys) ∧
  decode 0xB6140000 = .ok (.bar 5) ∧ decode 0xB6140001 = .ok (.barArrive 5) ∧ decode 0xB6140002 = .ok (.barWait 5) ∧
  decode 0xB804A000 = .ok (.swait 2 5) ∧ decode 0xBA04B600 = .ok (.swarm 2 5 11) ∧ decode 0xBC542800 = .ok (.gsr 21 5) ∧
  decode 0xBE093000 = .ok (.gsw 2 38) :=
  by and_intros <;> rfl

theorem test_decode_queue :
  decode 0xC004B600 = .ok (.qopenMake 2 5 11) ∧ decode 0xC0240000 = .ok (.qopenCons 2) ∧ decode 0xC0440000 = .ok (.qopenProd 2) ∧
  decode 0xC2567216 = .ok (.enq 21 9 100 true 6) ∧ decode 0xC4567216 = .ok (.deq 21 9 100 true 6) ∧ decode 0xC6040000 = .ok (.qclose 2) :=
  by and_intros <;> rfl

theorem test_decode_hoist :
  decode 0xC8A57AC0 = .ok (.hoist .w0 2 11 13 6) ∧ decode 0xCA04B7A9 = .ok (.hoistm 2 5 11 13 9) ∧ decode 0xCC04A000 = .ok (.seal 2 5) ∧
  decode 0xCE04A015 = .ok (.cwait 2 5 21) ∧ decode 0xD004B615 = .ok (.ctest 2 5 11 21) ∧ decode 0xD2B60000 = .ok (.sluice 5 11) ∧
  decode 0xD404A001 = .ok (.rlwait 2 5 true) :=
  by and_intros <;> rfl

theorem test_decode_matrix :
  decode 0xD8CB7AD9 = .ok (.mxloop 1 2 5 11 13 6 true 9) ∧ decode 0xDA4B7A00 = .ok (.mxwb .s48 5 11 13) ∧
  decode 0xDC00000A = .ok (.mxclr true false 2) ∧ decode 0xDC24B600 = .ok (.mxst 2 5 11) ∧ decode 0xDC44A000 = .ok (.mxld 2 5) ∧
  decode 0xDC600000 = .ok .mxwait ∧ decode 0xDC920002 = .ok (.mxstep 9 2) :=
  by and_intros <;> rfl

theorem test_decode_spring :
  decode 0xE0040000 = .ok (.spload 2) ∧ decode 0xE204A000 = .ok (.spclamp 2 5) ∧ decode 0xE2240000 = .ok (.spclampFree 2) ∧
  decode 0xE244A000 = .ok (.spclampSet 2 5) ∧ decode 0xE404A001 = .ok (.spsweep 2 5 true) ∧ decode 0xE604A000 = .ok (.spread 2 5) ∧
  decode 0xE624A001 = .ok (.spreadOnes 2 5 true) :=
  by and_intros <;> rfl

theorem test_decode_task :
  decode 0xE804B7A0 = .ok (.tspawn 2 5 11 13) ∧ decode 0xEA000000 = .ok .tend ∧ decode 0xEC012000 = .ok (.tqry 9) ∧
  decode 0xEC24A000 = .ok (.tqryTask 2 5) ∧ decode 0xEE000000 = .ok .twaitw :=
  by and_intros <;> rfl

theorem test_decode_routing :
  decode 0xF05534B5 = .ok (.tkins 21 38 75 5) ∧ decode 0xF2553000 = .ok (.tapex 21 38) ∧ decode 0xF2540010 = .ok (.tapexTake 21) ∧
  decode 0xF2540020 = .ok (.tapexDone 21) :=
  by and_intros <;> rfl

theorem test_decode_system :
  decode 0xF400000B = .ok (.trap 11) ∧ decode 0xF6000000 = .ok .eret ∧ decode 0xF8080207 = .ok (.srr 2 519) ∧ decode 0xF8004E07 = .ok (.srw 9 519) ∧
  decode 0xF8004C25 = .ok (.lodepc 9) ∧ decode 0xFA04A000 = .ok (.launch 2 5) ∧ decode 0xFC04A000 = .ok (.cancel 2 5) ∧
  decode 0xFC24B600 = .ok (.cntrd 2 5 11) ∧ decode 0xFC400015 = .ok (.bkpt 21) ∧ decode 0xFC612000 = .ok (.cycle 9) ∧
  decode 0xFF000007 = .ok (.illegal 16777223) :=
  by and_intros <;> rfl

/-! ## Ill-formed instructions (R49 to R52, R56, R61): the check that refuses each -/

theorem test_wf_source : staticErr (.iadd 20 124 5 false .wrap) = some .badRegcode := by decide
theorem test_wf_source_pair : staticErr (.iadd 20 41 4 false .p64) = some .badRegcode := by decide
theorem test_wf_dest : staticErr (.iadd 112 4 5 false .wrap) = some .badRegcode := by decide
theorem test_wf_dest_pair : staticErr (.retag 21 4 0x14 false) = some .badRegcode := by decide
theorem test_wf_atomic_pair : staticErr (.atadd 21 4 5 10 0) = some .badRegcode := by decide
theorem test_wf_cas_list : staticErr (.atcas 110 4 5 10 0) = some .badRegcode := by decide
theorem test_wf_quad : staticErr (.ld 22 4 5 11 0) = some .badRegcode := by decide
theorem test_wf_route_list : staticErr (.tkins 100 3 4 7) = some .badRegcode := by decide
theorem test_wf_mask_dest : staticErr (.icmp .eq 0 4 5) = some .badRegcode := by decide
theorem test_wf_width : staticErr (.ld 20 4 5 12 0) = some .badWidthcode := by decide
theorem test_wf_chain : staticErr (.iadd 20 4 5 true .wrap) = some .chainIllegal := by decide
theorem test_wf_good : WellFormed (.iadd 120 4 5 true .wrap) = true := by decide

theorem test_decode_lode : decodeLode 0x00C5828B = .chpush 5 11 12 ∧ decodeLode 0x0000100B = .lexit ∧ decodeLode 0x00B50533 = .lodeInstruction 0x00B50533 := by
  and_intros <;> rfl

/-! ## One step: values worked out by hand from the rules named -/

/-- The crew after one step that executes `w` in the crew `f` makes. -/
def ran (w : Nat) (f : Crew → Crew) (p : Crew → Bool) : Bool :=
  match step ((placeCrew State.reset w).modCrew 2 0 f) with
  | .next t => (match t.crew? 2 0 with | some c => p c | none => false)
  | _ => false

/-- A register set to one value of a format in all lanes. -/
def vset (r : Nat) (f : Fmt) (v : Word) (c : Crew) : Crew := { c with regs := c.regs.set r ⟨.uni v, f⟩ }

/-- Lane 0 of a register. -/
def vget (c : Crew) (r : Nat) : Word := (c.vreg r).val.lane 0

-- R91: a sum wraps, and FN 1 clamps it; FN 2 clamps a difference at 0.
theorem test_run_iadd_wraps : ran 0x02141030 (vset 2 .i32 0x7FFFFFFF ∘ vset 3 .i32 1) (fun c => vget c 5 == 0x80000000) = true := by decide +kernel
theorem test_run_iadd_sat : ran 0x02141031 (vset 2 .i32 0x7FFFFFFF ∘ vset 3 .i32 1) (fun c => vget c 5 == 0x7FFFFFFF) = true := by decide +kernel
theorem test_run_isub_usat : ran 0x04141032 (vset 2 .n32 3 ∘ vset 3 .n32 5) (fun c => vget c 5 == 0 && (c.vreg 5).fmt == .n32) = true := by decide +kernel
-- R91: FN 2 is the upper half of the unsigned product; a quotient truncates towards zero.
theorem test_run_imul_hi : ran 0x06141032 (vset 2 .n32 0xFFFFFFFF ∘ vset 3 .n32 0xFFFFFFFF) (fun c => vget c 5 == 0xFFFFFFFE) = true := by decide +kernel
theorem test_run_idiv : ran 0x0A141030 (vset 2 .i32 0xFFFFFFF9 ∘ vset 3 .i32 2) (fun c => vget c 5 == 0xFFFFFFFD) = true := by decide +kernel
-- R92: the sign is shifted in; a and not b; leading zeros of 1; a shift by 32 leaves nothing.
theorem test_run_sar : ran 0x12141032 (vset 2 .i32 0x80000000 ∘ vset 3 .i32 4) (fun c => vget c 5 == 0xF8000000) = true := by decide +kernel
theorem test_run_shl_32 : ran 0x12141030 (vset 2 .i32 1 ∘ vset 3 .i32 32) (fun c => vget c 5 == 0) = true := by decide +kernel
theorem test_run_andn : ran 0x10141033 (vset 2 .i32 0xFF00 ∘ vset 3 .i32 0x0F00) (fun c => vget c 5 == 0xF000) = true := by decide +kernel
theorem test_run_clz : ran 0x14141001 (vset 2 .i32 1 ∘ vset 3 .i32 0) (fun c => vget c 5 == 31) = true := by decide +kernel
-- R93: BFX of 8 bits from bit 4, sign-extended.
theorem test_run_bfx : ran 0x16141031 (vset 2 .i32 0x00000F80 ∘ vset 3 .i32 0x0804) (fun c => vget c 5 == 0xFFFFFFF8) = true := by decide +kernel
-- R121: 1.5 + 0.75 is 2.25.
theorem test_run_fadd : ran 0x40141030 (vset 2 .f32 0x3FC00000 ∘ vset 3 .f32 0x3F400000) (fun c => vget c 5 == 0x40100000) = true := by decide +kernel
-- R109: MAND is the bitwise AND of two masks.
theorem test_run_mand : ran 0x7E0C0820 (fun c => { c with m := (c.m.set 1 0xFF00FF00).set 2 0x0FF00FF0 }) (fun c => c.mask 3 == 0x0F000F00) = true := by decide +kernel
-- R98: KADD wraps modulo 2^64.
theorem test_run_kadd : ran 0x3804B600 (withK 5 0xFFFFFFFFFFFFFFFF ∘ withK 11 3) (fun c => c.k.getD 2 0 == 2) = true := by decide +kernel
-- R65, R70: NOP moves every lane on by one word; EXIT ends the crew.
theorem test_run_nop : ran 0x7A000000 (id) (fun c => (c.lane 0).pc == setupPc + 32 && (c.lane 31).pc == setupPc + 32) = true := by decide +kernel
theorem test_run_exit : ran 0x7A200000 (id) (fun c => c.ended) = true := by decide +kernel
-- R110, R71: TRAP 5 saves the pc and enters the handler.
theorem test_run_trap : ran 0xF4000005 (id) (fun c => c.trap.epc == setupPc && (c.lane 0).pc == 0xC0000) = true := by decide +kernel

/-! ## Hypotheses that can be met: vector arithmetic -/

theorem witness_TwoSourceResults : ∃ (x : Ctx) (i : Instr) (t : TwoSource) (p q : Opnd), integerTwo i = some t ∧ x.Issues i ∧
    x.read [] t.a = .ok p ∧ x.read [t.a] t.b = .ok q ∧ t.ok p q = true :=
  ⟨on id, .iadd 1 2 3 false .sat, _, same .n32 0, same .n32 0, rfl, by decide +kernel, gives_eq (by decide +kernel), gives_eq (by decide +kernel), rfl⟩

theorem witness_OneSourceResults : ∃ (x : Ctx) (i : Instr) (t : OneSource) (p : Opnd), (integerOne i = some t ∨ moveOne i = some t) ∧ x.Issues i ∧
    x.read [] t.a = .ok p ∧ t.ok p = true :=
  ⟨on id, .popc 1 2 false, _, same .n32 0, .inl rfl, by decide +kernel, gives_eq (by decide +kernel), rfl⟩

theorem witness_TwoSourceResults_float : ∃ (x : Ctx) (i : Instr) (t : TwoSource) (p q : Opnd), floatTwo i = some t ∧ x.Issues i ∧
    x.read [] t.a = .ok p ∧ x.read [t.a] t.b = .ok q ∧ t.ok p q = true :=
  ⟨on (filled .f32 0x3F800000), .fadd 1 2 3 false .rup, _, same .f32 0x3F800000, same .f32 0x3F800000, rfl, by decide +kernel,
    gives_eq (by decide +kernel), gives_eq (by decide +kernel), rfl⟩

theorem witness_OneSourceResults_float : ∃ (x : Ctx) (i : Instr) (t : OneSource) (p : Opnd), floatOne i = some t ∧ x.Issues i ∧
    x.read [] t.a = .ok p ∧ t.ok p = true ∧ (p.isWide = true → x.c.oddWide t.a = false) :=
  ⟨on (filled .n64 5), .i2f 1 2 false .rne, _, same .n64 5, rfl, by decide +kernel, gives_eq (by decide +kernel), rfl, by decide +kernel⟩

theorem witness_ThreeSourceResults : ∃ (x : Ctx) (i : Instr) (t : ThreeSource) (p q o : Opnd), threeSource i = some t ∧ x.Issues i ∧
    x.read [] t.a = .ok p ∧ x.read [t.a] t.b = .ok q ∧ x.read [t.a, t.b] t.d = .ok o ∧ t.ok p q o = true :=
  ⟨on (filled .f32 0x3F800000), .ffma 1 2 3 false .rne, _, same .f32 0x3F800000, same .f32 0x3F800000, same .f32 0x3F800000, rfl, by decide +kernel,
    gives_eq (by decide +kernel), gives_eq (by decide +kernel), gives_eq (by decide +kernel), rfl⟩

theorem witness_WideResults : ∃ (x : Ctx) (i : Instr) (t : TwoWide) (p q : Opnd), wideTwo i = some t ∧ x.Issues i ∧ x.read [] t.a = .ok p ∧
    x.read [t.a] t.b = .ok q ∧ t.ok p q = true ∧ (∀ r ∈ t.even, x.c.oddWide r = false) ∧
    ∀ j, j < 32 → x.lanes.getLsbD j = true → wideLane i p q j = true :=
  ⟨on (filled .ptr 5), .pdiff 4 2 6 5, _, same .ptr 5, same .ptr 5, rfl, by decide +kernel, gives_eq (by decide +kernel),
    gives_eq (by decide +kernel), rfl, by decide +kernel⟩

theorem witness_WideResults_moves : ∃ (x : Ctx) (i : Instr) (d a : Reg) (ok : Opnd → Bool) (val : Opnd → Nat → Dword) (fmt : Opnd → Fmt) (p : Opnd),
    wideOne i = some (d, a, ok, val, fmt) ∧ x.Issues i ∧ x.read [] a = .ok p ∧ ok p = true ∧ (p.isWide = true → x.c.oddWide a = false) ∧
    (d.toNat < 112 → d.toNat % 2 = 0) :=
  ⟨on (filled .ptr 5), .palign 4 2 5, _, _, _, _, _, same .ptr 5, rfl, by decide +kernel, gives_eq (by decide +kernel), rfl, by decide +kernel⟩

theorem witness_ConstantAndPointerResults :
    (∃ (x : Ctx) (i : Instr) (d : Reg) (f : Fmt) (w : Word), constant32 x i = some (d, f, w) ∧ x.Issues i) ∧
    (∃ (x : Ctx) (d : Reg) (k : KReg) (c : BitVec 7) (f : Fmt), fmtOf c.toNat = some f ∧ fmtWide f = true ∧ x.Issues (.ktov d k c)) ∧
    ∃ (x : Ctx) (i : Instr) (d a : Reg) (f : Dword → Nat) (p : Opnd), pointerQuestion x i = some (d, a, f) ∧ x.Issues i ∧
      x.read [] a = .ok p ∧ p.isPair a classP = true ∧ x.c.oddWide a = false :=
  ⟨⟨on id, .movi 1 7, _, _, _, rfl, by decide +kernel⟩, ⟨on id, 2, 3, BitVec.ofNat 7 (fmtCode .n64), .n64, by decide +kernel⟩,
    on (filled .ptr 5), .pspace 4 2, _, _, _, same .ptr 5, rfl, by decide +kernel, gives_eq (by decide +kernel), by decide +kernel⟩

theorem witness_SelectAndMaskResults_select : ∃ (x : Ctx) (d a b : Reg) (nw : Bool) (m : MReg) (p q : Opnd) (f : Fmt), x.Issues (.sel d a b nw m) ∧
    x.read [] a = .ok p ∧ x.read [a] b = .ok q ∧ commonFmt (p.beside a q) (q.beside b p) .n32 = some f ∧ p.isIn classAny32 = true ∧ q.isIn classAny32 = true :=
  ⟨on id, 1, 2, 3, false, 3, same .n32 0, same .n32 0, .n32, by decide +kernel, gives_eq (by decide +kernel), gives_eq (by decide +kernel), by decide⟩

theorem witness_SelectAndMaskResults_masks :
    (∃ (x : Ctx) (c : ICond) (m : MReg) (a b : Reg) (p q : Opnd), x.Issues (.icmp c m a b) ∧ x.read [] a = .ok p ∧ x.read [a] b = .ok q ∧
      p.isX = true ∧ q.isX = true) ∧
    (∃ (x : Ctx) (c : ICond) (m : MReg) (a : Reg) (n : BitVec 11) (p : Opnd), x.Issues (.icmpi c m a n) ∧ x.read [] a = .ok p ∧ p.isX = true) ∧
    (∃ (x : Ctx) (c : BitVec 3) (m : MReg) (a b : Reg) (p q : Opnd) (f : Fmt), x.Issues (.fcmp c m a b) ∧ x.read [] a = .ok p ∧
      x.read [a] b = .ok q ∧ floatFmt p q = some f) ∧
    (∃ (x : Ctx) (m : MReg) (a : Reg) (p : Opnd), x.Issues (.mset m a) ∧ x.read [] a = .ok p ∧ p.isX = true) ∧
    ∃ (x : Ctx) (i : Instr) (m : MReg) (f : Nat → Bool), maskOnly x i = some (m, f) ∧ x.Issues i :=
  ⟨⟨on id, .lt, 3, 1, 2, same .n32 0, same .n32 0, by decide +kernel, gives_eq (by decide +kernel), gives_eq (by decide +kernel), by decide⟩,
    ⟨on id, .lt, 3, 1, 5, same .n32 0, by decide +kernel, gives_eq (by decide +kernel), by decide⟩,
    ⟨on (filled .f32 0), 2, 3, 1, 2, same .f32 0, same .f32 0, .f32, by decide +kernel, gives_eq (by decide +kernel), gives_eq (by decide +kernel), by decide⟩,
    ⟨on id, 3, 1, same .n32 0, by decide +kernel, gives_eq (by decide +kernel), by decide⟩, on id, .mand 3 1 2, _, _, rfl, by decide +kernel⟩

theorem witness_UniformResults :
    (∃ (x : Ctx) (i : Instr) (d : KReg) (v : Dword), uniformOnly x i = some (d, v) ∧ x.Issues i) ∧
    ∃ (x : Ctx) (i : Instr) (d : KReg) (a : Reg) (f : Opnd → Dword) (p : Opnd), uniformLane x i = some (d, a, f) ∧ x.Issues i ∧
      x.read [] a = .ok p ∧ (p.isWide = true → x.c.oddWide a = false) :=
  ⟨⟨on id, .kadd 1 2 (.imm 3), _, _, rfl, by decide +kernel⟩, on (filled .i64 5), .krdlane 1 2 31, _, _, _, same .i64 5, rfl, by decide +kernel,
    gives_eq (by decide +kernel), by decide +kernel⟩

theorem witness_CrossLaneResults : ∃ (x : Ctx) (i : Instr) (m : MReg) (a b : Opnd) (n n' : Nat) (d : Reg) (f : Fmt) (val : Nat → Word),
    memberMask i = some m ∧ x.Issues i ∧ (x.c.seenBy x.lanes).readCode 0 (crossSources i).1 = .ok (a, n) ∧
    (x.c.seenBy x.lanes).readCode n (crossSources i).2 = .ok (b, n') ∧
    crossLane i a b (x.c.needed (x.c.mask m.toNat)) = some (d, f, val) ∧ subMask x.lanes (x.c.mask m.toNat) = true ∧
    x.c.arrivedAt x.pc = [] ∧ subMask x.lanes x.c.active = true ∧ subMask (x.c.needed (x.c.mask m.toNat)) x.lanes = true :=
  ⟨on id, .reduce 1 2 .add false 0, 0, same .n32 0, ⟨.uni 0, .uni 0, none⟩, 0, 0, 1, _, _, rfl, by decide +kernel, gives_eq (by decide +kernel),
    gives_eq (by decide +kernel), rfl, by decide +kernel⟩

/-! ## Hypotheses that can be met: control, traps, system registers -/

theorem witness_BranchResults :
    (∃ (x : Ctx) (p : MReg) (neg : Bool) (off : BitVec 21), x.Issues (.bra p neg off)) ∧
    (∃ (x : Ctx) (off : BitVec 21), x.Issues (.call off) ∧ subMask x.c.active x.lanes = true) ∧
    ∃ (x : Ctx) (i : Instr) (k : KReg), (i = .brx k ∨ (i = .ret ∧ k = 15)) ∧ x.Issues i ∧ isDev (x.k k) = true ∧ (x.k k).toNat % 32 = 0 :=
  ⟨⟨on id, 3, true, 5, by decide +kernel⟩, ⟨on id, 5, by decide +kernel⟩,
    on (withK 15 0x4000), .ret, 15, .inr ⟨rfl, rfl⟩, by decide +kernel⟩

theorem witness_JoinExitWindowResults :
    (∃ (x : Ctx) (j : MReg) (off : BitVec 21), x.Issues (.jset j off) ∧ (x.c.j.getD j.toNat JReg.reset).st ≠ .await) ∧
    (∃ (x : Ctx) (j : MReg), x.Issues (.jwait j) ∧ (x.c.j.getD j.toNat JReg.reset).st ≠ .idle ∧
      subMask x.lanes (x.c.j.getD j.toNat JReg.reset).mask = true) ∧
    (∃ x : Ctx, x.Issues .exit) ∧
    ∃ (x : Ctx) (d a : Reg) (p : Opnd), x.Issues (.repack d a) ∧ x.read [] a = .ok p ∧ p.isX = true ∧ ∀ r ∈ x.c.j, r.st = .idle :=
  ⟨⟨on id, 2, 5, by decide +kernel⟩,
    ⟨on fun c => { c with j := c.j.set 2 ⟨0xFFFFFFFF, 0, 0x4000, .set⟩ }, 2, by decide +kernel⟩,
    ⟨on id, by decide +kernel⟩, on id, 1, 2, same .n32 0, by decide +kernel, gives_eq (by decide +kernel), by decide +kernel⟩

theorem witness_JoinExitWindowResults_window :
    (∃ (x : Ctx) (i : Instr) (b : Dword), ((∃ n : BitVec 5, i = .winbase n ∧ b = n.zeroExtend 64) ∨ ∃ k, i = .winbaseK k ∧ b = x.k k) ∧
      x.Issues i ∧ b.toNat < x.c.regs16) ∧ (∃ x : Ctx, x.Issues .nop) ∧ ∃ x : Ctx, x.Issues .yield :=
  ⟨⟨on id, .winbase 1, 1, .inl ⟨1, rfl, rfl⟩, by decide +kernel⟩, ⟨on id, by decide +kernel⟩, on id, by decide +kernel⟩

theorem witness_TrapEntryResults : ∃ (x : Ctx) (i : Instr) (cause : Nat) (eval : Dword), trapsOnPurpose x i = some (cause, eval) ∧ x.Issues i ∧
    x.c.inHandler = false ∧ x.c.trap.tvec ≠ 0xFFFFFFFFFFFFFFFF ∧ specTask x.st x.g x.c = none :=
  ⟨on id, .trap 11, _, _, rfl, by decide +kernel⟩

theorem witness_UnhandledTraps : ∃ (x : Ctx) (i : Instr) (cause : Nat) (eval : Dword) (g : Gang) (l : Launch),
    trapsOnPurpose x i = some (cause, eval) ∧ x.Issues i ∧ x.st.gang? x.gid = some g ∧ x.st.launch? g.launch = some l ∧
    specTask x.st x.g x.c = none ∧ x.c.inHandler = true :=
  ⟨on fun c => { c with trap := { c.trap with tstat := 1 } }, .bkpt 5, _, _, _, _, rfl, by decide +kernel, rfl, rfl, by decide +kernel⟩

theorem witness_UnhandledTraps_noHandler : ∃ (x : Ctx) (i : Instr) (cause : Nat) (eval : Dword) (g : Gang) (l : Launch),
    trapsOnPurpose x i = some (cause, eval) ∧ x.Issues i ∧ x.st.gang? x.gid = some g ∧ x.st.launch? g.launch = some l ∧
    specTask x.st x.g x.c = none ∧ x.c.inHandler = false ∧ x.c.trap.tvec = 0xFFFFFFFFFFFFFFFF :=
  ⟨on fun c => { c with trap := { c.trap with tvec := 0xFFFFFFFFFFFFFFFF } }, .illegal 5, _, _, _, _, rfl, by decide +kernel, rfl, rfl,
    by decide +kernel⟩

theorem witness_EretResults :
    (∃ x : Ctx, x.Issues .eret ∧ x.c.inHandler = true ∧ isDev x.c.trap.epc = true ∧ x.c.trap.epc.toNat % 32 = 0) ∧ ∃ c : Crew, c.Shaped :=
  ⟨⟨on fun c => { c with trap := { c.trap with tstat := 1, epc := 0x4000 } }, by decide +kernel⟩,
    setupCrew, by decide +kernel⟩

theorem witness_SystemRegisterWrites :
    (∃ (x : Ctx) (k : KReg), x.Issues (.srw k 0x001)) ∧ (∃ (x : Ctx) (k : KReg), x.Issues (.srw k 0x006)) ∧
    (∃ (x : Ctx) (k : KReg), x.Issues (.srw k 0x021) ∧ histOk (x.k k) = true) ∧
    (∃ (x : Ctx) (k : KReg) (r : BitVec 10) (v : Dword), x.Issues (.srw k r) ∧ sysReg x r.toNat = some (.ro, v) ∧ x.k k = v) ∧
    ∃ (x : Ctx) (k : KReg) (i : Instr), (i = .lodepc k ∨ i = .srw k 0x025) ∧ x.Issues i ∧ isDev (x.k k) = true ∧ (x.k k).toNat % 16 = 0 ∧
      x.g.lode.st ≠ .running :=
  ⟨⟨on id, 3, by decide +kernel⟩, ⟨on id, 3, by decide +kernel⟩, ⟨on id, 3, by decide +kernel⟩,
    ⟨on id, 3, 0x000, 0, by decide +kernel⟩,
    on (withK 3 0x4000), 3, .lodepc 3, .inl rfl, by decide +kernel⟩

/-- The crew in handler mode with EPC `epc`; all its lanes trapped. -/
def handling (epc : Dword) (c : Crew) : Crew := { c with trap := { c.trap with tstat := 1, elanes := 0xFFFFFFFF, epc := epc } }

theorem witness_BranchResults_traps :
    (∃ (x : Ctx) (off : BitVec 21), x.Issues (.call off) ∧ subMask x.c.active x.lanes = false) ∧
    (∃ (x : Ctx) (k : KReg), x.Issues (.brx k) ∧ isDev (x.k k) = false) ∧
    (∃ (x : Ctx) (i : Instr) (k : KReg), (i = .brx k ∨ (i = .ret ∧ k = 15)) ∧ x.Issues i ∧ isDev (x.k k) = true ∧ (x.k k).toNat % 32 ≠ 0) ∧
    (∃ w : Word, w.extractLsb' 25 7 = 0x3D ∧ 4 ≤ (w.extractLsb' 21 4).toNat) ∧
    ∃ w : Word, w.extractLsb' 25 7 = 0x3D ∧ (w.extractLsb' 21 4).toNat < 4 ∧ w.extractLsb' 17 4 ≠ 0 :=
  ⟨⟨here base 0xFFFF, 5, by decide +kernel⟩, ⟨on (withK 3 0x3000000000000000), 3, by decide +kernel⟩,
    ⟨on (withK 15 0x4010), .ret, 15, .inr ⟨rfl, rfl⟩, by decide +kernel⟩, ⟨0x7A800000, by decide⟩,
    0x7A020000, by decide⟩

theorem witness_ChecksBeforeAnInstructionActs :
    (∃ (x : Ctx) (i : Instr) (e : StaticErr), x.Group ∧ (encode i).isSome = true ∧ lodeWord i = false ∧ staticErr i = some e) ∧
    (∃ (x : Ctx) (i : Instr), x.Group ∧ (encode i).isSome = true ∧ lodeWord i = false ∧ staticErr i = none ∧ chainBroken i x.c x.lanes = true) ∧
    (∃ (x : Ctx) (i : Instr), x.Group ∧ (encode i).isSome = true ∧ lodeWord i = false ∧ staticErr i = none ∧ chainBroken i x.c x.lanes = false ∧
      rangeBroken i x.c = true) ∧
    (∃ (x : Ctx) (i : Instr), x.Group ∧ (encode i).isSome = true ∧ lodeWord i = false ∧ staticErr i = none ∧ chainBroken i x.c x.lanes = false ∧
      rangeBroken i x.c = false ∧ x.c.inHandler = true ∧ handlerForbids i = true) ∧
    (∃ (x : Ctx) (i : Instr) (l : Nat) (t : Task), x.Group ∧ (encode i).isSome = true ∧ lodeWord i = false ∧ staticErr i = none ∧
      chainBroken i x.c x.lanes = false ∧ rangeBroken i x.c = false ∧ (x.c.inHandler && handlerForbids i) = false ∧
      (if gangOrdered x.st x.gid then orderedForbids i else needsTask i) = false ∧ x.mode = .spec l t ∧ irrevocable i x.c = true) ∧
    (∃ (x : Ctx) (i : Instr), x.Group ∧ (encode i).isSome = true ∧ lodeWord i = false ∧ staticErr i = none ∧ chainBroken i x.c x.lanes = false ∧
      rangeBroken i x.c = false ∧ (x.c.inHandler && handlerForbids i) = false ∧
      (if gangOrdered x.st x.gid then orderedForbids i else needsTask i) = false ∧ x.mode = .plain ∧ (x.c.seenBy x.arrived).chute.length < needsOf i ∧
      x.g.lode.st = .running) ∧
    ∃ (x : Ctx) (i : Instr), x.Group ∧ (encode i).isSome = true ∧ lodeWord i = false ∧ staticErr i = none ∧ chainBroken i x.c x.lanes = false ∧
      rangeBroken i x.c = false ∧ (x.c.inHandler && handlerForbids i) = false ∧
      (if gangOrdered x.st x.gid then orderedForbids i else needsTask i) = false ∧ x.mode = .plain ∧ (x.c.seenBy x.arrived).chute.length < needsOf i ∧
      x.g.lode.st ≠ .running :=
  ⟨⟨on id, .iadd 112 2 3 false .wrap, .badRegcode, by decide +kernel⟩,
    ⟨on fun c => { c with chain := some ⟨0x7F000, 0xFFFFFFFF, 0, []⟩ }, .nop, by decide +kernel⟩,
    ⟨on id, .iadd 100 2 3 false .wrap, by decide +kernel⟩,
    ⟨on (handling 0x4000), .bar 3, by decide +kernel⟩,
    ⟨here (ordered false) 0xFFFFFFFF, .mxwait, 1, firstTask false, by decide +kernel⟩,
    ⟨here (base.modGang 2 fun g => { g with lode := { g.lode with st := .running } }) 0xFFFFFFFF, .kpop 3, by decide +kernel⟩,
    on id, .kpop 3, by decide +kernel⟩

theorem witness_ChecksBeforeAnInstructionActs_tasks :
    (∃ (x : Ctx) (b : BitVec 3), x.Group ∧ staticErr (.bar b) = none ∧ chainBroken (.bar b) x.c x.lanes = false ∧ rangeBroken (.bar b) x.c = false ∧
      (x.c.inHandler && handlerForbids (.bar b)) = false ∧ gangOrdered x.st x.gid = true) ∧
    ∃ x : Ctx, x.Group ∧ staticErr .tend = none ∧ chainBroken .tend x.c x.lanes = false ∧ rangeBroken .tend x.c = false ∧
      (x.c.inHandler && handlerForbids .tend) = false ∧ gangOrdered x.st x.gid = false :=
  ⟨⟨here (ordered true) 0xFFFFFFFF, 3, by decide +kernel⟩,
    on id, by decide +kernel⟩

theorem witness_TrapEntryResults_operation : ∃ (s : State) (gid ci : Nat) (g : Gang) (c : Crew) (lanes : Mask), s.gang? gid = some g ∧
    s.crew? gid ci = some c ∧ c.Shaped ∧ subMask lanes c.live = true ∧ specTask s g c = none ∧ c.inHandler = false ∧
    c.trap.tvec ≠ 0xFFFFFFFFFFFFFFFF :=
  ⟨base, 2, 0, setupGang 2 1 Lode.reset [setupCrew], setupCrew, 0xFFFFFFFF, by decide +kernel⟩

theorem witness_EretResults_returns :
    (∃ (s : State) (gid ci : Nat) (c : Crew), s.crew? gid ci = some c ∧ c.Shaped ∧ c.ended = false ∧ c.inHandler = true ∧ c.handlerLanes ≠ 0 ∧
      subMask c.handlerLanes c.eretLanes = true) ∧
    (∃ (s : State) (gid ci : Nat) (c : Crew), s.crew? gid ci = some c ∧ c.Shaped ∧ c.ended = false ∧ c.inHandler = true ∧ c.handlerLanes ≠ 0 ∧
      subMask c.handlerLanes c.eretLanes = false) ∧
    (∃ x : Ctx, x.Issues .eret ∧ x.c.inHandler = true ∧ specTask x.st x.g x.c = none ∧ isDev x.c.trap.epc = false) ∧
    ∃ x : Ctx, x.Issues .eret ∧ x.c.inHandler = true ∧ specTask x.st x.g x.c = none ∧ isDev x.c.trap.epc = true ∧ x.c.trap.epc.toNat % 32 ≠ 0 :=
  ⟨⟨base.modCrew 2 0 (fun c => { handling 0x4000 c with eretLanes := 0xFFFFFFFF }), 2, 0, { handling 0x4000 setupCrew with eretLanes := 0xFFFFFFFF },
      by decide +kernel⟩,
    ⟨base.modCrew 2 0 (handling 0x4000), 2, 0, handling 0x4000 setupCrew, by decide +kernel⟩,
    ⟨on (handling 0x3000000000000000), by decide +kernel⟩,
    on (handling 0x4010), by decide +kernel⟩

/-! ## Hypotheses that can be met: memory -/

theorem witness_LoadAndPrefetchResults :
    (∃ (x : Ctx) (i : Instr) (sg : Bool) (d : Reg) (k : KReg) (o : Reg) (w : BitVec 4) (n : BitVec 3) (v : Opnd) (es : List Elem) (s s' : State)
      (vals : List (Nat × Nat)), loadParts i = some (sg, d, k, o, w, n) ∧ x.Issues i ∧ x.read [] o = .ok v ∧ v.isX = true ∧
      x.Checks (x.elems x.lanes k o v n (widthOf w.toNat)) ⟨widthOf w.toNat, .plain (widthOf w.toNat), .read, false⟩ es s ∧
      runLocal x.readElem es s = .ok (vals, s')) ∧
    ∃ (x : Ctx) (d k : KReg) (o : Reg) (w : BitVec 4) (n : BitVec 3) (v : Opnd) (e : Elem) (s s' : State) (b : Nat),
      x.Issues (.ldk d k o w n) ∧ x.read [] o = .ok v ∧ v.isX = true ∧
      x.Checks (x.elems (laneMask x.low) k o v n (widthOf w.toNat)) ⟨widthOf w.toNat, .plain (widthOf w.toNat), .read, false⟩ [e] s ∧
      x.readElem s e = (some b, s') := by
  refine ⟨?_, ?_⟩
  · have h : checked (on (withK 3 0x100000)) ((on (withK 3 0x100000)).elems 0xFFFFFFFF 3 121 ⟨.aff 0 1, .uni 0, some .n32⟩ 0 (widthOf 9))
        ⟨widthOf 9, .plain (widthOf 9), .read, false⟩ (fun es s => answers (runLocal (on (withK 3 0x100000)).readElem es s) fun _ => true) = true := by
      decide +kernel
    obtain ⟨es, s, hc, hr⟩ := checked_eq h
    obtain ⟨⟨vals, s'⟩, he, -⟩ := answers_eq hr
    exact ⟨on (withK 3 0x100000), .lds 1 3 121 9 0, _, _, _, _, _, _, ⟨.aff 0 1, .uni 0, some .n32⟩, es, s, s', vals, rfl, by decide +kernel,
      gives_eq (by decide +kernel), by decide, hc, he⟩
  · have h : checked (on (withK 3 0x100000)) ((on (withK 3 0x100000)).elems 1 3 120 Opnd.zero 0 (widthOf 10))
        ⟨widthOf 10, .plain (widthOf 10), .read, false⟩ (fun es s => match es with
          | [e] => ((on (withK 3 0x100000)).readElem s e).1.isSome | _ => false) = true := by decide +kernel
    obtain ⟨es, s, hc, hr⟩ := checked_eq h
    match es, hc, hr with
    | [e], hc, hr =>
      obtain ⟨b, hb⟩ := Option.isSome_iff_exists.mp hr
      exact ⟨on (withK 3 0x100000), 1, 3, 120, 10, 0, Opnd.zero, e, s, _, b, by decide +kernel, gives_eq (by decide +kernel), by decide, hc,
        Prod.ext hb rfl⟩

/-- The store of register 1 that the witnesses below use. -/
theorem checked_store (x : Ctx) (h : checked x (x.elems x.lanes 3 121 ⟨.aff 0 1, .uni 0, some .n32⟩ 0 (widthOf 9))
    ⟨widthOf 9, .plain (widthOf 9), .write, false⟩ (fun _ _ => true) = true) (hi : x.Issues (.st 1 3 121 9 0))
    (hv : x.read [] 1 = .ok (same .n32 0)) (ho : gives (x.read [1] 121) ⟨.aff 0 1, .uni 0, some .n32⟩ = true) :
    ∃ (d : Reg) (k : KReg) (o : Reg) (w : BitVec 4) (n : BitVec 3) (val : Nat → Nat) (v : Opnd) (es : List Elem) (s : State),
      x.Issues (.st d k o w n) ∧ x.storeValue d (widthOf w.toNat) = .ok val ∧ x.read [d] o = .ok v ∧ v.isX = true ∧
      x.Checks (x.elems x.lanes k o v n (widthOf w.toNat)) ⟨widthOf w.toNat, .plain (widthOf w.toNat), .write, false⟩ es s := by
  obtain ⟨es, s, hc, -⟩ := checked_eq h
  exact ⟨1, 3, 121, 9, 0, _, _, es, s, hi, by unfold Ctx.storeValue; rw [hv]; rfl, gives_eq ho, by decide, hc⟩

theorem witness_StoreResults : ∃ x : Ctx, x.mode = .plain ∧
    ∃ (d : Reg) (k : KReg) (o : Reg) (w : BitVec 4) (n : BitVec 3) (val : Nat → Nat) (v : Opnd) (es : List Elem) (s : State),
      x.Issues (.st d k o w n) ∧ x.storeValue d (widthOf w.toNat) = .ok val ∧ x.read [d] o = .ok v ∧ v.isX = true ∧
      x.Checks (x.elems x.lanes k o v n (widthOf w.toNat)) ⟨widthOf w.toNat, .plain (widthOf w.toNat), .write, false⟩ es s :=
  ⟨on (withK 3 0x100000), by decide +kernel, checked_store _ (by decide +kernel) (by decide +kernel) (gives_eq (by decide +kernel)) (by decide +kernel)⟩

theorem witness_StoreResults_uniform : ∃ (x : Ctx) (d k : KReg) (o : Reg) (w : BitVec 4) (n : BitVec 3) (v : Opnd) (e : Elem) (s : State),
    x.Issues (.stk d k o w n) ∧ x.read [] o = .ok v ∧ v.isX = true ∧ x.mode = .plain ∧
    x.Checks (x.elems (laneMask x.low) k o v n (widthOf w.toNat)) ⟨widthOf w.toNat, .plain (widthOf w.toNat), .write, false⟩ [e] s := by
  have h : checked (on (withK 3 0x100000)) ((on (withK 3 0x100000)).elems 1 3 120 Opnd.zero 0 (widthOf 10))
      ⟨widthOf 10, .plain (widthOf 10), .write, false⟩ (fun es _ => es.length == 1) = true := by decide +kernel
  obtain ⟨es, s, hc, hr⟩ := checked_eq h
  match es, hc, hr with
  | [e], hc, _ =>
    exact ⟨on (withK 3 0x100000), 1, 3, 120, 10, 0, Opnd.zero, e, s, by decide +kernel, gives_eq (by decide +kernel), by decide, by decide +kernel, hc⟩

theorem witness_TaskStoresGoToTheWriteBuffer : ∃ (x : Ctx) (launch : Nat) (t : Task), x.mode = .spec launch t ∧
    ∃ (d : Reg) (k : KReg) (o : Reg) (w : BitVec 4) (n : BitVec 3) (val : Nat → Nat) (v : Opnd) (es : List Elem) (s : State),
      x.Issues (.st d k o w n) ∧ x.storeValue d (widthOf w.toNat) = .ok val ∧ x.read [d] o = .ok v ∧ v.isX = true ∧
      x.Checks (x.elems x.lanes k o v n (widthOf w.toNat)) ⟨widthOf w.toNat, .plain (widthOf w.toNat), .write, false⟩ es s :=
  ⟨here ((ordered false).modCrew 2 0 (withK 3 0x100000)) 0xFFFFFFFF, 1, firstTask false, by decide +kernel,
    checked_store _ (by decide +kernel) (by decide +kernel) (gives_eq (by decide +kernel)) (by decide +kernel)⟩

theorem witness_AtomicResults : ∃ (x : Ctx) (i : Instr) (op : AtOp) (d : Reg) (k : KReg) (o : Reg) (w : BitVec 4) (n : BitVec 3) (p v : Opnd)
    (es : List Elem) (s s' : State) (vals : List (Nat × Nat)), atomicParts i = some (op, d, k, o, w, n) ∧ x.Issues i ∧ x.read [] d = .ok p ∧
    widthOf w.toNat ≤ 64 ∧ atomicTag op p.fmt (widthOf w.toNat) = true ∧ (p.isWide = true → x.c.oddWide d = false) ∧
    x.read [d] o = .ok v ∧ v.isX = true ∧ x.mode = .plain ∧
    x.Checks (x.elems x.lanes k o v n (widthOf w.toNat))
      ⟨widthOf w.toNat, .atomic (widthOf w.toNat), .atomic, hostAtomicOk op p.fmt (widthOf w.toNat)⟩ es s ∧
    runLocal (fun s e => elemAtomic s x.ag x.core .plain e op p.fmt (x.c.rawLane d.toNat (widthOf w.toNat) e.lane % 2 ^ widthOf w.toNat)
      (match op with
        | .cas => x.c.rawLane (d.toNat + (if widthOf w.toNat = 64 then 2 else 1)) (widthOf w.toNat) e.lane % 2 ^ widthOf w.toNat
        | _ => 0)) (bySector es) s = .ok (vals, s') := by
  have h : checked (on (withK 3 0x100000)) ((on (withK 3 0x100000)).elems 0xFFFFFFFF 3 121 ⟨.aff 0 1, .uni 0, some .n32⟩ 0 (widthOf 9))
      ⟨widthOf 9, .atomic (widthOf 9), .atomic, hostAtomicOk .add (some .n32) (widthOf 9)⟩ (fun es s =>
        answers (runLocal (fun s e => elemAtomic s (on (withK 3 0x100000)).ag 0 .plain e .add (some .n32)
          ((on (withK 3 0x100000)).c.rawLane 1 32 e.lane % 2 ^ 32) 0) (bySector es) s) fun _ => true) = true := by decide +kernel
  obtain ⟨es, s, hc, hr⟩ := checked_eq h
  obtain ⟨⟨vals, s'⟩, he, -⟩ := answers_eq hr
  exact ⟨on (withK 3 0x100000), .atadd 1 3 121 9 0, .add, 1, 3, 121, 9, 0, same .n32 0, ⟨.aff 0 1, .uni 0, some .n32⟩, es, s, s', vals, rfl,
    by decide +kernel, gives_eq (by decide +kernel), by decide, by decide, by decide +kernel, gives_eq (by decide +kernel), by decide, by decide +kernel, hc, he⟩

theorem witness_AtomicUpdatesStorage : ∃ (s : State) (core key n : Nat), s.mem.wf = true ∧ Untracked s ∧
    (isDevKey key = true → (s.core core).line? (key / 512) = none) ∧ 0 < n ∧ key % 512 + n ≤ 512 ∧ poisoned s key n = false :=
  ⟨base, 0, 0x100000, 32, by decide +kernel, by unfold Untracked; decide +kernel, by decide +kernel⟩

theorem witness_LoadAndPrefetchResults_prefetch : ∃ (x : Ctx) (k : KReg) (o : Reg) (w : BitVec 4) (n : BitVec 3) (v : Opnd), x.Issues (.pf k o w n) ∧
    x.read [] o = .ok v ∧ v.isX = true :=
  ⟨on (withK 3 0x100000), 3, 121, 9, 0, ⟨.aff 0 1, .uni 0, some .n32⟩, by decide +kernel, gives_eq (by decide +kernel), by decide⟩

theorem witness_StorageReadsAndWrites : ∃ m : Memory, m.wf = true ∧ m.cells ≠ [] := ⟨base.mem, by decide +kernel⟩

theorem witness_StorageReadsAndWrites_loads : ∃ (s s' : State) (core key n v : Nat) (cached stream : Bool),
    (cached = true ∨ isDevKey (key + n) = false ∧ isDevKey key = false) ∧ piecesRead s core cached stream [.store key n] = (some v, s') :=
  ⟨base, (piecesRead base 0 true false [.store 0x100000 32]).2, 0, 0x100000, 32, 0, true, false, .inl rfl, Prod.ext (by decide +kernel) rfl⟩

theorem witness_StorageReadsAndWrites_stores : ∃ (s : State) (core : Nat), s.mem.wf = true ∧ Untracked s ∧ core < s.cores.length :=
  ⟨base, 0, by decide +kernel, by unfold Untracked; decide +kernel, by decide +kernel⟩

/-! ## Hypotheses that can be met: ponds -/

theorem witness_PondInstructionResults :
    (∃ (x : Ctx) (h region cap par : KReg) (v : Nat) (s : State), x.Issues (.pondmk h region cap par) ∧
      makePond x.st x.ag (x.k region) (x.k cap) (x.k par) = (.ok v, s)) ∧
    (∃ (x : Ctx) (i : Instr) (h : Dword) (kind : PondOpKind) (p : Pond), pondSend x i = some (h, kind) ∧ x.Issues i ∧ h.getLsbD 63 = false ∧
      pondOf x.st x.part x.fn h = some p) ∧
    (∃ (x : Ctx) (d h : KReg) (n : BitVec 11) (p : Pond) (c : Cursor), x.Issues (.pcount d h n) ∧ (x.k h).getLsbD 63 = true ∧
      cursorOf x.st x.part x.fn (x.k h) = .ok (p, c)) ∧
    (∃ (x : Ctx) (h dst count : KReg) (p : Pond), x.Issues (.drain h dst count) ∧ pondOf x.st x.part x.fn (x.k h) = some p ∧
      spaceOf (x.k dst) ∈ [0, 1, 2, 3, 7] ∧ slotFree x.st x.core = true) ∧
    (∃ (x : Ctx) (d : Reg) (k : KReg) (o : Reg) (m : MReg) (p : Pond) (c : Cursor), x.Issues (.bnext d k o m) ∧
      cursorOf x.st x.part x.fn (x.k k) = .ok (p, c) ∧ x.c.recCause d p.w = none) ∧
    ∃ (x : Ctx) (d : Reg) (k : KReg) (o : Reg) (p : Pond) (c : Cursor) (r y : Opnd), x.Issues (.bwrite d k o) ∧
      cursorOf x.st x.part x.fn (x.k k) = .ok (p, c) ∧ x.read [] d = .ok r ∧ x.read [d] o = .ok y ∧ y.isX = true ∧ x.c.recCause d p.w = none :=
  ⟨⟨on fun c => withK 3 0x100000 (withK 4 64 (withK 5 0x10008FF c)), 2, 3, 4, 5, 0, _, by decide +kernel, gives_pair (by decide +kernel)⟩,
    ⟨here (pondState id) 0xFFFFFFFF, .basin 2 3 1, 0, _, pond, rfl, by decide +kernel⟩,
    ⟨here ((pondState withCursor).modCrew 2 0 (withK 3 cursorDesc)) 0xFFFFFFFF, 2, 3, 0, withCursor pond, ⟨3, 1, 0, 0, 2, 0⟩, by decide +kernel,
      by decide +kernel, gives_eq (by decide +kernel)⟩,
    ⟨here (pondState id) 0xFFFFFFFF, 3, 4, 5, pond, by decide +kernel⟩,
    ⟨here ((pondState withCursor).modCrew 2 0 (withK 3 cursorDesc)) 0xFFFFFFFF, 2, 3, 1, 4, withCursor pond, ⟨3, 1, 0, 0, 2, 0⟩, by decide +kernel,
      gives_eq (by decide +kernel), by decide +kernel⟩,
    here ((pondState withCursor).modCrew 2 0 (withK 3 cursorDesc)) 0xFFFFFFFF, 2, 3, 1, withCursor pond, ⟨3, 1, 0, 0, 2, 0⟩, same .n32 0, same .n32 0,
    by decide +kernel, gives_eq (by decide +kernel), gives_eq (by decide +kernel), gives_eq (by decide +kernel), by decide +kernel⟩

theorem witness_PondInstructionResults_put : ∃ (x : Ctx) (d : Reg) (k : KReg) (o key : Reg) (p : Pond) (r y : Opnd), x.Issues (.put d k o key) ∧
    pondOf x.st x.part x.fn (x.k k) = some p ∧ x.read [] o = .ok r ∧ x.read [o] key = .ok y ∧ y.isX = true ∧ x.c.recCause o p.w = none ∧
    p.broken = false :=
  ⟨here (pondState id) 0xFFFFFFFF, 20, 3, 1, 10, pond, same .n32 0, same .n32 0, by decide +kernel, by decide +kernel, gives_eq (by decide +kernel),
    gives_eq (by decide +kernel), by decide +kernel⟩

theorem witness_PondInstructionResults_heldPut : ∃ (x : Ctx) (d : Reg) (k : KReg) (o key : Reg) (p : Pond) (r y : Opnd), x.Issues (.put d k o key) ∧
    pondOf x.st x.part x.fn (x.k k) = some p ∧ x.read [] o = .ok r ∧ x.read [o] key = .ok y ∧ y.isX = true ∧ x.c.recCause o p.w = none ∧
    p.broken = false ∧ specTask x.st x.g x.c ≠ none :=
  ⟨here { ordered false with ponds := [pond] } 0xFFFFFFFF, 120, 3, 1, 10, pond, same .n32 0, same .n32 0, by decide +kernel, by decide +kernel,
    gives_eq (by decide +kernel), gives_eq (by decide +kernel), by decide +kernel⟩

theorem witness_PondBalanceRule : ∃ d : Pond, 0 < d.basins ∧ d.counts.length = d.basins ∧
    ∃ k, k < d.basins ∧ d.counts.getD 0 0 < d.counts.getD k 0 + d.slack ∧ ∀ j, j < d.basins → d.counts.getD k 0 ≤ d.counts.getD j 0 :=
  ⟨pond, by decide, by decide, 0, by decide⟩

theorem witness_PondBalanceRule_elsewhere : ∃ d : Pond, 0 < d.basins ∧ d.counts.length = d.basins ∧
    ∀ k, k < d.basins → (∀ j, j < d.basins → d.counts.getD k 0 ≤ d.counts.getD j 0) → d.counts.getD k 0 + d.slack ≤ d.counts.getD 0 0 :=
  ⟨{ pond with counts := [1, 0] }, by decide⟩

theorem witness_PondStepResults :
    (∃ (s : State) (part slot : Nat) (d : Pond) (op : PondOp) (rest : List PondOp) (recs : List (Nat × Nat)),
      s.pond? part slot = some d ∧ d.ops = op :: rest ∧ op.kind = .put 120 recs ∧ d.opPaused = false ∧ d.away s = false ∧ d.broken = false ∧
      d.total + recs.length ≤ d.cap) ∧
    (∃ (s : State) (part slot : Nat) (d : Pond) (op : PondOp) (rest : List PondOp) (recs : List (Nat × Nat)),
      s.pond? part slot = some d ∧ d.ops = op :: rest ∧ op.kind = .put 120 recs ∧ d.opPaused = false ∧ d.away s = false ∧ d.broken = false ∧
      d.cap < d.total + recs.length) ∧
    (∃ (s : State) (part slot : Nat) (d : Pond) (op : PondOp) (rest : List PondOp) (k : KReg) (desc : Dword),
      s.pond? part slot = some d ∧ d.ops = op :: rest ∧ op.kind = .pcount k 0x7FF desc ∧ desc.getLsbD 63 = false ∧ d.opPaused = false ∧
      d.away s = false ∧ d.broken = false ∧ d.paused = []) ∧
    (∃ (s : State) (part slot gid ci : Nat) (lanes : Mask) (pc : Dword) (d : Pond) (op : PondOp) (rest : List PondOp) (dst : Reg) (recs : List (Nat × Nat)),
      s.pond? part slot = some d ∧ d.ops = op :: rest ∧ op.src = .group gid ci lanes pc ∧ op.kind = .put dst recs ∧ dst ≠ 120 ∧ d.opPaused = false ∧
      d.away s = false ∧ d.broken = false ∧ d.total ≤ d.cap) ∧
    ∃ (s : State) (part slot : Nat) (d : Pond) (op : PondOp) (rest : List PondOp) (dst : Dword) (k : KReg) (cmd b p n : Nat) (y : EngCmd),
      s.pond? part slot = some d ∧ d.ops = op :: rest ∧ op.kind = .drain dst k cmd b p n ∧ d.broken = false ∧ d.paused = [] ∧
      nextRecord d.counts (d.basins + 1) b p = none ∧ s.cmd? cmd = some y ∧ y.paused = false ∧ blockedBy s y.core cmd [] = false :=
  ⟨⟨pondState (withOp (.put 120 [(7, 9)])), 0, 0, _, _, _, [(7, 9)], rfl, rfl, rfl, by decide +kernel⟩,
    ⟨pondState fun d => { withOp (.put 120 [(7, 9)]) d with cap := 0 }, 0, 0, _, _, _, [(7, 9)], rfl, rfl, rfl, by decide +kernel⟩,
    ⟨pondState (withOp (.pcount 3 0x7FF 0)), 0, 0, _, _, _, 3, 0, rfl, rfl, rfl, by decide +kernel⟩,
    ⟨pondState (withOp (.put 20 [(7, 9)])), 0, 0, 2, 0, 1, setupPc, _, _, _, 20, [(7, 9)], rfl, rfl, rfl, rfl, by decide +kernel⟩,
    { pondState (withOp (.drain 0x200000 3 5 0 0 0)) with cmds := [⟨5, 0, 0, 0, .crews 2 [0], .drain 0 0, false⟩] }, 0, 0, _, _, _, 0x200000, 3, 5, 0, 0, 0, _,
    rfl, rfl, rfl, by decide +kernel, by decide +kernel, by decide +kernel, rfl, by decide +kernel⟩

theorem witness_PondBalanceRule_placing :
    (∃ (s : State) (part slot : Nat) (d : Pond), s.pond? part slot = some d) ∧
    ∃ d : Pond, 0 < d.basins ∧ d.counts.length = d.basins ∧ (∀ a ∈ d.counts, ∀ b ∈ d.counts, a ≤ b + max d.slack 1) ∧ 1 ≤ d.slack ∧
      1 ∈ d.counts :=
  ⟨⟨pondState id, 0, 0, pond, by decide +kernel⟩, { pond with counts := [1, 0] }, by decide⟩

/-! ## Hypotheses that can be met: acquire, barriers, gang registers, queues -/

/-- A machine whose launch binds object 0 to the buffer of a queue to which the crew has sent a record. -/
def sender : Ctx :=
  here { queueState (fun q => { q with transit := [.recs request false] }) id with
    launches := [{ setupLaunch 1 with regions := [⟨0x100000, 2048, 0⟩] }] } 0xFFFFFFFF

theorem witness_AcquireReleaseResults :
    (∃ (x : Ctx) (sc : Scope), x.Issues (.fence sc) ∧ x.sending = false ∧ sc ≠ .crew ∧ x.core < x.st.cores.length) ∧
    (∃ (x : Ctx) (sc : Scope), x.Issues (.fence sc) ∧ x.sending = true) ∧
    (∃ (x : Ctx) (o : KReg) (sc : Scope) (l : Launch), spaceCause (x.k o) = none ∧ (x.k o).toNat % 64 = 0 ∧ x.launch = some l ∧
      x.Issues (.rel o sc) ∧ x.sendingTo l (x.k o) = true) ∧
    ∃ (x : Ctx) (o : KReg) (sc : Scope) (l : Launch), spaceCause (x.k o) = none ∧ (x.k o).toNat % 64 = 0 ∧ x.launch = some l ∧
      x.Issues (.acq o sc) ∧ x.Issues (.rel o sc) ∧ x.sendingTo l (x.k o) = false :=
  ⟨⟨on id, .gang, by decide +kernel⟩, ⟨sender, .gang, by decide +kernel⟩,
    ⟨sender, 3, .die, { setupLaunch 1 with regions := [⟨0x100000, 2048, 0⟩] }, by decide +kernel⟩, on id, 3, .die, _, by decide +kernel, by decide +kernel, rfl, by decide +kernel⟩

theorem witness_GangSynchronisationResults :
    (∃ (x : Ctx) (b : BitVec 3), x.Issues (.bar b) ∧ x.c.barPending.getD b.toNat 0 &&& x.lanes = 0) ∧
    (∃ (x : Ctx) (b : BitVec 3), x.Issues (.barArrive b) ∧ x.c.barPending.getD b.toNat 0 &&& x.lanes = 0) ∧
    (∃ (x : Ctx) (b : BitVec 3), x.Issues (.barWait b) ∧ subMask x.lanes (x.c.barPending.getD b.toNat 0 ||| x.c.barDone.getD b.toNat 0) = true) ∧
    (∃ (g : Gang) (b : Nat), (∃ c ∈ g.crews, c.ended = false ∧ c.live ≠ 0) ∧
      ∀ c ∈ g.crews, c.ended = false → subMask c.live (c.barPending.getD b 0) = true) ∧
    ∃ (g : Gang) (b : Nat), (∃ c ∈ g.crews, c.ended = false ∧ c.live ≠ 0) ∧ ∃ c ∈ g.crews, c.ended = false ∧ subMask c.live (c.barPending.getD b 0) = false :=
  let all (c : Crew) : Crew := { c with barPending := List.replicate 8 0xFFFFFFFF }
  ⟨⟨on id, 5, by decide +kernel⟩, ⟨on id, 5, by decide +kernel⟩, ⟨on all, 5, by decide +kernel⟩,
    ⟨setupGang 2 1 Lode.reset [all setupCrew], 5, by decide +kernel⟩, setupGang 2 1 Lode.reset [setupCrew], 5, by decide +kernel⟩

theorem witness_GangSynchronisationResults_registers :
    (∃ (x : Ctx) (d : Reg) (g : KReg), x.Issues (.gsr d g)) ∧
    (∃ (x : Ctx) (g : KReg) (a : Reg) (p : Opnd), x.Issues (.gsw g a) ∧ x.read [] a = .ok p ∧ p.isIn classAny32 = true) ∧
    ∃ (g : Gang) (k : Nat) (w : GWrite), k < g.g.length ∧ w ∈ g.gWrites ∧ w.reg = k ∧ ∀ v ∈ g.gWrites, v.reg = k → v = w ∨ v.slot < w.slot :=
  ⟨⟨on id, 1, 5, by decide +kernel⟩, ⟨on id, 5, 1, same .n32 0, by decide +kernel, gives_eq (by decide +kernel), by decide⟩,
    { setupGang 2 1 Lode.reset [] with gWrites := [⟨5, 3, 7⟩, ⟨5, 1, 8⟩] }, 5, ⟨5, 3, 7⟩, by decide +kernel, by decide +kernel, rfl, by decide +kernel⟩

theorem witness_QueueOpenResults :
    (∃ (x : Ctx) (h b p : KReg) (k : Nat), x.Issues (.qopenMake h b p) ∧ queueParamsBad x.st x.ag (x.k b) (x.k p) = false ∧
      x.c.qregs.length < 8 ∧ x.c.regsBusy = false ∧ queuesOf x.st x.part < 1024 ∧ leastBelow 1024 (fun k => (x.st.queue? x.part k).isNone) = some k) ∧
    (∃ (x : Ctx) (h : KReg) (q : Queue), x.Issues (.qopenCons h) ∧ queueOf x.st x.part (x.k h) = some q ∧ x.c.qreg? (x.k h) false = none ∧
      x.c.qregs.length < 8 ∧ x.c.regsBusy = false ∧ q.consumers < 32) ∧
    (∃ (x : Ctx) (h : KReg) (q : Queue), x.Issues (.qopenProd h) ∧ queueOf x.st x.part (x.k h) = some q ∧ x.c.qreg? (x.k h) true = none ∧
      x.c.qregs.length < 8 ∧ x.c.regsBusy = false ∧ q.closed.length < q.producers) ∧
    ∃ (x : Ctx) (h : KReg), x.Issues (.qclose h) ∧ (x.c.qregs.filter fun r => r.handle == x.k h) ≠ [] :=
  ⟨⟨on fun c => withK 2 0x100000 (withK 3 64 c), 1, 2, 3, 0, by decide +kernel⟩,
    ⟨here (queueState id id) 0xFFFFFFFF, 1, queue, by decide +kernel⟩,
    ⟨here (queueState id id) 0xFFFFFFFF, 1, queue, by decide +kernel⟩,
    here (queueState id fun c => { c with qregs := [⟨0, true, 0⟩] }) 0xFFFFFFFF, 1, by decide +kernel⟩

theorem witness_QueueTransferResults :
    (∃ (x : Ctx) (d : Reg) (k : KReg) (o : Reg) (nb : Bool) (n : BitVec 4) (recs : List (List Word)) (q : Queue) (r : QReg),
      x.Issues (.enq d k o nb n) ∧ x.enqRecords d o nb n.toNat = .ok recs ∧ x.c.goneAt x.pc x.lanes = false ∧
      queueOf x.st x.part (x.k k) = some q ∧ x.c.qreg? (x.k k) true = some r ∧ q.waiting = [] ∧ recs.length ≤ q.free) ∧
    ∃ (x : Ctx) (d : Reg) (k : KReg) (o : Reg) (nb : Bool) (n : BitVec 4) (q : Queue) (vs : List Nat), x.Issues (.deq d k o nb n) ∧
      deqCause d o n.toNat = none ∧ queueOf x.st x.part (x.k k) = some q ∧ (x.c.qreg? (x.k k) false).isSome = true ∧
      (nb = true ∨ q.order ≠ [] ∨ q.atEnd = true) ∧ readSlots x.st q (q.order.take (lanesOf x.lanes).length) = .ok vs :=
  ⟨⟨here (queueState (fun q => { q with free := 32 }) fun c => { c with qregs := [⟨0, true, 0⟩] }) 0xFFFFFFFF, 5, 3, 10, true, 1, List.replicate 32 [0], _, _,
      by decide +kernel, gives_eq (by decide +kernel), by decide +kernel, rfl, rfl, rfl, by decide +kernel⟩,
    here (queueState (fun q => { q with order := [2] }) fun c => { c with qregs := [⟨0, false, 0⟩] }) 0xFFFFFFFF, 10, 3, 5, false, 1,
    { queue with order := [2] }, [0], by decide +kernel, by decide, by decide +kernel, by decide +kernel, by decide, gives_eq (by decide +kernel)⟩

theorem witness_QueueStepResults :
    (∃ (s : State) (part slot : Nat) (q : Queue) (r : QReq) (ack : Bool) (rest : List QTransit) (t : State), s.queue? part slot = some q ∧
      q.transit = .recs r ack :: rest ∧
      fillQueue (s.modQueue part slot fun q => { q with transit := rest }) part slot r.producer r.recs = some t) ∧
    (∃ (s : State) (part slot : Nat) (q : Queue) (p : Nat) (rest : List QTransit), s.queue? part slot = some q ∧ q.transit = .close p :: rest) ∧
    ∃ (s : State) (part slot req : Nat) (r : QReq), stalled s part slot req = some r := by
  refine ⟨?_, ⟨queueState (fun q => { q with transit := [.close 0] }) id, 0, 0, _, 0, [], rfl, rfl⟩,
    queueState (fun q => { q with waiting := [request] }) id, 0, 0, 7, request, by decide +kernel⟩
  have h : (fillQueue ((queueState (fun q => { q with transit := [.recs request false] }) id).modQueue 0 0 fun q => { q with transit := [] }) 0 0
      request.producer request.recs).isSome = true := by decide +kernel
  obtain ⟨t, ht⟩ := Option.isSome_iff_exists.mp h
  exact ⟨queueState (fun q => { q with transit := [.recs request false] }) id, 0, 0, _, request, false, [], t, rfl, rfl, ht⟩

/-! ## Hypotheses that can be met: hoists, completion words, sluices -/

theorem witness_HoistResults :
    (∃ (x : Ctx) (i : Instr) (sel : HoistDst) (mask : Option (BitVec 4)) (r d sl y : KReg) (n : Nat), hoistParts i = some (sel, mask, r, d, sl, y, n) ∧
      x.Issues i ∧ hoistParamBad sel (x.k r) (x.k d) (x.k y) n = false ∧ x.copy? = none ∧ slotFree x.st x.core = true ∧
      (sel = .scratch ∨ (x.st.core x.core).mx.holder = none ∨ (x.st.core x.core).mx.holder = some x.gid)) ∧
    ∃ (x : Ctx) (i : Instr) (sel : HoistDst) (mask : Option (BitVec 4)) (r d sl y : KReg) (n : Nat) (cmd : EngCmd) (h : HoistCopy) (cs : List Nat),
      hoistParts i = some (sel, mask, r, d, sl, y, n) ∧ x.Issues i ∧ hoistParamBad sel (x.k r) (x.k d) (x.k y) n = false ∧
      x.copy? = some (cmd, h) ∧ x.st.cmd? cmd.id = some cmd ∧ cmd.owner = .crews x.gid cs ∧
      h.dstSel = sel ∧ h.mask = mask ∧ h.record = x.k r ∧ h.dst = x.k d ∧ h.sync = x.k y :=
  ⟨⟨hoister, .hoistm 1 2 3 4 5, .scratch, some 5, 1, 2, 3, 4, 128, rfl, by decide +kernel, by decide +kernel, by decide +kernel, by decide +kernel, .inl rfl⟩,
    here { scr.modCrew 2 0 hoistRegs with cmds := [copyCmd false] } 0xFFFFFFFF, .hoist .scratch 1 2 3 4, .scratch, none, 1, 2, 3, 4, 32,
    copyCmd false, copy false, [1], rfl, by decide +kernel, by decide +kernel, by decide +kernel, by decide +kernel, rfl, rfl, rfl, by decide +kernel⟩

theorem witness_HoistChunkResults :
    (∃ (s t : State) (core cmd k : Nat) (y : EngCmd) (h : HoistCopy) (l : Layout), s.cmd? cmd = some y ∧ y.core = core ∧ y.body = .hoist h ∧
      h.layout = some l ∧ y.paused = false ∧ k ∈ h.todo ∧ blockedBy s core y.id (chunkRanges s (y.agent s) core h l k) = false ∧
      remoteParts s y k = [] ∧ holdLost s y h = false ∧
      chunkCopied s y h l k (match h.part.find? fun p => p.1 == k with | some p => p.2 | none => 0) = .ok t) ∧
    (∃ (s : State) (ag : Agent) (cmd core : Nat) (h : HoistCopy) (l : Layout) (i0 p v key : Nat), s.mem.wf = true ∧
      sourceRead s ag cmd (l.elem i0 p) l.w = .ok v ∧ hoistDest s ag h core ((p * l.cols + i0) * l.w) l.w = .ok key) ∧
    ∃ target count gen top : Nat, 0 < target ∧ target < 2 ^ 32 ∧ count < 2 ^ 32 ∧ gen < 2 ^ 32 ∧ top < 2 ^ 32 := by
  have h : answers (chunkCopied { scr with cmds := [copyCmd true] } (copyCmd true) (copy true) row 0 0) (fun _ => true) = true := by decide +kernel
  obtain ⟨t, ht, -⟩ := answers_eq h
  have h1 : answers (sourceRead scr ((copyCmd true).agent scr) 5 (row.elem 7 0) row.w) (fun _ => true) = true := by decide +kernel
  have h2 : answers (hoistDest scr ((copyCmd true).agent scr) (copy true) 0 ((0 * row.cols + 7) * row.w) row.w) (fun _ => true) = true := by decide +kernel
  obtain ⟨v, hv, -⟩ := answers_eq h1
  obtain ⟨key, hk, -⟩ := answers_eq h2
  exact ⟨⟨{ scr with cmds := [copyCmd true] }, t, 0, 5, 0, copyCmd true, copy true, row, by decide +kernel, rfl, rfl, rfl, rfl, by decide,
      by decide +kernel, by decide +kernel, by decide +kernel, ht⟩, ⟨scr, _, 5, 0, copy true, row, 7, 0, v, key, by decide +kernel, hv, hk⟩, 1, 2 ^ 32 - 1, 2 ^ 32 - 1, 0, by decide⟩

theorem witness_CompletionWordResults :
    (∃ (x : Ctx) (b m : KReg) (w : BitVec 5) (key : Nat), x.Issues (.cwait b m w) ∧ x.c.due = [] ∧ scrMult (x.k b) 32 = true ∧ (x.k m).toNat < 2 ^ 32 ∧
      boundCheck x.st x.ag (ptrAdd (x.k b) (32 * w.toNat)) 32 = .ok (some key) ∧ poisoned x.st key 32 = false ∧
      x.st.mem.bits key 32 &&& (x.k m).toNat = (x.k m).toNat) ∧
    (∃ (x : Ctx) (b m : KReg) (w : BitVec 5) (key : Nat), x.Issues (.cwait b m w) ∧ x.c.due = [] ∧ scrMult (x.k b) 32 = true ∧ (x.k m).toNat < 2 ^ 32 ∧
      boundCheck x.st x.ag (ptrAdd (x.k b) (32 * w.toNat)) 32 = .ok (some key) ∧ poisoned x.st key 32 = false ∧
      x.st.mem.bits key 32 &&& (x.k m).toNat ≠ (x.k m).toNat) ∧
    (∃ (x : Ctx) (b m d : KReg) (w : BitVec 5) (key : Nat), x.Issues (.ctest b m d w) ∧ scrMult (x.k b) 32 = true ∧ (x.k m).toNat < 2 ^ 32 ∧
      boundCheck x.st x.ag (ptrAdd (x.k b) (32 * w.toNat)) 32 = .ok (some key) ∧ poisoned x.st key 32 = false) ∧
    (∃ (x : Ctx) (y t g : KReg) (key : Nat), x.Issues (.swarm y t g) ∧ scrMult (x.k y) 128 = true ∧ (x.k t).toNat < 2 ^ 32 ∧
      boundCheck x.st x.ag (x.k y) 128 = .ok (some key) ∧ poisoned x.st (key + 64) 64 = false) ∧
    (∃ (x : Ctx) (y g : KReg) (key : Nat), x.Issues (.swait y g) ∧ x.c.due = [] ∧ scrMult (x.k y) 128 = true ∧
      boundCheck x.st x.ag (x.k y) 128 = .ok (some key) ∧ poisoned x.st (key + 64) 64 = false ∧ x.st.mem.bits (key + 64) 32 ≠ (x.k g).toNat % 2 ^ 32) ∧
    ∃ (x : Ctx) (y g : KReg) (key : Nat), x.Issues (.swait y g) ∧ x.c.due = [] ∧ scrMult (x.k y) 128 = true ∧
      boundCheck x.st x.ag (x.k y) 128 = .ok (some key) ∧ poisoned x.st (key + 64) 64 = false ∧ x.st.mem.bits (key + 64) 32 = (x.k g).toNat % 2 ^ 32 := by
  have h : answers (boundCheck hoister.st hoister.ag (ptrAdd (hoister.k 4) (32 * 31)) 32)
      (fun o => o == some (scratchKey 0 * 8 + 0x1000 + 32 * 31)) = true := by decide +kernel
  have h' : answers (boundCheck hoister.st hoister.ag (hoister.k 4) 128) (fun o => o == some (scratchKey 0 * 8 + 0x1000)) = true := by decide +kernel
  obtain ⟨o, ho, he⟩ := answers_eq h
  obtain ⟨o', ho', he'⟩ := answers_eq h'
  rw [eq_of_beq he] at ho
  rw [eq_of_beq he'] at ho'
  exact ⟨⟨hoister, 4, 6, 31, _, by decide +kernel, by decide +kernel, by decide +kernel, by decide +kernel, ho, by decide +kernel⟩,
    ⟨hoister, 4, 5, 31, _, by decide +kernel, by decide +kernel, by decide +kernel, by decide +kernel, ho, by decide +kernel⟩,
    ⟨hoister, 4, 5, 7, 31, _, by decide +kernel, by decide +kernel, by decide +kernel, ho, by decide +kernel⟩,
    ⟨hoister, 4, 5, 7, _, by decide +kernel, by decide +kernel, by decide +kernel, ho', by decide +kernel⟩,
    ⟨hoister, 4, 5, _, by decide +kernel, by decide +kernel, by decide +kernel, ho', by decide +kernel⟩,
    hoister, 4, 6, _, by decide +kernel, by decide +kernel, by decide +kernel, ho', by decide +kernel⟩

theorem witness_CompletionWordResults_range :
    (∃ (x : Ctx) (p n : KReg) (st : Bool), x.Issues (.rlwait p n st) ∧ x.c.due = [] ∧ spaceCause (x.k p) = none ∧ 0 < (x.k n).toNat ∧
      (x.k n).toNat < 2 ^ 48 ∧ lockRange x.st x.ag (x.k p) (x.k n).toNat st = []) ∧
    (∃ (x : Ctx) (p n : KReg) (st : Bool), x.Issues (.rlwait p n st) ∧ x.c.due = [] ∧ spaceCause (x.k p) = none ∧ 0 < (x.k n).toNat ∧
      (x.k n).toNat < 2 ^ 48 ∧ lockRange x.st x.ag (x.k p) (x.k n).toNat st ≠ [] ∧
      ∀ r ∈ lockRange x.st x.ag (x.k p) (x.k n).toNat st, rangeHeld x.st x.core x.bound st r = false) ∧
    ∃ (x : Ctx) (p n : KReg) (st : Bool), x.Issues (.rlwait p n st) ∧ x.c.due = [] ∧ spaceCause (x.k p) = none ∧ 0 < (x.k n).toNat ∧
      (x.k n).toNat < 2 ^ 48 ∧ ∃ r ∈ lockRange x.st x.ag (x.k p) (x.k n).toNat st, rangeHeld x.st x.core x.bound st r = true :=
  let r : LockRange := ⟨.dev, 0x100000, 64, false⟩
  ⟨⟨on fun c => withK 1 0x5000000000000000 (withK 5 64 c), 1, 5, true, by decide +kernel⟩, ⟨hoister, 1, 5, true, by decide +kernel⟩,
    here ((scr.modCrew 2 0 hoistRegs).modCore 0 fun c => { c with locks := [⟨1, false, [r], [r]⟩] }) 0xFFFFFFFF, 1, 5, true, by decide +kernel⟩

theorem witness_CompletionWordResults_seal : ∃ (x : Ctx) (p d : KReg) (e f : Elem) (s t u : State) (v : Nat), x.Issues (.seal p d) ∧
    spaceCause (x.k p) = none ∧ recordSpace (x.k p) = true ∧ checkLanes x.st x.ag [(x.low, x.k p)] 512 (.mult 512) .write false = (.ok [e], s) ∧
    elemRead s x.ag x.core x.mode { e with n := 448, pieces := takePieces 448 e.pieces } = (some v, t) ∧
    checkLanes t x.ag [(x.low, ptrAdd (x.k p) 448)] 64 (.plain 64) .write false = (.ok [f], u) :=
  let e : Elem := ⟨0, 0x100000, 512, [.store 0x100000 512]⟩
  let f : Elem := ⟨0, 0x1001C0, 64, [.store 0x1001C0 64]⟩
  let s := (checkLanes hoister.st hoister.ag [(hoister.low, hoister.k 1)] 512 (.mult 512) .write false).2
  let t := (elemRead s hoister.ag hoister.core hoister.mode { e with n := 448, pieces := takePieces 448 e.pieces }).2
  ⟨hoister, 1, 7, e, f, s, t, (checkLanes t hoister.ag [(hoister.low, ptrAdd (hoister.k 1) 448)] 64 (.plain 64) .write false).2, 0, by decide +kernel,
    by decide +kernel, by decide +kernel, Prod.ext (by decide +kernel) rfl, Prod.ext (by decide +kernel) rfl, Prod.ext (by decide +kernel) rfl⟩

/-! ## Hypotheses that can be met: sluices, matrix engine, spring array -/

/-- A crew's own read answers `v`, and `q` holds of the machine after it. -/
def readsAs (x : Ctx) (s : State) (p : Dword) (n : Nat) (al : Align) (v : Nat) (q : State → Bool) : Bool :=
  match checkLanes s x.ag [(x.low, p)] n al .read false with
  | (.ok [e], t) => (match elemRead t x.ag x.core x.mode { e with n := n, pieces := takePieces n e.pieces } with | (some w, u) => w == v && q u | _ => false)
  | _ => false

theorem readsAs_eq {x : Ctx} {s : State} {p : Dword} {n v : Nat} {al : Align} {q : State → Bool} (h : readsAs x s p n al v q = true) :
    ∃ u, (∀ f, x.ownRead s p n n al .read f = f u v) ∧ q u = true := by
  unfold readsAs at h
  split at h
  · next e t he =>
    split at h
    · next w u hw =>
      rw [Bool.and_eq_true, beq_iff_eq] at h
      refine ⟨u, fun f => ?_, h.2⟩
      simp only [Ctx.ownRead, he, hw, h.1]
    · cases h
  · cases h

/-- A crew with the address of the parameter block in k3. -/
def sluicer : Ctx := here ((sluiceState 1).modCrew 2 0 (withK 3 0x100000)) 0xFFFFFFFF

/-- That crew while it waits for the queue, with the block that it has copied. -/
def sluiceWaiter : Ctx := here ((sluiceState 1).modCrew 2 0 fun c => { c with posting := [⟨setupPc, 0xFFFFFFFF, blockBits, [0x140000]⟩] }) 0xFFFFFFFF

/-- Stack 0 with a full queue. -/
def fullQueue (s : State) : State := { s with sluiceStacks := s.sluiceStacks.set 0 ⟨List.replicate 64 (copyBlock 1), []⟩ }

theorem witness_SluiceResults : ∃ (x : Ctx) (stack : BitVec 3) (p : KReg) (bits : Nat) (s t : State) (srcs : List Dword), x.Issues (.sluice stack p) ∧
    slotFree x.st x.core = true ∧ (x.c.posting.find? fun q => q.pc == x.pc && q.lanes &&& x.lanes != 0) = none ∧ isDev (x.k p) = true ∧
    low60 (x.k p) % 512 = 0 ∧
    (∀ f, x.ownRead (writeBackAll x.st x.core) (x.k p) 512 512 (.mult 512) .read f = f s bits) ∧
    blockBad s x.fn stack.toNat bits = false ∧
    (∀ f, x.readSources (BitVec.ofNat 64 (bitsAt bits 128 64)) (blockSources bits) 0 [] s f = f t srcs) ∧
    sourcesBad (parseBlock bits 0 0 0 (.crews 0 []) 0 0 srcs) = false ∧ stack.toNat < t.sluiceStacks.length ∧ (t.stack stack.toNat).blocks.length < 64 := by
  have h : readsAs sluicer (writeBackAll sluicer.st sluicer.core) (sluicer.k 3) 512 (.mult 512) blockBits (fun s => !blockBad s sluicer.fn 0 blockBits &&
      readsAs sluicer s 0x110000 64 (.plain 64) 0x140000 fun t => decide (0 < t.sluiceStacks.length ∧ (t.stack 0).blocks.length < 64)) = true := by decide +kernel
  obtain ⟨s, h1, h⟩ := readsAs_eq h
  rw [Bool.and_eq_true, Bool.not_eq_true'] at h
  obtain ⟨t, h2, h3⟩ := readsAs_eq h.2
  refine ⟨sluicer, 0, 3, blockBits, s, t, [0x140000], four (by decide +kernel) ⟨by decide +kernel, h1, h.1, ?_, by decide +kernel, of_decide_eq_true h3⟩⟩
  intro f
  rw [show blockSources blockBits = 1 by decide +kernel, show BitVec.ofNat 64 (bitsAt blockBits 128 64) = 0x110000 by decide +kernel]
  unfold Ctx.readSources
  rw [show ptrAdd 0x110000 (64 * 0) = 0x110000 by decide +kernel, h2]
  rfl

theorem witness_SluiceResults_waiting :
    (∃ (x : Ctx) (stack : BitVec 3) (p : KReg) (q : Posting), x.Issues (.sluice stack p) ∧ slotFree x.st x.core = true ∧
      (x.c.posting.find? fun q => q.pc == x.pc && q.lanes &&& x.lanes != 0) = some q ∧ stack.toNat < x.st.sluiceStacks.length ∧
      (x.st.stack stack.toNat).blocks.length < 64) ∧
    ∃ (x : Ctx) (stack : BitVec 3) (p : KReg) (q : Posting), x.Issues (.sluice stack p) ∧ slotFree x.st x.core = true ∧
      (x.c.posting.find? fun q => q.pc == x.pc && q.lanes &&& x.lanes != 0) = some q ∧ stack.toNat < x.st.sluiceStacks.length ∧
      64 ≤ (x.st.stack stack.toNat).blocks.length :=
  ⟨⟨sluiceWaiter, 0, 3, ⟨setupPc, 0xFFFFFFFF, blockBits, [0x140000]⟩, by decide +kernel⟩,
    { sluiceWaiter with st := fullQueue sluiceWaiter.st }, 0, 3, ⟨setupPc, 0xFFFFFFFF, blockBits, [0x140000]⟩, by decide +kernel⟩

/-- Block `b` of stack 0 as it stands once its group `g` is finished. -/
def groupOver (s : State) (b : Block) (g : Nat) : State :=
  modBlock s 0 b.id fun _ => { b with doneGroups := b.doneGroups ++ [g], begun := b.begun.filter fun q => q.1 != g }

theorem witness_SluiceResults_group : ∃ (s t u : State) (stack block g : Nat) (b : Block),
    ((s.stack stack).blocks.find? fun b => b.id == block) = some b ∧ b.paused = false ∧ b.stop = none ∧ b.doneGroups.length < b.groups ∧ g < b.groups ∧
    g ∉ b.doneGroups ∧ blockedBy s b.core b.cmd (groupRanges s b g) = false ∧ (b.begun.find? fun q => q.1 == g) = none ∧
    ((((List.range (min 512 (b.count - 512 * g))).map (512 * g + ·)).drop 0).foldlM (fun u i => sluiceOne u b stack i) s) = .ok t ∧
    b.doneGroups.length + 1 = b.groups ∧ stack = 0 ∧ blockedBy (groupOver t b g) b.core b.cmd (lockRange (groupOver t b g) b.agent b.flag 64 true) = false ∧
    engineWrite (groupOver t b g) b.agent b.flag 64 b.flagval.toNat (.plain 64) = .ok u := by
  have h : answers (((List.range (min 512 ((copyBlock 1).count - 512 * 0))).map (512 * 0 + ·)).foldlM (fun u i => sluiceOne u (copyBlock 1) 0 i) (sluiceState 1))
      (fun t => !blockedBy (groupOver t (copyBlock 1) 0) 0 5 (lockRange (groupOver t (copyBlock 1) 0) (copyBlock 1).agent (copyBlock 1).flag 64 true) &&
        answers (engineWrite (groupOver t (copyBlock 1) 0) (copyBlock 1).agent (copyBlock 1).flag 64 (copyBlock 1).flagval.toNat (.plain 64)) fun _ => true) =
      true := by decide +kernel
  obtain ⟨t, ht, h⟩ := answers_eq h
  rw [Bool.and_eq_true, Bool.not_eq_true'] at h
  obtain ⟨u, hu, -⟩ := answers_eq h.2
  exact ⟨sluiceState 1, t, u, 0, 4, 0, copyBlock 1,
    four (by decide +kernel) (four (by decide +kernel) ⟨ht, by decide +kernel, rfl, h.1, hu⟩)⟩

theorem witness_SluiceResults_moreGroups : ∃ (s t : State) (stack block g : Nat) (b : Block),
    ((s.stack stack).blocks.find? fun b => b.id == block) = some b ∧ b.paused = false ∧ b.stop = none ∧ b.doneGroups.length < b.groups ∧ g < b.groups ∧
    g ∉ b.doneGroups ∧ blockedBy s b.core b.cmd (groupRanges s b g) = false ∧
    ((((List.range (min 512 (b.count - 512 * g))).map (512 * g + ·)).drop 0).foldlM (fun u i => sluiceOne u b stack i) s) = .ok t ∧
    b.doneGroups.length + 1 < b.groups := by
  have h : answers (((List.range (min 512 ((copyBlock 513).count - 512 * 1))).map (512 * 1 + ·)).foldlM (fun u i => sluiceOne u (copyBlock 513) 0 i)
      (sluiceState 513)) (fun _ => true) = true := by decide +kernel
  obtain ⟨t, ht, -⟩ := answers_eq h
  exact ⟨sluiceState 513, t, 0, 4, 1, copyBlock 513, four (by decide +kernel) ⟨by decide, by decide +kernel, by decide +kernel, ht, by decide +kernel⟩⟩

theorem witness_MatrixInstructionResults :
    (∃ (x : Ctx) (i : Instr) (s : State) (op : MxOp) (rs : Nat → List LockRange), x.Issues i ∧ claimEngine x.st x.core x.gid = some s ∧
      matrixOp x s i = some (op, rs) ∧ x.core < x.st.cores.length ∧ x.c.mxStops = [] ∧
      ∀ c ∈ enginesOf x.core op.cluster, slotFree x.st c = true ∧ c < x.st.cores.length) ∧
    (∃ (x : Ctx) (i : Instr) (s : State) (op : MxOp) (rs : Nat → List LockRange), x.Issues i ∧ claimEngine x.st x.core x.gid = some s ∧
      matrixOp x s i = some (op, rs) ∧ x.core < x.st.cores.length ∧ x.c.mxStops = [] ∧ ∃ c ∈ enginesOf x.core op.cluster, slotFree x.st c = false) ∧
    (∃ (x : Ctx) (i : Instr) (s : State) (op : MxOp) (rs : Nat → List LockRange), x.Issues i ∧ claimEngine x.st x.core x.gid = some s ∧
      matrixOp x s i = some (op, rs) ∧ x.core < x.st.cores.length ∧ x.c.mxStops ≠ [] ∧
      ∃ (acc sparse : Nat) (a b : Dword) (count start inca incb pair : Nat) (cluster began : Bool),
        op = .loop acc sparse a b count start inca incb pair cluster began ∧
        ∃ c ∈ enginesOf x.core cluster, c < x.st.cores.length ∧ acc < (s.core c).mx.lastLoop.length) ∧
    (∃ (x : Ctx) (s : State), x.Issues .mxwait ∧ claimEngine x.st x.core x.gid = some s ∧
      (∀ y ∈ x.st.cmds, y.id < x.bound → y.mxOf x.gid x.ci = false) ∧ ((∀ d ∈ x.c.mxStops, x.bound ≤ d.cmd) ∨ x.c.inHandler = true)) ∧
    (∃ (x : Ctx) (s : State), x.Issues .mxwait ∧ claimEngine x.st x.core x.gid = some s ∧ ∃ y ∈ x.st.cmds, y.id < x.bound ∧ y.mxOf x.gid x.ci = true) ∧
    ∃ (x : Ctx) (d : KReg) (acc : BitVec 2) (s : State), x.Issues (.mxstep d acc) ∧ claimEngine x.st x.core x.gid = some s :=
  ⟨⟨on id, .mxloop 0 1 2 3 4 5 false 7, _, _, _, by decide +kernel, rfl, rfl, by decide +kernel⟩,
    ⟨here { base with cmds := (List.range 32).map fun k => { mxCmd (.clr 2 true false) with id := 100 + k } } 0xFFFFFFFF, .mxloop 0 1 2 3 4 5 false 7, _, _, _,
      by decide +kernel, rfl, rfl, by decide +kernel⟩,
    ⟨on fun c => { c with mxStops := [⟨1, 128, 0, 0⟩] }, .mxloop 0 1 2 3 4 5 false 7, _, _, _, by decide +kernel, rfl, rfl, by decide +kernel, by decide +kernel,
      _, _, _, _, _, _, _, _, _, _, _, rfl, 0, by decide +kernel⟩,
    ⟨on id, _, by decide +kernel, rfl, by decide +kernel⟩,
    ⟨here { mxState (.clr 0 true false) with nextId := 9 } 0xFFFFFFFF, _, by decide +kernel, rfl, by decide +kernel⟩, on id, 3, 2, _, by decide +kernel, rfl⟩

theorem witness_MatrixStepResults :
    (∃ (s : State) (core acc sparse : Nat) (x : EngCmd) (a b : Dword) (count start inca incb pair : Nat) (va vb : List Nat),
      mxHead s core = some (x, .loop acc sparse a b count start inca incb pair false true) ∧ x.paused = false ∧
      blockedBy s core x.id (cmdRanges s core x.id) = false ∧
      stepFetch s (x.engineAgent s core) core sparse a b count inca incb pair (accOf s core acc).step = .go va vb ∧
      let t := modAcc s core acc fun c => { c.addStep pair va vb with step := (accOf s core acc).step + 1 }
      ∀ n, stepFetch t (x.engineAgent t core) core sparse a b count inca incb pair ((accOf s core acc).step + 1) ≠ .done n) ∧
    (∃ (s : State) (core acc sparse : Nat) (x : EngCmd) (a b : Dword) (count start inca incb pair n : Nat),
      mxHead s core = some (x, .loop acc sparse a b count start inca incb pair false true) ∧ x.paused = false ∧
      blockedBy s core x.id (cmdRanges s core x.id) = false ∧
      stepFetch s (x.engineAgent s core) core sparse a b count inca incb pair (accOf s core acc).step = .done n) ∧
    (∃ (ps : List (Int × Int)) (chain : List (Nat × Word)) (k : Nat), chain.Pairwise (fun p q => p.1 < q.1) ∧ k < ps.length) := by
  refine ⟨⟨mxState (.loop 0 0 0 0 2 0 0 0 7 false true), 0, 0, 0, mxCmd (.loop 0 0 0 0 2 0 0 0 7 false true), 0, 0, 2, 0, 0, 0, 7, List.replicate 256 0,
      List.replicate 256 0, by decide +kernel, rfl, by decide +kernel, by decide +kernel, ?_⟩,
    ⟨mxState (.loop 0 0 0 0 0 0 0 0 7 false true), 0, 0, 0, mxCmd (.loop 0 0 0 0 0 0 0 0 7 false true), 0, 0, 0, 0, 0, 0, 7, 0, by decide +kernel, rfl,
      by decide +kernel⟩, [(3, 5)], [(0, 1), (4, 2)], 0, by decide⟩
  intro t n h
  have g : (match stepFetch t ((mxCmd (.loop 0 0 0 0 2 0 0 0 7 false true)).engineAgent t 0) 0 0 0 0 2 0 0 7
      ((accOf (mxState (.loop 0 0 0 0 2 0 0 0 7 false true)) 0 0).step + 1) with | .done _ => true | _ => false) = false := by decide +kernel
  rw [h] at g
  cases g

theorem witness_MatrixStepResults_commands :
    (∃ (s : State) (core : Nat) (x : EngCmd) (acc : Nat) (k : Bool), mxHead s core = some (x, .clr acc k false) ∧ x.paused = false ∧
      blockedBy s core x.id (cmdRanges s core x.id) = false) ∧
    (∃ (s : State) (core : Nat) (x : EngCmd) (mode : WMode) (half : Nat) (f : Fmt) (n : Nat), mxHead s core = some (x, .wb mode 0 half f n) ∧
      x.paused = false ∧ blockedBy s core x.id (cmdRanges s core x.id) = false) ∧
    ∃ (s : State) (core : Nat) (x : EngCmd) (acc buf : Nat) (f : Fmt) (off : Nat) (kind : Bool), mxHead s core = some (x, .ld acc buf f false off kind 0) ∧
      x.paused = false ∧ blockedBy s core x.id (cmdRanges s core x.id) = false ∧ (accOf s core acc).intKind = kind ∧ s.mem.wf = true :=
  ⟨⟨mxState (.clr 2 true false), 0, mxCmd (.clr 2 true false), 2, true, by decide +kernel, rfl, by decide +kernel⟩,
    ⟨mxState (.wb .s24 0 1 .i8 256), 0, mxCmd (.wb .s24 0 1 .i8 256), .s24, 1, .i8, 256, by decide +kernel, rfl, by decide +kernel⟩,
    mxState (.ld 2 1 .f32 false 0 false 0), 0, mxCmd (.ld 2 1 .f32 false 0 false 0), 2, 1, .f32, 0, false, by decide +kernel, rfl, by decide +kernel⟩

/-- The machine of the witness below: an MXST to the scratchpad at the head of the queue. -/
def storing : State :=
  { base.modGang 2 (fun g => { g with scratch := 16384 }) with cmds := [mxCmd (.st 0x3000000000000000#64 2 .e4m3 false 1024 false 0)] }

/-- The same with other storage. -/
def storingWith (m : Memory) (po : List Nat × List (Nat × Nat)) : State := { storing with mem := m, poison := po.1, written := po.2 }

/-- An element of its tile lies in the scratchpad of the gang. -/
theorem storing_room (n : Nat) (h : n ≤ 131064) (h8 : n % 8 = 0) :
    let p := ptrAdd 0x3000000000000000#64 n
    spaceOf p = 3 ∧ spaceCause p = none ∧ bitsAt p.toNat 22 38 = 0 ∧ addrIn p + 8 ≤ 131072 ∧ alignCheck p (.plain 8) = none ∧
      hostCheck p 8 .write false = none := by
  have v : (ptrAdd 0x3000000000000000#64 n).toNat = 3 * 2 ^ 60 + n := by
    have e1 : (BitVec.extractLsb' 60 4 0x3000000000000000#64).toNat = 3 := by decide
    have e2 : (BitVec.extractLsb' 0 60 0x3000000000000000#64).toNat = 0 := by decide
    unfold ptrAdd
    rw [BitVec.toNat_append, BitVec.toNat_add, e1, e2, BitVec.toNat_ofNat, ← Nat.shiftLeft_add_eq_or_of_lt (by omega), Nat.shiftLeft_eq]
    omega
  have s3 : spaceOf (ptrAdd 0x3000000000000000#64 n) = 3 := by
    simp only [spaceOf, BitVec.extractLsb'_toNat, v, Nat.shiftRight_eq_div_pow]
    omega
  have a3 : addrIn (ptrAdd 0x3000000000000000#64 n) = n := by
    simp only [addrIn, s3, bitsAt, v]
    omega
  refine ⟨s3, ?_, by simp only [bitsAt, v]; omega, by omega, ?_, ?_⟩
  · unfold spaceCause; rw [s3]; rfl
  · simp only [alignCheck, a3, h8, if_true]
  · unfold hostCheck; rw [s3]; rfl

theorem storing_write (m : Memory) (po : List Nat × List (Nat × Nat)) (p : Dword) (v : Nat) (h : spaceOf p = 3 ∧ spaceCause p = none ∧ bitsAt p.toNat 22 38 = 0 ∧
    addrIn p + 8 ≤ 131072 ∧ alignCheck p (.plain 8) = none ∧ hostCheck p 8 .write false = none) :
    ∃ m' po', engineWrite (storingWith m po) ⟨0, 0, some 0, 0, 16384, false, false⟩ p 8 v (.plain 8) =
      .ok (storingWith m' po') := by
  obtain ⟨h1, h2, h3, h4, h5, h6⟩ := h
  let s : State := storingWith m po
  have hn : ¬ 131072 + nodeBytes s 0 * 8 < addrIn p + 8 := by omega
  have hb : boundCheck s ⟨0, 0, some 0, 0, 16384, false, false⟩ p 8 = .ok (some (scratchKey 0 * 8 + 0 * 8 + addrIn p)) := by
    unfold boundCheck
    simp only [h1, h2, h3, Nat.reduceMul, hn, h4, ne_eq, not_true_eq_false, or_self, if_false, if_true]
  refine ⟨m.setBits (scratchKey 0 * 8 + 0 * 8 + addrIn p) 8 v,
    (po.1.filter fun w => !(scratchKey 0 * 8 + 0 * 8 + addrIn p ≤ w * 64 && w * 64 + 64 ≤ scratchKey 0 * 8 + 0 * 8 + addrIn p + 8),
      (scratchKey 0 * 8 + 0 * 8 + addrIn p, 8) :: po.2), ?_⟩
  show engineWrite s ⟨0, 0, some 0, 0, 16384, false, false⟩ p 8 v (.plain 8) = _
  unfold engineWrite access
  simp only [hb, h5, h6]
  rfl

theorem storing_all (fuel : Nat) : ∀ (pos : Nat) (m : Memory) (po : List Nat × List (Nat × Nat)), pos + fuel ≤ 16384 →
    (storeElems (mxCmd (.st 0x3000000000000000#64 2 .e4m3 false 1024 false 0)) [0] 0x3000000000000000#64 2 .e4m3 1024 fuel pos
      (storingWith m po)).2.isNone = true := by
  induction fuel with
  | zero => intros; rfl
  | succ n ih =>
    intro pos m po h
    have hp := storing_room (pos / 128 * 1024 + pos % 128 * 8) (by omega) (by omega)
    obtain ⟨m', po', hw⟩ := storing_write m po _ ((accOf (storingWith m po) 0 2).deliver .e4m3 (pos % 16384)) hp
    have e1 : pos / 128 % 128 = pos / 128 := Nat.mod_eq_of_lt (by omega)
    have e0 : pos / 16384 = 0 := by omega
    unfold storeElems
    simp only [List.length_singleton, if_true, Nat.add_zero, e1, e0, List.getD_cons_zero]
    rw [show (mxCmd (.st 0x3000000000000000#64 2 .e4m3 false 1024 false 0)).agent (storingWith m po) =
      ⟨0, 0, some 0, 0, 16384, false, false⟩ from rfl, show fmtWidth .e4m3 = 8 from rfl, hw]
    exact ih (pos + 1) m' po' (by omega)

theorem witness_MatrixStepResults_store : ∃ (s t : State) (core : Nat) (x : EngCmd) (dst : Dword) (acc : Nat) (f : Fmt) (stride : Nat) (kind : Bool),
    mxHead s core = some (x, .st dst acc f false stride kind 0) ∧ x.paused = false ∧ blockedBy s core x.id (cmdRanges s core x.id) = false ∧
    (accOf s core acc).intKind = kind ∧ storeElems x [core] dst acc f stride 16384 0 s = (t, none) :=
  ⟨storing, _, 0, mxCmd (.st 0x3000000000000000#64 2 .e4m3 false 1024 false 0), 0x3000000000000000#64, 2, .e4m3, 1024, false, by decide +kernel,
    rfl, by decide +kernel, by decide +kernel, snd_none (storing_all 16384 0 storing.mem (storing.poison, storing.written) (by decide))⟩

theorem witness_SpringInstructionResults : ∃ (x : Ctx) (i : Instr) (op : SpOp) (waits : Bool) (s : State) (l : Launch), x.Issues i ∧
    springParts x i = some (none, op, waits, s) ∧ x.launch = some l ∧ springHeld x.st (x.core / 64) l = true ∧ springFull x.st (x.core / 64) = false ∧
    x.core / 64 < x.st.springs.length :=
  ⟨here ((spState (.free 0 1)).modCrew 2 0 (withK 3 0x10000)) 0xFFFFFFFF, .spclampFree 3, .free 0 1, true, _, _, by decide +kernel, rfl, rfl, by decide +kernel⟩

theorem witness_SpringStepResults :
    (∃ (s : State) (die left c : Nat) (q : SpCmd) (rest : List SpCmd) (beta : Option (BitVec 8)) (clr : Bool), die < s.springs.length ∧
      (s.spring die).queue = q :: rest ∧ q.op = .sweep left beta clr true c ∧ (s.spring die).entropy = false ∧ c + 1 < (s.spring die).colours ∧ 0 < left ∧
      springWaits s q = false) ∧
    (∃ (s : State) (die first count : Nat) (q : SpCmd) (rest : List SpCmd), die < s.springs.length ∧ (s.spring die).queue = q :: rest ∧
      q.paused = false ∧ springWaits s q = false ∧ first + count ≤ (s.spring die).nvar ∧ q.op = .free first count) ∧
    (∃ (s : State) (die first count : Nat) (q : SpCmd) (rest : List SpCmd) (values : Dword) (taken vs : List Bool), die < s.springs.length ∧
      (s.spring die).queue = q :: rest ∧ q.paused = false ∧ springWaits s q = false ∧ first + count ≤ (s.spring die).nvar ∧ springPtr values = none ∧
      q.op = .clamp first count values taken ∧ readValues s (q.agent s) values (count - taken.length) taken = .ok vs) ∧
    (∃ (s : State) (die first count : Nat) (q : SpCmd) (rest : List SpCmd) (values : Dword) (taken vs : List Bool), die < s.springs.length ∧
      (s.spring die).queue = q :: rest ∧ q.paused = false ∧ springWaits s q = false ∧ first + count ≤ (s.spring die).nvar ∧ springPtr values = none ∧
      q.op = .set first count values taken ∧ readValues s (q.agent s) values (count - taken.length) taken = .ok vs) ∧
    (∃ (s : State) (die first count pos n : Nat) (q : SpCmd) (rest : List SpCmd) (dst : Dword) (ones clr : Bool) (t : State), die < s.springs.length ∧
      (s.spring die).queue = q :: rest ∧ q.paused = false ∧ springWaits s q = false ∧ first + count ≤ (s.spring die).nvar ∧
      q.op = .read dst first count ones clr pos ∧ destCause dst ones = none ∧
      writeVars q.owner (q.agent s) dst ones (((s.spring die).vars.drop (first + pos)).take (count - pos)) pos s = (n, t, none)) ∧
    (∃ (ag : Agent) (dst : Dword) (ones : Bool) (y : SpVar) (pos : Nat) (s t : State),
      engineWrite s ag (ptrAdd dst (pos * if ones then 16 else 1)) (if ones then 16 else 1) (if ones then y.ones else if y.s then 1 else 0) .free = .ok t) ∧
    ∃ (s : State) (die : Nat) (q : SpCmd) (rest : List SpCmd) (image : Dword) (taken : Option (Nat × List SpVar)) (n : Spring), die < s.springs.length ∧
      (s.spring die).queue = q :: rest ∧ q.paused = false ∧ springWaits s q = false ∧ q.op = .load image taken ∧
      readImage s (q.agent s) image taken = .ok n := by
  let op : SpOp := .read 0x100000 1 1 true true 0
  have h1 : answers (readValues (spState (.clamp 1 1 0x100000 [])) ((spCmd (.clamp 1 1 0x100000 [])).agent (spState (.clamp 1 1 0x100000 []))) 0x100000 1 [])
      (fun _ => true) = true := by decide +kernel
  have h2 : answers (readValues (spState (.set 1 1 0x100000 [])) ((spCmd (.set 1 1 0x100000 [])).agent (spState (.set 1 1 0x100000 []))) 0x100000 1 [])
      (fun _ => true) = true := by decide +kernel
  have h3 : (writeVars (spCmd op).owner ((spCmd op).agent (spState op)) 0x100000 true ((((spState op).spring 0).vars.drop (1 + 0)).take (1 - 0)) 0 (spState op)).2.2.isNone =
      true := by decide +kernel
  have h4 : answers (readImage (spState (.load 0x100000 none)) ((spCmd (.load 0x100000 none)).agent (spState (.load 0x100000 none))) 0x100000 none)
      (fun _ => true) = true := by decide +kernel
  have h5 : answers (engineWrite base ((spCmd op).agent (spState op)) (ptrAdd 0x100000 (3 * 16)) 16 5 .free) (fun _ => true) = true := by decide +kernel
  obtain ⟨v1, h1, -⟩ := answers_eq h1
  obtain ⟨v2, h2, -⟩ := answers_eq h2
  obtain ⟨n, h4, -⟩ := answers_eq h4
  obtain ⟨t, h5, -⟩ := answers_eq h5
  have split {r : Nat × State × Option (Dword × Nat)} (h : r.2.2.isNone = true) : r = (r.1, r.2.1, none) := by
    obtain ⟨a, b, c⟩ := r
    cases c with
    | none => rfl
    | some _ => cases h
  refine ⟨⟨spState (.sweep 1 none false true 0), 0, 1, 0, spCmd (.sweep 1 none false true 0), [], none, false, by decide +kernel⟩,
    ⟨spState (.free 1 1), 0, 1, 1, spCmd (.free 1 1), [], by decide +kernel⟩,
    ⟨spState (.clamp 1 1 0x100000 []), 0, 1, 1, spCmd (.clamp 1 1 0x100000 []), [], 0x100000, [], v1, by decide +kernel, rfl, rfl, rfl, by decide +kernel,
      by decide +kernel, rfl, h1⟩,
    ⟨spState (.set 1 1 0x100000 []), 0, 1, 1, spCmd (.set 1 1 0x100000 []), [], 0x100000, [], v2, by decide +kernel, rfl, rfl, rfl, by decide +kernel,
      by decide +kernel, rfl, h2⟩,
    ⟨spState op, 0, 1, 1, 0, _, spCmd op, [], 0x100000, true, true, _, by decide +kernel, rfl, rfl, rfl, by decide +kernel, rfl, by decide +kernel, split h3⟩,
    ⟨_, 0x100000, true, ⟨5, 1, [], false, false, 5⟩, 3, base, t, h5⟩,
    spState (.load 0x100000 none), 0, spCmd (.load 0x100000 none), [], 0x100000, none, n, by decide +kernel, rfl, rfl, rfl, rfl, h4⟩

/-! ## Hypotheses that can be met: tasks, routing, launches -/

theorem witness_TaskInstructionResults :
    (∃ (x : Ctx) (e ts arg num : KReg) (own : Task) (p : Option Nat), x.Issues (.tspawn e ts arg num) ∧ x.task = some own ∧ isDev (x.k e) = true ∧
      (x.k e).toNat % 32 = 0 ∧ (own.tag.headD (0, 0)).1 ≤ (x.k ts).toNat ∧ own.children < 65536 ∧ placeFor x.st x.g.launch x.fn x.core = some p) ∧
    (∃ (x : Ctx) (d : KReg) (t : Task), x.Issues (.tqry d) ∧ x.task = some t) ∧ (∃ (x : Ctx) (n d : KReg), x.Issues (.tqryTask n d)) ∧
    (∃ x : Ctx, x.Issues .tend) ∧ ∃ x : Ctx, x.Issues .twaitw :=
  ⟨⟨here (((ordered true).modCrew 2 0 (withK 3 0x4000)).modCrew 2 0 (withK 4 5)) 0xFFFFFFFF, 3, 4, 5, 6, firstTask true, some 0,
      by decide +kernel⟩,
    ⟨here (ordered true) 0xFFFFFFFF, 3, firstTask true, by decide +kernel⟩, ⟨here (ordered true) 0xFFFFFFFF, 3, 4, by decide +kernel⟩,
    ⟨here (ordered true) 0xFFFFFFFF, by decide +kernel⟩, here (ordered true) 0xFFFFFFFF, by decide +kernel⟩

theorem witness_RoutingResults :
    (∃ (x : Ctx) (d a b : Reg) (k : BitVec 3) (p q : Opnd), x.Issues (.tkins d a b k) ∧ x.read [] a = .ok p ∧ x.read [a] b = .ok q ∧
      p.isIn (fun f => f == .f32) = true ∧ q.isX = true ∧
      ∀ i, i ≤ k.toNat → (x.c.vreg (d.toNat + 2 * i)).fmt = .f32 ∧ classX (x.c.vreg (d.toNat + 2 * i + 1)).fmt = true) ∧
    (∃ (x : Ctx) (d a : Reg), x.Issues (.tapex d a) ∧ x.c.tapeTags a = true ∧
      ∀ j, j < 32 → x.lanes.getLsbD j = true → tapeBad (x.c.tapeEntry a j) = false) ∧
    (∃ (x : Ctx) (d : Reg), x.Issues (.tapexTake d) ∧ x.c.tape = none ∧
      ((x.st.core x.core).interp = none ∨ (x.st.core x.core).interp = some x.gid) ∧ x.core < x.st.cores.length ∧ (x.st.core x.core).tapes = [(9, 0)]) ∧
    (∃ (x : Ctx) (d : Reg), x.Issues (.tapexTake d) ∧ x.c.tape = none ∧
      ((x.st.core x.core).interp = none ∨ (x.st.core x.core).interp = some x.gid) ∧ x.core < x.st.cores.length ∧ (x.st.core x.core).tapes = []) ∧
    (∃ (x : Ctx) (d : Reg) (gr n : Nat), x.Issues (.tapexDone d) ∧ x.c.due = [] ∧ x.c.tape = some (gr, n) ∧ engineBusy x.st x.gid = false ∧ sendBusy x.st x.gid = false) ∧
    (∃ (x : Ctx) (d : Reg) (gr n : Nat), x.Issues (.tapexDone d) ∧ x.c.due = [] ∧ x.c.tape = some (gr, n) ∧ engineBusy x.st x.gid = false ∧
      sendBusy x.st x.gid = true) ∧
    ∃ (x : Ctx) (d : Reg) (gr n : Nat), x.Issues (.tapexDone d) ∧ x.c.due = [] ∧ x.c.tape = some (gr, n) ∧ engineBusy x.st x.gid = true := by
  let lists (c : Crew) : Crew := { c with regs := (List.range 32).map fun i => if i % 2 = 0 then ⟨.uni 0, .f32⟩ else ⟨.uni 0, .n32⟩ }
  let holds (c : Crew) : Crew := { c with tape := some (9, 0) }
  exact ⟨⟨on lists, 20, 2, 3, 5, same .f32 0, same .n32 0, by decide +kernel, gives_eq (by decide +kernel), gives_eq (by decide +kernel), by decide +kernel⟩,
    ⟨on (filled .n64 0), 12, 4, by decide +kernel⟩,
    ⟨here { base.modCore 0 (fun r => { r with tapes := [(9, 0)] }) with graphs := [graph tapeNode] } 0xFFFFFFFF, 2, by decide +kernel, by decide +kernel,
      .inl (by decide +kernel), by decide +kernel⟩,
    ⟨here base 0xFFFFFFFF, 2, by decide +kernel, by decide +kernel, .inl (by decide +kernel), by decide +kernel⟩,
    ⟨here { base.modCrew 2 0 holds with graphs := [graph tapeNode] } 0xFFFFFFFF, 2, 9, 0, by decide +kernel⟩,
    ⟨here { queueState (fun q => { q with transit := [.recs request false] }) holds with graphs := [graph tapeNode] } 0xFFFFFFFF, 2, 9, 0,
      by decide +kernel⟩,
    here { base.modCrew 2 0 holds with graphs := [graph tapeNode], cmds := [mxCmd (.clr 0 true false)] } 0xFFFFFFFF, 2, 9, 0, by decide +kernel⟩

/-- What a LAUNCH of the record that k3 of a context names finds. -/
def launchCheck (x : Ctx) : Except Nat Launch :=
  checkLaunch (writeBackAll x.st x.core) x.fn x.part (x.core / 64) (setupLaunch 1).slice (.phase (phaseOf (writeBackAll x.st x.core) (setupLaunch 1))) (x.k 3) [] true

/-- The phase of the running launch, cancelled or not. -/
def launchPhase (st : CState) : Phase := ⟨0, 0, 0, 0x80000000, 0, 0, ⟨1, 0, 0, 0, st⟩, false⟩

/-- A context in a machine with that phase. -/
def inPhase (st : CState) (s : State) (p : Dword) : Ctx := hereK { s with phases := [launchPhase st] } 3 p

theorem witness_LaunchCancelResults :
    (∃ (x : Ctx) (p d : KReg) (own l : Launch), x.Issues (.launch p d) ∧ x.sending = false ∧ x.launch = some own ∧ own = setupLaunch 1 ∧ p = 3 ∧ launchCheck x = .ok l ∧
      ∃ q, (writeBackAll x.st x.core).phase? (phaseOf (writeBackAll x.st x.core) own) = some q ∧ q.counter.st ≠ .cancelled ∧ q.counter.total < 16777215) ∧
    (∃ (x : Ctx) (p d : KReg) (own : Launch), x.Issues (.launch p d) ∧ x.sending = false ∧ x.launch = some own ∧
      readRecord (writeBackAll x.st x.core) x.fn x.part (x.k p) 512 512 = none) ∧
    (∃ (x : Ctx) (p d : KReg) (own : Launch) (v r : Nat), x.Issues (.launch p d) ∧ x.sending = false ∧ x.launch = some own ∧ own = setupLaunch 1 ∧ p = 3 ∧
      readRecord (writeBackAll x.st x.core) x.fn x.part (x.k p) 512 512 = some v ∧ launchCheck x = .error r ∧
      phaseReasonsFor (writeBackAll x.st x.core) (phaseOf (writeBackAll x.st x.core) own) = []) ∧
    (∃ (x : Ctx) (p d : KReg) (own l : Launch) (v : Nat) (q : Phase), x.Issues (.launch p d) ∧ x.sending = false ∧ x.launch = some own ∧ own = setupLaunch 1 ∧ p = 3 ∧
      readRecord (writeBackAll x.st x.core) x.fn x.part (x.k p) 512 512 = some v ∧ launchCheck x = .ok l ∧
      (writeBackAll x.st x.core).phase? (phaseOf (writeBackAll x.st x.core) own) = some q ∧ q.counter.st = .cancelled ∧ q.counter.total < 16777215) ∧
    ∃ (x : Ctx) (p d : KReg) (own : Launch) (v r : Nat) (q : Phase), x.Issues (.launch p d) ∧ x.sending = false ∧ x.launch = some own ∧ own = setupLaunch 1 ∧ p = 3 ∧
      readRecord (writeBackAll x.st x.core) x.fn x.part (x.k p) 512 512 = some v ∧ launchCheck x = .error r ∧ r < Reason.cancelled ∧
      (writeBackAll x.st x.core).phase? (phaseOf (writeBackAll x.st x.core) own) = some q ∧ q.counter.st = .cancelled ∧ q.counter.total < 16777215 := by
  have h : answers (launchCheck (inPhase .running launching 0x100000)) (fun _ => true) = true := by decide +kernel
  have h' : answers (launchCheck (inPhase .cancelled launching 0x100000)) (fun _ => true) = true := by decide +kernel
  obtain ⟨l, hl, -⟩ := answers_eq h
  obtain ⟨l', hl', -⟩ := answers_eq h'
  have v := (by decide +kernel : (readRecord (writeBackAll (inPhase .cancelled launching 0x100000).st 0) 0 0 0x100000 512 512).isSome = true)
  have w := (by decide +kernel : (readRecord (writeBackAll (inPhase .cancelled base 0x100000).st 0) 0 0 0x100000 512 512).isSome = true)
  have u := (by decide +kernel : (readRecord (writeBackAll (inPhase .running base 0x100000).st 0) 0 0 0x100000 512 512).isSome = true)
  obtain ⟨v, hv⟩ := Option.isSome_iff_exists.mp v
  obtain ⟨w, hw⟩ := Option.isSome_iff_exists.mp w
  obtain ⟨u, hu⟩ := Option.isSome_iff_exists.mp u
  exact ⟨⟨inPhase .running launching 0x100000, 3, 4, setupLaunch 1, l, by decide +kernel, by decide +kernel, by decide +kernel, rfl, rfl, hl, launchPhase .running, by decide +kernel⟩,
    ⟨hereK base 3 0x100001, 3, 4, setupLaunch 1, by decide +kernel⟩,
    ⟨inPhase .running base 0x100000, 3, 4, setupLaunch 1, u, 3, by decide +kernel, by decide +kernel, by decide +kernel, rfl, rfl, hu, refuses_eq (by decide +kernel), by decide +kernel⟩,
    ⟨inPhase .cancelled launching 0x100000, 3, 4, setupLaunch 1, l', v, launchPhase .cancelled, by decide +kernel, by decide +kernel, by decide +kernel, rfl, rfl, hv, hl', by decide +kernel⟩,
    inPhase .cancelled base 0x100000, 3, 4, setupLaunch 1, w, 3, launchPhase .cancelled, by decide +kernel, by decide +kernel, by decide +kernel, rfl, rfl, hw,
    refuses_eq (by decide +kernel), by decide +kernel⟩

theorem witness_LaunchCancelResults_others :
    (∃ (x : Ctx) (p d : KReg), x.Issues (.launch p d) ∧ x.sending = true) ∧
    (∃ (x : Ctx) (h d : KReg), x.Issues (.cancel h d) ∧ 2 ^ 32 ≤ (x.k h).toNat) ∧
    (∃ (x : Ctx) (h d : KReg), x.Issues (.cancel h d) ∧ (x.k h).toNat < 2 ^ 32 ∧ (instanceOf x.st x.part ((x.k h).extractLsb' 0 32)).isSome = true) ∧
    ∃ (x : Ctx) (h lo hi : KReg), x.Issues (.cntrd h lo hi) ∧ lo ≠ hi :=
  ⟨⟨sender, 3, 4, by decide +kernel⟩, ⟨hereK base 3 0x100000000, 3, 4, by decide +kernel⟩, ⟨hereK base 3 0, 3, 4, by decide +kernel⟩,
    hereK base 3 0, 3, 4, 5, by decide +kernel⟩

/-! ## Hypotheses that can be met: lode contexts, the device's own steps -/

/-- A lode thread about to execute a parcel. -/
def loding (f : Lode → Lode) : State :=
  { modLode (placeLode State.reset 0x13) (.lode 2) f with cur := some (.lode 2) }

/-- The pair of lode registers 10 and 11 that pushes a word to crew 0 in format 0. -/
def pushes (l : Lode) : Lode := (l.setReg 10 7).setReg 11 0

theorem witness_LodeResults :
    (∃ (s : State) (g : Nat) (w : Gang) (c : Crew) (rs2 : BitVec 5) (f : Fmt), s.cur = some (.lode g) ∧ s.gang? g = some w ∧
      (w.lode.reg rs2.toNat).toNat < 2 ^ 10 ∧ fmtOf ((w.lode.reg rs2.toNat).extractLsb' 5 5).toNat = some f ∧
      s.crew? g ((w.lode.reg rs2.toNat).extractLsb' 0 5).toNat = some c ∧ c.ended = false ∧ c.fifo.length < 64) ∧
    (∃ (s : State) (g : Nat) (w : Gang), s.cur = some (.lode g) ∧ s.gang? g = some w ∧
      ∀ c ∈ w.crews, c.ended = true ∨ ∀ j, j < 32 → (c.lane j).st ≠ .wait .chute) ∧
    (∃ (s : State) (c : Cur) (l : Lode), s.cur = some c ∧ lodeOf s c = some l ∧ rvDecode 0x00B50533 = some (.op .add false 10 10 11)) ∧
    (∃ (s : State) (c : Cur) (l : Lode), s.cur = some c ∧ lodeOf s c = some l ∧ rvDecode 0x00B50863 = some (.branch .eq 10 11 16) ∧
      rvHolds .eq (l.reg 10) (l.reg 11) = true ∧ (l.pc + 16).toNat % 16 = 0) ∧
    ∃ (s : State) (c : Cur) (l : Lode), s.cur = some c ∧ lodeOf s c = some l ∧ rvDecode 0 = none :=
  ⟨⟨loding pushes, 2, setupGang 2 1 (pushes { Lode.reset with st := .running, pc := setupPc }) [setupCrew], setupCrew, 11, .n32,
      by decide +kernel⟩,
    ⟨loding id, 2, setupGang 2 1 { Lode.reset with st := .running, pc := setupPc } [setupCrew], by decide +kernel⟩,
    ⟨loding id, .lode 2, { Lode.reset with st := .running, pc := setupPc }, by decide +kernel⟩,
    ⟨loding id, .lode 2, { Lode.reset with st := .running, pc := setupPc }, by decide +kernel⟩,
    ⟨loding id, .lode 2, { Lode.reset with st := .running, pc := setupPc }, by decide +kernel⟩⟩

/-- A job record of some kind: slice 0 of job 7, with its phase record at 0x100000 and its status at 0x150000. -/
def jobBits (kind : Nat) : Nat :=
  kind + 7 * 2 ^ 64 + 100 * 2 ^ 128 + 500 * 2 ^ 192 + 0x100000 * 2 ^ 256 + 2 ^ 320 + 0x150000 * 2 ^ 384

/-- Function 0, resident, has an intake pond that holds that record; a phase of one graph with one node is in memory. -/
def intaking (kind : Nat) : State :=
  { (base.modFn 0 fun f => { f with intake := 0, intakeRecs := [⟨1, 0, 0, jobBits kind⟩] }).modPart 0 fun p => { p with resident := some 0 } with
    ponds := [{ pond with w := 512, base := 0x180000, total := 1, counts := [1, 0] }]
    mem := ((base.mem.setBits 0x100000 128 (0x110000 + 2 ^ 64)).setBits 0x110000 64 0x120000).setBits 0x120000 128 (1 + 0x130000 * 2 ^ 64) }

/-- `base` with the partition resident and a slice of the function. -/
def slicing (st : CState) (budget used : Nat) (f : Fn → Fn) : State :=
  { (base.modFn 0 f).modPart 0 fun p => { p with resident := some 0 } with slices := [slice st budget used] }

theorem witness_DispatcherSteps_records :
    (∃ (s : State) (fn seq part : Nat) (r : IntakeRec) (d : Pond) (rs : List Nat), partOfFn s fn = some part ∧
      ((s.fn fn).intakeRecs.find? fun r => r.seq == seq) = some r ∧ intakePond s fn part = some d ∧ d.broken = false ∧ d.away s = false ∧
      d.paused = [] ∧ d.draining = false ∧ jobFate s part (parseJob r.bits) = .refuse rs ∧ (Reason.badKind ∈ rs ∨ Reason.jobEnded ∈ rs)) ∧
    ∃ (s : State) (fn seq part : Nat) (r : IntakeRec) (d : Pond) (gs : List (Dword × Dword × List Node)), partOfFn s fn = some part ∧
      ((s.fn fn).intakeRecs.find? fun r => r.seq == seq) = some r ∧ intakePond s fn part = some d ∧ d.broken = false ∧ d.away s = false ∧
      d.paused = [] ∧ d.draining = false ∧ jobFate s part (parseJob r.bits) = .eligible ∧ fnResident s fn = true ∧
      comesFirst s fn part r (parseJob r.bits) = true ∧ runningSlice s fn = none ∧ readPhase s fn part (parseJob r.bits).phases = ([], gs) :=
  ⟨⟨intaking 2, 0, 1, 0, ⟨1, 0, 0, jobBits 2⟩, { pond with w := 512, base := 0x180000, total := 1, counts := [1, 0] }, [1],
      by decide +kernel⟩,
    intaking 1, 0, 1, 0, ⟨1, 0, 0, jobBits 1⟩, { pond with w := 512, base := 0x180000, total := 1, counts := [1, 0] },
      [(0x120000, 0x130000, [⟨0, [], 0, [], .blocked, none⟩])],
      by decide +kernel⟩

theorem witness_DispatcherSteps_slices :
    (∃ (s : State) (id : Nat) (l : Slice), s.slice? id = some l ∧ sliceRuns s id = true ∧ l.budget ≤ l.used ∧ l.counter.stopped = false) ∧
    (∃ (s : State) (fn part : Nat) (l : Slice), partOfFn s fn = some part ∧ sliceOf s part (s.fn fn).ctlHandle = some l ∧ l.counter.st = .suspended ∧
      (s.fn fn).addBudget ≠ 0 ∧ present s fn = true) ∧
    (∃ (s : State) (fn part id : Nat) (c : Counter), partOfFn s fn = some part ∧
      instanceOf s part (s.fn fn).ctlHandle = some (.slice, id, c, false) ∧ c.st ≠ .cancelled ∧ present s fn = true) ∧
    (∃ (s : State) (part fn : Nat), (s.part part).resident = some fn ∧ (s.part part).entryEnd ≤ s.cycle.toNat) ∧
    ∃ (s : State) (part fn len : Nat), (s.part part).resident = none ∧ 0 < (s.part part).nquanta ∧
      (s.part part).quantum.getD (s.part part).rot (0, 0) = (fn, len) :=
  ⟨⟨slicing .running 5 5 id, 3, slice .running 5 5, by decide +kernel⟩,
    ⟨slicing .suspended 5 5 fun f => { f with ctlHandle := 0xC0000000, addBudget := 9 }, 0, 0, slice .suspended 5 5, by decide +kernel⟩,
    ⟨slicing .running 5 5 fun f => { f with ctlHandle := 0xC0000000 }, 0, 0, 3, ⟨1, 0, 0, 0, .running⟩, by decide +kernel⟩,
    ⟨slicing .running 5 5 id, 0, 0, by decide +kernel⟩,
    base.modPart 0 (fun p => { p with nquanta := 1, quantum := [(0, 100)] }), 0, 0, 100, by decide +kernel⟩

/-- A running slice whose graph has its one node in the pool, and an interpreter gang on core 0 that can take it. -/
def pooling : State :=
  { (slicing .running 5 0 id).modCore 0 fun r => { r with interp := some 2 } with
    slices := [{ slice .running 5 0 with id := 0 }], graphs := [{ graph { tapeNode with st := .pooled 4, core := none } with admitted := true }] }

/-- A running slice whose launch has a second gang to place. -/
def placing : State :=
  let s := slicing .running 5 0 id
  { s with slices := [{ slice .running 5 0 with id := 0 }], launches := s.launches.map fun l => { l with gangs := 2 } }

theorem witness_PlacementSteps_graphs :
    (∃ (s : State) (id : Nat) (g : Graph), s.graph? id = some g ∧ g.admitted = false ∧ g.ended = false ∧ g.counter.stopped = false ∧
      (s.graphs.filter fun h => h.die == g.die && h.admitted && !h.ended).length < 1024) ∧
    ∃ (s t : State) (gr n q : Nat) (g : Graph) (x : Node), s.graph? gr = some g ∧ g.nodes[n]? = some x ∧ poolSeq s g x = some q ∧
      (∀ h ∈ s.graphs, h.die = g.die → ∀ p ∈ h.nodes.zipIdx, p.1.ty = x.ty → ∀ r, poolSeq s h p.1 = some r →
        (r < q ∨ r = q ∧ (h.handle.toNat < g.handle.toNat ∨ h.id = g.id ∧ p.2 < n)) → serveNode s h p.2 p.1 = none) ∧
      serveNode s g n x = some t := by
  have h : (serveNode pooling { graph { tapeNode with st := .pooled 4, core := none } with admitted := true } 0
      { tapeNode with st := .pooled 4, core := none }).isSome = true := by decide +kernel
  obtain ⟨t, ht⟩ := Option.isSome_iff_exists.mp h
  refine ⟨⟨{ base with graphs := [graph tapeNode] }, 9, graph tapeNode, by decide +kernel⟩,
    pooling, t, 9, 0, 4, _, _, by decide +kernel, by decide +kernel, by decide +kernel, ?_, ht⟩
  intro h hh _ p hp _ r hr hlt
  obtain rfl := List.mem_singleton.mp hh
  obtain rfl := List.mem_singleton.mp hp
  have : poolSeq pooling { graph { tapeNode with st := .pooled 4, core := none } with admitted := true } { tapeNode with st := .pooled 4, core := none } = some 4 := by
    decide +kernel
  obtain rfl : r = 4 := by injection hr.symm.trans this
  omega

theorem witness_PlacementSteps_gangs :
    (∃ (s s' : State) (id core sbase : Nat) (l : Launch) (buffer : Option Nat), s.launch? id = some l ∧ l.ended = false ∧ l.counter.stopped = false ∧
      l.placed < l.gangs ∧ sliceRuns s l.slice = true ∧ takeArray s l = some s' ∧ chooseCore s' l = some core ∧
      fitAt s' l.part l.need core = some (buffer, sbase) ∧ l.image.ordered = false) ∧
    ∃ (s : State) (gid : Nat) (g : Gang) (l : Launch), s.gang? gid = some g ∧ (∀ c ∈ g.crews, c.ended = true) ∧ gangBusy s gid = false ∧
      g.ending = none ∧ s.launch? g.launch = some l :=
  ⟨⟨placing, placing, 1, 1, 0, { setupLaunch 1 with gangs := 2 }, none, by decide +kernel⟩,
    base.modCrew 2 0 (fun c => { c with ended := true }), 2, setupGang 2 1 Lode.reset [{ setupCrew with ended := true }], setupLaunch 1,
    by decide +kernel⟩

/-- The pond of function 0 as its intake pond. -/
def intakeState : State := { (base.modFn 0 fun f => { f with intake := 0 }) with ponds := [{ pond with w := 512 }] }

theorem witness_HostSteps_windows :
    (∃ (s : State) (fn off part : Nat) (data : List Byte) (d : Pond), partOfFn s fn = some part ∧ intakePond s fn part = some d ∧ off % 64 = 0 ∧
      off < 0x1000 ∧ data.length = 64 ∧ present s fn = true) ∧
    (∃ (s : State) (fn part : Nat) (h : Word) (d : Pond), partOfFn s fn = some part ∧ present s fn = true ∧ s.mgmt.stage ≠ 8 ∧ pondOf s part fn (h.zeroExtend 64) = some d ∧ d.w = 512 ∧
      (∀ n ∈ d.counts, n = 0) ∧ (s.fn fn).intake ≠ h) ∧
    (∃ (s : State) (fn part : Nat) (h : Word), partOfFn s fn = some part ∧ present s fn = true ∧ s.mgmt.stage ≠ 8 ∧ pondOf s part fn (h.zeroExtend 64) = none) ∧
    (∃ (s : State) (fn part : Nat) (h : Word) (d : Pond), partOfFn s fn = some part ∧ present s fn = true ∧ s.mgmt.stage ≠ 8 ∧ pondOf s part fn (h.zeroExtend 64) = some d ∧ d.w = 256) ∧
    (∃ (s t : State) (fn part v : Nat), partOfFn s fn = some part ∧ fn < s.fns.length ∧ s.mgmt.stage ≠ 8 ∧ pondBusy s fn = false ∧ (s.fn fn).pondPending = [] ∧
      makePond s ⟨fn, part, none, 0, 0, false, false⟩ (s.fn fn).pondRegion (s.fn fn).pondCap (s.fn fn).pondParams = (.ok v, t)) ∧
    (∃ (s : State) (fn part : Nat) (d : Pond), partOfFn s fn = some part ∧ fn < s.fns.length ∧ s.mgmt.stage ≠ 8 ∧ pondBusy s fn = false ∧ (s.fn fn).pondPending = [] ∧
      pondOf s part fn ((s.fn fn).pondHandle.zeroExtend 64) = some d) ∧
    ∃ (s : State) (fn : Nat), s.mgmt.stage ≠ 8 ∧ pondBusy s fn = true := by
  refine ⟨⟨intakeState, 0, 64, 0, List.replicate 64 7, { pond with w := 512 }, by decide +kernel⟩,
    ⟨{ base with ponds := [{ pond with w := 512 }] }, 0, 0, 0, { pond with w := 512 }, by decide +kernel⟩,
    ⟨base, 0, 0, 0, by decide +kernel⟩, ⟨pondState id, 0, 0, 0, pond, by decide +kernel⟩,
    ⟨base.modFn 0 (fun f => { f with pondRegion := 0x100000, pondCap := 64, pondParams := 255 }), _, 0, 0, 0, by decide +kernel, by decide +kernel, by decide +kernel,
      by decide +kernel, by decide +kernel, gives_pair (by decide +kernel)⟩,
    ⟨(pondState id).modFn 0 (fun f => { f with pondHandle := 0 }), 0, 0, pond, by decide +kernel⟩,
    pondState fun d => { d with ops := [⟨.host 0, .remove, 0, 0⟩] }, 0, by decide +kernel⟩

theorem witness_HostSteps_records :
    (∃ (s : State) (fn : Nat), (∀ d ∈ s.ponds, d.fn ≠ fn) ∧ (s.fn fn).pausedDisp = [] ∧ s.mgmt.stage ≠ 8) ∧
    (∃ (g : Gang) (i : Nat) (c : Crew), g.crews[i]? = some c ∧ c.Shaped) ∧
    (∃ (s t : State) (fn : Nat) (r : PondRec), (s.fn fn).retry = [r] ∧ tryRecord (s.modFn fn fun f => { f with retry := [] }) fn r = (true, t)) ∧
    ∃ (s : State) (part : Nat) (v : Dword), part < 64 ∧ s.mgmt.stage ≠ 8 ∧ (s.part part).resident = none ∧ partIdle s part = true ∧
      partOk s part { s.part part with clusters := v } = true ∧ partOfBits (s.part part) (partBits (s.part part)) = s.part part := by
  have h : (tryRecord (((pondState id).modFn 0 fun f => { f with faultpond := 0, retry := [⟨0, 0, 1⟩] }).modFn 0 fun f => { f with retry := [] }) 0 ⟨0, 0, 1⟩).1 = true := by
    decide +kernel
  exact ⟨⟨base, 0, by decide +kernel⟩, ⟨setupGang 2 1 Lode.reset [setupCrew], 0, setupCrew, by decide +kernel⟩,
    ⟨(pondState id).modFn 0 (fun f => { f with faultpond := 0, retry := [⟨0, 0, 1⟩] }), _, 0, ⟨0, 0, 1⟩, by decide +kernel, Prod.ext h rfl⟩,
    base, 1, 2, by decide +kernel⟩

theorem witness_HostSteps_registers :
    (∃ (s : State) (f : Nat), f < 65 ∧ s.mgmt.stage ≠ 8 ∧ (s.fn f).membase < 2 ^ 24 ∧ (s.fn f).memsize < 2 ^ 24) ∧
    (∃ (s : State) (fn base reach off : Nat) (data : List Byte), present s fn = true ∧ barReach s fn = (base, reach) ∧ off + data.length ≤ reach ∧
      s.mem.wf = true ∧ Untracked s) ∧
    ∃ (s : State) (fn base reach : Nat), present s fn = true ∧ barReach s fn = (base, reach) ∧ s.mem.wf = true :=
  ⟨⟨base, 0, by decide +kernel⟩,
    ⟨base, 0, 0, deviceBytes, 8, [1, 2], by decide +kernel, by decide +kernel, by decide, by decide +kernel, by show ∀ f ∈ base.fns, f.dirtyen = false; decide +kernel⟩,
    base, 0, 0, deviceBytes, by decide +kernel⟩

/-- A crew of `base` has sent a read to node 5. -/
def asking : LinkReq := ⟨3, some 5, 0x100, 32, [], .read, 2, engineCrew, false, none, 0⟩

theorem witness_FunctionControl_and_LinkSteps :
    (∃ (s : State) (fn : Nat), s.mgmt.stage ≠ 8 ∧ residentIn s fn = none) ∧ (∃ (s : State) (fn p : Nat), s.mgmt.stage ≠ 8 ∧ residentIn s fn = some p) ∧
    (∃ (s : State) (fn : Nat), (s.fn fn).ctxstate = .suspended ∧ s.mgmt.stage ≠ 8) ∧
    (∃ (s : State) (i : Instr) (fn : Nat), (i = .vfReset fn ∨ i = .functionLevelReset fn ∧ 1 ≤ fn ∧ fn ≤ 64) ∧ s.mgmt.stage ≠ 8) ∧
    (∃ q : RemoteReq, q.op = .read ∧ ∀ p ∈ (q.addr, q.width) :: q.more, inAlias p.1 = false) ∧
    (∃ (s : State) (id : Nat) (r : LinkReq), r ∈ s.link.reqs ∧ r.id = id ∧ r.answer = none ∧ wanted s r = true ∧ ∀ q ∈ s.link.reqs, q.id = id → q.posted = false) ∧
    (∃ (s : State) (id : Nat), ∃ r ∈ s.link.reqs, r.id = id ∧ r.node.isSome = true ∧ r.answer = none) ∧
    ∃ (s : State) (id : Nat), ∀ r ∈ s.link.reqs, r.id = id → r.node = none ∨ r.answer ≠ none :=
  ⟨⟨base, 0, by decide +kernel⟩, ⟨slicing .running 5 0 id, 0, 0, by decide +kernel⟩,
    ⟨base.modFn 0 (fun f => { f with ctxstate := .suspended }), 0, by decide +kernel⟩, ⟨base, .functionLevelReset 3, 3, .inr ⟨rfl, by decide⟩, by decide +kernel⟩,
    ⟨⟨5, 0x100, 32, [], .read⟩, by decide +kernel⟩,
    ⟨{ base with link := { base.link with reqs := [asking] } }, 3, asking, List.mem_singleton.mpr rfl, by decide +kernel⟩,
    ⟨{ base with link := { base.link with reqs := [asking] } }, 3, asking, List.mem_singleton.mpr rfl, by decide⟩,
    base, 3, by decide +kernel⟩

theorem witness_StartSteps :
    (∃ (s : State) (env : StartEnv) (warm : Bool), startFail s env warm = none ∧ s.mgmt.fails < 6 ∧ s.mem.wf = true ∧ warm = true ∧ env.hbmRetained = true ∧
      s.mgmt.trained = some s.mgmt.epoch) ∧
    (∃ (s : State) (env : StartEnv) (warm : Bool) (k r : Nat), startFail s env warm = some (k, r) ∧ r ≠ 7 ∧ r ≠ 8 ∧ s.mgmt.fails < 6) ∧
    (∃ (s : State) (env : StartEnv), env.failAt = none ∧ s.mgmt.fails < 6 ∧ (env.images.map fun i => i.2) ≠ s.mgmt.imageHashes) ∧
    (∃ s : State, 1 ≤ s.mgmt.stage ∧ s.mgmt.stage ≤ 6) ∧ (∃ s : State, s.mgmt.mbox = 0xFFFFFFFF) ∧ (∃ s : State, s.mgmt.mbox ≠ 0xFFFFFFFF) ∧
    ∃ s : State, s.mgmt.stage = 8 :=
  let at_ (n : Nat) : State := { State.reset with mgmt := { State.reset.mgmt with stage := n } }
  ⟨⟨{ State.reset with mgmt := { State.reset.mgmt with imageHashes := [7], trained := some 0 } }, ⟨none, true, 0, 1000, 0, [(0, 7)], 0, 0⟩, true,
      by decide +kernel⟩,
    ⟨State.reset, ⟨none, true, 0, 500, 0, [], 0, 0⟩, false, 5, 6, by decide +kernel⟩,
    ⟨State.reset, ⟨none, true, 0, 1000, 0, [(0, 7)], 0, 0⟩, by decide +kernel⟩, ⟨at_ 4, by decide +kernel⟩,
    ⟨{ State.reset with mgmt := { State.reset.mgmt with mbox := 0xFFFFFFFF } }, rfl⟩,
    ⟨{ State.reset with mgmt := { State.reset.mgmt with mbox := 5 } }, by decide +kernel⟩, at_ 8, rfl⟩

/-- The word that a fetch gives, and a machine for which `p` holds. -/
def fetched (f : Fetched) (w : Word) : Bool := match f with | .word v _ => decide (v = w) | .stop _ _ => false

theorem fetched_eq {f : Fetched} {w : Word} (h : fetched f w = true) : ∃ s, f = .word w s := by
  cases f with
  | word v s => exact ⟨s, by simpa [fetched] using h⟩
  | stop _ _ => cases h

/-- The word that a lode fetch gives. -/
def lodeFetched (f : LodeFetched) (w : Word) : Bool := match f with | .word v _ => decide (v = w) | _ => false

theorem lodeFetched_eq {f : LodeFetched} {w : Word} (h : lodeFetched f w = true) : ∃ s, f = .word w s := by
  cases f with
  | word v s => exact ⟨s, by simpa [lodeFetched] using h⟩
  | stop _ => cases h
  | fault _ => cases h

/-- The outcome is a next state. -/
def goesOn {σ φ ρ : Type} (o : Host.Outcome σ φ ρ) : Bool := match o with | .next _ => true | _ => false

theorem goesOn_eq {σ φ ρ : Type} {o : Host.Outcome σ φ ρ} (h : goesOn o = true) : ∃ t, o = .next t := by
  cases o with
  | next t => exact ⟨t, rfl⟩
  | fault _ => cases h
  | refused _ => cases h

theorem witness_DecodeAndEncodeAgree :
    (∃ (w : Word) (i : Instr), decode w = .ok i) ∧
    (∃ (w : Word) (i : Instr), encode i = some w ∧ lodeWord i = false ∧ (∀ k, i ≠ .srw k 0x025) ∧ i ≠ .illegal 0x1FFFFFF) ∧
    ∃ (rd rs1 rs2 : BitVec 5) (w : Word), encode (.chpush rd rs1 rs2) = some w :=
  ⟨⟨0x7A000000, .nop, rfl⟩, ⟨0x7A000000, .nop, rfl, rfl, fun _ => nofun, nofun⟩, 5, 10, 11, _, rfl⟩

theorem witness_StepRunsTheDecodedInstruction :
    ∃ (s s₁ s₂ : State) (rest : List Move) (core port gid ci : Nat) (lanes : Mask) (pc : Dword) (w : Word) (i : Instr), s.agenda = .issue core port :: rest ∧
      portSpent { s with agenda := rest } core port = false ∧
      chooseIssue { s with agenda := rest } core port = (some (.crew gid ci lanes pc), s₁) ∧ fetch ⟨s₁, gid, ci, lanes, pc⟩ = .word w s₂ ∧
      decode w = .ok i ∧ ∃ t, exec i { s₂ with cur := some (.crew gid ci lanes pc) } = .next t := by
  have h : gives (match (chooseIssue { base with agenda := [] } 0 0).1 with | some c => .ok c | none => (.error () : Except Unit Cur)) (.crew 2 0 0xFFFFFFFF setupPc) =
      true := by decide +kernel
  have hf : fetched (fetch ⟨(chooseIssue { base with agenda := [] } 0 0).2, 2, 0, 0xFFFFFFFF, setupPc⟩) 0x7A000000 = true := by decide +kernel
  obtain ⟨s₂, h₂⟩ := fetched_eq hf
  have hx : goesOn (match fetch ⟨(chooseIssue { base with agenda := [] } 0 0).2, 2, 0, 0xFFFFFFFF, setupPc⟩ with
      | .word _ s => exec .nop { s with cur := some (.crew 2 0 0xFFFFFFFF setupPc) } | .stop _ s => exec .nop s) = true := by decide +kernel
  rw [h₂] at hx
  refine ⟨base, (chooseIssue { base with agenda := [] } 0 0).2, s₂, [], 0, 0, 2, 0, 0xFFFFFFFF, setupPc, 0x7A000000, .nop, by decide +kernel,
    by decide +kernel, ?_, h₂, rfl, goesOn_eq hx⟩
  refine Prod.ext ?_ rfl
  revert h
  cases (chooseIssue { base with agenda := [] } 0 0).1 with
  | none => intro h; cases h
  | some c => intro h; simpa [gives] using h

theorem witness_StepRunsTheDecodedInstruction_error :
    ∃ (s s₁ s₂ : State) (core port gid ci : Nat) (lanes : Mask) (pc : Dword) (e : DecodeErr), s.agenda = [.issue core port] ∧
      portSpent { s with agenda := [] } core port = false ∧
      chooseIssue { s with agenda := [] } core port = (some (.crew gid ci lanes pc), s₁) ∧ fetch ⟨s₁, gid, ci, lanes, pc⟩ = .word 0 s₂ ∧
      decode 0 = .error e := by
  have h : gives (match (chooseIssue { placeCrew State.reset 0 with agenda := [] } 0 0).1 with | some c => .ok c | none => (.error () : Except Unit Cur))
      (.crew 2 0 0xFFFFFFFF setupPc) = true := by decide +kernel
  have hf : fetched (fetch ⟨(chooseIssue { placeCrew State.reset 0 with agenda := [] } 0 0).2, 2, 0, 0xFFFFFFFF, setupPc⟩) 0 = true := by decide +kernel
  obtain ⟨s₂, h₂⟩ := fetched_eq hf
  refine ⟨placeCrew State.reset 0, (chooseIssue { placeCrew State.reset 0 with agenda := [] } 0 0).2, s₂, 0, 0, 2, 0, 0xFFFFFFFF, setupPc, .zeroWord,
    by decide +kernel, by decide +kernel, ?_, h₂, rfl⟩
  refine Prod.ext ?_ rfl
  revert h
  cases (chooseIssue { placeCrew State.reset 0 with agenda := [] } 0 0).1 with
  | none => intro h; cases h
  | some c => intro h; simpa [gives] using h

/-- An access whose pieces are one run of storage. -/
def oneRun (r : Except Nat (List Piece) × State) (key n : Nat) : Bool := match r.1 with | .ok ps => decide (ps = [.store key n]) | .error _ => false

theorem witness_StepRunsTheDecodedInstruction_fetch :
    ∃ (x : Ctx) (s : State) (key : Nat), isDev x.pc = true ∧ access x.st x.ag x.pc 32 (.plain 32) .fetch false = (.ok [.store key 32], s) ∧
      elemLocked s x.ag x.pc 32 false = false ∧ pieceAbsent (.store key 32) = false ∧ piecesPoisoned s [.store key 32] = false ∧
      fetchChanged s [.store key 32] = false := by
  refine ⟨here base 0xFFFFFFFF, _, 0x80000, by decide +kernel, Prod.ext (gives_eq (by decide +kernel)) rfl, by decide +kernel⟩

theorem witness_StepRunsTheDecodedInstruction_lode :
    ∃ (s s₁ s₂ : State) (rest : List Move) (cluster : Nat) (c : Cur) (w : Word) (t : State), s.agenda = .lode cluster :: rest ∧
      lodeSpent { s with agenda := rest } cluster = false ∧ chooseLode { s with agenda := rest } cluster = (some c, s₁) ∧
      fetchLode s₁ c = .word w s₂ ∧ exec (decodeLode w) { s₂ with cur := some c } = .next t := by
  have hc : (chooseLode { placeLode State.reset 0x13 with agenda := [] } 0).1 = some (.lode 2) := by decide +kernel
  have hf : lodeFetched (fetchLode (chooseLode { placeLode State.reset 0x13 with agenda := [] } 0).2 (.lode 2)) 0x13 = true := by decide +kernel
  obtain ⟨s₂, h₂⟩ := lodeFetched_eq hf
  have hx : goesOn (match fetchLode (chooseLode { placeLode State.reset 0x13 with agenda := [] } 0).2 (.lode 2) with
      | .word _ s => exec (decodeLode 0x13) { s with cur := some (.lode 2) } | .stop s => exec .nop s | .fault f => .fault f) = true := by decide +kernel
  rw [h₂] at hx
  obtain ⟨t, ht⟩ := goesOn_eq hx
  exact ⟨placeLode State.reset 0x13, _, s₂, [], 0, .lode 2, 0x13, t, by decide +kernel, by decide +kernel, Prod.ext hc rfl, h₂, ht⟩

theorem witness_EveryStepKeepsTheMemoryForm : ∃ s t : State, s.mem.wf = true ∧ step s = .next t := by
  have h : goesOn (step base) = true := by decide +kernel
  obtain ⟨t, ht⟩ := goesOn_eq h
  exact ⟨base, t, by decide +kernel, ht⟩

/-! ## Hypotheses that can be met: members in several groups, write buffers, tasks, parked lanes -/

/-- REDUCE of register 1 over all lanes. -/
def reduceAll (m : MReg) : Instr := .reduce 1 2 .add false m

/-- The crew with lanes 0 to 15 arrived at the instruction, with member mask `mem`, and mask register 1 naming lanes 0 to 30. -/
def halfArrived (m : MReg) (mem : Mask) (c : Crew) : Crew :=
  let c := filled .n32 3 { c with m := c.m.set 1 0x7FFFFFFF }
  { c.modLanes 0xFFFF fun e => { e with st := .wait .members } with arrivals := [⟨setupPc, reduceAll m, mem, 0xFFFF, c.wbase, c.lhist⟩] }

/-- The context in which lanes 16 up to some lane issue it. -/
def joining (m : MReg) (mem lanes : Mask) : Ctx := here (base.modCrew 2 0 (halfArrived m mem)) lanes

theorem joining_own (m : MReg) (mem lanes : Mask) (h : gives (((joining m mem lanes).c.seenBy (joining m mem lanes).arrived).readCode 0 2) (same .n32 3, 0) &&
    gives (((joining m mem lanes).c.seenBy (joining m mem lanes).arrived).readCode 0 120) (Opnd.zero, 0) = true) :
    ∃ (d : Reg) (f : Fmt) (val : Nat → Word), (joining m mem lanes).CrossOwn (reduceAll m) m d f val := by
  rw [Bool.and_eq_true] at h
  exact ⟨_, _, _, rfl, same .n32 3, Opnd.zero, 0, 0, gives_eq h.1, gives_eq h.2, rfl⟩

theorem witness_CrossLaneGroups :
    (∃ (x : Ctx) (i : Instr) (m : MReg) (d : Reg) (f : Fmt) (val : Nat → Word), x.CrossOwn i m d f val ∧ x.Issues i ∧
      subMask x.lanes (x.c.mask m.toNat) = false) ∧
    (∃ (x : Ctx) (i : Instr) (m : MReg) (d : Reg) (f : Fmt) (val : Nat → Word), x.CrossOwn i m d f val ∧ x.Issues i ∧
      subMask x.lanes (x.c.mask m.toNat) = true ∧ ∃ a ∈ x.others, a.members ≠ x.c.mask m.toNat) ∧
    (∃ (x : Ctx) (i : Instr) (m : MReg) (d : Reg) (f : Fmt) (val : Nat → Word), x.CrossOwn i m d f val ∧ x.Issues i ∧
      subMask x.lanes (x.c.mask m.toNat) = true ∧ (∀ a ∈ x.others, a.members = x.c.mask m.toNat) ∧
      subMask (x.c.needed (x.c.mask m.toNat)) x.arrived = false) ∧
    ∃ (x : Ctx) (i : Instr) (m : MReg) (d : Reg) (f : Fmt) (val : Nat → Word), x.CrossOwn i m d f val ∧ x.Issues i ∧ isNW i = false ∧
      x.others ≠ [] ∧ (∀ a ∈ x.others, a.members = x.c.mask m.toNat ∧ a.wbase = x.c.wbase ∧ a.lhist = x.c.lhist) ∧
      arrivedLanes x.others &&& x.lanes = 0 ∧ subMask x.lanes (x.c.mask m.toNat) = true ∧ x.c.needed (x.c.mask m.toNat) = x.arrived := by
  obtain ⟨d1, f1, v1, h1⟩ := joining_own 1 0x7FFFFFFF 0xFFFF0000 (by decide +kernel)
  obtain ⟨d2, f2, v2, h2⟩ := joining_own 0 0x7FFFFFFF 0xFFFF0000 (by decide +kernel)
  obtain ⟨d3, f3, v3, h3⟩ := joining_own 0 0xFFFFFFFF 0x7FFF0000 (by decide +kernel)
  obtain ⟨d4, f4, v4, h4⟩ := joining_own 0 0xFFFFFFFF 0xFFFF0000 (by decide +kernel)
  exact ⟨⟨_, _, 1, d1, f1, v1, h1, by decide +kernel⟩, ⟨_, _, 0, d2, f2, v2, h2, by decide +kernel⟩, ⟨_, _, 0, d3, f3, v3, h3, by decide +kernel⟩,
    _, _, 0, d4, f4, v4, h4, by decide +kernel⟩

/-- The last half to arrive completes the sum of 32 lanes, in lanes that arrived before as in its own. -/
theorem test_reduce_in_two_groups : (match exec (reduceAll 0) (joining 0 0xFFFFFFFF 0xFFFF0000).st with
    | .next t => (match t.crew? 2 0 with
      | some c => decide ((c.vreg 1).val.lane 3 = 96 ∧ (c.vreg 1).val.lane 31 = 96 ∧ c.lane 3 = ⟨nextPc setupPc, .ready, 0⟩ ∧ c.arrivals = [])
      | none => false)
    | _ => false) = true := by decide +kernel

/-- The agent of a crew of the ordered machine. -/
def taskAgent : Agent := (here (ordered false) 0xFFFFFFFF).ag

theorem witness_TaskStoresGoToTheWriteBuffer_buffer : ∃ (s : State) (ag : Agent) (launch : Nat) (t t' : Task) (ptr : Dword) (n a : Nat) (dom : LockDom),
    0 < n ∧ taskNumbered s launch t.num = some t' ∧ t'.tag = t.tag ∧ lockBase s ag ptr = some (dom, a) ∧ NoLaterReader s launch t dom a n ∧
    a % 512 + n ≤ 512 ∧ (∀ w ∈ t'.writes, ¬(w.dom = dom ∧ w.line = a / 512)) ∧ ((unitOf s launch).tasks.map fun u => u.num).Nodup :=
  ⟨ordered false, taskAgent, 1, firstTask false, firstTask false, 0x100020, 32, 0x100020, .dev, by decide +kernel, by decide +kernel, rfl,
    by decide +kernel, by unfold NoLaterReader; decide +kernel, by decide +kernel, by decide +kernel, by decide +kernel⟩

/-- Task 1 with bits of one line buffered, or at the frontier. -/
def writer (front : Bool) (st : TaskState) : Task :=
  { firstTask front with st := st, writes := if front then [] else [⟨.dev, 0x800, 0x100000, 7, 0xFF⟩] }

/-- Task 1 and task 2, which has read that line. -/
def twoTasks (front : Bool) (st : TaskState) : State :=
  let t2 : Task := { firstTask false with num := 2, tag := [(6, 0)], st := .running, reads := [(.dev, 0x800)] }
  { ordered front with launches := (ordered front).launches.map fun l => { l with tasks := some ⟨[writer front st, t2], 3, 0⟩ } }

theorem twoTasks_launched (front : Bool) (st : TaskState) : ∃ l, (twoTasks front st).launch? 1 = some l :=
  Option.isSome_iff_exists.mp (by cases front <;> cases st <;> decide +kernel)

theorem witness_TaskProgress :
    (∃ (s : State) (w : TaskLine), s.mem.wf = true ∧ Untracked s ∧ w.mask.getLsbD 3 = true) ∧
    (∃ (s : State) (launch : Nat) (l : Launch) (t : Task), s.launch? launch = some l ∧ taskNumbered s launch t.num = some t ∧ t.puts = [] ∧
      t.deferred = none ∧ t.writes ≠ [] ∧ (runnerOf s launch t.num).isSome = true) ∧
    (∃ (s : State) (launch : Nat) (l : Launch) (t : Task), s.launch? launch = some l ∧ taskNumbered s launch t.num = some t ∧ t.puts = [] ∧
      t.deferred = none ∧ runnerOf s launch t.num = none) ∧
    (∃ (s : State) (launch : Nat) (l : Launch) (t : Task), s.launch? launch = some l ∧ frontierOf s launch = some t ∧
      taskNumbered s launch t.num = some t ∧ t.front = true ∧ t.st = .finished) ∧
    (∃ (s : State) (launch : Nat) (l : Launch) (t : Task), s.launch? launch = some l ∧ frontierOf s launch = some t ∧
      taskNumbered s launch t.num = some t ∧ t.front = false ∧ t.st = .finished ∧ t.puts = [] ∧ t.deferred = none) ∧
    (∃ (s : State) (launch : Nat) (w : Task) (lines : List (LockDom × Nat)), ∃ t ∈ (unitOf s launch).tasks,
      (tagLt w.tag t.tag && t.reads.any fun r => lines.contains r) = true) ∧
    (∃ (s : State) (launch : Nat) (w : Task) (lines : List (LockDom × Nat)), (unitOf s launch).tasks ≠ [] ∧ ∀ t ∈ (unitOf s launch).tasks,
      (tagLt w.tag t.tag && t.reads.any fun r => lines.contains r) = false) ∧
    ∃ (s : State) (launch gid ci : Nat) (n : BitVec 32) (c : Crew), runnerOf s launch n = some (gid, ci) ∧ s.crew? gid ci = some c ∧ c.Shaped := by
  obtain ⟨l1, h1⟩ := twoTasks_launched false .running
  obtain ⟨l2, h2⟩ := twoTasks_launched false .finished
  obtain ⟨l3, h3⟩ := twoTasks_launched true .finished
  have h : ((twoTasks false .running).crew? 2 0).any (fun c => decide c.Shaped) = true := by decide +kernel
  match hc : (twoTasks false .running).crew? 2 0, h with
  | some c, h =>
    exact ⟨⟨base, ⟨.dev, 0, 0, 0, 8⟩, by decide +kernel, by unfold Untracked; decide +kernel, by decide +kernel⟩,
      ⟨twoTasks false .running, 1, l1, writer false .running, h1, by decide +kernel⟩,
      ⟨{ twoTasks false .finished with gangs := [] }, 1, l2, writer false .finished, h2, by decide +kernel⟩,
      ⟨twoTasks true .finished, 1, l3, writer true .finished, h3, by decide +kernel⟩,
      ⟨twoTasks false .finished, 1, l2, writer false .finished, h2, by decide +kernel⟩,
      ⟨twoTasks false .running, 1, firstTask false, [(.dev, 0x800)], by decide +kernel⟩,
      ⟨twoTasks false .running, 1, firstTask false, [(.dev, 0x801)], by decide +kernel, by decide +kernel⟩,
      twoTasks false .running, 1, 2, 0, 1, c, by decide +kernel, hc, by simpa using h⟩

/-- k3 points at an address that no page maps. -/
def unmapped : Ctx := on (withK 3 0x4000000000000)

/-- The same address as the source of a copy. -/
def lostRow : Layout := { row with base := 0x4000000000000 }

/-- A copy from it. -/
def lostCopy : HoistCopy := { copy true with layout := some lostRow }

/-- Its command. -/
def lostCmd : EngCmd := { copyCmd true with body := .hoist lostCopy }

theorem witness_ReplayableFaults :
    (∃ (x : Ctx) (i : Instr) (sg : Bool) (d : Reg) (k : KReg) (o : Reg) (w : BitVec 4) (n : BitVec 3) (v : Opnd) (lanes : Mask) (p : Dword) (cause : Nat),
      loadParts i = some (sg, d, k, o, w, n) ∧ x.Issues i ∧ x.read [] o = .ok v ∧ v.isX = true ∧ x.mode = .plain ∧ x.c.chainHolds x.lanes = false ∧
      (checkLanes x.st x.ag (x.elems x.lanes k o v n (widthOf w.toNat)) (widthOf w.toNat) (.plain (widthOf w.toNat)) .read false).1 = .park lanes p cause ∧
      ∀ q ∈ sectorList (x.elems x.lanes k o v n (widthOf w.toNat)) (widthOf w.toNat), spaceOf (BitVec.ofNat 64 (q * 256)) ≠ 5) ∧
    (∃ (x : Ctx) (d : Reg) (k : KReg) (o : Reg) (w : BitVec 4) (n : BitVec 3) (val : Nat → Nat) (v : Opnd) (lanes : Mask) (p : Dword) (cause : Nat),
      x.Issues (.st d k o w n) ∧ x.storeValue d (widthOf w.toNat) = .ok val ∧ x.read [d] o = .ok v ∧ v.isX = true ∧ x.mode = .plain ∧
      x.c.chainHolds x.lanes = false ∧
      (checkLanes x.st x.ag (x.elems x.lanes k o v n (widthOf w.toNat)) (widthOf w.toNat) (.plain (widthOf w.toNat)) .write false).1 = .park lanes p cause) ∧
    (∃ (s t : State) (core cmd k j kind cause : Nat) (y : EngCmd) (h : HoistCopy) (l : Layout) (p : Dword), s.cmd? cmd = some y ∧ y.core = core ∧
      y.body = .hoist h ∧ h.layout = some l ∧ y.paused = false ∧ k ∈ h.todo ∧ blockedBy s core y.id (chunkRanges s (y.agent s) core h l k) = false ∧
      remoteParts s y k = [] ∧ holdLost s y h = false ∧ copyElems (y.agent s) y h l k 0 ((chunkElems l h.slices k).drop 0) s = (t, some (j, p, cause, kind)) ∧
      h.part = [] ∧ replayable cause = true) ∧
    (∃ (s : State) (y z : EngCmd), s.cmd? y.id = some z) ∧
    ∃ (s : State) (core cmd k : Nat) (y : EngCmd), s.cmd? cmd = some y ∧ y.core = core ∧ y.paused = true ∧ remoteParts s y k = [] := by
  have h : unmapped.read [] 1 = .ok (same .n32 0) := gives_eq (by decide +kernel)
  exact ⟨⟨unmapped, .ld 1 3 121 9 0, _, 1, 3, 121, 9, 0, ⟨.aff 0 1, .uni 0, some .n32⟩, 0xFFFFFFFF, 0x4000000000000, 25, rfl, by decide +kernel,
      gives_eq (by decide +kernel), by decide, by decide +kernel, by decide +kernel, by decide +kernel, by decide +kernel⟩,
    ⟨unmapped, 1, 3, 121, 9, 0, _, ⟨.aff 0 1, .uni 0, some .n32⟩, 0xFFFFFFFF, 0x4000000000000, 25, by decide +kernel, by unfold Ctx.storeValue; rw [h]; rfl, gives_eq (by decide +kernel),
      by decide, by decide +kernel, by decide +kernel, by decide +kernel⟩,
    ⟨{ scr with cmds := [lostCmd] }, _, 0, 5, 0, 0, 0, 25, lostCmd, lostCopy, lostRow, 0x4000000000000, by decide +kernel, rfl, rfl, rfl, rfl, by decide,
      by decide +kernel, by decide +kernel, by decide +kernel, Prod.ext rfl (by decide +kernel), rfl, rfl⟩,
    ⟨{ scr with cmds := [lostCmd] }, lostCmd, lostCmd, rfl⟩,
    { scr with cmds := [{ lostCmd with paused := true }] }, 0, 5, 0, _, rfl, rfl, rfl, by decide +kernel⟩

/-! ## Hypotheses that can be met: cursors, sluice elements, chains, clusters, the end of a sweep -/

/-- The pond with one record in each basin, an open cursor on basin 1, and an operation at its inlet with `rest` behind it. -/
def served (k : PondOpKind) (rest : List PondOp) (d : Pond) : Pond :=
  { d with counts := [1, 1], total := 2, cursors := [⟨3, 1, 1, 0, 2, 0⟩], ops := ⟨.group 2 0 0xFFFFFFFF setupPc, k, 0, 0⟩ :: rest }

/-- The descriptor of that cursor. -/
def servedDesc : Dword := Pond.descriptor pond ⟨3, 1, 1, 0, 2, 0⟩

theorem served_inlet (k : PondOpKind) (rest : List PondOp) (f : State → State) (h : (f (pondState (served k rest))).ponds = (pondState (served k rest)).ponds) :
    InletServes (f (pondState (served k rest))) 0 0 (served k rest pond) ⟨.group 2 0 0xFFFFFFFF setupPc, k, 0, 0⟩ rest := by
  refine ⟨?_, rfl, rfl, ?_, rfl, rfl⟩
  · unfold State.pond?; rw [h]; rfl
  · rfl

theorem witness_PondCursorSteps :
    (∃ (s : State) (part slot gid ci : Nat) (lanes : Mask) (pc : Dword) (d : Pond) (op : PondOp) (rest : List PondOp) (k : KReg) (n : Nat),
      InletServes s part slot d op rest ∧ op.kind = .basin k n ∧ op.src = .group gid ci lanes pc ∧ d.basins ≤ n) ∧
    (∃ (s : State) (part slot gid ci : Nat) (lanes : Mask) (pc : Dword) (d : Pond) (op : PondOp) (rest : List PondOp) (k : KReg) (n : Nat),
      InletServes s part slot d op rest ∧ op.kind = .basin k n ∧ op.src = .group gid ci lanes pc ∧ n < d.basins ∧
      ∃ k, k < 64 ∧ ∀ e ∈ d.cursors.filter fun e => !(e.gang == gid && e.basin == n), e.slot ≠ k) ∧
    (∃ (s : State) (part slot gid ci : Nat) (lanes : Mask) (pc : Dword) (d : Pond) (op : PondOp) (rest : List PondOp) (k : KReg) (n : Nat),
      InletServes s part slot d op rest ∧ op.kind = .basin k n ∧ op.src = .group gid ci lanes pc ∧ n < d.basins ∧
      ∀ k, k < 64 → ∃ e ∈ d.cursors.filter fun e => !(e.gang == gid && e.basin == n), e.slot = k) ∧
    (∃ (s : State) (op : PondOp) (gid ci : Nat) (lanes : Mask) (pc : Dword) (c : Crew), op.src = .group gid ci lanes pc ∧
      s.crew? gid ci = some c ∧ c.inHandler = false ∧ c.Shaped) ∧
    (∃ (s : State) (part slot gid ci : Nat) (lanes : Mask) (pc : Dword) (d p : Pond) (op : PondOp) (rest : List PondOp) (r o : Reg) (m : MReg)
      (desc : Dword) (cur : Cursor) (c : Crew) (vs : List Nat), InletServes s part slot d op rest ∧ op.kind = .bnext r o m desc ∧
      op.src = .group gid ci lanes pc ∧ cursorOf s d.part d.fn desc = .ok (p, cur) ∧ s.crew? gid ci = some c ∧ c.inHandler = false ∧ c.Shaped ∧
      m ≠ 0 ∧ r.toNat + recRegs d.w ≤ 112 ∧ o.toNat < 112 ∧ r.toNat + recRegs d.w ≤ o.toNat ∧ op.wbase.toNat * 16 + 112 ≤ c.regs.length ∧
      cur.mark - cur.next = 1 ∧ readRecords s d cur.basin ((List.range (min (lanesOf (lanes &&& c.live)).length (cur.mark - cur.next))).map fun k => cur.next + k) = .ok vs) ∧
    (∃ (s : State) (d : Pond) (b q v : Nat), engineRead s d.agent (ptrAdd d.base (b * basinExtent d.w d.basins d.slack d.cap + q * d.w)) d.w .free = .ok v) ∧
    (∃ (s : State) (part slot : Nat) (d p : Pond) (op : PondOp) (rest : List PondOp) (desc : Dword) (recs : List (Nat × Nat)) (cur : Cursor),
      InletServes s part slot d op rest ∧ op.kind = .bwrite desc recs ∧ cursorOf s d.part d.fn desc = .ok (p, cur) ∧ ∃ r ∈ recs, cur.mark ≤ r.1) ∧
    (∃ (s u : State) (part slot : Nat) (d p : Pond) (op : PondOp) (rest : List PondOp) (desc : Dword) (recs : List (Nat × Nat)) (cur : Cursor),
      InletServes s part slot d op rest ∧ op.kind = .bwrite desc recs ∧ cursorOf s d.part d.fn desc = .ok (p, cur) ∧ (∀ r ∈ recs, r.1 < cur.mark) ∧
      recs ≠ [] ∧ writeRecs d (opTask s op) cur.basin recs s = (u, none)) ∧
    (∃ (s t : State) (d : Pond) (b q v : Nat), engineWrite s d.agent (d.recAddr b q) d.w v .free = .ok t) ∧
    (∃ (s : State) (part slot gid ci : Nat) (lanes : Mask) (pc : Dword) (d : Pond) (op : PondOp) (rest : List PondOp),
      InletServes s part slot d op rest ∧ op.kind = .remove ∧ op.src = .group gid ci lanes pc ∧ rest ≠ [] ∧ ∀ o ∈ rest, ∃ r l, o.kind = .put r l) := by
  let wide (c : Crew) : Crew := { c with regs := List.replicate 112 ⟨.uni 0, .n32⟩, regs16 := 7 }
  let crewed (s : State) : State := s.modCrew 2 0 wide
  have hc : ((crewed (pondState id)).crew? 2 0).any (fun c => decide (c.inHandler = false ∧ c.Shaped ∧ 112 ≤ c.regs.length ∧ c.live = 0xFFFFFFFF)) = true := by
    decide +kernel
  match h : (crewed (pondState id)).crew? 2 0, hc with
  | some c, hc =>
    have g : c.inHandler = false ∧ c.Shaped ∧ 112 ≤ c.regs.length ∧ c.live = 0xFFFFFFFF := by simpa using hc
    have h' : (crewed (pondState (served (.bnext 4 20 3 servedDesc) []))).crew? 2 0 = some c := h
    have hl : (min (lanesOf (0xFFFFFFFF &&& c.live)).length (1 - 0)) = 1 := by rw [g.2.2.2]; decide +kernel
    have hr : gives (readRecords (crewed (pondState (served (.bnext 4 20 3 servedDesc) []))) (served (.bnext 4 20 3 servedDesc) [] pond) 1
      ((List.range 1).map fun k => 0 + k)) [0] = true := by decide +kernel
    have hw : answers (engineWrite base pond.agent (pond.recAddr 1 0) pond.w 7 .free) (fun _ => true) = true := by decide +kernel
    obtain ⟨t, ht, -⟩ := answers_eq hw
    have hb : (writeRecs (served (.bwrite servedDesc [(0, 9)]) [] pond) (opTask (pondState (served (.bwrite servedDesc [(0, 9)]) []))
      ⟨.group 2 0 0xFFFFFFFF setupPc, .bwrite servedDesc [(0, 9)], 0, 0⟩) 1 [(0, 9)] (pondState (served (.bwrite servedDesc [(0, 9)]) []))).2.isNone = true := by
      decide +kernel
    refine ⟨⟨_, 0, 0, 2, 0, 0xFFFFFFFF, setupPc, _, _, _, 5, 2, served_inlet (.basin 5 2) [] id rfl, rfl, rfl, by decide⟩,
      ⟨_, 0, 0, 2, 0, 0xFFFFFFFF, setupPc, _, _, _, 5, 1, served_inlet (.basin 5 1) [] id rfl, rfl, rfl, by decide, 0, by decide⟩,
      ⟨pondState (fun d => { served (.basin 5 1) [] d with cursors := (List.range 64).map fun k => ⟨k, 0, 0, 0, 3, 0⟩ }), 0, 0, 2, 0, 0xFFFFFFFF, setupPc, _, _, _, 5, 1,
        ⟨rfl, rfl, rfl, rfl, rfl, rfl⟩, rfl, rfl, by decide, by decide +kernel⟩,
      ⟨crewed (pondState id), ⟨.group 2 0 1 setupPc, .basin 5 1, 0, 0⟩, 2, 0, 1, setupPc, c, rfl, h, g.1, g.2.1⟩,
      ⟨_, 0, 0, 2, 0, 0xFFFFFFFF, setupPc, _, served (.bnext 4 20 3 servedDesc) [] pond, _, _, 4, 20, 3, servedDesc, ⟨3, 1, 1, 0, 2, 0⟩, c, [0],
        served_inlet (.bnext 4 20 3 servedDesc) [] crewed rfl, rfl, rfl, ?_, h', g.1, g.2.1, by decide, by decide, by decide, by decide, by simpa using g.2.2.1, rfl, ?_⟩,
      ⟨base, pond, 1, 0, 0, gives_eq (by decide +kernel)⟩,
      ⟨_, 0, 0, _, served (.bwrite servedDesc [(1, 9)]) [] pond, _, _, servedDesc, [(1, 9)], ⟨3, 1, 1, 0, 2, 0⟩, served_inlet (.bwrite servedDesc [(1, 9)]) [] id rfl, rfl, gives_eq (by decide +kernel), by decide⟩,
      ⟨_, _, 0, 0, _, served (.bwrite servedDesc [(0, 9)]) [] pond, _, _, servedDesc, [(0, 9)], ⟨3, 1, 1, 0, 2, 0⟩, served_inlet (.bwrite servedDesc [(0, 9)]) [] id rfl, rfl, gives_eq (by decide +kernel), by decide,
        by decide, snd_none hb⟩,
      ⟨base, t, pond, 1, 0, 7, ht⟩,
      _, 0, 0, 2, 0, 0xFFFFFFFF, setupPc, _, _, _, served_inlet .remove [⟨.host 0, .put 120 [], 0, 0⟩] id rfl, rfl, rfl, by decide, by simp⟩
    · exact gives_eq (by decide +kernel)
    · show readRecords _ _ 1 ((List.range (min (lanesOf (0xFFFFFFFF &&& c.live)).length (1 - 0))).map fun k => 0 + k) = .ok [0]
      rw [hl]
      exact gives_eq hr

/-- The command of a DRAIN of the crew. -/
def drainCmd : EngCmd := ⟨5, 0, 0, 0, .crews 2 [0], .drain 0 0, false⟩

theorem witness_PondCursorSteps_drain :
    (∃ (s t : State) (part slot : Nat) (d : Pond) (op : PondOp) (rest : List PondOp) (dst : Dword) (k : KReg) (cmd b q n b' q' v : Nat) (x : EngCmd),
      InletServes s part slot d op rest ∧ op.kind = .drain dst k cmd b q n ∧ s.cmd? cmd = some x ∧ x.paused = false ∧
      nextRecord d.counts (d.basins + 1) b q = some (b', q') ∧
      let rs := lockRange s (x.agent s) dst (max (d.total * d.w) 1) true
      let u := s.modCore x.core fun r => { r with locks := r.locks.map fun e => if e.cmd == cmd then { e with ranges := rs, order := rs } else e }
      blockedBy s x.core cmd rs = false ∧ engineRead u d.agent (d.recAddr b' q') d.w .free = .ok v ∧
      engineWrite u (x.agent u) (ptrAdd dst (n * d.w)) d.w v .free = .ok t) ∧
    (∃ (s t : State) (ag : Agent) (ptr : Dword) (n v key : Nat) (al : Align), s.mem.wf = true ∧ Untracked s ∧ 0 < n ∧
      gives (access s ag ptr n al .read false).1 [.store key n] = true ∧ poisoned s key n = false ∧
      gives (access s ag ptr n al .write false).1 [.store key n] = true ∧ engineWrite s ag ptr n v al = .ok t) := by
  let s : State := { pondState (served (.drain 0x180000 3 5 0 0 0) []) with cmds := [drainCmd] }
  have h : answers (engineWrite s (drainCmd.agent s) (ptrAdd 0x180000 (0 * 256)) 256 0 .free) (fun _ => true) = true := by decide +kernel
  obtain ⟨t, ht, -⟩ := answers_eq h
  have h' : answers (engineWrite base pond.agent 0x100003 5 9 .free) (fun _ => true) = true := by decide +kernel
  obtain ⟨t', ht', -⟩ := answers_eq h'
  exact ⟨⟨s, t, 0, 0, _, _, _, 0x180000, 3, 5, 0, 0, 0, 0, 0, 0, drainCmd, served_inlet (.drain 0x180000 3 5 0 0 0) [] (fun s => { s with cmds := [drainCmd] }) rfl, rfl,
      rfl, rfl, rfl, by decide +kernel, gives_eq (by decide +kernel), ht⟩,
    base, t', pond.agent, 0x100003, 5, 9, 0x100003, .free, by decide +kernel, by unfold Untracked; decide +kernel, by decide, by decide +kernel, by decide +kernel,
    by decide +kernel, ht'⟩

theorem witness_SluiceElements : ∃ (s : State) (stack i dkey : Nat) (key : Nat → Nat), s.mem.wf = true ∧ Untracked s ∧ stack < s.sluiceStacks.length ∧
    ∀ op, op < 3 → ∃ b : Block, b.op = op ∧ b.stores = true ∧ b.sources.length = 2 ∧
      (∀ p ∈ b.sources.zipIdx, gives (sluiceElem s b stack (ptrAdd p.1 (i * b.w)) .read) [.store (key p.2) b.w] = true) ∧
      gives (sluiceElem s b stack (ptrAdd b.dest (i * b.w)) .write) [.store dkey b.w] = true := by
  let b (op : Nat) : Block := { copyBlock 1 with op := op, fmt := .f32, read := true, sources := [0x140000, 0x150000], dest := 0x130000 }
  refine ⟨base, 0, 0, 0x130000, fun j => 0x140000 + 0x10000 * j, by decide +kernel, by unfold Untracked; decide +kernel, by decide +kernel, ?_⟩
  intro op h
  refine ⟨b op, rfl, ?_, rfl, ?_⟩
  · show (op != 1 || true) = true
    simp
  · match op, h with
    | 0, _ => exact ⟨by decide +kernel, by decide +kernel⟩
    | 1, _ => exact ⟨by decide +kernel, by decide +kernel⟩
    | 2, _ => exact ⟨by decide +kernel, by decide +kernel⟩

/-- Three elements in F32: the third source joins the sum of the first two. -/
theorem test_sluice_tree : treeSum 5 [0x4B800000, 0x3F800000, 0x3F800000] = 0x4B800000 := by decide +kernel

theorem witness_IntegerMatrixChains :
    (∃ (c : Acc) (pair : Nat) (a b : List Nat), pairInt pair = true ∧ a.length = 256 ∧ b.length = 256 ∧
      c.even.Pairwise (fun p q => p.1 < q.1) ∧ c.odd.Pairwise (fun p q => p.1 < q.1) ∧ c.even ≠ []) ∧
    (∃ c : Acc, c.intKind = true) ∧
    ∃ (pair : Nat) (steps : List (List Nat × List Nat)), pairInt pair = true ∧ steps ≠ [] ∧ (∀ t ∈ steps, t.1.length = 256 ∧ t.2.length = 256) ∧
      let dot : Int := (steps.map fun t => intProduct pair (stepPair t.1 t.2 0 0 0) + intProduct pair (stepPair t.1 t.2 0 0 1)).sum
      dot < 2 ^ 31 ∧ -2 ^ 31 ≤ dot ∧ dot ≠ 0 :=
  ⟨⟨⟨[(0, 5), (9, 6)], [(3, 1)], true, 1⟩, 7, List.replicate 256 3, List.replicate 256 255, by decide +kernel⟩, ⟨⟨[], [], true, 0⟩, rfl⟩,
    7, [(List.replicate 256 3, List.replicate 256 255)], by decide +kernel⟩

/-- The machine with a cluster command at the head of the four queues of cluster 0. -/
def clusterState (op : MxOp) : State :=
  { (List.range 4).foldl (fun s c => modMx s c fun m => { m with halves := m.halves.set 0 ⟨.dense, .i8, 8192⟩ }) scr with cmds := [mxCmd op] }

/-- A cluster loop of `count` steps of I8 by I8. -/
def clusterLoop (count : Nat) : MxOp := .loop 0 0 0 0 count 0 0 0 7 true true

/-- What engine `c` fetches for step `k` of it. -/
def clusterFetch (t : State) (count c k : Nat) : StepFetch :=
  stepFetch t ((mxCmd (clusterLoop count)).engineAgent t c) c 0 0 0 count 0 0 7 k

/-- The fetch gives both blocks. -/
def goes (f : StepFetch) : Bool := match f with | .go _ _ => true | _ => false

theorem goes_eq {f : StepFetch} (h : goes f = true) : ∃ a b, f = .go a b := by
  cases f with
  | go a b => exact ⟨a, b, rfl⟩
  | done _ => cases h
  | stop _ _ => cases h

theorem not_stop {f : StepFetch} {n : Nat} (h : f = .done n ∨ goes f = true) (u v : Nat) : f ≠ .stop u v := by
  rcases h with h | h
  · rw [h]; intro e; cases e
  · intro e; rw [e] at h; cases h

theorem witness_ClusterMatrixSteps :
    (∃ (s : State) (core acc : Nat) (x : EngCmd) (k : Bool), mxHead s core = some (x, .clr acc k true) ∧ mxReady s x = true) ∧
    (∃ (s : State) (core acc sparse : Nat) (x : EngCmd) (a b : Dword) (count start inca incb pair c cause st : Nat),
      mxHead s core = some (x, .loop acc sparse a b count start inca incb pair true true) ∧ mxReady s x = true ∧ c ∈ enginesOf x.core true ∧
      stepFetch s (x.engineAgent s c) c sparse a b count inca incb pair (accOf s x.core acc).step = .stop cause st ∧
      ∀ e ∈ enginesOf x.core true, e < c → ∀ u v, stepFetch s (x.engineAgent s e) e sparse a b count inca incb pair (accOf s x.core acc).step ≠ .stop u v) ∧
    (∃ (s : State) (core acc sparse : Nat) (x : EngCmd) (a b : Dword) (count start inca incb pair c m : Nat),
      mxHead s core = some (x, .loop acc sparse a b count start inca incb pair true true) ∧ mxReady s x = true ∧ c ∈ enginesOf x.core true ∧
      (∀ e ∈ enginesOf x.core true, ∀ u v, stepFetch s (x.engineAgent s e) e sparse a b count inca incb pair (accOf s x.core acc).step ≠ .stop u v) ∧
      stepFetch s (x.engineAgent s c) c sparse a b count inca incb pair (accOf s x.core acc).step = .done m ∧
      ∀ e ∈ enginesOf x.core true, ¬e < c) ∧
    (∃ (s : State) (core acc sparse : Nat) (x : EngCmd) (a b : Dword) (count start inca incb pair : Nat),
      mxHead s core = some (x, .loop acc sparse a b count start inca incb pair true true) ∧ mxReady s x = true ∧
      (∀ c ∈ enginesOf x.core true, ∃ va vb, stepFetch s (x.engineAgent s c) c sparse a b count inca incb pair (accOf s x.core acc).step = .go va vb) ∧
      ∀ c ∈ enginesOf x.core true, c < s.cores.length ∧ acc < (s.core c).mx.accs.length) ∧
    (∃ (c : Acc) (pair : Nat) (a b : List Nat), pairInt pair = false ∧ a.length = 256 ∧ b.length = 256 ∧
      c.even.Pairwise (fun p q => p.1 < q.1) ∧ c.odd.Pairwise (fun p q => p.1 < q.1)) ∧
    (∃ (s : State) (core : Nat) (x : EngCmd) (mode : WMode) (src : Dword) (half n : Nat) (f : Fmt) (v : Nat), mxHead s core = some (x, .wb mode src half f n) ∧
      mxReady s x = true ∧ src ≠ 0 ∧ s.mem.wf = true ∧ x.core < s.cores.length ∧ operandRead s (x.agent s) src 0 n = .ok v ∧ 0 < n) ∧
    (∃ (s : State) (core : Nat) (x : EngCmd) (mode : WMode) (src : Dword) (half n : Nat) (f : Fmt) (c : Nat), mxHead s core = some (x, .wb mode src half f n) ∧
      mxReady s x = true ∧ src ≠ 0 ∧ s.mem.wf = true ∧ x.core < s.cores.length ∧ operandRead s (x.agent s) src 0 n = .error c) ∧
    ∃ (x : EngCmd) (es : List Nat) (dst : Dword) (acc stride e i j : Nat) (f : Fmt) (s t : State), es.length = 4 ∧ e < es.length ∧ i < 128 ∧ j < 128 ∧
      e = 3 ∧ engineWrite s (x.agent s) (ptrAdd dst ((i + 128) * stride + (j + 128) * fmtWidth f)) (fmtWidth f)
        ((accOf s (es.getD e x.core) acc).deliver f (128 * i + j)) (.plain (fmtWidth f)) = .ok t := by
  let wb (src : Dword) : MxOp := .wb .s24 src 1 .i8 512
  let st : MxOp := .st 0x3000000000000000 0 .e4m3 true 8 false 0
  have hw : answers (operandRead (clusterState (wb 0x3000000000000000)) ((mxCmd (wb 0x3000000000000000)).agent (clusterState (wb 0x3000000000000000))) 0x3000000000000000 0 512)
    (fun _ => true) = true := by decide +kernel
  obtain ⟨v, hv, -⟩ := answers_eq hw
  have ht : answers (engineWrite (clusterState st) ((mxCmd st).agent (clusterState st)) (ptrAdd 0x3000000000000000 ((1 + 128) * 8 + (2 + 128) * 8)) 8
    ((accOf (clusterState st) ([0, 1, 2, 3].getD 3 0) 0).deliver .e4m3 (128 * 1 + 2)) (.plain 8)) (fun _ => true) = true := by decide +kernel
  obtain ⟨t, ht, -⟩ := answers_eq ht
  let odd : State := modMx (clusterState (clusterLoop 2)) 1 fun m => { m with halves := m.halves.set 0 ⟨.dense, .i4, 8192⟩ }
  refine ⟨⟨clusterState (.clr 1 true true), 0, 1, mxCmd (.clr 1 true true), true, by decide +kernel⟩,
    ⟨odd, 0, 0, 0, mxCmd (clusterLoop 2), 0, 0, 2, 0, 0, 0, 7, 1, Cause.mxOperand, 0, by decide +kernel, by decide +kernel, by decide, by decide +kernel, ?_⟩,
    ⟨clusterState (clusterLoop 0), 0, 0, 0, mxCmd (clusterLoop 0), 0, 0, 0, 0, 0, 0, 7, 0, 0, by decide +kernel, by decide +kernel, by decide, ?_, by decide +kernel, by decide⟩,
    ⟨clusterState (clusterLoop 2), 0, 0, 0, mxCmd (clusterLoop 2), 0, 0, 2, 0, 0, 0, 7, by decide +kernel, by decide +kernel, ?_, by decide +kernel⟩,
    ⟨⟨[], [(1, 5)], false, 0⟩, 0, List.replicate 256 3, List.replicate 256 2, by decide +kernel⟩,
    ⟨clusterState (wb 0x3000000000000000), 0, mxCmd (wb 0x3000000000000000), .s24, 0x3000000000000000, 1, 512, .i8, v, by decide +kernel, by decide +kernel, by decide,
      by decide +kernel, by decide +kernel, hv, by decide⟩,
    ⟨clusterState (wb 0x3000000000008000), 0, mxCmd (wb 0x3000000000008000), .s24, 0x3000000000008000, 1, 512, .i8, 21, by decide +kernel, by decide +kernel, by decide,
      by decide +kernel, by decide +kernel, refuses_eq (by decide +kernel)⟩,
    mxCmd st, [0, 1, 2, 3], 0x3000000000000000, 0, 8, 3, 1, 2, .e4m3, clusterState st, t, rfl, by decide, by decide, by decide, rfl, ht⟩
  · intro e he hl
    have : e = 0 := by omega
    subst this
    exact not_stop (n := 0) (.inr (by decide +kernel))
  · intro e he
    have h : ∀ e ∈ enginesOf 0 true, clusterFetch (clusterState (clusterLoop 0)) 0 e 0 = .done 0 := by decide +kernel
    exact not_stop (.inl (h e he))
  · intro c hc
    have h : ∀ c ∈ enginesOf 0 true, goes (clusterFetch (clusterState (clusterLoop 2)) 2 c 0) = true := by decide +kernel
    exact goes_eq (h c hc)

/-- A machine whose array has a sweep of `left` sweeps at its head, at colour `c`. -/
def sweeping (left c : Nat) (begun entropy : Bool) : State :=
  let s := spState (.sweep left none true begun c)
  { s with springs := s.springs.map fun p => { p with entropy := entropy } }

theorem witness_SpringSweepEnd :
    (∀ entropy : Bool, ∀ last : Bool, ∃ (s : State) (die left c : Nat) (q : SpCmd) (rest : List SpCmd) (beta : Option (BitVec 8)) (clr : Bool),
      die < s.springs.length ∧ (s.spring die).queue = q :: rest ∧ q.op = .sweep left beta clr true c ∧ 0 < left ∧ springWaits s q = false ∧
      (s.spring die).entropy = entropy ∧ decide ((s.spring die).colours ≤ c + 1) = last) ∧
    ∃ (s : State) (die left c : Nat) (q : SpCmd) (rest : List SpCmd) (beta : Option (BitVec 8)) (clr : Bool),
      die < s.springs.length ∧ (s.spring die).queue = q :: rest ∧ q.op = .sweep left beta clr false c ∧ springWaits s q = false := by
  refine ⟨?_, sweeping 1 0 false false, 0, 1, 0, spCmd (.sweep 1 none true false 0), [], none, true, by decide +kernel⟩
  intro entropy last
  refine ⟨sweeping 1 (if last then 1 else 0) true entropy, 0, 1, if last then 1 else 0, spCmd (.sweep 1 none true true (if last then 1 else 0)), [], none, true, ?_⟩
  cases entropy <;> cases last <;> decide +kernel

theorem witness_AtomicUpdatesStorage_values : (∃ f : Option Fmt, (∀ g, f = some g → classF g = false) ∧ ∃ g, f = some g ∧ fmtSigned g = true) ∧
    (∃ f : Option Fmt, (∀ g, f = some g → classF g = false) ∧ ∀ g, f = some g → fmtSigned g = false) ∧
    ∃ (g : Fmt) (b : BinFmt), classF g = true ∧ binOf g = some b :=
  ⟨⟨some .i32, by intro g h; cases h; rfl, .i32, rfl, rfl⟩, ⟨some .n32, by intro g h; cases h; rfl, by intro g h; cases h; rfl⟩, .f32, _, rfl, rfl⟩

/-! ## What the rules say of caches, reservations and late registrations -/

/-- R176: the rule places D of ATCAS for widths up to 32 bits and for 64; W 11 leaves it free, and traps by its width. -/
theorem test_atcas_places_d_by_width : (casWidth 9 111).badReg = true ∧ (casWidth 10 106).badReg = true ∧ (casWidth 10 108).badReg = false ∧
    (casWidth 11 111).badReg = false := by decide

/-- R162: a word in a data cache that meets an error traps when it is read, its neighbour does not, and a store of the whole word mends it. -/
theorem test_cached_word_with_an_error :
    let s := cacheError (cacheWrite base 0 0x4000 64 7 false) 0 (0x4000 / 64)
    (cacheRead s 0 0x4000 32 false).1 = none ∧ (cacheRead s 0 0x4040 64 false).1 = some 0 ∧
      (cacheRead (cacheWrite s 0 0x4000 64 9 false) 0 0x4000 64 false).1 = some 9 := by decide +kernel

/-- R162, R163: a dirty word that cannot be corrected is lost when its line leaves, and stays marked in storage. -/
theorem test_lost_dirty_word : (evictLine (cacheError (cacheWrite base 0 0x4000 64 7 false) 0 (0x4000 / 64)) 0 (0x4000 / 512)).poison = [0x4000 / 64] := by
  decide +kernel

/-- R246, R249: a store between LR and SC ends the reservation, though it writes the bits that were there. -/
theorem test_equal_store_ends_a_reservation :
    let s := base.modGang 2 fun g => { g with lode := { g.lode with resv := some 0x4000 } }
    ((dropReservations s (storeBits s 0x4000 32 (s.mem.bits 0x4000 32))).gangs.map fun g => g.lode.resv) = [none] ∧
      ((dropReservations s (storeBits s 0x4040 32 5)).gangs.map fun g => g.lode.resv) = [some 0x4000] := by decide +kernel

/-- R261: a registration that another package makes for a crew that is over is closed there. -/
theorem test_late_registration_is_closed :
    (closeOpens { base with link := { base.link with reqs := [⟨3, some 5, 0, 0, [], .qopen 0x5000, 9, 0, false, some (.data 4), 0⟩] } }).link.reqs.map
      (fun r => (r.node, r.posted, r.op)) = [(some 5, true, .qclose 0x5000 4)] := by decide +kernel

end Sys2Proof.Tests
end

section
/-! SUPPORT. What SRW and LODEPC do, once the group issues them (00 R3, 05 R111, 18 R277, 03 R59, 04 R82). -/

namespace Sys2Proof.Machine

/-! ## Instructions that pop nothing and have no place in the latch history -/

/-- Such an instruction's completion leaves chute, LHIST and chain as the body made them. -/
theorem complete_eq_self (c : Crew) (i : Instr) (l : Mask) (pc : Dword) (v : Option LatchVal) (hp : popsOf i = 0) (hn : nwD i = none) :
    c.complete i l pc v = c := by
  simp only [Crew.complete, Crew.pop, hp, hn, if_true]

/-- Once the group goes on, its lanes are READY at the next word and every other lane is where it was (04 R69). -/
theorem lanes_release (x : Ctx) (c : Crew) (hx : x.Group) (hpcs : c.pcs = x.c.pcs) :
    x.Lanes (fun _ => ⟨nextPc x.pc, .ready, 0⟩) (c.release x.lanes nextPc) := by
  obtain ⟨-, -, ⟨-, hlen, -⟩, -, hlane⟩ := hx
  refine ⟨by rw [release_length, hpcs], fun j hj => ?_⟩
  have same : c.lane j = x.c.lane j := by simp only [Crew.lane, hpcs]
  rw [lane_release _ _ _ _ (by rw [hpcs, hlen]; exact hj) hj, same]
  by_cases hl : x.lanes.getLsbD j
  · obtain ⟨hpc, hst⟩ := hlane j hj hl
    simp [hl, hpc, hst]
  · simp [hl]

/-- The answer of an instruction whose body makes `s` of the machine. -/
theorem exec_of_next (x : Ctx) (i : Instr) (body : Ctx → Res) (s : State) (hx : x.Issues i) (he : exec i x.st = issue i x.st body)
    (hb : body x = .next s none) (hp : popsOf i = 0) (hn : nwD i = none) :
    exec i x.st = .next (afterIssue (s.modCrew x.gid x.ci fun c => c.release x.lanes nextPc) x.gid) := by
  have h : x.EndsIn i s := endsIn_of x i body s hx he hb
  simpa only [Ctx.EndsIn, complete_eq_self _ i _ _ _ hp hn] using h

/-- The answer of an instruction whose body edits its crew alone. -/
theorem exec_of_upd (x : Ctx) (i : Instr) (body : Ctx → Res) (f : Crew → Crew) (hx : x.Issues i) (he : exec i x.st = issue i x.st body)
    (hb : body x = .next (x.upd f) none) (hp : popsOf i = 0) (hn : nwD i = none) (hidx : ∀ c, (f c).index = c.index) :
    exec i x.st = .next (x.become ((f x.c).release x.lanes nextPc)) := by
  rw [exec_of_next x i body _ hx he hb hp hn, Ctx.upd, modCrew_twice _ _ _ _ _ hidx,
    modCrew_congr _ _ _ _ (fun _ => (f x.c).release x.lanes nextPc) x.c hx.1.2.1 rfl]
  rfl

/-! ## The writes -/

theorem exec_srw (k : KReg) (r : BitVec 10) (s : State) :
    exec (.srw k r) s = issue (.srw k r) s fun x => x.sysWrite r.toNat (x.k k) := rfl

theorem exec_lodepc (k : KReg) (s : State) : exec (.lodepc k) s = issue (.lodepc k) s fun x => x.startLode (x.k k) := rfl

theorem sysWrite_epc (x : Ctx) (v : Dword) :
    x.sysWrite 0x001 v = .next (x.upd fun c => { c with trap := { c.trap with epc := v } }) none := rfl

theorem sysWrite_escratch (x : Ctx) (v : Dword) :
    x.sysWrite 0x006 v = .next (x.upd fun c => { c with trap := { c.trap with escratch := v } }) none := rfl

/-- LHIST takes a value all of whose codes a register can hold (03 R59). -/
theorem sysWrite_lhist (x : Ctx) (v : Dword) (h : histOk v = true) :
    x.sysWrite 0x021 v = .next (x.upd fun c => { c with lhist := v }) none := by
  simp only [Ctx.sysWrite, sysReg, h, if_true]

/-- A read-only register may be written with the value it has, and nothing happens (00 R3). -/
theorem sysWrite_readOnly (x : Ctx) (r : Nat) (v : Dword) (h : sysReg x r = some (.ro, v)) : x.sysWrite r v = .next x.st none := by
  simp only [Ctx.sysWrite, h, if_true]

theorem sysWrite_lodepc (x : Ctx) (v : Dword) : x.sysWrite 0x025 v = x.startLode v := rfl

/-- An SRW that edits its crew by `f` puts the edited crew in its place, gone on to the next word. -/
theorem srw_edits_crew (x : Ctx) (k : KReg) (r : BitVec 10) (f : Crew → Crew) (hx : x.Issues (.srw k r))
    (hb : x.sysWrite r.toNat (x.k k) = .next (x.upd f) none) (hidx : ∀ c, (f c).index = c.index) (hpcs : (f x.c).pcs = x.c.pcs) :
    ∃ c, exec (.srw k r) x.st = .next (x.become c) ∧ x.Lanes (fun _ => ⟨nextPc x.pc, .ready, 0⟩) c ∧
      c = { f x.c with pcs := c.pcs, tied := (f x.c).tied &&& ~~~x.lanes, cwaits := (f x.c).cwaits &&& ~~~x.lanes } :=
  ⟨(f x.c).release x.lanes nextPc, exec_of_upd x _ _ f hx (exec_srw k r x.st) hb rfl rfl hidx, lanes_release x (f x.c) hx.1 hpcs,
    release_frame _ _ _⟩

/-! ## The start of the lode thread -/

/-- A lode thread that may start runs at `pc`, with the launch's ARGS in x10, the gang's index in x11, the gang's crews in x12, the
crew's index in x13 and zeros elsewhere (04 R82). -/
theorem startLode_ok (x : Ctx) (pc : Dword) (hd : isDev pc = true) (ha : pc.toNat % 16 = 0) (hr : x.g.lode.st ≠ .running) :
    x.startLode pc = .next (x.st.modGang x.gid fun g => { g with lode := ⟨.running, pc,
      (List.range 31).map fun n =>
        if n = 9 then (match x.launch with | some l => l.args | none => 0) else if n = 10 then BitVec.ofNat 64 x.g.index
        else if n = 11 then BitVec.ofNat 64 x.g.crews.length else if n = 12 then BitVec.ofNat 64 x.c.index else 0, none⟩ }) none := by
  have hgo : (!isDev pc || decide (pc.toNat % 16 ≠ 0)) = false := by simp [hd, ha]
  have hrun : (x.g.lode.st == .running) = false := by simp [hr]
  simp only [Ctx.startLode, hgo, hrun, Bool.false_eq_true, if_false] <;> rfl

/-- LODEPC, by its own instruction or by SRW, is the start of the lode thread. -/
theorem exec_lodeStart (x : Ctx) (k : KReg) (i : Instr) (s : State) (hi : i = .lodepc k ∨ i = .srw k 0x025) (hx : x.Issues i)
    (hb : x.startLode (x.k k) = .next s none) :
    exec i x.st = .next (afterIssue (s.modCrew x.gid x.ci fun c => c.release x.lanes nextPc) x.gid) := by
  rcases hi with rfl | rfl
  · exact exec_of_next x _ _ s hx (exec_lodepc k x.st) hb rfl rfl
  · exact exec_of_next x _ _ s hx (exec_srw k 0x025 x.st) ((sysWrite_lodepc x (x.k k)).trans hb) rfl rfl

/-! ## The obligation -/

/-- Settles O16: each writable register by the edit that `Ctx.sysWrite` makes of the crew, a read-only one by its old value, and LODEPC
by the start of the lode thread. -/
theorem systemRegisterWrites : Obligations.SystemRegisterWrites := by
  unfold Obligations.SystemRegisterWrites
  refine ⟨fun x k hx => ?epc, fun x k hx => ?escratch, fun x k hx hh => ?lhist, fun x k r v hx hr hk => ?readOnly,
    fun x k i hi hx hd ha hr => ?lodepc⟩
  case epc => exact srw_edits_crew x k 0x001 _ hx (sysWrite_epc x (x.k k)) (fun _ => rfl) rfl
  case escratch => exact srw_edits_crew x k 0x006 _ hx (sysWrite_escratch x (x.k k)) (fun _ => rfl) rfl
  case lhist => exact srw_edits_crew x k 0x021 _ hx (sysWrite_lhist x (x.k k) hh) (fun _ => rfl) rfl
  case readOnly => exact resultNone_of x _ _ hx (exec_srw k r x.st) (sysWrite_readOnly x r.toNat (x.k k) (hk ▸ hr))
  case lodepc => exact exec_lodeStart x k i _ hi hx (startLode_ok x (x.k k) hd ha hr)

end Sys2Proof.Machine
end

section
/-! SUPPORT. How a group ends at JSET, JWAIT, EXIT, REPACK, WINBASE, NOP and YIELD (04 R54, R68, R77, R78, R80, R86; 05 R107, R112). -/

namespace Sys2Proof.Machine

/-! ## The forms in which these instructions end -/

/-- An instruction whose body edits its crew by `f` alone puts the edited crew in its place, gone on to the next word. -/
theorem edit_goes_on (x : Ctx) (i : Instr) (body : Ctx → Res) (f : Crew → Crew) (hx : x.Issues i) (he : exec i x.st = issue i x.st body)
    (hb : body x = .next (x.upd f) none) (hp : popsOf i = 0) (hn : nwD i = none) (hidx : ∀ c, (f c).index = c.index)
    (hpcs : (f x.c).pcs = x.c.pcs) :
    ∃ c, exec i x.st = .next (x.become c) ∧ x.Lanes (fun _ => ⟨nextPc x.pc, .ready, 0⟩) c ∧
      c = { f x.c with pcs := c.pcs, tied := (f x.c).tied &&& ~~~x.lanes, cwaits := (f x.c).cwaits &&& ~~~x.lanes } :=
  ⟨(f x.c).release x.lanes nextPc, exec_of_upd x i body f hx he hb hp hn hidx, lanes_release x (f x.c) hx.1 hpcs, release_frame _ _ _⟩

/-- An instruction whose body sets its group's lanes by `f` and then lets the gang settle puts the crew so set in its place. -/
theorem exec_of_settled (x : Ctx) (i : Instr) (body : Ctx → Res) (f : Crew → Crew) (hx : x.Issues i) (he : exec i x.st = issue i x.st body)
    (hb : body x = .moved (settle (x.upd f) x.gid)) (hp : popsOf i = 0) : exec i x.st = .next (x.settles (f x.c)) := by
  rw [he, issue_of_issues x i body hx, hb, upd_eq x f hx.1]
  simp only [finish, hp, if_true, Ctx.settles]

/-- The entries of the group's lanes changed by `e`, every other lane's left (04 R69). -/
theorem lanes_of_modLanes (x : Ctx) (e : PcEntry → PcEntry) (c : Crew) (hx : x.Group) (hpcs : c.pcs = (x.c.modLanes x.lanes e).pcs) :
    x.Lanes e c := by
  obtain ⟨-, -, ⟨-, hlen, -⟩, -⟩ := hx
  refine ⟨by rw [hpcs, modLanes_length], fun j hj => ?_⟩
  have same : c.lane j = (x.c.modLanes x.lanes e).lane j := by simp only [Crew.lane, hpcs]
  rw [same, lane_modLanes _ _ _ _ (by omega)]

/-! ## The instructions -/

theorem exec_jset (j : MReg) (off : BitVec 21) (s : State) :
    exec (.jset j off) s = issue (.jset j off) s fun x =>
      if (x.c.j.getD j.toNat JReg.reset).st == .await then x.fail Cause.joinBusy
      else .next (x.upd fun c => { c with j := c.j.set j.toNat ⟨x.lanes, 0, branchTarget x.pc off, .set⟩ }) none := rfl

theorem exec_jwait (j : MReg) (s : State) :
    exec (.jwait j) s = issue (.jwait j) s fun x =>
      if (x.c.j.getD j.toNat JReg.reset).st == .idle then x.fail Cause.joinIdle
      else if !subMask x.lanes (x.c.j.getD j.toNat JReg.reset).mask then x.fail Cause.joinForeign
      else .moved (settle (x.upd fun c => c.holdAt j.toNat x.lanes) x.gid) := rfl

theorem exec_exit (s : State) : exec .exit s = issue .exit s Ctx.exit := rfl

/-- The crew once the group has arrived at REPACK: the arrival keeps the window and the latch history of this issue, and takes
the chute entry that the key pops (log 38). -/
def Ctx.arriveAtRepack (x : Ctx) (d a : Reg) (c : Crew) : Crew := { c with
  arrivals := c.arrivals ++ [⟨x.pc, .repack d a, 0, x.lanes, c.wbase, c.lhist⟩]
  fifo := takeFirst x.lanes (popsOf (.repack d a)) c.fifo, repackLanes := c.repackLanes ||| x.lanes }

theorem exec_repack (d a : Reg) (s : State) :
    exec (.repack d a) s = issue (.repack d a) s fun x => x.with1 a fun p =>
      if !p.isX then x.fail Cause.tagMismatch
      else if x.c.j.any fun r => r.st != .idle then x.fail Cause.joinBusy
      else .wait (x.upd (x.arriveAtRepack d a)) .repack false := rfl

theorem exec_winbase (n : BitVec 5) (s : State) :
    exec (.winbase n) s = issue (.winbase n) s fun x => x.moveWindow (n.zeroExtend 64) := rfl

theorem exec_winbaseK (k : KReg) (s : State) : exec (.winbaseK k) s = issue (.winbaseK k) s fun x => x.moveWindow (x.k k) := rfl

theorem exec_nop (s : State) : exec .nop s = issue .nop s fun x => .next x.st none := rfl

theorem exec_yield (s : State) :
    exec .yield s = issue .yield s fun x => .next (x.upd fun c => { c with lastIssue := issueTime x.st, yielded := true }) none := rfl

/-- JSET sets a rejoin register that holds no group (04 R77). -/
theorem jset_sets_register (x : Ctx) (j : MReg) (off : BitVec 21) (hx : x.Issues (.jset j off))
    (hj : (x.c.j.getD j.toNat JReg.reset).st ≠ .await) :
    ∃ c, exec (.jset j off) x.st = .next (x.become c) ∧ x.Lanes (fun _ => ⟨nextPc x.pc, .ready, 0⟩) c ∧
      c = { x.gone c with j := x.c.j.set j.toNat ⟨x.lanes, 0, branchTarget x.pc off, .set⟩ } := by
  have free : ((x.c.j.getD j.toNat JReg.reset).st == .await) = false := beq_eq_false_iff_ne.mpr hj
  exact edit_goes_on x _ _ (fun c => { c with j := c.j.set j.toNat ⟨x.lanes, 0, branchTarget x.pc off, .set⟩ }) hx (exec_jset j off x.st)
    (by simp only [free, Bool.false_eq_true, if_false]) rfl rfl (fun _ => rfl) rfl

/-- JWAIT holds the group at a rejoin register in use that has its lanes as members (04 R78). -/
theorem jwait_holds_group (x : Ctx) (j : MReg) (hx : x.Issues (.jwait j)) (hset : (x.c.j.getD j.toNat JReg.reset).st ≠ .idle)
    (hmem : subMask x.lanes (x.c.j.getD j.toNat JReg.reset).mask = true) :
    exec (.jwait j) x.st = .next (x.settles (x.c.holdAt j.toNat x.lanes)) := by
  have busy : ((x.c.j.getD j.toNat JReg.reset).st == .idle) = false := beq_eq_false_iff_ne.mpr hset
  exact exec_of_settled x _ _ (fun c => c.holdAt j.toNat x.lanes) hx (exec_jwait j x.st)
    (by simp only [busy, hmem, Bool.not_true, Bool.false_eq_true, if_false]) rfl

/-- EXIT ends the group's threads and clears their mask bits (04 R68, R80). -/
theorem exit_ends_threads (x : Ctx) (hx : x.Issues .exit) : exec .exit x.st = .next (x.settles (x.c.exitLanes x.lanes)) :=
  exec_of_settled x _ _ (fun c => c.exitLanes x.lanes) hx (exec_exit x.st) rfl rfl

/-- REPACK makes the group wait when its key is of class X and no rejoin register is in use (04 R86). -/
theorem repack_waits (x : Ctx) (d a : Reg) (p : Opnd) (hx : x.Issues (.repack d a)) (hr : x.read [] a = .ok p) (hk : p.isX = true)
    (hj : ∀ r ∈ x.c.j, r.st = .idle) : x.WaitsIn (.repack d a) x.st (x.arriveAtRepack d a x.c) .repack false := by
  have idle : (x.c.j.any fun r => r.st != .idle) = false :=
    List.any_eq_false.mpr fun r hr => by simp [hj r hr]
  have ⟨⟨_, hcrew, _⟩, _⟩ := hx
  exact waitsIn_of x _ _ x.st (x.arriveAtRepack d a) .repack false hx (exec_repack d a x.st) hcrew
    (by simp only [with1_ok x a p _ hr, hk, idle, Bool.not_true, Bool.false_eq_true, if_false, Ctx.upd]) (fun _ => rfl) rfl

/-- WINBASE, of either form, moves the window within the crew's allocation and makes every latch invalid (03 R54). -/
theorem moveWindow_goes_on (x : Ctx) (i : Instr) (body : Ctx → Res) (b : Dword) (hx : x.Issues i) (he : exec i x.st = issue i x.st body)
    (hm : body x = x.moveWindow b) (hb : b.toNat < x.c.regs16) (hp : popsOf i = 0) (hn : nwD i = none) :
    ∃ c, exec i x.st = .next (x.become c) ∧ x.Lanes (fun _ => ⟨nextPc x.pc, .ready, 0⟩) c ∧
      c = { x.gone c with wbase := b.extractLsb' 0 5, lhist := 0 } :=
  edit_goes_on x i body (fun c => { c with wbase := b.extractLsb' 0 5, lhist := 0 }) hx he
    (by rw [hm, Ctx.moveWindow, if_neg (Nat.not_le.mpr hb)]) hp hn (fun _ => rfl) rfl

/-! ## The obligation -/

/-- Settles O11: JSET, WINBASE and YIELD by the edit that their bodies make of the crew, JWAIT and EXIT by the lanes that they set before
the gang settles, REPACK by the wait that its body answers, NOP by its empty body. -/
theorem joinExitWindowResults : Obligations.JoinExitWindowResults := by
  unfold Obligations.JoinExitWindowResults
  refine ⟨⟨jset_sets_register, fun x j hx hset hmem => ?jwait, fun x hx => ?exit, repack_waits⟩,
    fun x i b hi hx hb => ?winbase, fun x hx => ?nop, fun x hx => ?yield⟩
  case jwait => exact ⟨_, jwait_holds_group x j hx hset hmem, lanes_of_modLanes x _ _ hx.1 rfl, rfl⟩
  case exit => exact ⟨_, exit_ends_threads x hx, lanes_of_modLanes x _ _ hx.1 rfl, rfl⟩
  case winbase =>
    rcases hi with ⟨n, rfl, rfl⟩ | ⟨k, rfl, rfl⟩
    · exact moveWindow_goes_on x _ _ _ hx (exec_winbase n x.st) rfl hb rfl rfl
    · exact moveWindow_goes_on x _ _ _ hx (exec_winbaseK k x.st) rfl hb rfl rfl
  case nop => exact resultNone_of x _ _ hx (exec_nop x.st) rfl
  case yield =>
    exact edit_goes_on x _ _ (fun c => { c with lastIssue := issueTime x.st, yielded := true }) hx (exec_yield x.st) rfl rfl rfl
      (fun _ => rfl) rfl

end Sys2Proof.Machine
end

section
/-! SUPPORT. What the instructions of a lode context do (04 R81 to R85): CHPUSH, LEXIT, and the RV64IMAC instructions that reach
no memory. -/

namespace Sys2Proof.Machine

/-! ## The context that issues -/

/-- An instruction of the context that the step has chosen acts on that context. -/
theorem withLode_of_cur (s : State) (c : Cur) (l : Lode) (f : Cur → Lode → Host.Outcome State Fault Refusal) (hc : s.cur = some c)
    (hl : lodeOf s c = some l) : withLode s f = f c l := by
  cases c with
  | crew g i m p => simp [lodeOf] at hl
  | lode g => simp only [withLode, hc, hl]
  | lodeNode k x => simp only [withLode, hc, hl]

theorem lodeOf_gang (s : State) (g : Nat) (w : Gang) (hg : s.gang? g = some w) : lodeOf s (.lode g) = some w.lode := by
  simp only [lodeOf, hg, Option.map_some]

theorem exec_lodeInstruction (parcel : Word) (s : State) : exec (.lodeInstruction parcel) s = execLodeInstruction parcel s := rfl

theorem exec_chpush (rd rs1 rs2 : BitVec 5) (s : State) : exec (.chpush rd rs1 rs2) s = execChpush rd rs1 rs2 s := rfl

theorem exec_lexit (s : State) : exec .lexit s = withLode s fun c _ => .next (endLode s c .exited) := rfl

section
variable (s : State) (c : Cur) (l : Lode) (parcel : Word) (hc : s.cur = some c) (hl : lodeOf s c = some l)
include hc hl

/-- A parcel that decodes runs as its RV64IMAC instruction (04 R81). -/
theorem lodeInstruction_of_decoded (i : Rv) (hd : rvDecode parcel = some i) :
    exec (.lodeInstruction parcel) s = runRv s c l (rvLength parcel) i := by
  rw [exec_lodeInstruction, execLodeInstruction, withLode_of_cur s c l _ hc hl]
  simp only [hd]

/-- A parcel that does not is the illegal-instruction exception (04 R82; log 14). -/
theorem lodeInstruction_of_undecodable (hd : rvDecode parcel = none) :
    exec (.lodeInstruction parcel) s = .next (lodeFault s c l.pc 3) := by
  rw [exec_lodeInstruction, execLodeInstruction, withLode_of_cur s c l _ hc hl]
  simp only [hd]

end

/-- A jump to a multiple of 16 bits that links no register goes to its target (04 R81). -/
theorem lodeJump_aligned (s : State) (c : Cur) (len : Nat) (target : Dword) (h : target.toNat % 16 = 0) :
    lodeJump s c len 0 target = modLode s c fun q => { q with pc := target } := by
  rw [lodeJump, if_neg (by omega)]
  rfl

/-! ## A data cache that empties touches no gang -/

/-- A fold of operations that leave the gangs leaves them. -/
theorem foldl_gangs {α : Type} (f : State → α → State) (hf : ∀ s a, (f s a).gangs = s.gangs) (l : List α) (s : State) :
    (l.foldl f s).gangs = s.gangs := by
  induction l generalizing s with
  | nil => rfl
  | cons a l ih => rw [List.foldl_cons, ih, hf]

@[simp] theorem setDirty_gangs (s : State) (fn i : Nat) : (setDirty s fn i).gangs = s.gangs := by
  simp only [setDirty]; split <;> rfl

@[simp] theorem markDirtyCore_gangs (s : State) (c fn key n : Nat) : (markDirtyCore s c fn key n).gangs = s.gangs := by
  simp only [markDirtyCore]
  split
  · refine foldl_gangs _ (fun s i => ?_) _ s
    split
    · rfl
    · rw [modCore_gangs, setDirty_gangs]
  · rfl

@[simp] theorem coreDirty_gangs (s : State) (c key n : Nat) : (coreDirty s c key n).gangs = s.gangs :=
  foldl_gangs _ (fun s f => markDirtyCore_gangs s c f key n) _ s

@[simp] theorem writeBackLine_gangs (s : State) (c : Nat) (x : CacheLine) (mask : BitVec 512) : (writeBackLine s c x mask).gangs = s.gangs := by
  simp only [writeBackLine]
  split
  · rfl
  · rw [modCore_gangs, foldl_gangs _ fun s i => poisonWord_gangs s _, foldl_gangs _ fun s i => noteStore_gangs s _ _]
    exact coreDirty_gangs _ _ _ _

@[simp] theorem keepBad_gangs (s : State) (x : CacheLine) : (keepBad s x).gangs = s.gangs := by
  unfold keepBad
  split
  · rfl
  · exact foldl_gangs _ (fun s i => poisonWord_gangs s _) _ s

@[simp] theorem writeBackAll_gangs (s : State) (c : Nat) : (writeBackAll s c).gangs = s.gangs :=
  foldl_gangs _ (fun s x => writeBackLine_gangs s c x _) _ s

@[simp] theorem flushCache_gangs (s : State) (c : Nat) : (flushCache s c).gangs = s.gangs := by
  rw [flushCache, modCore_gangs, foldl_gangs _ keepBad_gangs, writeBackAll_gangs]

theorem crew_flushCache (s : State) (core gid ci : Nat) : (flushCache s core).crew? gid ci = s.crew? gid ci := by
  simp only [State.crew?, State.gang?, flushCache_gangs]

/-! ## CHPUSH -/

/-- A crew is found under its own number. -/
theorem crew_index (s : State) (gid ci : Nat) (c : Crew) (h : s.crew? gid ci = some c) : c.index = ci := by
  obtain ⟨g, -, hc⟩ := Option.bind_eq_some_iff.mp h
  simpa using List.find?_some (p := fun c : Crew => c.index == ci) hc

/-- The crew once an entry has joined its chute: its groups that wait for the chute look again (04 R84). -/
def Crew.pushed (c : Crew) (e : ChuteEntry) : Crew := { c with fifo := c.fifo ++ [(e, 0)] }.wake .chute

theorem pushed_chute (c : Crew) (e : ChuteEntry) : (c.pushed e).chute = c.chute ++ [e] := by
  simp [Crew.pushed, Crew.wake, Crew.chute]

theorem pushed_frame (c : Crew) (e : ChuteEntry) : (c.pushed e).index = c.index ∧ (c.pushed e).regs = c.regs ∧ (c.pushed e).k = c.k :=
  ⟨rfl, rfl, rfl⟩

/-- The entry joins the chute of the crew that the push names. -/
theorem crew_pushChute (s : State) (gid i : Nat) (e : ChuteEntry) (c : Crew) (hc : s.crew? gid i = some c) :
    (pushChute s gid i e).crew? gid i = some (c.pushed e) := by
  obtain ⟨g, hg, -⟩ := Option.bind_eq_some_iff.mp hc
  have push : pushChute s gid i e = (flushCache s g.core).modCrew gid i fun w => w.pushed e := by
    simp only [pushChute, hg, Crew.pushed]
  rw [push, crew_modCrew_self _ _ _ (fun w => w.pushed e) fun _ => rfl, crew_flushCache, hc, Option.map_some]

/-- CHPUSH to a crew with room: the word of rs1 joins its chute and rd reads the places left (04 R84). -/
theorem chpush_pushes (s : State) (g : Nat) (w : Gang) (c : Crew) (rd rs1 rs2 : BitVec 5) (f : Fmt) (hcur : s.cur = some (.lode g))
    (hg : s.gang? g = some w) (hlow : (w.lode.reg rs2.toNat).toNat < 2 ^ 10)
    (hf : fmtOf ((w.lode.reg rs2.toNat).extractLsb' 5 5).toNat = some f)
    (hc : s.crew? g ((w.lode.reg rs2.toNat).extractLsb' 0 5).toNat = some c) (hrun : c.ended = false) (hroom : c.fifo.length < 64) :
    exec (.chpush rd rs1 rs2) s =
      .next (lodeNext (pushChute s g c.index ⟨w.lode.reg rs1.toNat, f⟩) (.lode g) 32 rd.toNat (BitVec.ofNat 64 (63 - c.fifo.length))) := by
  have field (lo : Nat) : ((w.lode.reg rs2.toNat).extractLsb' lo 5).toNat = bitsAt (w.lode.reg rs2.toNat).toNat lo 5 := by
    rw [BitVec.extractLsb'_toNat, Nat.shiftRight_eq_div_pow, bitsAt]
  rw [field] at hf hc
  have high : (w.lode.reg rs2.toNat).toNat / 2 ^ 10 = 0 := Nat.div_eq_of_lt hlow
  have named : chuteCrew s (.lode g) (bitsAt (w.lode.reg rs2.toNat).toNat 0 5) = some c := by
    simp only [chuteCrew, hc, Option.bind_some, hrun, Bool.false_eq_true, if_false]
  rw [exec_chpush, execChpush, withLode_of_cur s _ _ _ hcur (lodeOf_gang s g w hg)]
  simp only [hf, high, named, ne_eq, not_true_eq_false, if_false, if_neg (Nat.not_le.mpr hroom)]

/-! ## LEXIT -/

/-- The lanes of a crew that wait for the chute are none when no lane does. -/
theorem lanesIn_chute_eq_zero (c : Crew) (h : ∀ j, j < 32 → (c.lane j).st ≠ .wait .chute) : (c.lanesIn fun x => x == .wait .chute) = 0 := by
  apply BitVec.eq_of_getLsbD_eq
  intro j hj
  rw [Crew.lanesIn, maskOf_bit _ _ hj, show (0 : Mask).getLsbD j = false from BitVec.getLsbD_zero]
  exact beq_eq_false_iff_ne.mpr (h j hj)

theorem orphanCrew_of_no_waiter (s : State) (gid : Nat) (c : Crew) (h : ∀ j, j < 32 → (c.lane j).st ≠ .wait .chute) :
    orphanCrew s gid c = s := by
  rw [orphanCrew, lanesIn_chute_eq_zero c h]
  rfl

/-- A lode thread's end traps no group when none waits for the chute (04 R83). -/
theorem orphanGang_of_no_waiter (s : State) (gid : Nat) (w : Gang) (hg : s.gang? gid = some w)
    (h : ∀ c ∈ w.crews, c.ended = true ∨ ∀ j, j < 32 → (c.lane j).st ≠ .wait .chute) : orphanGang s gid = afterIssue (settle s gid) gid := by
  have same : (w.crews.foldl (fun s c => if c.ended then s else orphanCrew s gid c) s) = s := by
    refine List.foldlRecOn w.crews _ (motive := fun t => t = s) rfl fun t ht c hc => ?_
    subst ht
    rcases h c hc with hend | hno
    · rw [if_pos hend]
    · rw [orphanCrew_of_no_waiter t gid c hno, ite_self]
  simp only [orphanGang, hg, same]

/-- The gang after an update that keeps its number. -/
theorem gang_modGang_self (s : State) (gid : Nat) (w : Gang) (f : Gang → Gang) (hg : s.gang? gid = some w) (hf : ∀ g, (f g).id = g.id) :
    (s.modGang gid f).gang? gid = some (f w) := by
  have found := find_replaceFirst_self (fun g : Gang => g.id == gid) f s.gangs fun g hg => by simpa only [hf g] using hg
  exact found.trans (congrArg (Option.map f) hg)

/-! ## The obligation -/

/-- Settles O49: CHPUSH by the crew that its push leaves, LEXIT by the end of the context, which traps the groups that wait for the chute,
and RV64IMAC instructions by what `runRv` makes of the decoded parcel. -/
theorem lodeResults : Obligations.LodeResults := by
  unfold Obligations.LodeResults
  refine ⟨fun s g w c rd rs1 rs2 f hcur hg hlow hf hc hrun hroom => ?chpush, fun s g w hcur hg => ⟨?lexit, fun hno => ?orphans⟩,
    fun s c l parcel f w rd a b hc hl hd => ?op, fun s c l parcel f a b off hc hl hd htaken halign => ?branch,
    fun s c l parcel hc hl hd => ?undecodable⟩
  case chpush =>
    have hidx := crew_index _ _ _ _ hc
    have pushed := crew_pushChute s g c.index ⟨w.lode.reg rs1.toNat, f⟩ c (hidx ▸ hc)
    obtain ⟨-, hregs, hk⟩ := pushed_frame c ⟨w.lode.reg rs1.toNat, f⟩
    exact ⟨_, _, chpush_pushes s g w c rd rs1 rs2 f hcur hg hlow hf hc hrun hroom, pushed, pushed_chute c _, hregs, hk⟩
  case lexit => rw [exec_lexit, withLode_of_cur s _ _ _ hcur (lodeOf_gang s g w hg)]; rfl
  case orphans =>
    exact orphanGang_of_no_waiter _ g { w with lode := { w.lode with st := .exited, resv := none } }
      (gang_modGang_self s g w _ hg (by intro _; rfl)) hno
  case op => exact lodeInstruction_of_decoded s c l parcel hc hl _ hd
  case branch =>
    rw [lodeInstruction_of_decoded s c l parcel hc hl _ hd, runRv, if_pos htaken, lodeJump_aligned s c _ _ halign]
  case undecodable => exact lodeInstruction_of_undecodable s c l parcel hc hl hd

end Sys2Proof.Machine
end

section
/-! SUPPORT. Storage bit by bit (08 R157, R162): what a read of a bit range returns, and that a store changes exactly its bits. -/

namespace Sys2Proof.Machine

/-! ## Bytes and numbers -/

/-- Byte `i` of a run read from a list of cells that all lie at or above its start. -/
theorem takeBytes_getElem (u : Nat → Byte) (n a : Nat) (l : List Host.Cell) (i : Nat) (hp : l.Pairwise fun x y => x.1 < y.1)
    (ha : ∀ c ∈ l, a ≤ c.1) :
    (takeBytes u n a l)[i]? = if i < n then some (((l.find? fun c => c.1 == a + i).map (·.2)).getD (u (a + i))) else none := by
  induction n generalizing a l i with
  | zero => rfl
  | succ n ih =>
    cases l with
    | nil =>
      rw [takeBytes]
      cases i with
      | zero => rfl
      | succ i => simpa [Nat.add_assoc, Nat.add_comm 1 i] using ih (a + 1) [] i List.Pairwise.nil (by simp)
    | cons c cs =>
      obtain ⟨k, b⟩ := c
      obtain ⟨hk, hcs⟩ := List.pairwise_cons.1 hp
      have hak : a ≤ k := ha _ List.mem_cons_self
      by_cases h : k = a
      · subst h
        rw [takeBytes, if_pos rfl]
        cases i with
        | zero => simp
        | succ i =>
          rw [List.find?_cons_of_neg (by simp), List.getElem?_cons_succ, ih (k + 1) cs i hcs (fun c hc => hk c hc)]
          simp [Nat.add_assoc, Nat.add_comm 1 i]
      · rw [takeBytes, if_neg h]
        cases i with
        | zero =>
          have none : ((k, b) :: cs).find? (fun c => c.1 == a + 0) = none :=
            find_key_none fun c hc => by
              rcases List.mem_cons.1 hc with rfl | hc
              · exact h
              · have := hk c hc; dsimp only at this; omega
          rw [none]; simp
        | succ i =>
          rw [List.getElem?_cons_succ, ih (a + 1) _ i hp fun c hc => ?_]
          · simp [Nat.add_assoc, Nat.add_comm 1 i]
          · rcases List.mem_cons.1 hc with rfl | hc
            · dsimp only; omega
            · have := hk c hc; dsimp only at this; omega

/-- Byte `i` of a run of storage. -/
theorem Memory.bytes_getElem (m : Memory) (a n i : Nat) (h : m.wf = true) :
    (m.bytes a n)[i]? = if i < n then some (m.byte (a + i)) else none := by
  obtain ⟨hp, -⟩ := (Memory.wf_iff m).1 h
  have skip : (m.cells.dropWhile fun c => c.1 < a).find? (fun c => c.1 == a + i) = m.cells.find? fun c => c.1 == a + i := by
    conv => rhs; rw [← List.takeWhile_append_dropWhile (p := fun c : Host.Cell => decide (c.1 < a)) (l := m.cells)]
    exact (find_append_none fun c hc => by have := takeWhile_key a _ c hc; omega).symm
  rw [Memory.bytes, takeBytes_getElem _ _ _ _ _ (hp.sublist (List.dropWhile_sublist _)) (dropWhile_key a _ hp), skip]
  rfl

/-- Bit `k` of a run of bytes as a number (03 R48). -/
theorem natOfBytes_testBit (bs : List Byte) (k : Nat) : (natOfBytes bs).testBit k = (bs.getD (k / 8) 0).getLsbD (k % 8) := by
  induction bs generalizing k with
  | nil => simp [natOfBytes]
  | cons b bs ih =>
    have join := Nat.testBit_two_pow_mul_add (natOfBytes bs) b.isLt k
    rw [natOfBytes, show b.toNat + 256 * natOfBytes bs = 2 ^ 8 * natOfBytes bs + b.toNat by omega, join]
    by_cases hk : k < 8
    · simp [hk, Nat.div_eq_of_lt hk, Nat.mod_eq_of_lt hk, BitVec.getLsbD]
    · rw [if_neg hk, ih, show k / 8 = (k - 8) / 8 + 1 by omega, show k % 8 = (k - 8) % 8 by omega, List.getD_cons_succ]

theorem bytesOfNat_length (n v : Nat) : (bytesOfNat n v).length = n := by
  induction n generalizing v with
  | zero => rfl
  | succ n ih => rw [bytesOfNat, List.length_cons, ih]

/-- A number's bytes hold its bits. -/
theorem bytesOfNat_getLsbD (n v i j : Nat) (d : Byte) (hi : i < n) (hj : j < 8) :
    ((bytesOfNat n v).getD i d).getLsbD j = v.testBit (8 * i + j) := by
  induction n generalizing v i with
  | zero => omega
  | succ n ih =>
    cases i with
    | zero =>
      rw [bytesOfNat, List.getD_cons_zero, BitVec.getLsbD_ofNat]
      simp [hj]
    | succ i =>
      rw [bytesOfNat, List.getD_cons_succ, ih (v / 256) i (by omega), show 256 = 2 ^ 8 from rfl, Nat.testBit_div_two_pow]
      congr 1; omega

/-- Exchanged bits come from the new number, the others from the old one. -/
theorem mergeNat_testBit (old new mask k : Nat) :
    (mergeNat old new mask).testBit k = if mask.testBit k then new.testBit k else old.testBit k := by
  rw [mergeNat, Nat.testBit_or, Nat.testBit_xor, Nat.testBit_and, Nat.testBit_and]
  cases mask.testBit k <;> simp

/-! ## Reads and stores -/

/-- Bit `i` of a read of `n` bits at key `a`. -/
theorem Memory.bits_testBit (m : Memory) (a n i : Nat) (h : m.wf = true) :
    (m.bits a n).testBit i = (decide (i < n) && m.bitAt (a + i)) := by
  rw [Memory.bits, Nat.testBit_mod_two_pow, Nat.testBit_div_two_pow, natOfBytes_testBit]
  by_cases hi : i < n
  · have here : (i + a % 8) / 8 < spanBytes a n := by rw [spanBytes]; omega
    rw [List.getD_eq_getElem?_getD, Memory.bytes_getElem _ _ _ _ h, if_pos here, Memory.bitAt,
      show a / 8 + (i + a % 8) / 8 = (a + i) / 8 by omega, show (i + a % 8) % 8 = (a + i) % 8 by omega]
    rfl
  · simp [hi]

/-- A masked store changes exactly the bits under its mask (08 R162). -/
theorem Memory.bitAt_setMasked (m : Memory) (a n v mask k : Nat) (h : m.wf = true) :
    (m.setMasked a n v mask).bitAt k =
      if a ≤ k ∧ k < a + n ∧ mask.testBit (k - a) = true then v.testBit (k - a) else m.bitAt k := by
  have maskBit (j : Nat) : (mask % 2 ^ n * 2 ^ (a % 8)).testBit j =
      (decide (a % 8 ≤ j) && (decide (j - a % 8 < n) && mask.testBit (j - a % 8))) := by
    rw [Nat.testBit_mul_two_pow, Nat.testBit_mod_two_pow]
  rw [Memory.bitAt, Memory.setMasked, Memory.byte_setBytes _ _ _ _ h, bytesOfNat_length]
  by_cases hin : a / 8 ≤ k / 8 ∧ k / 8 < a / 8 + spanBytes a n
  · have pos : 8 * (k / 8 - a / 8) + k % 8 = k - a / 8 * 8 := by omega
    have old : (natOfBytes (m.bytes (a / 8) (spanBytes a n))).testBit (k - a / 8 * 8) = m.bitAt k := by
      rw [natOfBytes_testBit, List.getD_eq_getElem?_getD, Memory.bytes_getElem _ _ _ _ h, if_pos (by omega), Memory.bitAt,
        show a / 8 + (k - a / 8 * 8) / 8 = k / 8 by omega, show (k - a / 8 * 8) % 8 = k % 8 by omega]
      rfl
    rw [if_pos hin, bytesOfNat_getLsbD _ _ _ _ _ (by omega) (by omega), pos, mergeNat_testBit, maskBit, old, Nat.testBit_mul_two_pow]
    by_cases hk : a ≤ k
    · have d : k - a / 8 * 8 - a % 8 = k - a := by omega
      have l : a % 8 ≤ k - a / 8 * 8 := by omega
      have r : (k - a < n) ↔ (k < a + n) := by omega
      simp [d, l, hk, r]
    · have l : ¬ a % 8 ≤ k - a / 8 * 8 := by omega
      simp [l, hk]
  · have out : ¬ (a ≤ k ∧ k < a + n ∧ mask.testBit (k - a) = true) := by rw [spanBytes] at hin; omega
    rw [if_neg hin, if_neg out, Memory.bitAt]

/-- A store changes exactly the bits of its element (08 R162). -/
theorem Memory.bitAt_setBits (m : Memory) (a n v k : Nat) (h : m.wf = true) :
    (m.setBits a n v).bitAt k = if a ≤ k ∧ k < a + n then v.testBit (k - a) else m.bitAt k := by
  rw [Memory.setBits, Memory.bitAt_setMasked _ _ _ _ _ _ h]
  by_cases hk : a ≤ k ∧ k < a + n
  · have bit : k - a < n := by omega
    simp [Nat.testBit_two_pow_sub_one, hk, bit]
  · rw [if_neg hk, if_neg fun hm => hk ⟨hm.1, hm.2.1⟩]

/-- A range reads back what was stored there. -/
theorem Memory.bits_setBits_same (m : Memory) (a n v : Nat) (h : m.wf = true) : (m.setBits a n v).bits a n = v % 2 ^ n := by
  refine Nat.eq_of_testBit_eq fun i => ?_
  rw [Memory.bits_testBit _ _ _ _ (Memory.setBits_wf _ _ _ _ h), Memory.bitAt_setBits _ _ _ _ _ h, Nat.testBit_mod_two_pow]
  by_cases hi : i < n
  · rw [if_pos (by omega), Nat.add_sub_cancel_left]
  · simp [hi]

/-- A range that a store does not meet reads as before. -/
theorem Memory.bits_setBits_apart (m : Memory) (a n v b l : Nat) (h : m.wf = true) (hd : b + l ≤ a ∨ a + n ≤ b) :
    (m.setBits a n v).bits b l = m.bits b l := by
  refine Nat.eq_of_testBit_eq fun i => ?_
  rw [Memory.bits_testBit _ _ _ _ (Memory.setBits_wf _ _ _ _ h), Memory.bits_testBit _ _ _ _ h, Memory.bitAt_setBits _ _ _ _ _ h]
  by_cases hi : i < l
  · rw [if_neg (by omega)]
  · simp [hi]

/-! ## What else a store may change -/

/-- A machine whose storage, marks of words that cannot be corrected and record of stores may have changed, and nothing else. -/
def StoresOnly (s t : State) : Prop := ∃ m p w, t = { s with mem := m, poison := p, written := w }

theorem StoresOnly.refl (s : State) : StoresOnly s s := ⟨s.mem, s.poison, s.written, rfl⟩

theorem StoresOnly.trans {s t u : State} (h : StoresOnly s t) (k : StoresOnly t u) : StoresOnly s u := by
  obtain ⟨m, p, w, rfl⟩ := h
  obtain ⟨m', p', w', rfl⟩ := k
  exact ⟨m', p', w', rfl⟩

theorem foldl_storesOnly {α : Type} (f : State → α → State) (hf : ∀ s a, StoresOnly s (f s a)) (l : List α) (s : State) :
    StoresOnly s (l.foldl f s) := by
  induction l generalizing s with
  | nil => exact .refl s
  | cons a l ih => exact (hf s a).trans (ih _)

theorem setDirty_storesOnly (s : State) (fn i : Nat) : StoresOnly s (setDirty s fn i) := by
  simp only [setDirty]
  split
  · exact ⟨_, _, _, rfl⟩
  · exact .refl s

theorem markDirty_storesOnly (s : State) (fn key n : Nat) : StoresOnly s (markDirty s fn key n) := by
  simp only [markDirty]
  split
  · exact foldl_storesOnly _ (fun s i => setDirty_storesOnly s fn i) _ s
  · exact .refl s

theorem storeBits_storesOnly (s : State) (key n v : Nat) : StoresOnly s (storeBits s key n v) := by
  have stored : StoresOnly s { s with mem := s.mem.setBits key n v } := ⟨_, _, _, rfl⟩
  have marked (t : State) : StoresOnly t (markWrite t key n) := foldl_storesOnly _ (fun t f => markDirty_storesOnly t f key n) _ t
  have noted (t : State) : StoresOnly t (noteStore t key n) := ⟨_, _, _, rfl⟩
  exact (stored.trans (marked _)).trans (noted _)

theorem writePieces_storesOnly (s : State) (v : Nat) (ps : List Piece) : StoresOnly s (writePieces s v ps) := by
  induction ps generalizing s v with
  | nil => exact .refl s
  | cons p ps ih =>
    cases p with
    | store key n => exact (storeBits_storesOnly s key n v).trans (ih _ _)
    | remote _ _ _ => exact ih _ _
    | host _ _ => exact ih _ _

/-- A checked write of an engine changes storage alone. -/
theorem engineWrite_storesOnly (s t : State) (ag : Agent) (p : Dword) (n v : Nat) (al : Align) (h : engineWrite s ag p n v al = .ok t) :
    StoresOnly s t := by
  unfold engineWrite at h
  split at h
  · cases h
  · cases h; exact writePieces_storesOnly _ _ _

/-- A store without dirty tracking (08 R170). -/
theorem storeBits_untracked (s : State) (key n v : Nat) (h : Untracked s) :
    storeBits s key n v = noteStore { s with mem := s.mem.setBits key n v } key n := by
  have none : trackers { s with mem := s.mem.setBits key n v } key n = [] := by
    have no : (s.fns.zipIdx.filter fun p =>
        p.1.dirtyen && p.1.membase * 524288 < key + n && key < (p.1.membase + p.1.memsize) * 524288) = [] :=
      List.filter_eq_nil_iff.2 fun p hp => by simp [h p.1 (List.fst_mem_of_mem_zipIdx hp)]
    rw [trackers, no]; rfl
  rw [storeBits, markWrite, none]; rfl

end Sys2Proof.Machine
end

section
/-! SUPPORT. The two chains of an accumulator (06 R125 to R127; 07 R145): a step adds one product to each element of each chain. -/

namespace Sys2Proof.Machine

/-! ## Sparse chains -/

/-- A chain whose entries rise from key `k` on. -/
def RisingFrom (k : Nat) (l : List (Nat × Word)) : Prop := l.Pairwise (fun p q => p.1 < q.1) ∧ ∀ c ∈ l, k ≤ c.1

/-- A chain with a new first element, which is not listed when it is 0. -/
def consTerm (k : Nat) (v : Word) (l : List (Nat × Word)) : List (Nat × Word) := if v = 0 then l else (k, v) :: l

theorem risingFrom_zero (l : List (Nat × Word)) : RisingFrom 0 l ↔ l.Pairwise fun p q => p.1 < q.1 :=
  ⟨fun h => h.1, fun h => ⟨h, fun _ _ => Nat.zero_le _⟩⟩

theorem RisingFrom.tail {k i : Nat} {w : Word} {cs : List (Nat × Word)} (h : RisingFrom k ((i, w) :: cs)) : RisingFrom (i + 1) cs := by
  obtain ⟨hi, hcs⟩ := List.pairwise_cons.1 h.1
  exact ⟨hcs, fun c hc => hi c hc⟩

theorem RisingFrom.consTerm {k : Nat} {l : List (Nat × Word)} (v : Word) (h : RisingFrom (k + 1) l) : RisingFrom k (consTerm k v l) := by
  obtain ⟨hp, hk⟩ := h
  have low : ∀ c ∈ l, k ≤ c.1 := fun c hc => Nat.le_of_succ_le (hk c hc)
  rw [Machine.consTerm]
  split
  · exact ⟨hp, low⟩
  · refine ⟨List.pairwise_cons.2 ⟨fun c hc => hk c hc, hp⟩, fun c hc => ?_⟩
    rcases List.mem_cons.1 hc with rfl | hc
    · exact Nat.le_refl k
    · exact low c hc

theorem chainAt_cons (i : Nat) (w : Word) (cs : List (Nat × Word)) (k : Nat) :
    chainAt ((i, w) :: cs) k = if i = k then w else chainAt cs k := by
  rw [chainAt, List.find?_cons]
  by_cases h : i = k
  · simp [h]
  · simp only [beq_eq_false_iff_ne.2 h, h, if_false]; rfl

/-- A chain that rises from a later key has a 0 here. -/
theorem RisingFrom.chainAt_below {k i : Nat} {l : List (Nat × Word)} (h : RisingFrom k l) (hi : i < k) : chainAt l i = 0 := by
  have none : l.find? (fun p => p.1 == i) = none := List.find?_eq_none.2 fun c hc => by have := h.2 c hc; simp; omega
  rw [chainAt, none]

theorem chainAt_consTerm {k : Nat} {l : List (Nat × Word)} (v : Word) (h : RisingFrom (k + 1) l) (j : Nat) :
    chainAt (consTerm k v l) j = if k = j then v else chainAt l j := by
  rw [consTerm]
  split
  · next hv =>
    split
    · next hj => rw [hv, ← hj, h.chainAt_below (Nat.lt_succ_self k)]
    · rfl
  · exact chainAt_cons k v l j

/-- One product meets the chain's first element, whether that is listed or 0. -/
theorem addChain_cons {α : Type} (add : Word → α → Word) (k : Nat) (p : α) (ps : List α) (chain : List (Nat × Word)) (h : RisingFrom k chain) :
    ∃ rest, addChain add k (p :: ps) chain = consTerm k (add (chainAt chain k) p) (addChain add (k + 1) ps rest) ∧
      RisingFrom (k + 1) rest ∧ ∀ j, j ≠ k → chainAt rest j = chainAt chain j := by
  match chain, h with
  | [], _ => exact ⟨[], rfl, ⟨List.Pairwise.nil, by simp⟩, fun _ _ => rfl⟩
  | (i, w) :: cs, h =>
    by_cases hi : i = k
    · subst hi
      refine ⟨cs, ?_, h.tail, fun j hj => ?_⟩
      · simp only [addChain, chainAt_cons, if_true, consTerm]
      · rw [chainAt_cons, if_neg (Ne.symm hj)]
    · have hk : k + 1 ≤ i := by have := h.2 (i, w) List.mem_cons_self; dsimp only at this; omega
      have later : RisingFrom (k + 1) ((i, w) :: cs) := by
        refine ⟨h.1, fun c hc => ?_⟩
        rcases List.mem_cons.1 hc with rfl | hc
        · exact hk
        · have := h.tail.2 c hc; omega
      refine ⟨(i, w) :: cs, ?_, later, fun _ _ => rfl⟩
      rw [later.chainAt_below (Nat.lt_succ_self k)]
      simp only [addChain, hi, if_false, consTerm]

/-- A step of a chain keeps its form and adds product `i` to element `k + i`. -/
theorem addChain_spec {α : Type} (add : Word → α → Word) (ps : List α) (k : Nat) (chain : List (Nat × Word)) (h : RisingFrom k chain) :
    RisingFrom k (addChain add k ps chain) ∧
    ∀ i p, ps[i]? = some p → chainAt (addChain add k ps chain) (k + i) = add (chainAt chain (k + i)) p := by
  induction ps generalizing k chain with
  | nil => exact ⟨h, fun i p hp => by cases hp⟩
  | cons q qs ih =>
    obtain ⟨rest, e, hrest, same⟩ := addChain_cons add k q qs chain h
    obtain ⟨rising, added⟩ := ih (k + 1) rest hrest
    rw [e]
    refine ⟨rising.consTerm _, fun i p hp => ?_⟩
    rw [chainAt_consTerm _ rising]
    cases i with
    | zero => cases hp; rw [if_pos (Nat.add_zero k).symm]; rfl
    | succ i =>
      rw [if_neg (by omega), show k + (i + 1) = k + 1 + i by omega, added i p hp, same _ (by omega)]

/-! ## The products of a step -/

/-- The even or the odd elements of a list that starts at place `s`. -/
theorem everyOther_from {α : Type} (p : Nat) (hp : p < 2) (l : List α) (s i : Nat) :
    (((l.zipIdx s).filter fun x => x.2 % 2 == p).map fun x => x.1)[i]? = l[2 * i + (p + s) % 2]? := by
  induction l generalizing s i with
  | nil => simp
  | cons a l ih =>
    rw [List.zipIdx_cons]
    by_cases h : s % 2 = p
    · rw [List.filter_cons_of_pos (by simpa using h), List.map_cons, show (p + s) % 2 = 0 by omega]
      cases i with
      | zero => rfl
      | succ i =>
        rw [List.getElem?_cons_succ, ih (s + 1) i, show 2 * (i + 1) + 0 = 2 * i + (p + (s + 1)) % 2 + 1 by omega, List.getElem?_cons_succ]
    · rw [List.filter_cons_of_neg (by simpa using h), ih (s + 1) i, show 2 * i + (p + s) % 2 = 2 * i + (p + (s + 1)) % 2 + 1 by omega,
        List.getElem?_cons_succ]

theorem everyOther_getElem {α : Type} (p : Nat) (hp : p < 2) (l : List α) (i : Nat) : (everyOther p l)[i]? = l[2 * i + p]? := by
  rw [everyOther, everyOther_from p hp l 0 i, Nat.add_zero, Nat.mod_eq_of_lt hp]

/-- A block of `2 n` elements has `n` even and `n` odd ones. -/
theorem everyOther_length {α : Type} (p : Nat) (hp : p < 2) (l : List α) (n : Nat) (hl : l.length = 2 * n) : (everyOther p l).length = n := by
  have out (i : Nat) : (everyOther p l).length ≤ i ↔ n ≤ i := by
    rw [← List.getElem?_eq_none_iff, everyOther_getElem p hp, List.getElem?_eq_none_iff]; omega
  exact Nat.le_antisymm ((out n).2 (Nat.le_refl n)) ((out _).1 (Nat.le_refl _))

theorem crossPairs_getElem {α : Type} (a b : List α) (i j : Nat) (x y : α) (hx : a[i]? = some x) (hy : b[j]? = some y) :
    (crossPairs a b)[b.length * i + j]? = some (x, y) := by
  obtain ⟨hj, -⟩ := List.getElem?_eq_some_iff.1 hy
  induction a generalizing i with
  | nil => cases hx
  | cons c a ih =>
    have row : (b.map fun y => (c, y)).length = b.length := List.length_map _
    rw [crossPairs, List.flatMap_cons]
    cases i with
    | zero =>
      cases hx
      rw [List.getElem?_append_left (by omega), Nat.mul_zero, Nat.zero_add, List.getElem?_map, hy]; rfl
    | succ i =>
      rw [List.getElem?_append_right (by rw [row, Nat.mul_succ]; omega), row,
        show b.length * (i + 1) + j - b.length = b.length * i + j by rw [Nat.mul_succ]; omega]
      exact ih i hx

/-- The products that a step adds to the even (`p` = 0) or the odd chain, as pairs of factors in element order (07 R145). -/
def stepProducts {α : Type} (f g : Nat → α) (p : Nat) (a b : List Nat) : List (α × α) :=
  crossPairs (everyOther p (a.map f)) (everyOther p (b.map g))

/-- Element (i, j) takes the product of the two elements that R145 names. -/
theorem stepProducts_getElem {α : Type} (f g : Nat → α) (p : Nat) (hp : p < 2) (a b : List Nat) (ha : a.length = 256) (hb : b.length = 256)
    (i j : Nat) (hi : i < 128) (hj : j < 128) :
    (stepProducts f g p a b)[128 * i + j]? = some (f (stepPair a b i j p).1, g (stepPair a b i j p).2) := by
  have elem (h : Nat → α) (l : List Nat) (hl : l.length = 256) (k : Nat) (hk : k < 128) :
      (everyOther p (l.map h))[k]? = some (h (l.getD (2 * k + p) 0)) := by
    have hin : 2 * k + p < l.length := by omega
    rw [everyOther_getElem p hp, List.getElem?_map, List.getD_eq_getElem?_getD, List.getElem?_eq_getElem hin]; rfl
  have len : (everyOther p (b.map g)).length = 128 := everyOther_length p hp _ 128 (by rw [List.length_map, hb])
  have at128 := crossPairs_getElem _ _ i j _ _ (elem f a ha i hi) (elem g b hb j hj)
  rwa [len] at at128

/-- A step's effect on one element of one chain. -/
theorem chainAt_addChain_step {α : Type} (add : Word → α × α → Word) (f g : Nat → α) (p : Nat) (hp : p < 2) (a b : List Nat)
    (ha : a.length = 256) (hb : b.length = 256) (chain : List (Nat × Word)) (h : chain.Pairwise fun p q => p.1 < q.1)
    (i j : Nat) (hi : i < 128) (hj : j < 128) :
    chainAt (addChain add 0 (stepProducts f g p a b) chain) (128 * i + j) =
      add (chainAt chain (128 * i + j)) (f (stepPair a b i j p).1, g (stepPair a b i j p).2) := by
  have added := (addChain_spec add (stepProducts f g p a b) 0 chain ((risingFrom_zero chain).2 h)).2 (128 * i + j) _
    (stepProducts_getElem f g p hp a b ha hb i j hi hj)
  rwa [Nat.zero_add] at added

theorem addStep_of_int (c : Acc) (pair : Nat) (a b : List Nat) (h : pairInt pair = true) :
    c.addStep pair a b = { c with
      even := addChain chainI 0 (stepProducts (signedOf (fmtWidth (pairFmts pair).1)) (signedOf (fmtWidth (pairFmts pair).2)) 0 a b) c.even
      odd := addChain chainI 0 (stepProducts (signedOf (fmtWidth (pairFmts pair).1)) (signedOf (fmtWidth (pairFmts pair).2)) 1 a b) c.odd } := by
  simp only [Acc.addStep, h, if_true, stepProducts]

theorem addStep_of_float (c : Acc) (pair : Nat) (a b : List Nat) (h : pairInt pair = false) :
    c.addStep pair a b = { c with
      even := addChain chainF 0 (stepProducts (valueOf (pairFmts pair).1) (valueOf (pairFmts pair).2) 0 a b) c.even
      odd := addChain chainF 0 (stepProducts (valueOf (pairFmts pair).1) (valueOf (pairFmts pair).2) 1 a b) c.odd } := by
  simp only [Acc.addStep, h, Bool.false_eq_true, if_false, stepProducts]

/-! ## Integer format pairs (06 R127) -/

/-- Both chains of an accumulator are in canonical order. -/
def Acc.Rising (c : Acc) : Prop := c.even.Pairwise (fun p q => p.1 < q.1) ∧ c.odd.Pairwise (fun p q => p.1 < q.1)

/-- The value that an integer accumulator delivers for an element (06 R127). -/
def Acc.total (c : Acc) (k : Nat) : Word := chainAt c.even k + chainAt c.odd k

/-- The two products of integer elements that a step adds to element (i, j). -/
def stepDot (pair : Nat) (t : List Nat × List Nat) (i j : Nat) : Int :=
  intProduct pair (stepPair t.1 t.2 i j 0) + intProduct pair (stepPair t.1 t.2 i j 1)

theorem addStep_int_keeps (c : Acc) (pair : Nat) (a b : List Nat) (h : pairInt pair = true) (hc : c.Rising) :
    (c.addStep pair a b).intKind = c.intKind ∧ (c.addStep pair a b).Rising := by
  rw [addStep_of_int c pair a b h]
  exact ⟨rfl, (risingFrom_zero _).1 (addChain_spec _ _ 0 _ ((risingFrom_zero _).2 hc.1)).1,
    (risingFrom_zero _).1 (addChain_spec _ _ 0 _ ((risingFrom_zero _).2 hc.2)).1⟩

/-- A step adds one product to each chain of an element, modulo 2^32. -/
theorem addStep_int_adds (c : Acc) (pair : Nat) (a b : List Nat) (h : pairInt pair = true) (ha : a.length = 256) (hb : b.length = 256)
    (hc : c.Rising) (i j : Nat) (hi : i < 128) (hj : j < 128) :
    chainAt (c.addStep pair a b).even (128 * i + j) = chainAt c.even (128 * i + j) + BitVec.ofInt 32 (intProduct pair (stepPair a b i j 0)) ∧
    chainAt (c.addStep pair a b).odd (128 * i + j) = chainAt c.odd (128 * i + j) + BitVec.ofInt 32 (intProduct pair (stepPair a b i j 1)) := by
  rw [addStep_of_int c pair a b h]
  exact ⟨chainAt_addChain_step chainI _ _ 0 (by decide) a b ha hb c.even hc.1 i j hi hj,
    chainAt_addChain_step chainI _ _ 1 (by decide) a b ha hb c.odd hc.2 i j hi hj⟩

theorem addStep_total (c : Acc) (pair : Nat) (t : List Nat × List Nat) (h : pairInt pair = true) (ht : t.1.length = 256 ∧ t.2.length = 256)
    (hc : c.Rising) (i j : Nat) (hi : i < 128) (hj : j < 128) :
    (c.addStep pair t.1 t.2).total (128 * i + j) = c.total (128 * i + j) + BitVec.ofInt 32 (stepDot pair t i j) := by
  obtain ⟨even, odd⟩ := addStep_int_adds c pair t.1 t.2 h ht.1 ht.2 hc i j hi hj
  rw [Acc.total, even, odd, Acc.total, stepDot, BitVec.ofInt_add]
  ac_rfl

/-- Steps add up the dot product, modulo 2^32. -/
theorem steps_total (pair : Nat) (h : pairInt pair = true) (i j : Nat) (hi : i < 128) (hj : j < 128) (steps : List (List Nat × List Nat))
    (hs : ∀ t ∈ steps, t.1.length = 256 ∧ t.2.length = 256) (c : Acc) (hc : c.Rising) :
    let e := steps.foldl (fun c t => c.addStep pair t.1 t.2) c
    e.intKind = c.intKind ∧ e.total (128 * i + j) = c.total (128 * i + j) + BitVec.ofInt 32 (steps.map fun t => stepDot pair t i j).sum := by
  induction steps generalizing c with
  | nil => exact ⟨rfl, (BitVec.add_zero _).symm⟩
  | cons t ts ih =>
    obtain ⟨kind, rising⟩ := addStep_int_keeps c pair t.1 t.2 h hc
    obtain ⟨kinds, total⟩ := ih (fun u hu => hs u (List.mem_cons_of_mem _ hu)) _ rising
    refine ⟨kinds.trans kind, total.trans ?_⟩
    rw [addStep_total c pair t h (hs t List.mem_cons_self) hc i j hi hj, List.map_cons, List.sum_cons, BitVec.ofInt_add, BitVec.add_assoc]

/-- A conversion from I32 to I32 returns the source (06 R124). -/
theorem convert_i32 (r : Rnd) (w : Word) : convert r .i32 .i32 w.toNat = w.toNat := by
  have number : valueOf .i32 w.toNat ≠ .nan := XVal.noConfusion
  rw [convert, if_pos ⟨rfl, number⟩]
  exact Nat.mod_eq_of_lt w.isLt

theorem deliver_int (c : Acc) (k : Nat) (h : c.intKind = true) : c.deliver .i32 k = (c.total k).toNat := by
  simp only [Acc.deliver, h, if_true, convert_i32, Acc.total]

/-- A number within the I32 range is what its low 32 bits read as. -/
theorem signedOf_ofInt (d : Int) (hlo : -2 ^ 31 ≤ d) (hhi : d < 2 ^ 31) : signedOf 32 (BitVec.ofInt 32 d).toNat = d := by
  rw [signedOf, BitVec.toNat_ofInt]
  split <;> omega

/-! ## The obligation -/

/-- Settles O39: a step by the chains it makes, delivery by the chains' sum, and a run of steps by induction on their list. -/
theorem integerMatrixChains : Obligations.IntegerMatrixChains := by
  unfold Obligations.IntegerMatrixChains
  refine ⟨by decide, fun c pair a b h ha hb he ho => ?step, fun c k h => deliver_int c k h, fun pair steps i j h hs hi hj => ?run⟩
  case step =>
    obtain ⟨kind, even, odd⟩ := addStep_int_keeps c pair a b h ⟨he, ho⟩
    exact ⟨kind, even, odd, addStep_int_adds c pair a b h ha hb ⟨he, ho⟩⟩
  case run =>
    intro c dot
    obtain ⟨kind, total⟩ := steps_total pair h i j hi hj steps hs ⟨[], [], true, 0⟩ ⟨List.Pairwise.nil, List.Pairwise.nil⟩
    have out : c.deliver .i32 (128 * i + j) = (BitVec.ofInt 32 dot).toNat := by
      rw [deliver_int c _ kind, total]
      exact congrArg BitVec.toNat (BitVec.zero_add _)
    exact ⟨out, fun hlo hhi => by rw [out, signedOf_ofInt dot hlo hhi]⟩

end Sys2Proof.Machine
end

section
/-! SUPPORT. Matrix commands at the head of a core's queue (07 R141, R145 to R148, R151 to R153), on one engine or on the four of a cluster. -/

namespace Sys2Proof.Machine

/-! ## Engines and accumulators -/

/-- The cores after one has been changed. -/
theorem core_modCore (s : State) (d : Nat) (f : Core → Core) (c : Nat) (hc : c < s.cores.length) :
    (s.modCore d f).core c = if d = c then f (s.core c) else s.core c := by
  simp only [State.core, modCore_cores, List.getD_eq_getElem?_getD, List.getElem?_modify, List.getElem?_eq_getElem hc]
  split <;> rfl

theorem accs_modAcc (s : State) (d acc : Nat) (f : Acc → Acc) (c : Nat) (hc : c < s.cores.length) :
    ((modAcc s d acc f).core c).mx.accs = if d = c then (s.core c).mx.accs.modify acc f else (s.core c).mx.accs := by
  rw [modAcc, modMx, core_modCore _ _ _ _ hc]
  split <;> rfl

/-- An accumulator after one has been changed. -/
theorem accOf_modAcc (s : State) (d acc : Nat) (f : Acc → Acc) (c a : Nat) (hc : c < s.cores.length) (ha : acc < (s.core c).mx.accs.length) :
    accOf (modAcc s d acc f) c a = if d = c ∧ a = acc then f (accOf s c a) else accOf s c a := by
  rw [accOf, accs_modAcc _ _ _ _ _ hc, accOf]
  by_cases hd : d = c
  · rw [if_pos hd, List.getD_eq_getElem?_getD, List.getElem?_modify]
    by_cases h : acc = a
    · subst h
      simp [hd, List.getElem?_eq_getElem ha]
    · simp [h, Ne.symm h]
  · rw [if_neg hd, if_neg fun e => hd e.1]

/-- The same accumulator of several engines is changed, in each as `F` says. -/
def modAccs (s : State) (es : List Nat) (acc : Nat) (F : Nat → Acc → Acc) : State := es.foldl (fun s c => modAcc s c acc (F c)) s

theorem setStep_eq_modAccs (s : State) (es : List Nat) (acc n : Nat) : setStep s es acc n = modAccs s es acc fun _ a => { a with step := n } := rfl

/-- A change of accumulators leaves storage and gangs. -/
theorem modAccs_frame (s : State) (es : List Nat) (acc : Nat) (F : Nat → Acc → Acc) :
    (modAccs s es acc F).mem = s.mem ∧ (modAccs s es acc F).gangs = s.gangs := by
  induction es generalizing s with
  | nil => exact ⟨rfl, rfl⟩
  | cons e es ih => exact ih (modAcc s e acc (F e))

/-- Each engine of the list has its accumulator changed once, when none is named twice or a second change would alter nothing. -/
theorem accOf_modAccs (es : List Nat) (acc : Nat) (F : Nat → Acc → Acc) (once : es.Nodup ∨ ∀ d a, F d (F d a) = F d a) (s : State) (c a : Nat)
    (hc : c < s.cores.length) (ha : acc < (s.core c).mx.accs.length) :
    accOf (modAccs s es acc F) c a = if c ∈ es ∧ a = acc then F c (accOf s c a) else accOf s c a := by
  induction es generalizing s with
  | nil => rw [if_neg (by simp)]; rfl
  | cons e es ih =>
    have hc' : c < (modAcc s e acc (F e)).cores.length := by rw [modAcc, modMx, modCore_cores, List.length_modify]; exact hc
    have ha' : acc < ((modAcc s e acc (F e)).core c).mx.accs.length := by
      rw [accs_modAcc _ _ _ _ _ hc]
      split
      · rw [List.length_modify]; exact ha
      · exact ha
    have rest : es.Nodup ∨ ∀ d a, F d (F d a) = F d a := once.imp_left fun h => (List.nodup_cons.1 h).2
    rw [show modAccs s (e :: es) acc F = modAccs (modAcc s e acc (F e)) es acc F from rfl, ih rest _ hc' ha', accOf_modAcc _ _ _ _ _ _ hc ha]
    by_cases hacc : a = acc
    · by_cases he : e = c
      · subst he
        rcases once with nodup | idem
        · simp [hacc, (List.nodup_cons.1 nodup).1]
        · simp [hacc, idem]
      · simp [hacc, he, Ne.symm he]
    · simp [hacc]

/-- STEP of an accumulator after it has been set in some engines (07 R147). -/
theorem accOf_setStep (s : State) (es : List Nat) (acc m c a : Nat) (hc : c < s.cores.length) (ha : acc < (s.core c).mx.accs.length) :
    accOf (setStep s es acc m) c a = if c ∈ es ∧ a = acc then { accOf s c a with step := m } else accOf s c a := by
  rw [setStep_eq_modAccs]
  exact accOf_modAccs es acc (fun _ a => { a with step := m }) (Or.inr fun _ _ => rfl) s c a hc ha

/-- The engines of a command rise. -/
theorem enginesOf_rising (core : Nat) (cluster : Bool) : (enginesOf core cluster).Pairwise (· < ·) := by
  rw [enginesOf]
  split
  · rw [List.pairwise_map]
    exact List.pairwise_lt_range.imp fun h => Nat.add_lt_add_left h _
  · exact List.pairwise_singleton _ _

theorem enginesOf_nodup (core : Nat) (cluster : Bool) : (enginesOf core cluster).Nodup := (enginesOf_rising core cluster).imp Nat.ne_of_lt

/-! ## The head of the queue (07 R141) -/

theorem minBy_mem {α : Type} (key : α → Nat) (l : List α) (x : α) (h : minBy key l = some x) : x ∈ l := by
  induction l generalizing x with
  | nil => cases h
  | cons a l ih =>
    rw [minBy] at h
    split at h
    · cases h; exact List.mem_cons_self
    · next b hb =>
      split at h
      · cases h; exact List.mem_cons_of_mem _ (ih _ hb)
      · cases h; exact List.mem_cons_self

/-- The command at the head of a core's queue is a matrix command that acts on the core. -/
theorem mxHead_body (s : State) (core : Nat) (x : EngCmd) (op : MxOp) (h : mxHead s core = some (x, op)) :
    x.body = .mx op ∧ core ∈ enginesOf x.core op.cluster := by
  unfold mxHead at h
  split at h
  · next y hy =>
    have member := (List.mem_filter.1 (minBy_mem _ _ _ hy)).2
    split at h
    · next op' hb =>
      cases h
      simp only [hb, Bool.true_and, List.contains_iff_mem, EngCmd.cores] at member
      exact ⟨hb, member⟩
    · cases h
  · cases h

/-- A command of one engine is in the queue of its own core alone. -/
theorem mxHead_single (s : State) (core : Nat) (x : EngCmd) (op : MxOp) (h : mxHead s core = some (x, op)) (hop : op.cluster = false) :
    x.core = core ∧ x.cores = [core] := by
  obtain ⟨hb, hc⟩ := mxHead_body s core x op h
  simp only [enginesOf, hop, Bool.false_eq_true, if_false, List.mem_singleton] at hc
  subst hc
  simp only [EngCmd.cores, hb, enginesOf, hop, Bool.false_eq_true, if_false, and_self]

/-- A command of one engine may run when it is neither paused nor held back on its core (12 R203). -/
theorem mxReady_single (s : State) (core : Nat) (x : EngCmd) (op : MxOp) (h : mxHead s core = some (x, op)) (hop : op.cluster = false)
    (hp : x.paused = false) (hb : blockedBy s core x.id (cmdRanges s core x.id) = false) : mxReady s x = true := by
  simp [mxReady, hp, (mxHead_single s core x op h hop).2, h, hb]

theorem exec_matrixStep (core : Nat) (s : State) : exec (.matrixStep core) s = execMatrixStep core s := rfl

theorem exec_matrixCommandComplete (core : Nat) (s : State) : exec (.matrixCommandComplete core) s = execMatrixCommandComplete core s := rfl

/-- A command at the head that may run does so. -/
theorem matrixCommand_runs (s : State) (core : Nat) (x : EngCmd) (op : MxOp) (h : mxHead s core = some (x, op)) (hr : mxReady s x = true) :
    exec (.matrixCommandComplete core) s = .next (runMx s x op) := by
  rw [exec_matrixCommandComplete, execMatrixCommandComplete, h]
  simp only [hr, if_true]

/-! ## What the engines of a loop fetch (07 R145, R147) -/

/-- The stop that a fetch reports. -/
def StepFetch.stop? : StepFetch → Option (Nat × Nat)
  | .stop cause st => some (cause, st)
  | _ => none

/-- The end that a fetch reports. -/
def StepFetch.done? : StepFetch → Option Nat
  | .done n => some n
  | _ => none

theorem stop?_eq_none (f : StepFetch) : f.stop? = none ↔ ∀ u v, f ≠ .stop u v := by cases f <;> simp [StepFetch.stop?]

theorem done?_eq_none (f : StepFetch) : f.done? = none ↔ ∀ n, f ≠ .done n := by cases f <;> simp [StepFetch.done?]

theorem firstStop_map (g : Nat → StepFetch) (es : List Nat) : firstStop (es.map g) = es.findSome? fun c => (g c).stop? :=
  List.findSome?_map

theorem firstDone_map (g : Nat → StepFetch) (es : List Nat) : firstDone (es.map g) = es.findSome? fun c => (g c).done? :=
  List.findSome?_map

/-- In a rising list the least engine that answers is the first. -/
theorem findSome_least {β : Type} (f : Nat → Option β) (es : List Nat) (hes : es.Pairwise (· < ·)) (c : Nat) (v : β) (hc : c ∈ es)
    (hv : f c = some v) (hlow : ∀ e ∈ es, e < c → f e = none) : es.findSome? f = some v := by
  induction es with
  | nil => cases hc
  | cons e es ih =>
    obtain ⟨he, hes⟩ := List.pairwise_cons.1 hes
    rcases List.mem_cons.1 hc with rfl | hc
    · rw [List.findSome?_cons, hv]
    · rw [List.findSome?_cons, hlow e List.mem_cons_self (he c hc)]
      exact ih hes hc fun d hd => hlow d (List.mem_cons_of_mem _ hd)

theorem firstStop_least (g : Nat → StepFetch) (es : List Nat) (hes : es.Pairwise (· < ·)) (c cause st : Nat) (hc : c ∈ es)
    (hv : g c = .stop cause st) (hlow : ∀ e ∈ es, e < c → ∀ u v, g e ≠ .stop u v) : firstStop (es.map g) = some (cause, st) := by
  rw [firstStop_map]
  exact findSome_least _ es hes c _ hc (by rw [hv]; rfl) fun e he hlt => (stop?_eq_none _).2 (hlow e he hlt)

theorem firstDone_least (g : Nat → StepFetch) (es : List Nat) (hes : es.Pairwise (· < ·)) (c m : Nat) (hc : c ∈ es) (hv : g c = .done m)
    (hlow : ∀ e ∈ es, e < c → ∀ n, g e ≠ .done n) : firstDone (es.map g) = some m := by
  rw [firstDone_map]
  exact findSome_least _ es hes c _ hc (by rw [hv]; rfl) fun e he hlt => (done?_eq_none _).2 (hlow e he hlt)

theorem firstStop_none (g : Nat → StepFetch) (es : List Nat) (h : ∀ e ∈ es, ∀ u v, g e ≠ .stop u v) : firstStop (es.map g) = none := by
  rw [firstStop_map]
  exact List.findSome?_eq_none_iff.2 fun e he => (stop?_eq_none _).2 (h e he)

theorem firstDone_none (g : Nat → StepFetch) (es : List Nat) (h : ∀ e ∈ es, ∀ n, g e ≠ .done n) : firstDone (es.map g) = none := by
  rw [firstDone_map]
  exact List.findSome?_eq_none_iff.2 fun e he => (done?_eq_none _).2 (h e he)

/-! ## One step of a loop that has begun -/

/-- The operands of an MXLOOP (07 R144). -/
structure LoopArgs where
  acc : Nat
  sparse : Nat
  a : Dword
  b : Dword
  count : Nat
  start : Nat
  inca : Nat
  incb : Nat
  pair : Nat
  cluster : Bool

/-- The loop as its core's queue holds it once it has begun. -/
def LoopArgs.op (l : LoopArgs) : MxOp := .loop l.acc l.sparse l.a l.b l.count l.start l.inca l.incb l.pair l.cluster true

/-- What engine `c` fetches for step `k`. -/
def LoopArgs.fetch (l : LoopArgs) (x : EngCmd) (t : State) (c k : Nat) : StepFetch :=
  stepFetch t (x.engineAgent t c) c l.sparse l.a l.b l.count l.inca l.incb l.pair k

/-- The engines that the loop runs on. -/
def LoopArgs.engines (l : LoopArgs) (x : EngCmd) : List Nat := enginesOf x.core l.cluster

/-- What all its engines fetch for step `k`. -/
def LoopArgs.fetches (l : LoopArgs) (x : EngCmd) (t : State) (k : Nat) : List StepFetch := (l.engines x).map fun c => l.fetch x t c k

/-- An accumulator after step `n` with what its engine has fetched. -/
def stepAcc (pair n : Nat) (f : StepFetch) (a : Acc) : Acc :=
  match f with
  | .go va vb => { a.addStep pair va vb with step := n + 1 }
  | _ => a

/-- The machine after step `n` with what the engines have fetched for it. -/
def LoopArgs.added (l : LoopArgs) (x : EngCmd) (s : State) (n : Nat) : State :=
  modAccs s (l.engines x) l.acc fun c => stepAcc l.pair n (l.fetch x s c n)

/-- The end of a loop whose last step has just been added. -/
def LoopArgs.closed (l : LoopArgs) (x : EngCmd) (t : State) (n : Nat) : State :=
  match firstStop (l.fetches x t (n + 1)), firstDone (l.fetches x t (n + 1)) with
  | none, some m => doneMx (setStep t (l.engines x) l.acc m) x
  | _, _ => t

/-- A fold over engines with their fetches changes the accumulator of each, when all have their operands. -/
theorem foldl_go (pair acc n : Nat) (g : Nat → StepFetch) (es : List Nat) (hgo : ∀ c ∈ es, ∃ va vb, g c = .go va vb) (s : State) :
    (es.zip (es.map g)).foldl (fun s p => match p.2 with
      | .go va vb => modAcc s p.1 acc fun c => { c.addStep pair va vb with step := n + 1 }
      | _ => s) s = modAccs s es acc fun c => stepAcc pair n (g c) := by
  induction es generalizing s with
  | nil => rfl
  | cons e es ih =>
    obtain ⟨va, vb, he⟩ := hgo e List.mem_cons_self
    have head : modAccs s (e :: es) acc (fun c => stepAcc pair n (g c)) =
        modAccs (modAcc s e acc (stepAcc pair n (g e))) es acc fun c => stepAcc pair n (g c) := rfl
    rw [List.map_cons, List.zip_cons_cons, List.foldl_cons, ih fun c hc => hgo c (List.mem_cons_of_mem _ hc), head, he]
    rfl

section
variable (l : LoopArgs) (s : State) (core : Nat) (x : EngCmd) (hh : mxHead s core = some (x, l.op)) (hr : mxReady s x = true)
include hh hr

theorem matrixStep_runs : exec (.matrixStep core) s =
    .next (loopStep s x l.acc l.sparse l.a l.b l.count l.start l.inca l.incb l.pair l.cluster true) := by
  rw [exec_matrixStep, execMatrixStep, hh, LoopArgs.op]
  simp only [hr, if_true]

/-- A loop that its engines' fetches stop or end does not step. -/
theorem matrixStep_of_check (t : State)
    (h : loopCheck s x l.op (l.engines x) l.acc (l.fetches x s (accOf s x.core l.acc).step) = some t) :
    exec (.matrixStep core) s = .next t := by
  rw [matrixStep_runs l s core x hh hr]
  unfold loopStep
  simp only [if_true]
  split
  · next u hu => exact congrArg Host.Outcome.next (Option.some.inj (hu.symm.trans h))
  · next hu => exact nomatch hu.symm.trans h

/-- A stop of the lowest engine that has one stops the loop on all of them (07 R147). -/
theorem matrixStep_stops (cause st : Nat) (hs : firstStop (l.fetches x s (accOf s x.core l.acc).step) = some (cause, st)) :
    exec (.matrixStep core) s = .next (stopMx (setStep s (l.engines x) l.acc st) x l.op cause st) :=
  matrixStep_of_check l s core x hh hr _ (by rw [loopCheck, hs])

/-- A loop whose last step is over ends on all its engines. -/
theorem matrixStep_ends (m : Nat) (hs : firstStop (l.fetches x s (accOf s x.core l.acc).step) = none)
    (hd : firstDone (l.fetches x s (accOf s x.core l.acc).step) = some m) :
    exec (.matrixStep core) s = .next (doneMx (setStep s (l.engines x) l.acc m) x) :=
  matrixStep_of_check l s core x hh hr _ (by rw [loopCheck, hs, hd])

/-- With all operands there every engine adds its products, and the loop ends when that was its last step. -/
theorem matrixStep_adds (hgo : ∀ c ∈ l.engines x, ∃ va vb, l.fetch x s c (accOf s x.core l.acc).step = .go va vb) :
    exec (.matrixStep core) s =
      .next (l.closed x (l.added x s (accOf s x.core l.acc).step) (accOf s x.core l.acc).step) := by
  have noStop : firstStop (l.fetches x s (accOf s x.core l.acc).step) = none :=
    firstStop_none _ _ fun e he u v h => by obtain ⟨va, vb, hg⟩ := hgo e he; cases hg.symm.trans h
  have noDone : firstDone (l.fetches x s (accOf s x.core l.acc).step) = none :=
    firstDone_none _ _ fun e he n h => by obtain ⟨va, vb, hg⟩ := hgo e he; cases hg.symm.trans h
  have check : loopCheck s x l.op (l.engines x) l.acc (l.fetches x s (accOf s x.core l.acc).step) = none := by rw [loopCheck, noStop, noDone]
  rw [matrixStep_runs l s core x hh hr]
  unfold loopStep
  simp only [if_true]
  split
  · next u hu => exact nomatch hu.symm.trans check
  · rw [LoopArgs.added, ← foldl_go l.pair l.acc _ (fun c => l.fetch x s c _) (l.engines x) hgo]
    rfl

end

/-- A loop goes on while no engine reports its end. -/
theorem closed_of_not_done (l : LoopArgs) (x : EngCmd) (t : State) (n : Nat) (h : ∀ c ∈ l.engines x, ∀ m, l.fetch x t c (n + 1) ≠ .done m) :
    l.closed x t n = t := by
  have none : firstDone (l.fetches x t (n + 1)) = none := firstDone_none _ _ h
  rw [LoopArgs.closed, none]
  split
  · next e => cases e
  · rfl

/-- A loop ends with its last step when no engine then stops. -/
theorem closed_of_done (l : LoopArgs) (x : EngCmd) (t : State) (n m : Nat) (hs : firstStop (l.fetches x t (n + 1)) = none)
    (hd : firstDone (l.fetches x t (n + 1)) = some m) : l.closed x t n = doneMx (setStep t (l.engines x) l.acc m) x := by
  rw [LoopArgs.closed, hs, hd]

end Sys2Proof.Machine
end

section
/-! SUPPORT. What the matrix commands at the head of a queue leave (07 R145 to R148, R151 to R153). -/

namespace Sys2Proof.Machine

/-! ## MXLD: many elements of one width -/

/-- Of elements stored apart from one another, one that is stored, or was there before, reads back (08 R162). -/
theorem bits_foldl_setBits (pos val : Nat → Nat) (w k : Nat) (l : List Nat) (m : Memory) (hm : m.wf = true)
    (hk : k ∈ l ∨ m.bits (pos k) w = val k % 2 ^ w) (apart : ∀ i ∈ l, i ≠ k → pos k + w ≤ pos i ∨ pos i + w ≤ pos k) :
    (l.foldl (fun m i => m.setBits (pos i) w (val i)) m).bits (pos k) w = val k % 2 ^ w := by
  induction l generalizing m with
  | nil => exact hk.resolve_left List.not_mem_nil
  | cons i l ih =>
    rw [List.foldl_cons]
    refine ih _ (Memory.setBits_wf _ _ _ _ hm) ?_ fun j hj => apart j (List.mem_cons_of_mem _ hj)
    by_cases hik : i = k
    · right; rw [hik, Memory.bits_setBits_same _ _ _ _ hm]
    · rw [Memory.bits_setBits_apart _ _ _ _ _ _ hm (apart i List.mem_cons_self hik)]
      exact hk.imp_left fun h => (List.mem_cons.1 h).resolve_left (Ne.symm hik)

/-- The place of element `k` of a tile among the elements of an A buffer (07 R143, R153). -/
def tilePlace (k : Nat) : Nat := k % 128 / 2 * 256 + (2 * (k / 128) + k % 2)

theorem tilePlace_injective (i k : Nat) (hi : i < 16384) (hk : k < 16384) (h : tilePlace i = tilePlace k) : i = k := by
  unfold tilePlace at h; omega

/-- Elements at different places of a buffer do not overlap. -/
theorem tilePlace_apart (base w i k : Nat) (hi : i < 16384) (hk : k < 16384) (h : i ≠ k) :
    base + tilePlace k * w + w ≤ base + tilePlace i * w ∨ base + tilePlace i * w + w ≤ base + tilePlace k * w := by
  rcases Nat.lt_or_gt_of_ne fun e => h (tilePlace_injective i k hi hk e) with lt | lt
  · right
    have := Nat.mul_le_mul_right w lt
    rw [Nat.succ_mul] at this; omega
  · left
    have := Nat.mul_le_mul_right w lt
    rw [Nat.succ_mul] at this; omega

/-- The storage after MXLD has laid out a tile of elements of `w` bits from bit key `base` (07 R153). -/
def tileStored (m : Memory) (base w : Nat) (val : Nat → Nat) : Memory :=
  (List.range 16384).foldl (fun m k => m.setBits (base + k % 128 / 2 * 256 * w + (2 * (k / 128) + k % 2) * w) w (val k)) m

theorem tileStored_bits (m : Memory) (base w : Nat) (val : Nat → Nat) (hm : m.wf = true) (i j : Nat) (hi : i < 128) (hj : j < 128) :
    (tileStored m base w val).bits (base + j / 2 * (256 * w) + (2 * i + j % 2) * w) w = val (128 * i + j) % 2 ^ w := by
  have place (k : Nat) : base + k % 128 / 2 * 256 * w + (2 * (k / 128) + k % 2) * w = base + tilePlace k * w := by
    rw [tilePlace, Nat.add_mul (k % 128 / 2 * 256), Nat.add_assoc]
  have here : base + j / 2 * (256 * w) + (2 * i + j % 2) * w = base + tilePlace (128 * i + j) * w := by
    rw [← place, show (128 * i + j) % 128 = j by omega, show (128 * i + j) / 128 = i by omega, show (128 * i + j) % 2 = j % 2 by omega,
      Nat.mul_assoc]
  have inTile : 128 * i + j < 16384 := by omega
  simp only [tileStored, place]
  rw [here]
  exact bits_foldl_setBits (fun k => base + tilePlace k * w) val w _ _ m hm (.inl (List.mem_range.2 inTile)) fun k hk hne =>
    tilePlace_apart base w k _ (List.mem_range.1 hk) inTile hne

/-! ## The commands other than loops -/

/-- MXCLR (07 R151). -/
theorem runMx_clr (s : State) (x : EngCmd) (acc : Nat) (k cluster : Bool) :
    runMx s x (.clr acc k cluster) = doneMx (modAccs s (enginesOf x.core cluster) acc fun _ _ => ⟨[], [], k, 0⟩) x := rfl

/-- MXWB of source 0 describes the half alone (07 R148). -/
theorem runMx_wb_zero (s : State) (x : EngCmd) (mode : WMode) (half n : Nat) (f : Fmt) :
    runMx s x (.wb mode 0 half f n) = doneMx (modMx s x.core fun m => { m with halves := m.halves.set half ⟨mode, f, n⟩ }) x := rfl

section
variable (s : State) (x : EngCmd) (mode : WMode) (src : Dword) (half n : Nat) (f : Fmt) (hsrc : src ≠ 0)
include hsrc

/-- MXWB copies its image into the half and describes it (07 R148). -/
theorem runMx_wb_copies (v : Nat) (hv : operandRead s (x.agent s) src 0 n = .ok v) :
    runMx s x (.wb mode src half f n) = doneMx (modMx { s with mem := s.mem.setBits (wbufKey x.core half * 8) n v } x.core fun m =>
      { m with halves := m.halves.set half ⟨mode, f, n⟩ }) x := by
  simp only [runMx, runMxwb, hsrc, if_false, hv]

theorem runMx_wb_stops (c : Nat) (hc : operandRead s (x.agent s) src 0 n = .error c) :
    runMx s x (.wb mode src half f n) = stopMx s x (.wb mode src half f n) c 0 := by
  simp only [runMx, runMxwb, hsrc, if_false, hc]

end

theorem kindHolds_single (s : State) (core acc : Nat) (kind : Bool) (h : (accOf s core acc).intKind = kind) :
    kindHolds s core acc false kind = true := by
  simp [kindHolds, enginesOf, h]

/-- MXST of one engine whose elements are all stored is over (07 R152). -/
theorem runMx_st_stored (s t : State) (x : EngCmd) (dst : Dword) (acc stride : Nat) (f : Fmt) (kind : Bool)
    (hk : (accOf s x.core acc).intKind = kind) (ht : storeElems x [x.core] dst acc f stride 16384 0 s = (t, none)) :
    runMx s x (.st dst acc f false stride kind 0) = doneMx t x := by
  have whole : 16384 * (enginesOf x.core false).length - 0 = 16384 := rfl
  rw [runMx, if_pos (kindHolds_single s x.core acc kind hk), runMxst, whole, show enginesOf x.core false = [x.core] from rfl, ht]

/-- MXLD of one engine lays out its tile in the A buffer (07 R153). -/
theorem runMx_ld_single (s : State) (x : EngCmd) (acc buf off : Nat) (f : Fmt) (kind : Bool) (hk : (accOf s x.core acc).intKind = kind) :
    runMx s x (.ld acc buf f false off kind 0) = doneMx
      { s with mem := tileStored s.mem (abufKey x.core buf * 8 + off) (fmtWidth f) ((accOf s x.core acc).deliver f) } x := by
  rw [runMx, if_pos (kindHolds_single s x.core acc kind hk)]
  rfl

/-- A command's agent goes by its gang or graph, which no store changes. -/
theorem agent_of_storesOnly (x : EngCmd) {s t : State} (h : StoresOnly s t) : x.agent t = x.agent s := by
  obtain ⟨m, p, w, rfl⟩ := h
  rfl

/-- MXST stores element (i, j) of engine `e` at its row and column of the result, and goes on with the next (07 R152). -/
theorem storeElems_succ (x : EngCmd) (es : List Nat) (dst : Dword) (acc stride fuel e i j : Nat) (f : Fmt) (s t : State)
    (hi : i < 128) (hj : j < 128)
    (hw : engineWrite s (x.agent s) (ptrAdd dst ((i + if es.length = 1 then 0 else 128 * (e / 2)) * stride +
        (j + if es.length = 1 then 0 else 128 * (e % 2)) * fmtWidth f)) (fmtWidth f)
      ((accOf s (es.getD e x.core) acc).deliver f (128 * i + j)) (.plain (fmtWidth f)) = .ok t) :
    storeElems x es dst acc f stride (fuel + 1) (16384 * e + 128 * i + j) s =
      storeElems x es dst acc f stride fuel (16384 * e + 128 * i + j + 1) (abortFor t x.owner (x.agent s)
        (ptrAdd dst ((i + if es.length = 1 then 0 else 128 * (e / 2)) * stride + (j + if es.length = 1 then 0 else 128 * (e % 2)) * fmtWidth f))
        (fmtWidth f)) := by
  have same : x.agent t = x.agent s := agent_of_storesOnly x (engineWrite_storesOnly _ _ _ _ _ _ _ hw)
  have engine : (16384 * e + 128 * i + j) / 16384 = e := by omega
  have row : (16384 * e + 128 * i + j) / 128 % 128 = i := by omega
  have col : (16384 * e + 128 * i + j) % 128 = j := by omega
  have elem : (16384 * e + 128 * i + j) % 16384 = 128 * i + j := by omega
  rw [storeElems]
  simp only [engine, row, col, elem, hw, same]

/-! ## One engine -/

/-- A loop of one engine adds the products that it has fetched. -/
theorem added_single (l : LoopArgs) (x : EngCmd) (s : State) (n : Nat) (va vb : List Nat) (hl : l.cluster = false)
    (hf : l.fetch x s x.core n = .go va vb) :
    l.added x s n = modAcc s x.core l.acc fun c => { c.addStep l.pair va vb with step := n + 1 } := by
  have step : stepAcc l.pair n (l.fetch x s x.core n) = fun c => { c.addStep l.pair va vb with step := n + 1 } := by rw [hf]; rfl
  rw [LoopArgs.added, LoopArgs.engines, hl, ← step]
  rfl

/-- A command of one engine that is at the head, neither paused nor held back, runs on its own core. -/
theorem matrixCommand_single (s : State) (core : Nat) (x : EngCmd) (op : MxOp) (hh : mxHead s core = some (x, op)) (hop : op.cluster = false)
    (hp : x.paused = false) (hb : blockedBy s core x.id (cmdRanges s core x.id) = false) :
    x.core = core ∧ exec (.matrixCommandComplete core) s = .next (runMx s x op) :=
  ⟨(mxHead_single s core x op hh hop).1, matrixCommand_runs s core x op hh (mxReady_single s core x op hh hop hp hb)⟩

/-- Settles O38: a loop step by the fetch of its one engine, the chain by `addChain_spec`, and each other command by what it runs. -/
theorem matrixStepResults : Obligations.MatrixStepResults := by
  unfold Obligations.MatrixStepResults
  refine ⟨fun s core acc sparse x a b count start inca incb pair va vb hh hp hb hf => ?step,
    fun s core acc sparse x a b count start inca incb pair n hh hp hb hf => ?done, fun ps chain k hc hk => ?chain,
    fun s core x op hh hp hb => ⟨fun acc k hop => ?clr, fun mode half f n hop => ?wb, fun dst acc f stride kind t hop hk ht => ?st,
      fun acc buf f off kind hop hk hm => ?ld⟩⟩
  case step =>
    intro t hnext
    let l : LoopArgs := ⟨acc, sparse, a, b, count, start, inca, incb, pair, false⟩
    have hr := mxReady_single s core x _ hh rfl hp hb
    obtain ⟨rfl, -⟩ := mxHead_single s core x _ hh rfl
    have one : l.engines x = [x.core] := rfl
    have go : l.fetch x s x.core (accOf s x.core l.acc).step = .go va vb := hf
    rw [matrixStep_adds l s x.core x hh hr (by simp only [one, List.mem_singleton, forall_eq]; exact ⟨va, vb, go⟩),
      added_single l x s _ va vb rfl go, closed_of_not_done]
    simp only [one, List.mem_singleton, forall_eq]
    exact hnext
  case done =>
    let l : LoopArgs := ⟨acc, sparse, a, b, count, start, inca, incb, pair, false⟩
    have hr := mxReady_single s core x _ hh rfl hp hb
    obtain ⟨rfl, -⟩ := mxHead_single s core x _ hh rfl
    have fetched : l.fetches x s (accOf s x.core l.acc).step = [.done n] := congrArg (fun f => [f]) hf
    exact matrixStep_ends l s x.core x hh hr n (by rw [fetched]; rfl) (by rw [fetched]; rfl)
  case chain =>
    have hps : ps[k]? = some (ps.getD k (0, 0)) := by rw [List.getD_eq_getElem?_getD, List.getElem?_eq_getElem hk]; rfl
    have added := (addChain_spec chainI ps 0 chain ((risingFrom_zero chain).2 hc)).2 k _ hps
    rwa [Nat.zero_add] at added
  case clr =>
    subst hop
    obtain ⟨rfl, run⟩ := matrixCommand_single s core x _ hh rfl hp hb
    rw [run, runMx_clr]; rfl
  case wb =>
    subst hop
    obtain ⟨rfl, run⟩ := matrixCommand_single s core x _ hh rfl hp hb
    rw [run, runMx_wb_zero]
  case st =>
    subst hop
    obtain ⟨rfl, run⟩ := matrixCommand_single s core x _ hh rfl hp hb
    rw [run, runMx_st_stored s t x dst acc stride f kind hk ht]
  case ld =>
    subst hop
    obtain ⟨rfl, run⟩ := matrixCommand_single s core x _ hh rfl hp hb
    let deliver := (accOf s x.core acc).deliver f
    refine ⟨tileStored s.mem (abufKey x.core buf * 8 + off) (fmtWidth f) deliver, ?_, tileStored_bits _ _ _ deliver hm⟩
    rw [run, runMx_ld_single s x acc buf off f kind hk]

end Sys2Proof.Machine
end

section
/-! SUPPORT. Commands on the four engines of a cluster, the chains of a float format, and copied weight images (06 R126; 07 R147, R148, R151). -/

namespace Sys2Proof.Machine

/-- A step of a float pair rounds once for each chain (06 R126). -/
theorem addStep_float_adds (c : Acc) (pair : Nat) (a b : List Nat) (h : pairInt pair = false) (ha : a.length = 256) (hb : b.length = 256)
    (hc : c.Rising) (i j : Nat) (hi : i < 128) (hj : j < 128) :
    chainAt (c.addStep pair a b).even (128 * i + j) = chainF (chainAt c.even (128 * i + j))
      (valueOf (pairFmts pair).1 (stepPair a b i j 0).1, valueOf (pairFmts pair).2 (stepPair a b i j 0).2) ∧
    chainAt (c.addStep pair a b).odd (128 * i + j) = chainF (chainAt c.odd (128 * i + j))
      (valueOf (pairFmts pair).1 (stepPair a b i j 1).1, valueOf (pairFmts pair).2 (stepPair a b i j 1).2) := by
  rw [addStep_of_float c pair a b h]
  exact ⟨chainAt_addChain_step chainF _ _ 0 (by decide) a b ha hb c.even hc.1 i j hi hj,
    chainAt_addChain_step chainF _ _ 1 (by decide) a b ha hb c.odd hc.2 i j hi hj⟩

/-- The chains of a float accumulator are added at delivery (06 R126). -/
theorem deliver_float (c : Acc) (f : Fmt) (k : Nat) (h : c.intKind = false) :
    c.deliver f k = convert .rne .f32 f (addF32 (chainAt c.even k) (chainAt c.odd k)).toNat := by
  simp only [Acc.deliver, h, Bool.false_eq_true, if_false]

/-- The halves of an engine after one has been described. -/
theorem halves_modMx (s : State) (core half : Nat) (h : Half) (hc : core < s.cores.length) :
    ((modMx s core fun m => { m with halves := m.halves.set half h }).core core).mx.halves = (s.core core).mx.halves.set half h := by
  rw [modMx, core_modCore _ _ _ _ hc, if_pos rfl]

/-- What an accumulator holds after a step of all its loop's engines. -/
theorem accOf_added (l : LoopArgs) (x : EngCmd) (s : State) (n c : Nat) (va vb : List Nat) (hce : c ∈ l.engines x) (hc : c < s.cores.length)
    (ha : l.acc < (s.core c).mx.accs.length) (hf : l.fetch x s c n = .go va vb) :
    accOf (l.added x s n) c l.acc = { (accOf s c l.acc).addStep l.pair va vb with step := n + 1 } := by
  rw [LoopArgs.added, accOf_modAccs (l.engines x) _ _ (Or.inl (enginesOf_nodup _ _)) s c l.acc hc ha, if_pos ⟨hce, rfl⟩, hf]
  rfl

/-- Settles O40: MXCLR, steps, stops and ends of a cluster loop over the rising list of its engines, the float chains by `addChain_spec`,
MXWB by the bits of one store, and MXST element by element. -/
theorem clusterMatrixSteps : Obligations.ClusterMatrixSteps := by
  unfold Obligations.ClusterMatrixSteps
  refine ⟨fun s core acc x k hh hr => ?clr, fun s core acc sparse x a b count start inca incb pair hh hr => ?loop,
    accOf_setStep, fun c pair a b i j h ha hb he ho hi hj => addStep_float_adds c pair a b h ha hb ⟨he, ho⟩ i j hi hj,
    deliver_float, fun s core x mode src half n f hh hr hsrc hm hc => ⟨fun v hv hn => ?copied, fun c herr => ?failed⟩,
    fun x es dst acc stride fuel e i j f s t _ _ hi hj => ?element⟩
  case clr =>
    let cleared (_ : Nat) (_ : Acc) : Acc := ⟨[], [], k, 0⟩
    obtain ⟨mem, gangs⟩ := modAccs_frame s (enginesOf x.core true) acc cleared
    exact ⟨_, by rw [matrixCommand_runs s core x _ hh hr, runMx_clr], mem, gangs,
      accOf_modAccs (enginesOf x.core true) acc cleared (Or.inr fun _ _ => rfl) s⟩
  case loop =>
    intro es n fetch
    let l : LoopArgs := ⟨acc, sparse, a, b, count, start, inca, incb, pair, true⟩
    have rising : (l.engines x).Pairwise (· < ·) := enginesOf_rising x.core true
    refine ⟨fun c cause st hc hstop hlow => ?_, fun hno c m hc hdone hlow => ?_, fun hgo => ?_⟩
    · exact matrixStep_stops l s core x hh hr cause st (firstStop_least _ _ rising c cause st hc hstop hlow)
    · exact matrixStep_ends l s core x hh hr m (firstStop_none _ _ hno) (firstDone_least _ _ rising c m hc hdone hlow)
    · have adds := matrixStep_adds l s core x hh hr hgo
      obtain ⟨mem, gangs⟩ := modAccs_frame s (l.engines x) acc fun c => stepAcc pair n (l.fetch x s c n)
      refine ⟨l.added x s n, mem, gangs, fun c va vb hce hc ha hf => accOf_added l x s n c va vb hce hc ha hf, fun hno => ?_,
        fun hno c m hc hdone hlow => ?_⟩
      · exact adds.trans (congrArg Host.Outcome.next (closed_of_not_done l x _ _ hno))
      · exact adds.trans (congrArg Host.Outcome.next
          (closed_of_done l x _ _ m (firstStop_none _ _ hno) (firstDone_least _ _ rising c m hc hdone hlow)))
  case copied =>
    refine ⟨_, by rw [matrixCommand_runs s core x _ hh hr, runMx_wb_copies s x mode src half n f hsrc v hv], ?_, fun k => ?_⟩
    · exact halves_modMx _ x.core half _ hc
    · exact Memory.bitAt_setBits s.mem (wbufKey x.core half * 8) n v k hm
  case failed => rw [matrixCommand_runs s core x _ hh hr, runMx_wb_stops s x mode src half n f hsrc c herr]
  case element =>
    intro row col p hw
    exact ⟨storeElems_succ x es dst acc stride fuel e i j f s t hi hj hw, rfl⟩

end Sys2Proof.Machine
end

section
/-! SUPPORT. Exact slots and the elements of a sluice block (06 R128 to R131; 12 R220). -/

namespace Sys2Proof.Machine

/-! ## Exact slots (06 R129, R130) -/

/-- The fixed-point part of a slot. -/
def slotLow (t : BitVec 320) : BitVec 312 := t.extractLsb' 0 312

/-- The flags of a slot, above its fixed-point part. -/
def slotHigh (t : BitVec 320) : BitVec 8 := t.extractLsb' 312 8

/-- What a value adds to the fixed-point part. -/
def slotAddend : XVal → BitVec 312
  | .fin neg a d => BitVec.ofInt 312 (if neg then -((a * 2 ^ 149 / d : Nat) : Int) else (a * 2 ^ 149 / d : Nat))
  | _ => 0

/-- The flag that a value sets. -/
def slotFlag : XVal → BitVec 8
  | .nan => 1
  | .inf neg => if neg then 4 else 2
  | .fin _ _ _ => 0

theorem slot_ext (t u : BitVec 320) (hl : slotLow t = slotLow u) (hh : slotHigh t = slotHigh u) : t = u := by
  have parts (v : BitVec 320) : slotHigh v ++ slotLow v = v := BitVec.extractLsb'_append_extractLsb' (w := 8) (len := 312)
  rw [← parts t, ← parts u, hl, hh]

/-- A NaN and the infinities set one bit each. -/
theorem slot_or_bit (t : BitVec 320) (n k : Nat) (hk : k < 320) :
    (t ||| BitVec.ofNat 320 (2 ^ n)).getLsbD k = (t.getLsbD k || k == n) := by
  have same : decide (n = k) = (k == n) := by rw [Bool.eq_iff_iff, decide_eq_true_iff, beq_iff_eq, eq_comm]
  rw [BitVec.getLsbD_or, BitVec.getLsbD_ofNat, Nat.testBit_two_pow, decide_eq_true hk, Bool.true_and, same]

/-- A flag is set above the fixed-point part. -/
theorem slot_or_flag (t : BitVec 320) (p n : Nat) (hp : p = 312 + n) (hn : n < 8) :
    slotLow (t ||| BitVec.ofNat 320 (2 ^ p)) = slotLow t ∧
    slotHigh (t ||| BitVec.ofNat 320 (2 ^ p)) = slotHigh t ||| BitVec.ofNat 8 (2 ^ n) := by
  subst hp
  refine ⟨BitVec.eq_of_getLsbD_eq fun i hi => ?_, BitVec.eq_of_getLsbD_eq fun i hi => ?_⟩
  · have apart : (0 + i == 312 + n) = false := beq_eq_false_iff_ne.2 (by omega)
    rw [slotLow, slotLow, BitVec.getLsbD_extractLsb', BitVec.getLsbD_extractLsb', slot_or_bit _ _ _ (by omega), apart, Bool.or_false]
  · rw [slotHigh, slotHigh, BitVec.getLsbD_or, BitVec.getLsbD_extractLsb', BitVec.getLsbD_extractLsb', slot_or_bit _ _ _ (by omega),
      BitVec.getLsbD_ofNat, Nat.testBit_two_pow]
    have same : (312 + i == 312 + n) = decide (n = i) := by rw [Bool.eq_iff_iff, decide_eq_true_iff, beq_iff_eq]; omega
    simp only [same, hi, decide_true, Bool.true_and]

theorem slotAdd_inf_pos (t : BitVec 320) : slotAdd t (.inf false) = t ||| BitVec.ofNat 320 (2 ^ 313) := by
  simp only [slotAdd, Bool.false_eq_true, if_false]

theorem slotAdd_inf_neg (t : BitVec 320) : slotAdd t (.inf true) = t ||| BitVec.ofNat 320 (2 ^ 314) := by
  simp only [slotAdd, if_true]

/-- A signed number is added to a word modulo its size. -/
theorem ofInt_toNat_add {w : Nat} (x : BitVec w) (v : Int) : BitVec.ofInt w (x.toNat + v) = x + BitVec.ofInt w v := by
  rw [BitVec.ofInt_add, BitVec.ofInt_natCast, BitVec.ofNat_toNat, BitVec.setWidth_eq]

theorem toNat_add_ofInt {w : Nat} (x : BitVec w) (v : Int) : (((x + BitVec.ofInt w v).toNat : Nat) : Int) = (x.toNat + v) % 2 ^ w := by
  have pos : ((2 ^ w : Nat) : Int) ≠ 0 := Int.natCast_ne_zero.2 (Nat.ne_of_gt (Nat.two_pow_pos w))
  rw [← ofInt_toNat_add, BitVec.toNat_ofInt, Int.toNat_of_nonneg (Int.emod_nonneg _ pos), Int.natCast_pow]
  rfl

/-- Adding a value adds to the fixed-point part and sets a flag, each apart from the other. -/
theorem slotAdd_parts (t : BitVec 320) (x : XVal) :
    slotLow (slotAdd t x) = slotLow t + slotAddend x ∧ slotHigh (slotAdd t x) = slotHigh t ||| slotFlag x := by
  cases x with
  | nan =>
    obtain ⟨low, high⟩ := slot_or_flag t 312 0 rfl (by decide)
    exact ⟨low.trans (BitVec.add_zero _).symm, high⟩
  | inf neg =>
    cases neg with
    | false =>
      obtain ⟨low, high⟩ := slot_or_flag t 313 1 rfl (by decide)
      rw [slotAdd_inf_pos]
      exact ⟨low.trans (BitVec.add_zero _).symm, high⟩
    | true =>
      obtain ⟨low, high⟩ := slot_or_flag t 314 2 rfl (by decide)
      rw [slotAdd_inf_neg]
      exact ⟨low.trans (BitVec.add_zero _).symm, high⟩
  | fin neg a d =>
    have join : slotAdd t (.fin neg a d) = slotHigh t ++
        BitVec.ofInt 312 (((slotLow t).toNat : Int) + if neg then -((a * 2 ^ 149 / d : Nat) : Int) else (a * 2 ^ 149 / d : Nat)) := rfl
    rw [join]
    refine ⟨?_, ?_⟩
    · rw [slotLow, BitVec.extractLsb'_append_eq_right, ofInt_toNat_add]; rfl
    · rw [slotHigh, BitVec.extractLsb'_append_eq_left]; exact BitVec.or_zero.symm

/-- Two values may be added in either order. -/
theorem slotAdd_right_comm (t : BitVec 320) (x y : XVal) : slotAdd (slotAdd t x) y = slotAdd (slotAdd t y) x := by
  refine slot_ext _ _ ?_ ?_
  · simp only [slotAdd_parts, BitVec.add_assoc, BitVec.add_comm (slotAddend x)]
  · simp only [slotAdd_parts, BitVec.or_assoc, BitVec.or_comm (slotFlag x)]

/-- A finite value is added modulo 2^312 (06 R130). -/
theorem slotAdd_fin_low (t : BitVec 320) (neg : Bool) (a d : Nat) :
    ((slotLow (slotAdd t (.fin neg a d))).toNat : Int) =
      ((slotLow t).toNat + (if neg then -1 else 1) * (a * 2 ^ 149 / d : Nat)) % 2 ^ 312 := by
  have signed : (if neg then -((a * 2 ^ 149 / d : Nat) : Int) else (a * 2 ^ 149 / d : Nat)) =
      (if neg then -1 else 1) * ((a * 2 ^ 149 / d : Nat) : Int) := by cases neg <;> simp
  rw [(slotAdd_parts t _).1, slotAddend, signed, toNat_add_ofInt]

/-! ## The slots of a stack -/

/-- A slot that is not listed is 0. -/
theorem slot_eq (k : Stack) (n : Nat) : k.slot n = ((k.slots.find? fun p => p.1 == n).map (·.2)).getD 0 := by
  rw [Stack.slot]
  cases k.slots.find? fun p => p.1 == n <;> rfl

theorem slot_setSlot (k : Stack) (n : Nat) (v : BitVec 320) (m : Nat) : (k.setSlot n v).slot m = if m = n then v else k.slot m := by
  have rest : (k.slots.filter fun p => p.1 != n).find? (fun p => p.1 == m) = if m = n then none else k.slots.find? fun p => p.1 == m := by
    rw [List.find?_filter]
    split
    · next h => exact List.find?_eq_none.2 fun p _ => by simp [h]
    · next h =>
      refine congrArg (fun q => k.slots.find? q) (funext fun p => ?_)
      by_cases hp : p.1 = m
      · simp [hp, h]
      · simp [hp]
  rw [slot_eq, slot_eq, Stack.setSlot]
  by_cases hv : v = 0
  · rw [if_pos hv, rest, hv]
    split <;> rfl
  · rw [if_neg hv, List.find?_cons, rest]
    by_cases hm : m = n
    · simp [hm]
    · simp only [beq_eq_false_iff_ne.2 (Ne.symm hm), if_neg hm]

/-- The stacks after one has been changed. -/
theorem stack_modStack (s : State) (d : Nat) (f : Stack → Stack) (k : Nat) (hd : d < s.sluiceStacks.length) :
    (s.modStack d f).stack k = if k = d then f (s.stack k) else s.stack k := by
  simp only [State.stack, modStack_sluiceStacks, List.getD_eq_getElem?_getD, List.getElem?_modify]
  by_cases h : k = d
  · subst h
    simp [List.getElem?_eq_getElem hd]
  · simp [h, Ne.symm h]

/-! ## One element of a block (12 R220) -/

/-- All sources are read before anything is stored. -/
theorem sluiceRead_ok (s : State) (b : Block) (stack i : Nat) (key : Nat → Nat) (ps : List Dword) (n : Nat)
    (h : ∀ p ∈ ps.zipIdx n, sluiceElem s b stack (ptrAdd p.1 (i * b.w)) .read = .ok [.store (key p.2) b.w]) :
    sluiceRead s b stack i ps = .ok ((List.range' n ps.length).map fun j => s.mem.bits (key j) b.w) := by
  induction ps generalizing n with
  | nil => rfl
  | cons p ps ih =>
    rw [List.zipIdx_cons] at h
    have head : sluiceElem s b stack (ptrAdd p (i * b.w)) .read = .ok [.store (key n) b.w] := h (p, n) List.mem_cons_self
    have tail := ih (n + 1) fun q hq => h q (List.mem_cons_of_mem _ hq)
    simp only [sluiceRead, head, tail]
    rfl

section
variable (s : State) (b : Block) (stack i : Nat) (vs : List Nat)

theorem sluiceValue_copy (h : b.op = 2) : sluiceValue s b stack i vs = (vs.headD 0, s) := by simp [sluiceValue, h]

theorem sluiceValue_sum (h : b.op = 0) : sluiceValue s b stack i vs = (sluiceSum b vs, s) := by simp [sluiceValue, h]

/-- The exact slot of element `i`. -/
def slotIndex : Nat := ((s.fn b.fn).windows.getD stack (0, 0)).1 + b.slotBase + i

/-- The slot of element `i` with every source added to it, after it has been cleared with ZERO. -/
def slotSum : BitVec 320 :=
  vs.foldl (fun t v => slotAdd t (valueOf b.fmt v)) (if b.zero then 0 else (s.stack stack).slot (slotIndex s b stack i))

theorem sluiceValue_exact (h0 : b.op ≠ 0) (h2 : b.op ≠ 2) : sluiceValue s b stack i vs =
    (convertX .rne (slotValue (slotSum s b stack i vs)) b.fmt,
      s.modStack stack fun k => k.setSlot (slotIndex s b stack i) (slotSum s b stack i vs)) := by
  simp only [sluiceValue, h0, h2, if_false]; rfl

/-- SUM of I32 is modulo 2^32 (06 R128). -/
theorem sluiceSum_i32 (h : b.fmt = .i32) : sluiceSum b vs = vs.sum % 2 ^ 32 := by
  simp only [sluiceSum, h, List.sum_eq_foldl]

/-- SUM of a float format rounds each addition, in the block's order (06 R128). -/
theorem sluiceSum_float (h : b.fmt ≠ .i32) : sluiceSum b vs = convert .rne .f32 b.fmt
    (if b.seqOrder then seqSum (vs.map fun x => BitVec.ofNat 32 (toBin binF32 .rne (valueOf b.fmt x)))
      else treeSum 5 (vs.map fun x => BitVec.ofNat 32 (toBin binF32 .rne (valueOf b.fmt x)))).toNat := by
  unfold sluiceSum
  split
  · next e => exact absurd e h
  · rfl

/-- An operation changes no stack but its own, and there at most the slot of its element. -/
theorem sluiceValue_frame : (sluiceValue s b stack i vs).2 = s ∨
    ∃ n v, (sluiceValue s b stack i vs).2 = s.modStack stack fun k => k.setSlot n v := by
  by_cases h0 : b.op = 0
  · exact .inl (by rw [sluiceValue_sum s b stack i vs h0])
  · by_cases h2 : b.op = 2
    · exact .inl (by rw [sluiceValue_copy s b stack i vs h2])
    · exact .inr ⟨_, _, by rw [sluiceValue_exact s b stack i vs h0 h2]⟩

end

/-- The machine once element `i` has been stored or, in a block that stores nothing, added to its slot. -/
def sluiceStored (s : State) (b : Block) (stack i dkey : Nat) (vs : List Nat) : State :=
  let r := sluiceValue s b stack i vs
  if b.stores then storeBits r.2 dkey b.w r.1 else r.2

theorem sluiceOne_ok (s : State) (b : Block) (stack i dkey : Nat) (vs : List Nat) (hr : sluiceRead s b stack i b.sources = .ok vs)
    (hd : b.stores = true → sluiceElem s b stack (ptrAdd b.dest (i * b.w)) .write = .ok [.store dkey b.w]) :
    sluiceOne s b stack i = .ok (if b.stores then abortFor (sluiceStored s b stack i dkey vs) b.owner b.agent (ptrAdd b.dest (i * b.w)) b.w
      else sluiceStored s b stack i dkey vs) := by
  by_cases hs : b.stores = true
  · simp only [sluiceOne, hr, hs, hd hs, sluiceStored, if_true, Bool.not_true, Bool.false_eq_true, if_false]
    rfl
  · simp only [sluiceOne, hr, hs, sluiceStored, if_false, Bool.not_false, if_true, Bool.false_eq_true]

/-- The stored element is the one place of storage that changes. -/
theorem sluiceStored_frame (s : State) (b : Block) (stack i dkey : Nat) (vs : List Nat) (hm : s.mem.wf = true) (hu : Untracked s) :
    (sluiceStored s b stack i dkey vs).gangs = s.gangs ∧
    (sluiceStored s b stack i dkey vs).sluiceStacks = (sluiceValue s b stack i vs).2.sluiceStacks ∧
    ∀ k, (sluiceStored s b stack i dkey vs).mem.bitAt k =
      if b.stores = true ∧ dkey ≤ k ∧ k < dkey + b.w then (sluiceValue s b stack i vs).1.testBit (k - dkey) else s.mem.bitAt k := by
  have same : (sluiceValue s b stack i vs).2.mem = s.mem ∧ (sluiceValue s b stack i vs).2.gangs = s.gangs ∧
      (sluiceValue s b stack i vs).2.fns = s.fns := by
    rcases sluiceValue_frame s b stack i vs with e | ⟨n, v, e⟩ <;> rw [e]
    · exact ⟨rfl, rfl, rfl⟩
    · exact ⟨rfl, rfl, rfl⟩
  obtain ⟨mem, gangs, fns⟩ := same
  rw [sluiceStored]
  by_cases hs : b.stores = true
  · have hu' : Untracked (sluiceValue s b stack i vs).2 := by rw [Untracked, fns]; exact hu
    rw [if_pos hs, storeBits_untracked _ _ _ _ hu']
    refine ⟨gangs, rfl, fun k => ?_⟩
    rw [noteStore_mem, mem, Memory.bitAt_setBits _ _ _ _ _ hm]
    simp only [hs, true_and]
  · rw [if_neg hs, mem]
    exact ⟨gangs, rfl, fun k => by rw [if_neg fun h => hs h.1]⟩

/-! ## The obligation -/

/-- Settles O36: the element by what `sluiceValue` gives for each operation and the one store of it, the trees by their equations, and exact
slots by their two parts, which add and set flags apart. -/
theorem sluiceElements : Obligations.SluiceElements := by
  unfold Obligations.SluiceElements
  refine ⟨fun s b stack i dkey key hm hu hstack hsrc hdest => ?element, fun n a b c d e l => ⟨rfl, rfl, rfl, rfl, rfl, rfl, rfl, rfl⟩,
    fun t neg a d _ _ => ⟨(slotAdd_parts t (.fin neg a d)).2.trans BitVec.or_zero, slotAdd_fin_low t neg a d⟩,
    fun t k hk => ⟨slot_or_bit t 312 k hk, by rw [slotAdd_inf_pos, slot_or_bit t 313 k hk],
      by rw [slotAdd_inf_neg, slot_or_bit t 314 k hk]⟩,
    fun t l m hp => hp.foldl_eq' (fun x _ y _ t => slotAdd_right_comm t x y) t⟩
  case element =>
    intro xs n slot wide
    have read : sluiceRead s b stack i b.sources = .ok xs := by
      rw [sluiceRead_ok s b stack i key b.sources 0 hsrc, ← List.range_eq_range']
    obtain ⟨gangs, slots, bits⟩ := sluiceStored_frame s b stack i dkey xs hm hu
    refine ⟨sluiceStored s b stack i dkey xs, sluiceOne_ok s b stack i dkey xs read hdest, gangs, fun v ⟨hcopy, hint, hfloat, hexact⟩ k => ?value,
      fun hop => ?noSlot, fun h0 h2 => ?slot⟩
    case value =>
      have value : (sluiceValue s b stack i xs).1 = v := by
        by_cases h0 : b.op = 0
        · rw [sluiceValue_sum s b stack i xs h0]
          by_cases hf : b.fmt = .i32
          · exact (sluiceSum_i32 b xs hf).trans (hint h0 hf).symm
          · exact (sluiceSum_float b xs hf).trans (hfloat h0 hf).symm
        · by_cases h2 : b.op = 2
          · rw [sluiceValue_copy s b stack i xs h2]; exact (hcopy h2).symm
          · rw [sluiceValue_exact s b stack i xs h0 h2]; exact (hexact h0 h2).symm
      rw [bits k, value]
    case noSlot =>
      rcases hop with h0 | h2
      · rw [slots, sluiceValue_sum s b stack i xs h0]
      · rw [slots, sluiceValue_copy s b stack i xs h2]
    case slot =>
      have after (k : Nat) : (sluiceStored s b stack i dkey xs).stack k =
          if k = stack then (s.stack k).setSlot n slot else s.stack k := by
        rw [State.stack, slots, sluiceValue_exact s b stack i xs h0 h2]
        exact stack_modStack s stack _ k hstack
      refine ⟨fun m => ?_, fun k hk => ?_⟩
      · rw [after, if_pos rfl, slot_setSlot]
      · rw [after, if_neg hk]

end Sys2Proof.Machine
end

section
/-! SUPPORT. The matrix instructions (07 R140, R141, R144, R148, R151 to R155): what they leave of the machine whose queues they join. -/

namespace Sys2Proof.Machine

/-! ## What claiming an engine and registering ranges leave -/

/-- The gangs, the commands, the range-lock tables and the holders of the engines are as they were. -/
structure SameTables (s t : State) : Prop where
  gangs : t.gangs = s.gangs
  cmds : t.cmds = s.cmds
  count : t.cores.length = s.cores.length
  locks : ∀ c, (t.core c).locks = (s.core c).locks
  holder : ∀ c, (t.core c).mx.holder = (s.core c).mx.holder

theorem SameTables.refl (s : State) : SameTables s s := ⟨rfl, rfl, rfl, fun _ => rfl, fun _ => rfl⟩

theorem SameTables.trans {s t u : State} (h : SameTables s t) (k : SameTables t u) : SameTables s u :=
  ⟨k.gangs.trans h.gangs, k.cmds.trans h.cmds, k.count.trans h.count, fun c => (k.locks c).trans (h.locks c),
    fun c => (k.holder c).trans (h.holder c)⟩

theorem foldl_sameTables {α : Type} (f : State → α → State) (hf : ∀ s a, SameTables s (f s a)) (l : List α) (s : State) :
    SameTables s (l.foldl f s) := by
  induction l generalizing s with
  | nil => exact .refl s
  | cons a l ih => exact (hf s a).trans (ih _)

theorem StoresOnly.sameTables {s t : State} (h : StoresOnly s t) : SameTables s t := by
  obtain ⟨m, p, w, rfl⟩ := h
  exact ⟨rfl, rfl, rfl, fun _ => rfl, fun _ => rfl⟩

/-- What a change of one core leaves of a part of the cores that it does not touch. -/
theorem core_modCore_of_kept {α : Type} (part : Core → α) (s : State) (d : Nat) (f : Core → Core) (hf : ∀ r, part (f r) = part r) (c : Nat) :
    part ((s.modCore d f).core c) = part (s.core c) := by
  by_cases hc : c < s.cores.length
  · rw [core_modCore s d f c hc]
    split
    · exact hf _
    · rfl
  · have out : s.cores.length ≤ c := Nat.le_of_not_lt hc
    have out' : (s.cores.modify d f).length ≤ c := (List.length_modify _ _ _).symm ▸ out
    rw [State.core, State.core, modCore_cores, List.getD_eq_getElem?_getD, List.getD_eq_getElem?_getD, List.getElem?_eq_none out',
      List.getElem?_eq_none out]

theorem modCore_sameTables (s : State) (d : Nat) (f : Core → Core) (hl : ∀ r, (f r).locks = r.locks)
    (hh : ∀ r, (f r).mx.holder = r.mx.holder) : SameTables s (s.modCore d f) :=
  ⟨rfl, rfl, by rw [modCore_cores, List.length_modify], core_modCore_of_kept Core.locks s d f hl,
    core_modCore_of_kept (fun r => r.mx.holder) s d f hh⟩

theorem modMx_sameTables (s : State) (d : Nat) (f : MxEngine → MxEngine) (hf : ∀ m, (f m).holder = m.holder) : SameTables s (modMx s d f) :=
  modCore_sameTables s d _ (fun _ => rfl) fun r => hf r.mx

theorem markDirtyCore_sameTables (s : State) (c fn key n : Nat) : SameTables s (markDirtyCore s c fn key n) := by
  simp only [markDirtyCore]
  split
  · refine foldl_sameTables _ (fun s i => ?_) _ s
    split
    · exact .refl s
    · exact (setDirty_storesOnly s fn i).sameTables.trans (modCore_sameTables _ _ _ (fun _ => rfl) fun _ => rfl)
  · exact .refl s

theorem writeBackLine_sameTables (s : State) (c : Nat) (x : CacheLine) (mask : BitVec 512) : SameTables s (writeBackLine s c x mask) := by
  have marked {t u v : State} (h : SameTables s t) (k : StoresOnly t u) (l : StoresOnly u v) : SameTables s v :=
    (h.trans k.sameTables).trans l.sameTables
  have dirtied (t : State) (key n : Nat) : SameTables t (coreDirty t c key n) :=
    foldl_sameTables _ (fun t f => markDirtyCore_sameTables t c f key n) _ t
  have noted (t : State) (ks : List Nat) (f : Nat → Nat) : StoresOnly t (ks.foldl (fun t i => noteStore t (f i) 64) t) :=
    foldl_storesOnly _ (fun _ _ => ⟨_, _, _, rfl⟩) _ t
  have poisoned (t : State) (ks : List Nat) (f : Nat → Nat) : StoresOnly t (ks.foldl (fun t i => poisonWord t (f i)) t) :=
    foldl_storesOnly _ (fun t i => ⟨t.mem, _, t.written, rfl⟩) _ t
  have written (t : State) (m : Memory) : StoresOnly t { t with mem := m } := ⟨m, t.poison, t.written, rfl⟩
  have listed (t : State) (w : List (Nat × Nat)) : StoresOnly t { t with written := w } := ⟨t.mem, t.poison, w, rfl⟩
  simp only [writeBackLine]
  split
  · exact .refl s
  · exact (marked (((written _ _).sameTables.trans (dirtied _ _ _)).trans (listed _ _).sameTables) (noted _ _ _) (poisoned _ _ _)).trans
      (modCore_sameTables _ _ _ (fun _ => rfl) fun _ => rfl)

theorem keepBad_storesOnly (s : State) (x : CacheLine) : StoresOnly s (keepBad s x) := by
  unfold keepBad
  split
  · exact .refl s
  · exact foldl_storesOnly _ (fun t i => ⟨t.mem, _, t.written, rfl⟩) _ s

theorem evictLine_sameTables (s : State) (c l : Nat) : SameTables s (evictLine s c l) := by
  unfold evictLine
  split
  · have dropped (t : State) : SameTables t (dropLine t c l) := modCore_sameTables t c _ (fun _ => rfl) fun _ => rfl
    exact ((writeBackLine_sameTables s c _ _).trans (dropped _)).trans (keepBad_storesOnly _ _).sameTables
  · exact .refl s

/-- Registering ranges touches a data cache and storage alone (14 R242). -/
theorem enterRanges_sameTables (s : State) (core fn : Nat) (rs : List LockRange) : SameTables s (enterRanges s core fn rs) := by
  have released (t : State) (ks : List (Nat × Nat)) : SameTables t (releaseBits t core ks) :=
    foldl_sameTables _ (fun t x => writeBackLine_sameTables t core x _) _ t
  have acquired (t : State) (ks : List (Nat × Nat)) : SameTables t (acquireBits t core ks) := by
    refine foldl_sameTables _ (fun t x => ?_) _ t
    split
    · exact .refl t
    · exact evictLine_sameTables t core _
  unfold enterRanges
  split
  · exact .refl s
  · exact (released s _).trans (acquired _ _)

/-- `t` is the machine once a gang holds the engine of a core: the commands, their entries and the gangs are as they were. -/
structure Claimed (s t : State) (core gang : Nat) : Prop where
  gangs : t.gangs = s.gangs
  cmds : t.cmds = s.cmds
  nextId : t.nextId = s.nextId
  count : t.cores.length = s.cores.length
  locks : ∀ c, (t.core c).locks = (s.core c).locks
  holder : core < s.cores.length → (t.core core).mx.holder = some gang

/-- A gang claims an engine that no other holds (07 R140). -/
theorem claimed_of_claimEngine (s t : State) (core gang : Nat) (h : claimEngine s core gang = some t) : Claimed s t core gang := by
  unfold claimEngine at h
  split at h
  · cases h
    refine ⟨rfl, rfl, rfl, List.length_modify _ _ _, core_modCore_of_kept Core.locks _ _ _ fun _ => rfl, fun hc => ?_⟩
    refine (congrArg (fun r : Core => r.mx.holder) (core_modCore _ core _ core ?_)).trans ?_
    · exact hc
    · rw [if_pos rfl]
  · next g hg =>
    split at h
    · next hself => cases h; exact ⟨rfl, rfl, rfl, rfl, fun _ => rfl, fun _ => hself ▸ hg⟩
    · cases h

/-! ## Several cores changed in turn -/

/-- Each core of a list that names none twice has been changed once. -/
theorem core_foldl_modCore (F : Nat → Core → Core) (es : List Nat) (once : es.Nodup) (s : State) (c : Nat) (hc : c < s.cores.length) :
    (es.foldl (fun s c => s.modCore c (F c)) s).core c = if c ∈ es then F c (s.core c) else s.core c := by
  induction es generalizing s with
  | nil => rw [if_neg (by simp)]; rfl
  | cons e es ih =>
    obtain ⟨fresh, once⟩ := List.nodup_cons.1 once
    rw [List.foldl_cons, ih once _ (by rwa [modCore_cores, List.length_modify]), core_modCore _ _ _ _ hc]
    by_cases he : e = c
    · subst he; simp [fresh]
    · simp [he, Ne.symm he]

/-- An issued loop is the last one on its accumulator in every engine that runs it (07 R155). -/
theorem lastLoop_noteLoop (s : State) (core acc id : Nat) (cluster : Bool) (st : LoopState) (c : Nat) (hc : c < s.cores.length)
    (he : c ∈ enginesOf core cluster) : ((noteLoop core acc cluster id st s).core c).mx.lastLoop = (s.core c).mx.lastLoop.set acc (id, st) := by
  have at_c := core_foldl_modCore (fun _ r => { r with mx := { r.mx with lastLoop := r.mx.lastLoop.set acc (id, st) } })
    (enginesOf core cluster) (enginesOf_nodup core cluster) s c hc
  rw [if_pos he] at at_c
  exact congrArg (fun r : Core => r.mx.lastLoop) at_c

theorem noteLoop_sameTables (core acc : Nat) (cluster : Bool) (id : Nat) (st : LoopState) (s : State) :
    SameTables s (noteLoop core acc cluster id st s) := by
  unfold noteLoop
  refine foldl_sameTables _ (fun s c => ?_) _ s
  exact modMx_sameTables s c _ fun _ => rfl

/-! ## A command with its entries (07 R141, R147; 12 R199) -/

/-- The issuing core is one of those that its command acts on. -/
theorem core_mem_enginesOf (core : Nat) (cluster : Bool) : core ∈ enginesOf core cluster := by
  cases cluster with
  | false => exact List.mem_singleton.2 rfl
  | true => exact List.mem_map.2 ⟨core % 4, List.mem_range.2 (by omega), by omega⟩

/-- A new entry changes the table of its core alone. -/
theorem addEntry_frame (s : State) (core : Nat) (e : LockEntry) :
    (addEntry s core e).gangs = s.gangs ∧ (addEntry s core e).cmds = s.cmds ∧ (addEntry s core e).cores.length = s.cores.length ∧
      ∀ c, ((addEntry s core e).core c).mx.holder = (s.core c).mx.holder :=
  ⟨rfl, rfl, List.length_modify _ _ _, core_modCore_of_kept (fun r => r.mx.holder) s core _ fun _ => rfl⟩

theorem locks_addEntry (s : State) (core : Nat) (e : LockEntry) (c : Nat) (hc : c < s.cores.length) :
    ((addEntry s core e).core c).locks = (s.core c).locks ++ if c = core then [e] else [] := by
  rw [addEntry, core_modCore s core _ c hc]
  by_cases h : c = core
  · rw [if_pos h, if_pos h.symm]
  · rw [if_neg h, if_neg (Ne.symm h), List.append_nil]

/-- The entries of command `id` in the tables of several cores, on each for its own ranges. -/
def addEntries (id : Nat) (rs : Nat → List LockRange) (es : List Nat) (s : State) : State :=
  es.foldl (fun s c => addEntry s c ⟨id, false, rs c, rs c⟩) s

theorem addEntries_frame (id : Nat) (rs : Nat → List LockRange) (es : List Nat) (s : State) :
    (addEntries id rs es s).gangs = s.gangs ∧ (addEntries id rs es s).cmds = s.cmds ∧
      ∀ c, ((addEntries id rs es s).core c).mx.holder = (s.core c).mx.holder := by
  induction es generalizing s with
  | nil => exact ⟨rfl, rfl, fun _ => rfl⟩
  | cons e es ih =>
    obtain ⟨gangs, cmds, -, holder⟩ := addEntry_frame s e ⟨id, false, rs e, rs e⟩
    obtain ⟨gangs', cmds', holder'⟩ := ih (addEntry s e ⟨id, false, rs e, rs e⟩)
    exact ⟨gangs'.trans gangs, cmds'.trans cmds, fun c => (holder' c).trans (holder c)⟩

theorem locks_addEntries (id : Nat) (rs : Nat → List LockRange) (es : List Nat) (once : es.Nodup) (s : State) (c : Nat)
    (hc : c < s.cores.length) :
    ((addEntries id rs es s).core c).locks = (s.core c).locks ++ if c ∈ es then [⟨id, false, rs c, rs c⟩] else [] := by
  have at_c : (addEntries id rs es s).core c = _ :=
    core_foldl_modCore (fun c r => { r with locks := r.locks ++ [⟨id, false, rs c, rs c⟩] }) es once s c hc
  rw [at_c]
  split
  · rfl
  · exact (List.append_nil _).symm

/-- The machine that lists a new command, its ranges registered at its own core. -/
def listCmd (s : State) (x : EngCmd) (own : List LockRange) : State :=
  enterRanges { s with nextId := x.id + 1, cmds := s.cmds ++ [x] } x.core (x.agent s).fn own

theorem listCmd_sameTables (s : State) (x : EngCmd) (own : List LockRange) :
    SameTables { s with nextId := x.id + 1, cmds := s.cmds ++ [x] } (listCmd s x own) := enterRanges_sameTables _ _ _ _

theorem addCmdAt_eq (s : State) (core slot : Nat) (pc : Dword) (owner : CmdOwner) (body : CmdBody) (own : List LockRange)
    (es : List Nat) (rs : Nat → List LockRange) :
    addCmdAt s core slot pc owner body own (es.map fun c => (c, rs c)) =
      (s.nextId, addEntries s.nextId rs es (addEntry (listCmd s ⟨s.nextId, core, slot, pc, owner, body, false⟩ own) core
        ⟨s.nextId, false, own, own⟩)) := by
  simp only [addCmdAt, List.foldl_map, addEntries, listCmd]

/-- A command joins the others, takes an entry in the table of its own core for `own`, and in that of each other core for that core's
ranges; the gangs and the holder of its engine are as they were. -/
theorem addCmdAt_frame (s : State) (core slot : Nat) (pc : Dword) (owner : CmdOwner) (body : CmdBody) (own : List LockRange)
    (es : List Nat) (once : es.Nodup) (far : core ∉ es) (rs : Nat → List LockRange) (hcore : core < s.cores.length) :
    ∃ t, addCmdAt s core slot pc owner body own (es.map fun c => (c, rs c)) = (s.nextId, t) ∧
      t.gangs = s.gangs ∧ t.cmds = s.cmds ++ [⟨s.nextId, core, slot, pc, owner, body, false⟩] ∧
      (t.core core).mx.holder = (s.core core).mx.holder ∧ (t.core core).locks = (s.core core).locks ++ [⟨s.nextId, false, own, own⟩] ∧
      ∀ c ∈ es, c < s.cores.length → (t.core c).locks = (s.core c).locks ++ [⟨s.nextId, false, rs c, rs c⟩] := by
  refine ⟨_, addCmdAt_eq s core slot pc owner body own es rs, ?_⟩
  have same := listCmd_sameTables s ⟨s.nextId, core, slot, pc, owner, body, false⟩ own
  generalize listCmd s ⟨s.nextId, core, slot, pc, owner, body, false⟩ own = u at same ⊢
  obtain ⟨homeGangs, homeCmds, homeCount, homeHolder⟩ := addEntry_frame u core ⟨s.nextId, false, own, own⟩
  obtain ⟨farGangs, farCmds, farHolder⟩ := addEntries_frame s.nextId rs es (addEntry u core ⟨s.nextId, false, own, own⟩)
  have locks (c : Nat) (hc : c < s.cores.length) := locks_addEntries s.nextId rs es once (addEntry u core ⟨s.nextId, false, own, own⟩) c
    ((homeCount.trans same.count).symm ▸ hc)
  have home (c : Nat) (hc : c < s.cores.length) := locks_addEntry u core ⟨s.nextId, false, own, own⟩ c (same.count.symm ▸ hc)
  refine ⟨farGangs.trans (homeGangs.trans same.gangs), farCmds.trans (homeCmds.trans same.cmds),
    (farHolder core).trans ((homeHolder core).trans (same.holder core)), ?_, fun c he hc => ?_⟩
  · rw [locks core hcore, if_neg far, List.append_nil, home core hcore, if_pos rfl, same.locks]
    rfl
  · have other : c ≠ core := fun e => far (e ▸ he)
    rw [locks c hc, if_pos he, home c hc, if_neg other, List.append_nil, same.locks]
    rfl

/-! ## Queueing a checked command (07 R141, R154) -/

theorem slotFree_congr (s t : State) (h : t.cmds = s.cmds) (c : Nat) : slotFree t c = slotFree s c := by
  rw [slotFree, slotFree, cmdsOn, cmdsOn, h]

/-- A command behind an unreported stop of its crew is discarded (07 R154; log 51). -/
theorem queueMx_stopped (x : Ctx) (s : State) (op : MxOp) (rs : Nat → List LockRange) (after : Nat → State → State) (h : x.c.mxStops ≠ []) :
    x.queueMx s op rs after = .next (op.issuedIdle x.core s.nextId s.fresh.2) none := by
  simp only [Ctx.queueMx, State.fresh, if_pos h]

/-- Without a free slot on every core that the command acts on, the group waits with nothing claimed (12 R197; log 53). -/
theorem queueMx_full (x : Ctx) (s : State) (op : MxOp) (rs : Nat → List LockRange) (after : Nat → State → State) (h : x.c.mxStops = [])
    (full : ∃ c ∈ enginesOf x.core op.cluster, slotFree s c = false) : x.queueMx s op rs after = .wait x.st .engine false := by
  have no : (enginesOf x.core op.cluster).all (slotFree s) = false := by simpa [List.all_eq_false] using full
  simp only [Ctx.queueMx, h, no, ne_eq, not_true_eq_false, if_false, Bool.not_false, if_true]

/-- The ranges in the entry of a command on core `c`: its own, and on the issuing core the scratchpad ranges of the others (log 84). -/
def Ctx.entryRanges (x : Ctx) (op : MxOp) (rs : Nat → List LockRange) (c : Nat) : List LockRange :=
  rs c ++ if c = x.core then (((enginesOf x.core op.cluster).filter fun c => c != x.core).flatMap rs).filter fun r => r.dom == .scr else []

/-- With free slots the command joins the others, with an entry on every core that it acts on. -/
theorem queueMx_free (x : Ctx) (s : State) (op : MxOp) (rs : Nat → List LockRange) (after : Nat → State → State) (h : x.c.mxStops = [])
    (free : ∀ c ∈ enginesOf x.core op.cluster, slotFree s c = true ∧ c < s.cores.length) :
    ∃ t, x.queueMx s op rs after = .next (after s.nextId t) none ∧ t.gangs = s.gangs ∧
      t.cmds = s.cmds ++ [⟨s.nextId, x.core, x.c.slot, x.pc, .crews x.gid [x.ci], .mx op, false⟩] ∧
      (t.core x.core).mx.holder = (s.core x.core).mx.holder ∧
      ∀ c ∈ enginesOf x.core op.cluster,
        (t.core c).locks = (s.core c).locks ++ [⟨s.nextId, false, x.entryRanges op rs c, x.entryRanges op rs c⟩] := by
  have every : (enginesOf x.core op.cluster).all (slotFree s) = true := List.all_eq_true.2 fun c hc => (free c hc).1
  have once := (enginesOf_nodup x.core op.cluster).filter fun c => c != x.core
  obtain ⟨t, ht, gangs, cmds, holder, homeLocks, farLocks⟩ := addCmdAt_frame s x.core x.c.slot x.pc (.crews x.gid [x.ci]) (.mx op)
    (x.entryRanges op rs x.core) _ once (by simp) rs (free _ (core_mem_enginesOf _ _)).2
  refine ⟨t, ?_, gangs, cmds, holder, fun c hc => ?_⟩
  · simp only [Ctx.entryRanges, if_true] at ht
    simp only [Ctx.queueMx, h, every, ht, ne_eq, not_true_eq_false, if_false, Bool.not_true, Bool.false_eq_true]
  · by_cases he : c = x.core
    · rw [he, homeLocks]
    · rw [farLocks c (List.mem_filter.2 ⟨hc, by simpa using he⟩) (free c hc).2, Ctx.entryRanges, if_neg he, List.append_nil]

/-! ## What the instructions queue (07 R144, R148, R151 to R153) -/

/-- A field of a control word, as the instructions read it. -/
theorem toNat_extractLsb'_eq_bitsAt (v : Dword) (lo n : Nat) : (v.extractLsb' lo n).toNat = bitsAt v.toNat lo n := by
  rw [BitVec.extractLsb'_toNat, Nat.shiftRight_eq_div_pow, bitsAt]

theorem getLsbD_eq_bitAt (v : Dword) (i : Nat) : v.getLsbD i = bitAt v.toNat i := Nat.testBit_eq_decide_div_mod_eq

/-- A loop that has been queued is the last one issued on its accumulator, and under way (07 R155). -/
def MxOp.noteIssued (op : MxOp) (core id : Nat) (s : State) : State :=
  match op with
  | .loop acc _ _ _ _ _ _ _ _ cluster _ => noteLoop core acc cluster id .busy s
  | _ => s

/-- A clear that has been issued sets the KIND that later deliveries are checked against (07 R151). -/
def MxOp.noteKind (op : MxOp) (core : Nat) (s : State) : State :=
  match op with
  | .clr acc k cluster => (enginesOf core cluster).foldl (fun s c => modMx s c fun m => { m with issuedKind := m.issuedKind.set acc k }) s
  | _ => s

theorem noteIssued_sameTables (op : MxOp) (core id : Nat) (s : State) : SameTables s (op.noteIssued core id s) := by
  unfold MxOp.noteIssued
  split
  · exact noteLoop_sameTables _ _ _ _ _ s
  · exact .refl s

theorem noteKind_sameTables (op : MxOp) (core : Nat) (s : State) : SameTables s (op.noteKind core s) := by
  unfold MxOp.noteKind
  split
  · refine foldl_sameTables _ (fun s c => ?_) _ s
    exact modMx_sameTables s c _ fun _ => rfl
  · exact .refl s

theorem issuedIdle_sameTables (op : MxOp) (core id : Nat) (s : State) : SameTables s (op.issuedIdle core id s) := by
  unfold MxOp.issuedIdle
  split
  · exact noteLoop_sameTables _ _ _ _ _ s
  · exact .refl s

/-- What an instruction does to the machine once its body goes on. -/
def Res.mapNext (f : State → State) : Res → Res
  | .next s l => .next (f s) l
  | r => r

/-- The body of `i` comes to the queueing of `op`. -/
def Ctx.Queues (x : Ctx) (i : Instr) (s : State) (op : MxOp) (rs : Nat → List LockRange) : Prop :=
  exec i x.st = issue i x.st fun _ => (x.queueMx s op rs (op.noteIssued x.core)).mapNext (op.noteKind x.core)

/-- A gang that can claim the engine goes on to the instruction's own checks. -/
theorem withEngine_of_claim (x : Ctx) (s : State) (f : State → Res) (h : claimEngine x.st x.core x.gid = some s) : x.withEngine f = f s := by
  simp only [Ctx.withEngine, h]

theorem queues_of_body (x : Ctx) (i : Instr) (s : State) (op : MxOp) (rs : Nat → List LockRange) (f : Ctx → State → Res)
    (hx : x.Issues i) (hs : claimEngine x.st x.core x.gid = some s) (he : exec i x.st = issue i x.st fun x => x.withEngine (f x))
    (hf : f x s = (x.queueMx s op rs (op.noteIssued x.core)).mapNext (op.noteKind x.core)) : x.Queues i s op rs := by
  rw [Ctx.Queues, he, issue_of_issues x i _ hx, issue_of_issues x i _ hx, withEngine_of_claim x s _ hs, hf]

/-- A command that is no clear leaves the KINDs. -/
theorem mapNext_noteKind (op : MxOp) (core : Nat) (r : Res) (h : ∀ acc k cl, op ≠ .clr acc k cl) : r.mapNext (op.noteKind core) = r := by
  cases r with
  | next s l =>
    have same : op.noteKind core s = s := by
      unfold MxOp.noteKind
      split
      · exact absurd rfl (h _ _ _)
      · rfl
    rw [Res.mapNext, same]
  | _ => rfl

theorem exec_mxloop (sp acc : BitVec 2) (a b cnt inc : KReg) (cl : Bool) (pair : BitVec 4) (s : State) :
    exec (.mxloop sp acc a b cnt inc cl pair) s = execMxloop sp acc a b cnt inc cl pair s := rfl

theorem exec_mxwb (mode : WMode) (src ctl len : KReg) (s : State) : exec (.mxwb mode src ctl len) s = execMxwb mode src ctl len s := rfl

theorem exec_mxclr (cl kind : Bool) (acc : BitVec 2) (s : State) : exec (.mxclr cl kind acc) s = execMxclr cl kind acc s := rfl

theorem exec_mxst (dst ctl stride : KReg) (s : State) : exec (.mxst dst ctl stride) s = execMxst dst ctl stride s := rfl

theorem exec_mxld (ctl off : KReg) (s : State) : exec (.mxld ctl off) s = execMxld ctl off s := rfl

theorem mxSource_iff (p : Dword) (n : Nat) : mxSource p n = true ↔ p.toNat < n ∨ scrMult p 256 = true := by
  simp only [mxSource, Bool.or_eq_true, decide_eq_true_eq]

/-- An instruction that names the cluster only in a cluster launch names the engines that its word says. -/
theorem and_cluster (cl g : Bool) (h : cl = true → g = true) : (cl && g) = cl ∧ (cl && !g) = false := by
  cases cl with
  | false => exact ⟨rfl, rfl⟩
  | true => rw [h rfl]; exact ⟨rfl, rfl⟩

section
variable (x : Ctx) (s : State) (op : MxOp) (rs : Nat → List LockRange) (hs : claimEngine x.st x.core x.gid = some s)
include hs

theorem mxloop_queues (sp acc : BitVec 2) (a b cnt inc : KReg) (cl : Bool) (pair : BitVec 4) (hx : x.Issues (.mxloop sp acc a b cnt inc cl pair))
    (h : matrixOp x s (.mxloop sp acc a b cnt inc cl pair) = some (op, rs)) : x.Queues (.mxloop sp acc a b cnt inc cl pair) s op rs := by
  simp only [matrixOp, toNat_extractLsb'_eq_bitsAt] at h
  obtain ⟨⟨hsp, hpair, hcl, ha, hb, hia, hib, hbuf⟩, heq⟩ := Option.ite_none_right_eq_some.1 h
  cases heq
  refine queues_of_body x _ s _ _ _ hx hs ((exec_mxloop ..).trans (execMxloop.eq_def ..)) ?_
  have cluster := (and_cluster cl x.g.cluster fun h => (hcl h).1).2
  have dense : (cl && decide (sp ≠ 0)) = false := by
    cases cl with
    | false => rfl
    | true => rw [(hcl rfl).2]; rfl
  rw [mapNext_noteKind _ _ _ (by simp)]
  simp only [hsp, Nat.not_le.2 hpair, cluster, dense, (mxSource_iff _ _).2 ha, (mxSource_iff _ _).2 hb, hia, hib, decide_false,
    Bool.or_self, Bool.false_eq_true, if_false, ne_eq, not_true_eq_false, Bool.not_true, Bool.and_eq_true, decide_eq_true_eq]
  rw [if_neg fun both => both.2 (hbuf both.1)]
  rfl

theorem mxwb_queues (mode : WMode) (src ctl len : KReg) (hx : x.Issues (.mxwb mode src ctl len))
    (h : matrixOp x s (.mxwb mode src ctl len) = some (op, rs)) : x.Queues (.mxwb mode src ctl len) s op rs := by
  simp only [matrixOp, toNat_extractLsb'_eq_bitsAt] at h
  obtain ⟨⟨hc, hf, hmin, hmax, hstep, hsrc⟩, heq⟩ := Option.ite_none_right_eq_some.1 h
  cases heq
  refine queues_of_body x _ s _ _ _ hx hs ((exec_mxwb ..).trans (execMxwb.eq_def ..)) ?_
  have source : (x.k src == 0 || scrMult (x.k src) 256) = true := by simpa using hsrc
  rw [mapNext_noteKind _ _ _ (by simp)]
  simp only [Nat.not_le.2 hc, hf, Nat.not_lt.2 hmin, Nat.not_lt.2 hmax, hstep, source, decide_false, Bool.not_true, ne_eq,
    not_true_eq_false, Bool.or_self, Bool.false_eq_true, if_false]
  rfl

theorem mxclr_queues (cl kind : Bool) (acc : BitVec 2) (hx : x.Issues (.mxclr cl kind acc))
    (h : matrixOp x s (.mxclr cl kind acc) = some (op, rs)) : x.Queues (.mxclr cl kind acc) s op rs := by
  simp only [matrixOp] at h
  obtain ⟨ok, heq⟩ := Option.ite_none_left_eq_some.1 h
  cases heq
  refine queues_of_body x _ s _ _ _ hx hs ((exec_mxclr ..).trans (execMxclr.eq_def ..)) ?_
  have cluster : (cl && !x.g.cluster) = false := by simpa using ok
  simp only [cluster, Bool.false_eq_true, if_false]
  rfl

theorem mxst_queues (dst ctl stride : KReg) (hx : x.Issues (.mxst dst ctl stride))
    (h : matrixOp x s (.mxst dst ctl stride) = some (op, rs)) : x.Queues (.mxst dst ctl stride) s op rs := by
  simp only [matrixOp, toNat_extractLsb'_eq_bitsAt, getLsbD_eq_bitAt] at h
  split at h
  · next f hf =>
    obtain ⟨⟨hc, hkind, hspace, haddr, hn, hside, hcl⟩, heq⟩ := Option.ite_none_right_eq_some.1 h
    cases heq
    refine queues_of_body x _ s _ _ _ hx hs ((exec_mxst ..).trans (execMxst.eq_def ..)) ?_
    have cluster := and_cluster _ _ hcl
    have space : (spaceOf (x.k dst) == 0 || spaceOf (x.k dst) == 1 || spaceOf (x.k dst) == 2 || spaceOf (x.k dst) == 3 ||
        spaceOf (x.k dst) == 7) = true := by simpa [or_assoc] using hspace
    rw [mapNext_noteKind _ _ _ (by simp)]
    simp only [hf, Nat.not_le.2 hc, hkind, space, haddr, hn, Nat.not_lt.2 hside, cluster, decide_false, Bool.not_true, ne_eq,
      not_true_eq_false, Bool.or_self, Bool.false_eq_true, if_false]
    rfl
  · cases h

theorem mxld_queues (ctl off : KReg) (hx : x.Issues (.mxld ctl off))
    (h : matrixOp x s (.mxld ctl off) = some (op, rs)) : x.Queues (.mxld ctl off) s op rs := by
  simp only [matrixOp, toNat_extractLsb'_eq_bitsAt, getLsbD_eq_bitAt] at h
  split at h
  · next f hf =>
    obtain ⟨⟨hc, hkind, hoff, hfit, hcl⟩, heq⟩ := Option.ite_none_right_eq_some.1 h
    cases heq
    refine queues_of_body x _ s _ _ _ hx hs ((exec_mxld ..).trans (execMxld.eq_def ..)) ?_
    have cluster := and_cluster _ _ hcl
    rw [mapNext_noteKind _ _ _ (by simp)]
    simp only [hf, Nat.not_le.2 hc, hkind, hoff, Nat.not_lt.2 hfit, cluster, decide_false, Bool.not_true, ne_eq, not_true_eq_false,
      Bool.or_self, Bool.false_eq_true, if_false]
    rfl
  · cases h

/-- A matrix instruction with operands in order comes to the queueing of its command. -/
theorem matrixOp_queues (i : Instr) (hx : x.Issues i) (h : matrixOp x s i = some (op, rs)) : x.Queues i s op rs := by
  cases i with
  | mxloop sp acc a b cnt inc cl pair => exact mxloop_queues x s op rs hs sp acc a b cnt inc cl pair hx h
  | mxwb mode src ctl len => exact mxwb_queues x s op rs hs mode src ctl len hx h
  | mxclr cl kind acc => exact mxclr_queues x s op rs hs cl kind acc hx h
  | mxst dst ctl stride => exact mxst_queues x s op rs hs dst ctl stride hx h
  | mxld ctl off => exact mxld_queues x s op rs hs ctl off hx h
  | _ => cases h

end

/-! ## What becomes of the command -/

section
variable (x : Ctx) (i : Instr) (s : State) (op : MxOp) (rs : Nat → List LockRange) (hx : x.Issues i)
  (hs : claimEngine x.st x.core x.gid = some s) (h : matrixOp x s i = some (op, rs))
include hx hs h

/-- With free slots the command joins those of its cores, and the gang holds the engine (07 R140, R141, R147). -/
theorem matrix_queued (hno : x.c.mxStops = [])
    (free : ∀ c ∈ enginesOf x.core op.cluster, slotFree x.st c = true ∧ c < x.st.cores.length) :
    ∃ t, x.EndsIn i t ∧ t.gangs = x.st.gangs ∧
      t.cmds = x.st.cmds ++ [⟨x.st.nextId, x.core, x.c.slot, x.pc, .crews x.gid [x.ci], .mx op, false⟩] ∧
      (∀ c ∈ enginesOf x.core op.cluster,
        (t.core c).locks = (x.st.core c).locks ++ [⟨x.st.nextId, false, x.entryRanges op rs c, x.entryRanges op rs c⟩]) ∧
      (t.core x.core).mx.holder = some x.gid := by
  have claimed := claimed_of_claimEngine _ _ _ _ hs
  obtain ⟨t, ht, tgangs, tcmds, tholder, tlocks⟩ := queueMx_free x s op rs (op.noteIssued x.core) hno fun c hc =>
    ⟨(slotFree_congr _ _ claimed.cmds c).trans (free c hc).1, claimed.count.symm ▸ (free c hc).2⟩
  have same := (noteIssued_sameTables op x.core s.nextId t).trans (noteKind_sameTables op x.core _)
  refine ⟨_, endsIn_of x i _ _ hx (matrixOp_queues x s op rs hs i hx h) (congrArg (Res.mapNext (op.noteKind x.core)) ht), ?_, ?_, fun c hc => ?_, ?_⟩
  · rw [same.gangs, tgangs, claimed.gangs]
  · rw [same.cmds, tcmds, claimed.cmds, claimed.nextId]
  · rw [same.locks, tlocks c hc, claimed.locks, claimed.nextId]
  · rw [same.holder, tholder, claimed.holder (free _ (core_mem_enginesOf _ _)).2]

/-- Without a free slot the group waits, with nothing claimed (12 R197; log 53). -/
theorem matrix_waits (hno : x.c.mxStops = []) (full : ∃ c ∈ enginesOf x.core op.cluster, slotFree x.st c = false) :
    x.WaitsIn i x.st x.c .engine false := by
  have cmds := (claimed_of_claimEngine _ _ _ _ hs).cmds
  obtain ⟨c, hc, hfull⟩ := full
  have wait := queueMx_full x s op rs (op.noteIssued x.core) hno ⟨c, hc, (slotFree_congr _ _ cmds c).trans hfull⟩
  refine waitsIn_of x i _ x.st id .engine false hx (matrixOp_queues x s op rs hs i hx h) hx.1.2.1 ?_ (fun _ => rfl) rfl
  rw [wait, show x.st.modCrew x.gid x.ci id = x.st from upd_id x]
  rfl

/-- Behind an unreported stop the command is discarded, and a loop is idle (07 R154, R155; log 51). -/
theorem matrix_discarded (hstop : x.c.mxStops ≠ []) :
    ∃ t, x.EndsIn i t ∧ t.cmds = x.st.cmds ∧ t.gangs = x.st.gangs ∧
      ∀ (acc sparse : Nat) (a b : Dword) (count start inca incb pair : Nat) (cluster began : Bool),
        op = .loop acc sparse a b count start inca incb pair cluster began →
        ∀ c ∈ enginesOf x.core cluster, c < x.st.cores.length → acc < (s.core c).mx.lastLoop.length →
          ((t.core c).mx.lastLoop.getD acc (0, .busy)).2 = .idle := by
  have claimed := claimed_of_claimEngine _ _ _ _ hs
  have stopped := queueMx_stopped x s op rs (op.noteIssued x.core) hstop
  have same := (issuedIdle_sameTables op x.core s.nextId s.fresh.2).trans (noteKind_sameTables op x.core _)
  refine ⟨_, endsIn_of x i _ _ hx (matrixOp_queues x s op rs hs i hx h) (congrArg (Res.mapNext (op.noteKind x.core)) stopped),
    same.cmds.trans claimed.cmds, same.gangs.trans claimed.gangs, ?_⟩
  rintro acc sparse a b cnt start inca incb pair cluster began rfl c hc hlen hacc
  have last := lastLoop_noteLoop s.fresh.2 x.core acc s.nextId cluster .idle c (claimed.count.symm ▸ hlen) hc
  simp only [MxOp.noteKind, MxOp.issuedIdle, last]
  rw [List.getD_eq_getElem?_getD, List.getElem?_set_self (by exact hacc), Option.getD_some]

end

/-! ## MXWAIT and MXSTEP (07 R154, R155) -/

theorem exec_mxwait (s : State) : exec .mxwait s = execMxwait s := rfl

theorem exec_mxstep (d : KReg) (acc : BitVec 2) (s : State) : exec (.mxstep d acc) s = execMxstep d acc s := rfl

section
variable (x : Ctx) (s : State) (hs : claimEngine x.st x.core x.gid = some s)
include hs

/-- The crew that claims an engine is as it was. -/
theorem claimed_crew (gid ci : Nat) : s.crew? gid ci = x.st.crew? gid ci := by
  simp only [State.crew?, State.gang?, (claimed_of_claimEngine _ _ _ _ hs).gangs]

theorem claimed_c : (x.withSt s).c = x.c := congrArg (·.getD Crew.blank) (claimed_crew x s hs x.gid x.ci)

theorem claimed_bound : (x.withSt s).bound = x.bound := by
  simp only [Ctx.bound, claimed_c x s hs]
  rw [show (x.withSt s).st.nextId = x.st.nextId from (claimed_of_claimEngine _ _ _ _ hs).nextId]
  rfl

/-- The crew's commands that MXWAIT waits for, as the machine that has claimed the engine lists them. -/
theorem claimed_waitsFor : (((x.withSt s).st.cmds.any fun y => y.id < (x.withSt s).bound && y.mxOf x.gid x.ci) = true) ↔
    ∃ y ∈ x.st.cmds, y.id < x.bound ∧ y.mxOf x.gid x.ci = true := by
  rw [claimed_bound x s hs, show (x.withSt s).st.cmds = x.st.cmds from (claimed_of_claimEngine _ _ _ _ hs).cmds]
  simp only [List.any_eq_true, Bool.and_eq_true, decide_eq_true_eq]

/-- MXWAIT goes on once the crew's earlier commands have ended, when none has stopped or a handler runs (07 R154). -/
theorem mxwait_ends (hx : x.Issues .mxwait) (ended : ∀ y ∈ x.st.cmds, y.id < x.bound → y.mxOf x.gid x.ci = false)
    (unstopped : (∀ d ∈ x.c.mxStops, x.bound ≤ d.cmd) ∨ x.c.inHandler = true) :
    x.EndsIn .mxwait (s.modCrew x.gid x.ci fun _ => x.freed) := by
  have forgets : (x.withSt s).unbound = s.modCrew x.gid x.ci fun _ => x.freed :=
    modCrew_congr s x.gid x.ci _ _ x.c ((claimed_crew x s hs _ _).trans hx.1.2.1) rfl
  refine endsIn_of x _ _ _ hx ((exec_mxwait _).trans (execMxwait.eq_def _)) ((withEngine_of_claim x s _ hs).trans ?_)
  refine (if_neg fun busy => ?_).trans ?_
  · obtain ⟨y, hy, hid, hmx⟩ := (claimed_waitsFor x s hs).1 busy
    exact absurd hmx (by simp [ended y hy hid])
  · rw [claimed_c x s hs, claimed_bound x s hs, forgets]
    split
    · rfl
    · next d hd =>
      have inHandler : x.c.inHandler = true := by
        refine unstopped.resolve_left fun later => ?_
        have early := List.find?_some hd
        exact absurd (of_decide_eq_true early) (Nat.not_lt.2 (later d (List.mem_of_find?_eq_some hd)))
      rw [if_pos inHandler]

/-- MXWAIT waits while a command of the crew that was there when it began has not ended (07 R154). -/
theorem mxwait_waits (hx : x.Issues .mxwait) (busy : ∃ y ∈ x.st.cmds, y.id < x.bound ∧ y.mxOf x.gid x.ci = true) :
    x.WaitsIn .mxwait s x.bounded .engine false := by
  have crew : s.crew? x.gid x.ci = some x.c := (claimed_crew x s hs _ _).trans hx.1.2.1
  have bounded : x.bounded = { x.c.forget x.lanes with bounds := (x.c.forget x.lanes).bounds ++ [⟨x.pc, x.lanes, x.bound⟩] } := rfl
  rw [bounded]
  refine waitsIn_of x _ _ s (fun c => { c.forget x.lanes with bounds := (c.forget x.lanes).bounds ++ [⟨x.pc, x.lanes, x.bound⟩] }) .engine false hx
    ((exec_mxwait _).trans (execMxwait.eq_def _)) crew ((withEngine_of_claim x s _ hs).trans ?_) (fun _ => rfl) rfl
  refine (if_pos ((claimed_waitsFor x s hs).2 busy)).trans ?_
  rw [Ctx.waitBound, claimed_bound x s hs, Ctx.unbound, Ctx.upd]
  exact congrArg (Res.wait · .engine false) (modCrew_twice s x.gid x.ci _ _ fun _ => rfl)

/-- MXSTEP reads STEP and the state of the accumulator's last loop (07 R155). -/
theorem mxstep_gives (d : KReg) (acc : BitVec 2) (hx : x.Issues (.mxstep d acc)) :
    x.GivesK (.mxstep d acc) s d (BitVec.ofNat 64 ((accOf s x.core acc.toNat).step % 2 ^ 32 +
      LoopState.code ((s.core x.core).mx.lastLoop.getD acc.toNat (0, .idle)).2 * 2 ^ 32)) := by
  have crew : s.crew? x.gid x.ci = some x.c := (claimed_crew x s hs _ _).trans hx.1.2.1
  have done := completesIn_of x _ _ s (fun c => c.setK d (BitVec.ofNat 64 ((accOf s x.core acc.toNat).step % 2 ^ 32 +
      LoopState.code ((s.core x.core).mx.lastLoop.getD acc.toNat (0, .idle)).2 * 2 ^ 32))) none hx
    ((exec_mxstep _ _ _).trans (execMxstep.eq_def _ _ _)) crew (withEngine_of_claim x s _ hs) (fun _ => rfl) rfl ⟨rfl, rfl, by simp [Crew.setK]⟩
  exact ⟨_, _, done, by simp [Crew.setK], by simp [Crew.setK], by simp [Crew.setK]⟩

end

/-! ## The obligation -/

/-- Settles O37: a command by what `Ctx.queueMx` makes of it in each of its three cases, MXWAIT and MXSTEP by the machine that has
claimed the engine. -/
theorem matrixInstructionResults : Obligations.MatrixInstructionResults := by
  unfold Obligations.MatrixInstructionResults
  refine ⟨fun x i s op rs hx hs h _ => ⟨fun hno free => ?queued, fun hno full => ?waits, fun hstop => ?discarded⟩,
    fun x s hx hs => ⟨mxwait_ends x s hs hx, mxwait_waits x s hs hx⟩, fun x d acc s hx hs => ?step⟩
  case queued =>
    obtain ⟨t, ends, gangs, cmds, locks, holder⟩ := matrix_queued x i s op rs hx hs h hno free
    exact ⟨t, ends, gangs, cmds, fun c hc => ⟨_, locks c hc, rfl⟩, holder⟩
  case waits => exact matrix_waits x i s op rs hx hs h hno full
  case discarded => exact matrix_discarded x i s op rs hx hs h hstop
  case step =>
    have gives := mxstep_gives x s hs d acc hx
    rw [Nat.mul_comm] at gives
    generalize ((s.core x.core).mx.lastLoop.getD acc.toNat (0, .idle)).2 = st at gives ⊢
    cases st <;> exact gives

end Sys2Proof.Machine
end
